-- ==== Sys2Proof/Word.lean ====
section
/-! DEFINITION. The word types of the module (R2: a byte is 8 bits, a word is 8 bytes). -/

namespace Sys2Proof

/-- A 64-bit general register, address or memory word (R2). -/
abbrev Word := BitVec 64

/-- One byte of memory (R2). -/
abbrev Byte := BitVec 8

/-- The bits `lo + n - 1 : lo` of a number (R7, `v[h:l]`). -/
def bits (v lo n : Nat) : Nat := v / 2 ^ lo % 2 ^ n

/-- Bit `i` of a number. -/
def bit (v i : Nat) : Bool := v / 2 ^ i % 2 == 1

end Sys2Proof
end

