-- ==== Sys2Proof/Syntax.lean ====
section
/-! DEFINITION. The instructions of the module: one constructor a row of the opcode table, in the table's order.
Swarm instructions (R30 to R41), matrix-unit moves (R42 to R46, R227) and the steps of the devices
(95_what_each_step_holds.md), each with its operands as names, never as raw bits. -/

namespace Sys2Proof

/-- A register field x0 to x63 (R31). -/
abbrev Reg := BitVec 6

/-- A predicate p0 to p127 (R21). -/
abbrev Pred := BitVec 7

/-- The common header of a swarm instruction (R30): guard, negation, wait mask, counter set. -/
structure Hdr where
  gp : Pred := 0
  gn : Bool := false
  wm : BitVec 4 := 0
  sc : Option (Fin 4) := none
  deriving DecidableEq, Repr

/-- Integer type, TY of the R form (R32). -/
inductive IntTy where | i64 | i32
  deriving DecidableEq, Repr

/-- Float type, TY of the R form (R32). -/
inductive FloatTy where | f32 | f16 | bf16
  deriving DecidableEq, Repr

/-- Rounding direction (R32). -/
inductive Rm where | rne | rz | rd | ru
  deriving DecidableEq, Repr

/-- Operand signedness of MULH (R132). -/
inductive MulhKind where | ss | uu | su
  deriving DecidableEq, Repr

/-- Kinds of SHI (R138). -/
inductive ShiKind where | l | r | a | ror
  deriving DecidableEq, Repr

/-- The types of FCVT (R141). -/
inductive CvtTy where | f32 | f16 | bf16 | i64 | i32 | u64 | u32
  deriving DecidableEq, Repr

/-- Condition codes of ICMP (R34). -/
inductive Icc where | eq | ne | lt | ge | ltu | geu | le | gt | leu | gtu | tst
  deriving DecidableEq, Repr

/-- Condition codes of FCMP (R34). -/
inductive Fcc where | eq | ne | lt | ge | le | gt | ord | uno
  deriving DecidableEq, Repr

/-- Second operand of ICMP: a register or the signed immediate (R34, IM). -/
inductive CmpSrc where | reg (b : Reg) | imm (v : BitVec 12)
  deriving DecidableEq, Repr

/-- Access size (R36, SZ). -/
inductive MSize where | b1 | b2 | b4 | b8 | b16
  deriving DecidableEq, Repr

/-- Memory order (R36, ORD). -/
inductive MOrd where | rlx | acq | rel | ar
  deriving DecidableEq, Repr

/-- The five scopes (R14). -/
inductive Scope where | cor | cl | die | pkg | sys
  deriving DecidableEq, Repr

/-- The kinds of AMO (R165). -/
inductive AmoKind where | swap | add | and | or | xor | min | max | minu | maxu | fadd
  deriving DecidableEq, Repr

/-- The address fields of the M form (R36): base, index, offset in units of the size. -/
structure MAddr where
  a : Reg
  b : Reg
  off : BitVec 14
  deriving DecidableEq, Repr

/-- The scopes of TLBINV (R192). -/
inductive InvScope where | cl | die | pkg
  deriving DecidableEq, Repr

/-- The output ports of the matrix unit (R227). -/
inductive OutPort where | hrows | htag | hblk | lrow | hval | stat | count
  deriving DecidableEq, Repr

/-- Source of seq.jump (R227): a bay, or the TAG of the current A tile. -/
inductive JumpSrc where | bay (m : BitVec 7) | htag
  deriving DecidableEq, Repr

/-- Source of seq.loopn (R227, R229): the immediate count - 1, or an output. -/
inductive LoopSrc where | imm (m : BitVec 7) | out (p : OutPort)
  deriving DecidableEq, Repr

/-- Array modes (R227, ar.mode). -/
inductive ArMode where | bf16 | fp16 | int8 | l6 | fp32 | fp32c | micro
  deriving DecidableEq, Repr

/-- Start values (R227, ar.accum). -/
inductive Accum where | zero | acc | pinf | ninf
  deriving DecidableEq, Repr

/-- Feed source (R227, af.from). -/
inductive FeedSrc where | tile | bank (b : BitVec 2)
  deriving DecidableEq, Repr

/-- Output formats (R227, dr.fmt), with the numbering of R17's windows. -/
inductive OFmt where | fp32 | bf16 | fp16 | l6 | int8 | int4
  deriving DecidableEq, Repr

/-- PP operations and variants (R240). -/
inductive PpOp where | none | rowmax | rowmin | rowsum | exp2 | mulv | divv | thrNeg | thrZero
  deriving DecidableEq, Repr

/-- Operation codes of a palette op (R235). -/
inductive PalOpc where | fin | mul | add | sub | min | max | selge
  deriving DecidableEq, Repr

/-- Operands of a palette op (R235). -/
inductive PalArg where | a | b | s | t
  deriving DecidableEq, Repr

/-- A palette op (R235). -/
structure PalOp where
  opc : PalOpc
  x : PalArg
  y : PalArg
  deriving DecidableEq, Repr

/-- Where a decrement comes from (R89, R90): the context that sent it and its pc, its task or launch handle (0 none), what its handler
would be: HND of a task, or HENT, queue, level and PREC of a launch, and the group of a launch helper. -/
structure DecSrc where
  ctx : Nat
  pc : Nat
  unit : Nat
  hnd : Nat
  hent : Nat
  qid : Nat
  prio : Nat
  prec : Bool
  gid : Option Nat := none
  deriving DecidableEq, Repr

/-- A request of another module for memory of this one (R322). -/
structure RemoteReq where
  src : Nat
  rid : Nat
  off : Nat
  /-- 0 read, 1 write, 2 AMO, 3 CAS, 4 LDFE, 5 LDFF, 6 STEF, 7 STFF, 8 FEZERO, 9 the waiter of request `rid` leaves its list (R298) -/
  op : Nat
  size : Nat
  kind : AmoKind
  v1 : Nat
  v2 : Nat
  /-- did it arrive encrypted, under which epoch and packet counter, and does its tag verify (R328, R329) -/
  enc : Bool
  epoch : Nat
  ctr : Nat
  tagOk : Bool
  ecc : Bool
  /-- fe.limit carried with a full/empty access (R299) -/
  limit : Nat
  /-- the X bit of a sign-extending load (R57), the order and the scope of the access, and whether a switch may combine it (R326) -/
  x : Bool := false
  ord : MOrd := .rlx
  sco : Scope := .cor
  cmb : Bool := false
  deriving DecidableEq, Repr

/-- How a reply arrived (R328, R329): encrypted or clear, its epoch and packet counter, and whether its tag verifies. -/
structure PktAuth where
  enc : Bool
  epoch : Nat
  ctr : Nat
  tagOk : Bool
  deriving DecidableEq, Repr

/-- The refusal of a posted request (R322, R340): its fault code, and how it arrived. -/
structure LateCode where
  code : Nat
  auth : PktAuth
  deriving DecidableEq, Repr

/-- The acknowledgement of a posted request (R163): the number of the request, and how it arrived. -/
structure PostedAck where
  tag : Nat
  auth : PktAuth
  deriving DecidableEq, Repr

/-- A channel message in flight (R307): target and source endpoint addresses (R304), the GEN it was meant for. -/
structure ChanMsg where
  dst : Nat
  src : Nat
  gen : Nat
  body : List Byte
  deriving DecidableEq, Repr

/-- A grant in flight (R306). -/
structure GrantMsg where
  dst : Nat
  amount : Nat
  gen : Nat
  limit : Nat
  deriving DecidableEq, Repr

/-- A host access through a BAR2 window (R331). -/
structure HostAcc where
  off : Nat
  write : Bool
  size : Nat
  val : Nat
  deriving DecidableEq, Repr

/-- One instruction or one step of a device: a constructor a row of the opcode table. -/
inductive Instr where
  /-- Writes the sum of two registers modulo 2^w (R132). -/
  | add (h : Hdr) (ty : IntTy) (d a b : Reg)
  /-- Writes the difference of two registers modulo 2^w (R132). -/
  | sub (h : Hdr) (ty : IntTy) (d a b : Reg)
  /-- Writes the low w bits of the product of two registers (R132). -/
  | mul (h : Hdr) (ty : IntTy) (d a b : Reg)
  /-- Writes the high w bits of the signed, unsigned or mixed product (R132). -/
  | mulh (h : Hdr) (k : MulhKind) (ty : IntTy) (d a b : Reg)
  /-- Writes the quotient truncated towards zero, with fixed results for division by zero and overflow (R134). -/
  | div (h : Hdr) (u : Bool) (ty : IntTy) (d a b : Reg)
  /-- Writes the remainder with the sign of the dividend, with fixed results for division by zero and overflow (R134). -/
  | rem (h : Hdr) (u : Bool) (ty : IntTy) (d a b : Reg)
  /-- Writes the bitwise AND of two registers (R132). -/
  | and (h : Hdr) (ty : IntTy) (d a b : Reg)
  /-- Writes the bitwise OR of two registers (R132). -/
  | or (h : Hdr) (ty : IntTy) (d a b : Reg)
  /-- Writes the bitwise XOR of two registers (R132). -/
  | xor (h : Hdr) (ty : IntTy) (d a b : Reg)
  /-- Writes a AND NOT b (R132). -/
  | andn (h : Hdr) (ty : IntTy) (d a b : Reg)
  /-- Shifts a left by b mod 64 (R133). -/
  | shl (h : Hdr) (ty : IntTy) (d a b : Reg)
  /-- Shifts a right with zero fill by b mod 64 (R133). -/
  | shr (h : Hdr) (ty : IntTy) (d a b : Reg)
  /-- Shifts a right copying the sign bit by b mod 64 (R133). -/
  | sar (h : Hdr) (ty : IntTy) (d a b : Reg)
  /-- Writes the lesser of two registers, signed or unsigned (R132). -/
  | min (h : Hdr) (u : Bool) (ty : IntTy) (d a b : Reg)
  /-- Writes the greater of two registers, signed or unsigned (R132). -/
  | max (h : Hdr) (u : Bool) (ty : IntTy) (d a b : Reg)
  /-- Writes the count of leading zero bits (R132). -/
  | clz (h : Hdr) (ty : IntTy) (d a : Reg)
  /-- Writes the count of trailing zero bits (R132). -/
  | ctz (h : Hdr) (ty : IntTy) (d a : Reg)
  /-- Writes the count of set bits (R132). -/
  | popc (h : Hdr) (ty : IntTy) (d a : Reg)
  /-- Extracts a bit field named by a descriptor, zero- or sign-extended (R135). -/
  | bfx (h : Hdr) (sg : Bool) (d a b : Reg)
  /-- Inserts bits into a field named by a descriptor (R135). -/
  | bfi (h : Hdr) (d a b c : Reg)
  /-- Writes a or b according to a predicate (R132). -/
  | sel (h : Hdr) (d a b : Reg) (p : Pred)
  /-- Mixes a register under a seed with the device's 64-bit mixer (R136). -/
  | hash (h : Hdr) (d a b : Reg)
  /-- Writes a times b plus c modulo 2^w (R132). -/
  | madd (h : Hdr) (ty : IntTy) (d a b c : Reg)
  /-- Adds a sign-extended immediate (R137). -/
  | addi (h : Hdr) (d a : Reg) (imm : BitVec 29)
  /-- ANDs with a sign-extended immediate (R137). -/
  | andi (h : Hdr) (d a : Reg) (imm : BitVec 29)
  /-- ORs with a sign-extended immediate (R137). -/
  | ori (h : Hdr) (d a : Reg) (imm : BitVec 29)
  /-- XORs with a sign-extended immediate (R137). -/
  | xori (h : Hdr) (d a : Reg) (imm : BitVec 29)
  /-- Writes a sign-extended immediate (R137). -/
  | movi (h : Hdr) (d : Reg) (imm : BitVec 29)
  /-- Shifts a register left by 29 and ORs in a 29-bit immediate (R137). -/
  | ldc (h : Hdr) (d a : Reg) (imm : BitVec 29)
  /-- Shifts or rotates by an immediate amount of the selected kind (R138). -/
  | shi (h : Hdr) (k : ShiKind) (d a : Reg) (n : BitVec 6)
  /-- Adds two floats with one rounding in the RM direction (R139). -/
  | fadd (h : Hdr) (ty : FloatTy) (rm : Rm) (d a b : Reg)
  /-- Subtracts two floats with one rounding (R139). -/
  | fsub (h : Hdr) (ty : FloatTy) (rm : Rm) (d a b : Reg)
  /-- Multiplies two floats with one rounding (R139). -/
  | fmul (h : Hdr) (ty : FloatTy) (rm : Rm) (d a b : Reg)
  /-- Computes a times b plus c with a single rounding (R139). -/
  | ffma (h : Hdr) (ty : FloatTy) (rm : Rm) (d a b c : Reg)
  /-- Returns the lesser operand unchanged with the NaN rules of the entry (R140). -/
  | fmin (h : Hdr) (ty : FloatTy) (d a b : Reg)
  /-- Returns the greater operand unchanged with the NaN rules of the entry (R140). -/
  | fmax (h : Hdr) (ty : FloatTy) (d a b : Reg)
  /-- Divides two floats with one rounding (R139). -/
  | fdiv (h : Hdr) (ty : FloatTy) (rm : Rm) (d a b : Reg)
  /-- Takes the square root with one rounding (R139). -/
  | fsqrt (h : Hdr) (ty : FloatTy) (rm : Rm) (d a : Reg)
  /-- Converts between float and integer types named in FN (R141). -/
  | fcvt (h : Hdr) (dst src : CvtTy) (rm : Rm) (d a : Reg)
  /-- Writes a one-hot class mask of a float (R142). -/
  | fclass (h : Hdr) (ty : FloatTy) (d a : Reg)
  /-- Computes 2^x by the fixed table method (R68). -/
  | fexp2 (h : Hdr) (rm : Rm) (d a : Reg)
  /-- Compares integers and writes a predicate and its negation (R143). -/
  | icmp (h : Hdr) (cc : Icc) (ty : IntTy) (pt pf : Pred) (a : Reg) (b : CmpSrc) (cm : Bool)
  /-- Compares floats and writes a predicate and its negation (R143). -/
  | fcmp (h : Hdr) (cc : Fcc) (ty : FloatTy) (pt pf : Pred) (a b : Reg) (cm : Bool)
  /-- Combines two predicates by a truth table in CC (R144). -/
  | plog (h : Hdr) (cc : BitVec 4) (pt pf pa pb : Pred) (cm : Bool)
  /-- Copies half the predicate file into a register (R145). -/
  | pxferGet (h : Hdr) (d : Reg) (half : Bool)
  /-- Copies a register into half the predicate file (R145). -/
  | pxferPut (h : Hdr) (a : Reg) (half : Bool)
  /-- Branches to a pc-relative target (R146). -/
  | br (h : Hdr) (disp : BitVec 29)
  /-- Branches to a pc-relative target and writes the link (R146). -/
  | call (h : Hdr) (l : Reg) (disp : BitVec 29)
  /-- Jumps to a register-based target and optionally writes the link (R146). -/
  | jmp (h : Hdr) (l a : Reg) (disp : BitVec 29)
  /-- Loads memory into a register, with optional acquire and counter (R164). -/
  | ld (h : Hdr) (sz : MSize) (sx acq : Bool) (sco : Scope) (d : Reg) (m : MAddr)
  /-- Stores a register to memory, with optional release and counter (R164). -/
  | st (h : Hdr) (sz : MSize) (rel : Bool) (sco : Scope) (d : Reg) (m : MAddr)
  /-- Waits for a word to be full, takes its value and leaves it empty (R301). -/
  | ldfe (h : Hdr) (d : Reg) (m : MAddr)
  /-- Waits for a word to be full, takes its value and leaves it full (R301). -/
  | ldff (h : Hdr) (d : Reg) (m : MAddr)
  /-- Waits for a word to be empty, writes it and makes it full (R301). -/
  | stef (h : Hdr) (d : Reg) (m : MAddr)
  /-- Writes a word and makes it full at once (R301). -/
  | stff (h : Hdr) (d : Reg) (m : MAddr)
  /-- Writes zero and makes a word empty (R301). -/
  | fezero (h : Hdr) (m : MAddr)
  /-- Performs an atomic read-modify-write of the selected kind (R165). -/
  | amo (h : Hdr) (k : AmoKind) (ty : IntTy) (ord : MOrd) (sco : Scope) (cmb : Bool) (d a b : Reg)
  /-- Atomically compares and conditionally swaps a memory word (R166). -/
  | cas (h : Hdr) (ty : IntTy) (ord : MOrd) (sco : Scope) (d a b c : Reg)
  /-- Holds until earlier accesses satisfy its acquire or release condition at a scope (R167). -/
  | fence (h : Hdr) (ord : MOrd) (sco : Scope)
  /-- Requests a line into the L1 or L2 without faulting (R168). -/
  | pref (h : Hdr) (l2 : Bool) (m : MAddr)
  /-- Writes back a dirty line to the home slice or memory (R169). -/
  | clean (h : Hdr) (mm : Bool) (m : MAddr)
  /-- Writes back and invalidates a line at the named level (R169). -/
  | inval (h : Hdr) (mm : Bool) (m : MAddr)
  /-- Reads and checks a copy command block and queues it with a new token (R178). -/
  | copy (h : Hdr) (d a t1 t2 t3 : Reg)
  /-- Binds a stream register to an in-stream command (R179). -/
  | sbindIn (h : Hdr) (k : BitVec 2) (esz : BitVec 2) (sx : Bool) (d a t1 t2 t3 : Reg)
  /-- Binds a stream register to an out-stream command (R179). -/
  | sbindOut (h : Hdr) (k : BitVec 2) (esz : BitVec 2) (sx : Bool) (d a t1 t2 t3 : Reg)
  /-- Ends a stream binding and completes its token (R181). -/
  | sclose (h : Hdr) (k : BitVec 2) (d : Reg)
  /-- Waits for a token, delivers its fault or returns its status, and requeues restartable commands (R182). -/
  | tkwait (h : Hdr) (d a : Reg)
  /-- Tests whether a token is complete without waiting (R184). -/
  | tktest (h : Hdr) (pt pf : Pred) (a : Reg) (cm : Bool)
  /-- Opens the slot at a ring's open pointer and returns its handle and address (R211). -/
  | topen (h : Hdr) (ring : BitVec 4) (d a : Reg) (p : Pred)
  /-- Claims the next row of an open tile (R212). -/
  | trow (h : Hdr) (d a : Reg) (p : Pred)
  /-- Marks a claimed row valid as a release at cluster scope (R213). -/
  | tmark (h : Hdr) (a t1 : Reg)
  /-- Marks a claimed row without making it valid (R213). -/
  | tmarkVoid (h : Hdr) (a t1 : Reg)
  /-- Closes a tile for posting and returns an MU token (R214). -/
  | seal (h : Hdr) (d a t1 t2 t3 : Reg)
  /-- Releases a tile without posting it (R216). -/
  | tdrop (h : Hdr) (a : Reg)
  /-- Returns the state and counts of a slot (R217). -/
  | tstat (h : Hdr) (d a : Reg)
  /-- Copies a routine image into an MU's routine memory (R218). -/
  | muload (h : Hdr) (m : Bool) (a t1 : Reg)
  /-- Closes an unclaimed tile with n valid rows and returns an MU token (R215). -/
  | mupost (h : Hdr) (n : BitVec 8) (d a t1 t2 t3 : Reg)
  /-- Makes a free sequence live (R268). -/
  | sqnew (h : Hdr) (a t1 : Reg) (p : Pred)
  /-- Reserves positions at a sequence's frontier, settling the tail block (R269). -/
  | sqres (h : Hdr) (d a t1 : Reg) (p : Pred)
  /-- Commits a run of reserved positions and advances L (R270). -/
  | sqcmt (h : Hdr) (a t1 t2 : Reg)
  /-- Returns the committed length as an acquire (R271). -/
  | sqlen (h : Hdr) (d a : Reg)
  /-- Creates a sequence sharing a committed prefix of another (R272). -/
  | sqfork (h : Hdr) (a t1 t2 : Reg) (p : Pred)
  /-- Ends a sequence and releases its frame references (R273). -/
  | sqdrop (h : Hdr) (a : Reg)
  /-- Quantises and writes one position of one layer and head (R274). -/
  | kvst (h : Hdr) (a : Reg)
  /-- Captures a gather block for keys and returns a lantern token (R275). -/
  | kvgathK (h : Hdr) (d a t1 t2 t3 : Reg)
  /-- Captures a gather block for values and returns a lantern token (R275). -/
  | kvgathV (h : Hdr) (d a t1 t2 t3 : Reg)
  /-- Captures a summary block in bound mode and returns a lantern token (R276). -/
  | kvsumB (h : Hdr) (d a t1 t2 t3 : Reg)
  /-- Captures a summary block in raw mode and returns a lantern token (R276). -/
  | kvsumR (h : Hdr) (d a t1 t2 t3 : Reg)
  /-- Cancels an eviction or starts a promotion of a block without waiting (R277). -/
  | kvpf (h : Hdr) (a t1 : Reg)
  /-- Makes a block resident in tier 0 and waits for it (R277). -/
  | kvpfW (h : Hdr) (d a t1 : Reg)
  /-- Makes a block resident and pins it (R278). -/
  | kvpinOn (h : Hdr) (d a t1 : Reg)
  /-- Clears the pin of a block (R278). -/
  | kvpinOff (h : Hdr) (d a t1 : Reg)
  /-- Clears the quarantine bit of a block's entry (R279). -/
  | kvqrel (h : Hdr) (a t1 : Reg)
  /-- Arrives at a barrier of a scope and parks until its generation releases (R303). -/
  | bar (h : Hdr) (sco : Scope) (b : BitVec 4) (d a : Reg)
  /-- Opens a send or receive endpoint from a descriptor (R312). -/
  | chopen (h : Hdr) (d a : Reg) (p : Pred)
  /-- Sends a message, parking until allowance and buffer permit (R313). -/
  | chsend (h : Hdr) (a t1 t2 : Reg)
  /-- Sends a message if allowance and buffer permit now (R313). -/
  | chtry (h : Hdr) (a t1 t2 : Reg) (p : Pred)
  /-- Takes the head message of a receive endpoint (R314). -/
  | chrecv (h : Hdr) (d a t1 : Reg)
  /-- Grants slots of a receive endpoint to a sender (R315). -/
  | chgrant (h : Hdr) (d a t1 t2 : Reg)
  /-- Waits until one of listed receive endpoints is ready and returns its index (R316). -/
  | alt (h : Hdr) (d a : Reg)
  /-- Closes an endpoint (R317). -/
  | chclose (h : Hdr) (d a : Reg)
  /-- Binds a receive endpoint to x60 or unbinds it (R318). -/
  | qbindUp (h : Hdr) (a : Reg)
  /-- Binds a send endpoint to x61 or unbinds it (R318). -/
  | qbindDown (h : Hdr) (a : Reg)
  /-- Reads and checks a launch block and allocates a launch entry (R102). -/
  | launch (h : Hdr) (d a : Reg) (p : Pred)
  /-- Reads and checks a task packet and allocates a task entry (R103). -/
  | tenq (h : Hdr) (d a : Reg) (p : Pred)
  /-- Sends one decrement to a task's dependence counter (R104). -/
  | tdec (h : Hdr) (a : Reg)
  /-- Retires the context's task and ends the context (R105). -/
  | tdone (h : Hdr)
  /-- Returns the status of a task or launch entry (R106). -/
  | tpoll (h : Hdr) (d a : Reg)
  /-- Starts a helper context in a free slot of the core (R116). -/
  | start (h : Hdr) (d a t1 : Reg) (p : Pred)
  /-- Ends the context after its counters drain and records its exit word (R117). -/
  | hexit (h : Hdr) (a : Reg)
  /-- Waits for a started context to end and returns its exit word (R118). -/
  | hjoin (h : Hdr) (d a : Reg) (p : Pred)
  /-- Binds a message context's class mask, entry and argument (R119). -/
  | msgbind (h : Hdr) (m : BitVec 4) (a t1 t2 : Reg)
  /-- Takes the context off the wheel for a count of cycles (R120). -/
  | sleep (h : Hdr) (d a : Reg)
  /-- Returns the selected identity value (R121). -/
  | getid (h : Hdr) (d : Reg) (k : BitVec 3)
  /-- Raises TRAP_CALL with a code (R337). -/
  | trap (h : Hdr) (n : BitVec 16)
  /-- Raises BREAK with a code (R337). -/
  | trapBrk (h : Hdr) (n : BitVec 16)
  /-- Returns from a trap handler to fault.epc (R338). -/
  | eret (h : Hdr)
  /-- Reads a system register after the access checks (R147). -/
  | srd (h : Hdr) (d : Reg) (n : BitVec 12)
  /-- Writes a system register after the access checks (R147). -/
  | swr (h : Hdr) (a : Reg) (n : BitVec 12)
  /-- Resumes a parked context from its park record (R195). -/
  | upret (h : Hdr) (a : Reg)
  /-- Sends a relight to a context on this or another module (R196). -/
  | wake (h : Hdr) (a t1 : Reg)
  /-- Answers a miss with a leaf to install unless invalidated meanwhile (R193). -/
  | wkdoneOk (h : Hdr) (lvl : BitVec 2) (a t1 : Reg)
  /-- Answers a miss as not present (R193). -/
  | wkdoneNp (h : Hdr) (t1 : Reg)
  /-- Answers a miss as a protection fault (R193). -/
  | wkdoneProt (h : Hdr) (t1 : Reg)
  /-- Removes TLB entries covering a page in a scope (R194). -/
  | tlbinvPage (h : Hdr) (sco : InvScope) (a t1 : Reg)
  /-- Removes non-global TLB entries of an ASID in a scope (R194). -/
  | tlbinvAsid (h : Hdr) (sco : InvScope) (t1 : Reg)
  /-- Removes every TLB entry in a scope (R194). -/
  | tlbinvAll (h : Hdr) (sco : InvScope)
  /-- Halts the contexts and engines of named clusters through the snuffer (R344). -/
  | gstopHalt (h : Hdr) (a : Reg)
  /-- Resumes contexts and engines halted by a gang stop (R344). -/
  | gstopGo (h : Hdr) (a : Reg)
  /-- Saves a fibre or a trap-halted context of a slot (R349). -/
  | ctxsaveSlot (h : Hdr) (a t1 : Reg)
  /-- Loads a fibre into an empty or parked slot (R349). -/
  | ctxloadSlot (h : Hdr) (a t1 : Reg)
  /-- Stops, saves and empties a whole cluster (R351). -/
  | ctxsaveCl (h : Hdr) (d a t1 t2 : Reg)
  /-- Restores an empty cluster from an image (R353). -/
  | ctxloadCl (h : Hdr) (a t1 : Reg)
  /-- Restores a cluster image for replay of one core (R353). -/
  | ctxloadClRp (h : Hdr) (a t1 t2 : Reg)
  /-- Takes the next easel entry as the A tile or the B hold (R228). -/
  | seqTake (hold : Bool)
  /-- Transfers control to a bay (R227). -/
  | seqJump (hold : Bool) (t : JumpSrc)
  /-- Pushes a counted loop (R229). -/
  | seqLoopn (hold : Bool) (n : LoopSrc)
  /-- Ends the innermost loop body and branches back or pops (R229). -/
  | seqEndl (hold : Bool)
  /-- Pops the A tile and ends or continues the run (R230). -/
  | seqDone (hold : Bool) (cont : Bool)
  /-- Does nothing for one issue (R227). -/
  | seqIdle (hold : Bool)
  /-- Queues a feed of rows into the array with captured settings (R231). -/
  | afFeed (hold : Bool) (start : Option OutPort) (n : BitVec 7)
  /-- Sets the K base of feeds (R227). -/
  | afBase (hold : Bool) (n : BitVec 7)
  /-- Sets the feed source to the A tile or a bank (R227). -/
  | afFrom (hold : Bool) (f : FeedSrc)
  /-- Loads the held B tile into the back canvas (R236). -/
  | blLoad (hold : Bool)
  /-- Exchanges the front and back canvas (R236). -/
  | blSwap (hold : Bool)
  /-- Loads half of H128 into the back canvas (R236). -/
  | blHad (hold : Bool) (half : Bool)
  /-- Pops the held B tile and completes its token (R236). -/
  | blPop (hold : Bool)
  /-- Sets the array mode (R227). -/
  | arMode (hold : Bool) (m : ArMode)
  /-- Writes one palette op (R235). -/
  | arPal (hold : Bool) (op : PalOp)
  /-- Sets the destination bank (R227). -/
  | arDest (hold : Bool) (b : BitVec 2)
  /-- Sets the start value of landing cells (R234). -/
  | arAccum (hold : Bool) (v : Accum)
  /-- Clears a bank's cells, valid bits and mode tags (R234). -/
  | acClear (hold : Bool) (b : BitVec 2)
  /-- Selects the drain bank and resets the DR row pointer (R227). -/
  | acSel (hold : Bool) (b : BitVec 2)
  /-- Clears a bank's poison flag (R244). -/
  | acPclr (hold : Bool) (b : BitVec 2)
  /-- Starts a drain of rows of the selected bank with captured settings (R238). -/
  | drDrain (hold : Bool) (start : Option OutPort) (n : BitVec 7)
  /-- Sets the output format (R227). -/
  | drFmt (hold : Bool) (f : OFmt)
  /-- Sets the drain scale (R227). -/
  | drScale (hold : Bool) (n : BitVec 7)
  /-- Sets the rounding of the output conversion (R227). -/
  | drRound (hold : Bool) (rm : Rm)
  /-- Sets the post-processing operation (R240). -/
  | ppOp (hold : Bool) (op : PpOp)
  /-- Sets k of THR (R241). -/
  | ppK (hold : Bool) (n : BitVec 7)
  /-- Sets the passes of THR (R241). -/
  | ppPasses (hold : Bool) (n : BitVec 6)
  /-- Sets the columns taking part in PP (R240). -/
  | ppNcol (hold : Bool) (n : BitVec 7)
  /-- Opens an out tile at an out ring's open pointer (R242). -/
  | owOpen (hold : Bool) (ring : BitVec 4)
  /-- Sets the write enable and base row of out writes (R239). -/
  | owWrite (hold : Bool) (en : Bool) (base : BitVec 5)
  /-- Seals the open out tile (R242). -/
  | owSealout (hold : Bool)
  /-- A resting MU takes the easel head, starting a run on an A entry (R220). -/
  | dispatchTake (mu : Nat)
  /-- A queued feed row enters the array and reads the front canvas (R223). -/
  | feedRowEntry (mu : Nat)
  /-- A fed row lands in its accumulator row 72 cycles after entry (R234). -/
  | rowLanding (mu : Nat)
  /-- The back canvas finishes filling 32 cycles after LOAD or HAD (R223). -/
  | canvasLoadComplete (mu : Nat)
  /-- A drained row is read from its bank and enters the pipeline (R238). -/
  | drainRowRead (mu : Nat)
  /-- A drained row leaves PP and is written into the out tile (R239). -/
  | outRowWrite (mu : Nat)
  /-- The out tile becomes SEALED after its last row write (R223). -/
  | sealoutComplete (mu : Nat)
  /-- The run token completes DONE after the last out write (R230). -/
  | runTokenComplete (mu : Nat)
  /-- An uncorrectable scratchpad word read by the MU poisons the bank and halts the unit (R244). -/
  | muPoison (mu : Nat) (brow : Option Nat)
  /-- mu.ctl RESUME re-issues the halted bundle (R245). -/
  | muResume (m : Bool)
  /-- mu.ctl REST abandons the run and makes the unit RESTING (R245). -/
  | muRest (m : Bool)
  /-- An open tile's timer expires and the tile enters CLOSING (R208). -/
  | tileTimerExpiry (cl ring slot : Nat)
  /-- A CLOSING tile is posted to the easel or discarded once its conditions hold (R205). -/
  | tilePost (cl ring slot : Nat)
  /-- The copy unit starts a queued command whose consumed tokens are complete (R172). -/
  | copyCommandStart (cl : Nat)
  /-- A copy command ends DONE or FAULTED and writes PROG back (R178). -/
  | copyCommandEnd (cl : Nat)
  /-- The copy unit moves elements between memory and a stream FIFO (R179). -/
  | streamFill (ctx k : Nat)
  /-- An outstanding access completes, writes its register and decrements its counter (R161). -/
  | countedAccessComplete (ctx tag : Nat)
  /-- A reply to a parked off-die or global access arrives and unparks the context (R163). -/
  | remoteReply (ctx tag code val : Nat) (auth : PktAuth)
  /-- An acknowledgement of a posted request arrives and lowers OUTST (R163). -/
  | postedAck (ctx : Nat) (ack : PostedAck)
  /-- A late refusal, authentication failure or DIE_LOST of a posted request arrives (R340). -/
  | delayedFaultArrival (ctx tag : Nat) (code : LateCode)
  /-- A global request arrives at the target, is checked and performed or refused (R322). -/
  | remoteRequest (r : RemoteReq)
  /-- A full/empty access arrives at a word's serialisation point and the wait lists are served (R297). -/
  | feServe (w : Nat)
  /-- A full/empty waiter reaches its limit, is removed and parks (R299). -/
  | feTimeout (w tag : Nat)
  /-- A barrier's release reaches a core and its arrivals return with their ranks (R302). -/
  | barrierRelease (key : Nat)
  /-- A message arrives at a receive endpoint, or is refused for a stale GEN (R307). -/
  | messageArrival (m : ChanMsg)
  /-- A grant arrives at a send endpoint and adds allowance or breaks it (R306). -/
  | grantArrival (g : GrantMsg)
  /-- An acknowledgement lowers a send endpoint's BUF (R307). -/
  | messageAckArrival (dst gen : Nat) (refused : Bool)
  /-- An idle, bound, ready message context starts and receives its pending classes (R113). -/
  | messageContextStart (ctx : Nat)
  /-- A sleeping context's count runs out and it resumes (R120). -/
  | sleepExpiry (ctx : Nat)
  /-- A context sleeping in HJOIN resumes after the named slot has ended (R118). -/
  | hjoinWake (ctx : Nat)
  /-- A relight arrives and posts a relight upcall or is discarded (R196). -/
  | relightArrival (ctx : Nat)
  /-- The device drops a TLB entry at a time of its choosing (R189). -/
  | tlbEntryDrop (level place idx : Nat)
  /-- An SRD of wk.miss takes the oldest untaken miss entry (R191). -/
  | wkMissPop (d : Reg)
  /-- An SRD of core.upcall pops the oldest upcall (R198). -/
  | upcallPop (d : Reg)
  /-- The scheduler dispatches a READY task onto a free helper slot (R111). -/
  | dispatchTask (die : Nat)
  /-- The scheduler dispatches the next group of a launch onto a core block (R109). -/
  | dispatchGroup (die : Nat)
  /-- A dispatched group's routine image is written into both MUs of its cluster (R96). -/
  | routineImageLoad (die : Nat)
  /-- A decrement arrives at a scheduler and is applied or discarded (R89). -/
  | decrementArrival (die handle : Nat) (src : DecSrc)
  /-- An entry READY for over 2^20 cycles moves to the next higher level (R88). -/
  | agingPromotion (die idx : Nat)
  /-- A done group's completion record is written in order and its window entry freed (R94). -/
  | groupRecordWrite (die idx : Nat)
  /-- After the last group record the launch-done record is written and the entry freed (R95). -/
  | launchDoneRecord (die idx : Nat)
  /-- The device rereads RIDX of a full completion ring (R75). -/
  | ridxPoll (die idx : Nat)
  /-- A handler task is allocated for a faulted task or launch helper (R99). -/
  | handlerSpawn (die : Nat)
  /-- The scheduler retries a failed access every 2^20 package cycles (R374). -/
  | schedAccessRetry (die idx : Nat)
  /-- A lantern runs a gather, delivering positions into an open tile or faulting (R262). -/
  | gatherRun (cl : Nat)
  /-- A lantern runs a summary, writing bounds or raw summary rows (R265). -/
  | summaryRun (cl : Nat)
  /-- A FREE inverted-table entry is allocated and initialised for a new frame (R257). -/
  | frameAllocation (ctx : Nat)
  /-- A lantern starts evicting a tier-0 frame to tier 1 (R259). -/
  | evictionStart (die : Nat)
  /-- An eviction finishes and the target becomes RESIDENT (R258). -/
  | evictionComplete (n : Nat)
  /-- A promotion from tier 1 finishes and the target becomes RESIDENT (R258). -/
  | promotionComplete (n : Nat)
  /-- A write of core.lsplit holds the core and changes the local-store split (R153). -/
  | coreLsplitWrite (v : Word)
  /-- A write of core.atp waits for the core's accesses and changes the address space (R185). -/
  | coreAtpWrite (v : Word)
  /-- A write of kv.ctl, holding on EN clear until lantern operations end (R248). -/
  | kvCtlWrite (v : Word)
  /-- Writing 1 to sched.under clears the whole count (R100). -/
  | schedUnderClear
  /-- A write of a FAULTED task handle to sched.fclr frees the entry (R335). -/
  | schedFclr (v : Word)
  /-- A write of fab.export changes the export table and drops cached entries (R320). -/
  | fabExportWrite (v : Word)
  /-- A write of fab.kload loads or clears a key slot from a record (R327). -/
  | fabKload (v : Word)
  /-- A write of pwr.ctl sets an island's step and holds until it runs there (R358). -/
  | pwrCtlWrite (v : Word)
  /-- An island's clock restarts at its new step after the change (R358). -/
  | islandStepChange (isl : Nat)
  /-- Each 1 ms power average lowers or raises island steps (R360). -/
  | powerWindow (watts : Nat)
  /-- A write of 0x600D to boot.ok confirms the start (R365). -/
  | bootOk (v : Word)
  /-- attest.ctl GO with KIND 0 writes a signed attestation report (R367). -/
  | attestReport (v : Word)
  /-- attest.ctl GO with KIND 1 writes the identity public key (R367). -/
  | attestIdentityKey (v : Word)
  /-- A write to a system register with no behaviour of its own updates its fields (R147). -/
  | registerWrite (n : BitVec 12) (v : Word)
  /-- Module reset verifies firmware and begins bring-up (R362). -/
  | moduleReset
  /-- A cluster passes self-test, raises its ready bit and starts slots 0 and 15 (R362). -/
  | clusterReady (cl : Nat)
  /-- A die passes self-test and raises its ready bit (R362). -/
  | dieReady (die : Nat)
  /-- A Kevel port becomes ready and carries traffic (R363). -/
  | linkReady (port : Nat)
  /-- A power-stage fault fails the start (R365). -/
  | powerStageFault
  /-- A die stops answering on all edges and the surviving dies apply the loss effects (R343). -/
  | dieLoss (die : Nat)
  /-- A host doorbell write raises class 50 on a core, or starts image verification in minimal mode (R332). -/
  | hostDoorbell (v : Nat)
  /-- A host access through a BAR2 window becomes a global request from the bridge (R331). -/
  | hostWindowAccess (a : HostAcc)
  /-- A host write sets a BAR0 window register or is discarded (R331). -/
  | hostWindowRegisterWrite (n v : Nat)
  /-- Issue of a word whose OP is unassigned traps ILLEGAL_OP at its first issue phase, whatever the guard (R40). -/
  | unassignedOpcode (w : Word)
  /-- The issue-phase fetch at pc misses the ITLB or fails to translate, posting a fetch miss or faulting with the target as PC (R146). -/
  | fetchFault (va : Word) (code : Nat)
  /-- A BAR arrival reaches its scope's counting point, takes its rank, and releases the generation when it is the c-th (R302). -/
  | barrierArrival (key count ctx : Nat) (dev : Nat)
  /-- A scheduler's answer to LAUNCH, TENQ or TPOLL arrives and the parked context returns to the wheel with its results (R102). -/
  | schedulerAnswer (ctx tag : Nat)
  /-- A sequence's lantern answers a parked sequence or KV instruction, delivering its result or fault and unparking the context (R267). -/
  | lanternAnswer (ctx tag : Nat)
  /-- The write-back of the shrinking L1's dirty lines finishes, the new split takes effect, and the held contexts and copy commands of the core resume (R153). -/
  | lsplitChangeDone (core : Nat)
  /-- The start is not confirmed within 2^32 package cycles and counts as failed (R364). -/
  | bootDeadlineExpiry
  deriving DecidableEq, Repr

end Sys2Proof
end

