-- ==== Sys2Proof/WellFormed.lean ====
section
/-! DEFINITION. The checks of an instruction that its typed fields do not already carry: each is a case the
manual traps as ILLEGAL_ENC, or refuses as a reserved value (R31 to R38, R43, R227). -/

namespace Sys2Proof

/-- A destination field that is written: 60 traps (R31). -/
def Reg.okDest (d : Reg) : Bool := d != 60

/-- PT and PF of a C-form instruction: both 0, or different (R34). -/
def okPair (pt pf : Pred) : Bool := (pt == 0 && pf == 0) || pt != pf

/-- The register pair of a .b128 access: even, from 2 to 54 (R159). -/
def MSize.okPair (sz : MSize) (d : Reg) : Bool := sz != .b16 || (d.toNat % 2 == 0 && 2 ≤ d.toNat && d.toNat ≤ 54)

/-- Sizes for which sign extension exists (R164). -/
def MSize.okSx (sz : MSize) (sx : Bool) : Bool := !sx || (sz != .b8 && sz != .b16)

/-- Is a type of FCVT an integer (R141)? -/
def CvtTy.isInt : CvtTy → Bool
  | .f32 | .f16 | .bf16 => false
  | .i64 | .i32 | .u64 | .u32 => true

/-- A palette op that ENDs has X = Y = 0 (R235). -/
def PalOp.ok (o : PalOp) : Bool := o.opc != .fin || (o.x == .a && o.y == .a)

/-- The assigned opcodes (R39, R40). -/
def opAssigned (op : Nat) : Bool :=
  (0x01 ≤ op && op ≤ 0x1E) || (0x20 ≤ op && op ≤ 0x2A) || (0x30 ≤ op && op ≤ 0x33) || (0x38 ≤ op && op ≤ 0x3A) ||
  (0x40 ≤ op && op ≤ 0x4C) || (0x50 ≤ op && op ≤ 0x54) || (0x58 ≤ op && op ≤ 0x5F) || (0x60 ≤ op && op ≤ 0x6B) ||
  (0x70 ≤ op && op ≤ 0x78) || (0x80 ≤ op && op ≤ 0x8A) || (0x90 ≤ op && op ≤ 0x9A)

/-- The checks of one instruction, constructor by constructor. A step of a device carries data, not an encoding, and
has no check. -/
def Instr.wf : Instr → Bool
  | .add h _ d _ _ => h.sc.isNone && d.okDest
  | .sub h _ d _ _ => h.sc.isNone && d.okDest
  | .mul h _ d _ _ => h.sc.isNone && d.okDest
  | .mulh h _ _ d _ _ => h.sc.isNone && d.okDest
  | .div h _ _ d _ _ => h.sc.isNone && d.okDest
  | .rem h _ _ d _ _ => h.sc.isNone && d.okDest
  | .and h _ d _ _ => h.sc.isNone && d.okDest
  | .or h _ d _ _ => h.sc.isNone && d.okDest
  | .xor h _ d _ _ => h.sc.isNone && d.okDest
  | .andn h _ d _ _ => h.sc.isNone && d.okDest
  | .shl h _ d _ _ => h.sc.isNone && d.okDest
  | .shr h _ d _ _ => h.sc.isNone && d.okDest
  | .sar h _ d _ _ => h.sc.isNone && d.okDest
  | .min h _ _ d _ _ => h.sc.isNone && d.okDest
  | .max h _ _ d _ _ => h.sc.isNone && d.okDest
  | .clz h _ d _ => h.sc.isNone && d.okDest
  | .ctz h _ d _ => h.sc.isNone && d.okDest
  | .popc h _ d _ => h.sc.isNone && d.okDest
  | .bfx h _ d _ _ => h.sc.isNone && d.okDest
  | .bfi h d _ _ _ => h.sc.isNone && d.okDest
  | .sel h d _ _ _ => h.sc.isNone && d.okDest
  | .hash h d _ _ => h.sc.isNone && d.okDest
  | .madd h _ d _ _ _ => h.sc.isNone && d.okDest
  | .addi h d _ _ => h.sc.isNone && d.okDest
  | .andi h d _ _ => h.sc.isNone && d.okDest
  | .ori h d _ _ => h.sc.isNone && d.okDest
  | .xori h d _ _ => h.sc.isNone && d.okDest
  | .movi h d _ => h.sc.isNone && d.okDest
  | .ldc h d _ _ => h.sc.isNone && d.okDest
  | .shi h _ d _ _ => h.sc.isNone && d.okDest
  | .fadd h _ _ d _ _ => h.sc.isNone && d.okDest
  | .fsub h _ _ d _ _ => h.sc.isNone && d.okDest
  | .fmul h _ _ d _ _ => h.sc.isNone && d.okDest
  | .ffma h _ _ d _ _ _ => h.sc.isNone && d.okDest
  | .fmin h _ d _ _ => h.sc.isNone && d.okDest
  | .fmax h _ d _ _ => h.sc.isNone && d.okDest
  | .fdiv h _ _ d _ _ => h.sc.isNone && d.okDest
  | .fsqrt h _ _ d _ => h.sc.isNone && d.okDest
  | .fcvt h dst src _ d _ => h.sc.isNone && d.okDest && !(dst.isInt && src.isInt)
  | .fclass h _ d _ => h.sc.isNone && d.okDest
  | .fexp2 h _ d _ => h.sc.isNone && d.okDest
  | .icmp h _ _ pt pf _ _ _ => h.sc.isNone && okPair pt pf
  | .fcmp h _ _ pt pf _ _ _ => h.sc.isNone && okPair pt pf
  | .plog h _ pt pf _ _ _ => h.sc.isNone && okPair pt pf
  | .pxferGet h d _ => h.sc.isNone && d.okDest
  | .pxferPut h _ _ => h.sc.isNone
  | .br h _ => h.sc.isNone
  | .call h l _ => h.sc.isNone && l.okDest
  | .jmp h l _ _ => h.sc.isNone && l.okDest
  | .ld _ sz sx _ _ d _ => d.okDest && sz.okPair d && sz.okSx sx
  | .st _ sz _ _ d _ => sz.okPair d
  | .ldfe h d _ => h.sc.isNone && d.okDest
  | .ldff h d _ => h.sc.isNone && d.okDest
  | .stef h _ _ => h.sc.isNone
  | .stff h _ _ => h.sc.isNone
  | .fezero h _ => h.sc.isNone
  | .amo _ k ty _ _ cmb d _ _ => d.okDest && !(k == .fadd && ty == .i64) && !(cmb && (k == .swap || k == .fadd))
  | .cas _ _ _ _ d _ _ _ => d.okDest
  | .fence h ord _ => h.sc.isNone && ord != .rlx
  | .pref _ _ _ => true
  | .clean _ _ _ => true
  | .inval _ _ _ => true
  | .copy h d _ _ _ _ => h.sc.isNone && d.okDest
  | .sbindIn h _ _ _ d _ _ _ _ => h.sc.isNone && d.okDest
  | .sbindOut h _ _ _ d _ _ _ _ => h.sc.isNone && d.okDest
  | .sclose h _ d => h.sc.isNone && d.okDest
  | .tkwait h d _ => h.sc.isNone && d.okDest
  | .tktest h pt pf _ _ => h.sc.isNone && okPair pt pf
  | .topen h _ d _ _ => h.sc.isNone && (1 ≤ d.toNat && d.toNat ≤ 54)
  | .trow h d _ _ => h.sc.isNone && d.okDest
  | .tmark h _ _ => h.sc.isNone
  | .tmarkVoid h _ _ => h.sc.isNone
  | .seal h d _ _ _ _ => h.sc.isNone && d.okDest
  | .tdrop h _ => h.sc.isNone
  | .tstat h d _ => h.sc.isNone && d.okDest
  | .muload h _ _ _ => h.sc.isNone
  | .mupost h _ d _ _ _ _ => h.sc.isNone && d.okDest
  | .sqnew h _ _ _ => h.sc.isNone
  | .sqres h d _ _ _ => h.sc.isNone && d.okDest
  | .sqcmt h _ _ _ => h.sc.isNone
  | .sqlen h d _ => h.sc.isNone && d.okDest
  | .sqfork h _ _ _ _ => h.sc.isNone
  | .sqdrop h _ => h.sc.isNone
  | .kvst h _ => h.sc.isNone
  | .kvgathK h d _ _ _ _ => h.sc.isNone && d.okDest
  | .kvgathV h d _ _ _ _ => h.sc.isNone && d.okDest
  | .kvsumB h d _ _ _ _ => h.sc.isNone && d.okDest
  | .kvsumR h d _ _ _ _ => h.sc.isNone && d.okDest
  | .kvpf h _ _ => h.sc.isNone
  | .kvpfW h d _ _ => h.sc.isNone && d.okDest
  | .kvpinOn h d _ _ => h.sc.isNone && d.okDest
  | .kvpinOff h d _ _ => h.sc.isNone && d.okDest
  | .kvqrel h _ _ => h.sc.isNone
  | .bar h _ _ d _ => h.sc.isNone && d.okDest
  | .chopen h d _ _ => h.sc.isNone && d.okDest
  | .chsend h _ _ _ => h.sc.isNone
  | .chtry h _ _ _ _ => h.sc.isNone
  | .chrecv h d _ _ => h.sc.isNone && d.okDest
  | .chgrant h d _ _ _ => h.sc.isNone && d.okDest
  | .alt h d _ => h.sc.isNone && d.okDest
  | .chclose h d _ => h.sc.isNone && d.okDest
  | .qbindUp h _ => h.sc.isNone
  | .qbindDown h _ => h.sc.isNone
  | .launch h d _ _ => h.sc.isNone && d.okDest
  | .tenq h d _ _ => h.sc.isNone && d.okDest
  | .tdec h _ => h.sc.isNone
  | .tdone h => h.sc.isNone
  | .tpoll h d _ => h.sc.isNone && d.okDest
  | .start h d _ _ _ => h.sc.isNone && d.okDest
  | .hexit h _ => h.sc.isNone
  | .hjoin h d _ _ => h.sc.isNone && d.okDest
  | .msgbind h m _ _ _ => h.sc.isNone && (11 ≤ m.toNat && m.toNat ≤ 14)
  | .sleep h d _ => h.sc.isNone && d.okDest
  | .getid h d _ => h.sc.isNone && d.okDest
  | .trap h _ => h.sc.isNone
  | .trapBrk h _ => h.sc.isNone
  | .eret h => h.sc.isNone
  | .srd h d _ => h.sc.isNone && d.okDest
  | .swr h _ _ => h.sc.isNone
  | .upret h _ => h.sc.isNone
  | .wake h _ _ => h.sc.isNone
  | .wkdoneOk h lvl _ _ => h.sc.isNone && lvl != 0
  | .wkdoneNp h _ => h.sc.isNone
  | .wkdoneProt h _ => h.sc.isNone
  | .tlbinvPage h _ _ _ => h.sc.isNone
  | .tlbinvAsid h _ _ => h.sc.isNone
  | .tlbinvAll h _ => h.sc.isNone
  | .gstopHalt h _ => h.sc.isNone
  | .gstopGo h _ => h.sc.isNone
  | .ctxsaveSlot h _ _ => h.sc.isNone
  | .ctxloadSlot h _ _ => h.sc.isNone
  | .ctxsaveCl h d _ _ _ => h.sc.isNone && d.okDest
  | .ctxloadCl h _ _ => h.sc.isNone
  | .ctxloadClRp h _ _ _ => h.sc.isNone
  | .seqTake _ => true
  | .seqJump _ _ => true
  | .seqLoopn hold _ => !hold
  | .seqEndl hold => !hold
  | .seqDone _ _ => true
  | .seqIdle _ => true
  | .afFeed _ _ _ => true
  | .afBase _ _ => true
  | .afFrom _ _ => true
  | .blLoad _ => true
  | .blSwap _ => true
  | .blHad _ _ => true
  | .blPop _ => true
  | .arMode _ _ => true
  | .arPal _ op => op.ok
  | .arDest _ _ => true
  | .arAccum _ _ => true
  | .acClear _ _ => true
  | .acSel _ _ => true
  | .acPclr _ _ => true
  | .drDrain _ _ _ => true
  | .drFmt _ _ => true
  | .drScale _ _ => true
  | .drRound _ _ => true
  | .ppOp _ _ => true
  | .ppK _ _ => true
  | .ppPasses _ n => (1 ≤ n.toNat && n.toNat ≤ 32)
  | .ppNcol _ _ => true
  | .owOpen _ _ => true
  | .owWrite _ _ _ => true
  | .owSealout _ => true
  | .dispatchTake _ => true
  | .feedRowEntry _ => true
  | .rowLanding _ => true
  | .canvasLoadComplete _ => true
  | .drainRowRead _ => true
  | .outRowWrite _ => true
  | .sealoutComplete _ => true
  | .runTokenComplete _ => true
  | .muPoison _ _ => true
  | .muResume _ => true
  | .muRest _ => true
  | .tileTimerExpiry _ _ _ => true
  | .tilePost _ _ _ => true
  | .copyCommandStart _ => true
  | .copyCommandEnd _ => true
  | .streamFill _ _ => true
  | .countedAccessComplete _ _ => true
  | .remoteReply _ _ _ _ _ => true
  | .postedAck _ _ => true
  | .delayedFaultArrival _ _ _ => true
  | .remoteRequest _ => true
  | .feServe _ => true
  | .feTimeout _ _ => true
  | .barrierRelease _ => true
  | .messageArrival _ => true
  | .grantArrival _ => true
  | .messageAckArrival _ _ _ => true
  | .messageContextStart _ => true
  | .sleepExpiry _ => true
  | .hjoinWake _ => true
  | .relightArrival _ => true
  | .tlbEntryDrop _ _ _ => true
  | .wkMissPop _ => true
  | .upcallPop _ => true
  | .dispatchTask _ => true
  | .dispatchGroup _ => true
  | .routineImageLoad _ => true
  | .decrementArrival _ _ _ => true
  | .agingPromotion _ _ => true
  | .groupRecordWrite _ _ => true
  | .launchDoneRecord _ _ => true
  | .ridxPoll _ _ => true
  | .handlerSpawn _ => true
  | .schedAccessRetry _ _ => true
  | .gatherRun _ => true
  | .summaryRun _ => true
  | .frameAllocation _ => true
  | .evictionStart _ => true
  | .evictionComplete _ => true
  | .promotionComplete _ => true
  | .coreLsplitWrite _ => true
  | .coreAtpWrite _ => true
  | .kvCtlWrite _ => true
  | .schedUnderClear => true
  | .schedFclr _ => true
  | .fabExportWrite _ => true
  | .fabKload _ => true
  | .pwrCtlWrite _ => true
  | .islandStepChange _ => true
  | .powerWindow _ => true
  | .bootOk _ => true
  | .attestReport _ => true
  | .attestIdentityKey _ => true
  | .registerWrite _ _ => true
  | .moduleReset => true
  | .clusterReady _ => true
  | .dieReady _ => true
  | .linkReady _ => true
  | .bootDeadlineExpiry => true
  | .powerStageFault => true
  | .dieLoss _ => true
  | .hostDoorbell _ => true
  | .hostWindowAccess _ => true
  | .hostWindowRegisterWrite _ _ => true
  | .unassignedOpcode w => !(opAssigned (bits w.toNat 48 8))
  | .fetchFault _ _ => true
  | .barrierArrival _ _ _ _ => true
  | .schedulerAnswer _ _ => true
  | .lanternAnswer _ _ => true
  | .lsplitChangeDone _ => true

end Sys2Proof
end

