-- ==== Sys2Proof/Decode.lean ====
section
/-! DEFINITION. From words to instructions and back. `encode` and `encodeMove` lay an instruction's fields out as R30 to
R43 and R227 place them. `decodeWord` reads the fields of a word by its opcode, and accepts the instruction it read
only if that instruction is well formed and its own word is the word given: so every unused field, every
reserved value and every must-be-zero bit is refused (R31 to R38, R41). -/

namespace Sys2Proof

/-- Why a word or a slot is no instruction. `illegalEnc`: a reserved value in a field, or a must-be-zero field that is
not zero (R41 step 2); `muEncoding`: a slot or header that R46 refuses; `muBeyond`: a bundle past the end of routine
memory (R46). -/
inductive DecodeError where | illegalEnc | muEncoding | muBeyond
  deriving DecidableEq, Repr

/-- The code of a field value of type IntTy, and the value of a code (a reserved code reads as the first value, and is then refused). -/
def IntTy.code : IntTy → Nat
  | .i64 => 0
  | .i32 => 1
def IntTy.ofCode : Nat → IntTy
  | 1 => .i32
  | _ => .i64

/-- The code of a field value of type FloatTy, and the value of a code (a reserved code reads as the first value, and is then refused). -/
def FloatTy.code : FloatTy → Nat
  | .f32 => 0
  | .f16 => 1
  | .bf16 => 2
def FloatTy.ofCode : Nat → FloatTy
  | 1 => .f16
  | 2 => .bf16
  | _ => .f32

/-- The code of a field value of type Rm, and the value of a code (a reserved code reads as the first value, and is then refused). -/
def Rm.code : Rm → Nat
  | .rne => 0
  | .rz => 1
  | .rd => 2
  | .ru => 3
def Rm.ofCode : Nat → Rm
  | 1 => .rz
  | 2 => .rd
  | 3 => .ru
  | _ => .rne

/-- The code of a field value of type MulhKind, and the value of a code (a reserved code reads as the first value, and is then refused). -/
def MulhKind.code : MulhKind → Nat
  | .ss => 0
  | .uu => 1
  | .su => 2
def MulhKind.ofCode : Nat → MulhKind
  | 1 => .uu
  | 2 => .su
  | _ => .ss

/-- The code of a field value of type ShiKind, and the value of a code (a reserved code reads as the first value, and is then refused). -/
def ShiKind.code : ShiKind → Nat
  | .l => 0
  | .r => 1
  | .a => 2
  | .ror => 3
def ShiKind.ofCode : Nat → ShiKind
  | 1 => .r
  | 2 => .a
  | 3 => .ror
  | _ => .l

/-- The code of a field value of type CvtTy, and the value of a code (a reserved code reads as the first value, and is then refused). -/
def CvtTy.code : CvtTy → Nat
  | .f32 => 0
  | .f16 => 1
  | .bf16 => 2
  | .i64 => 8
  | .i32 => 9
  | .u64 => 10
  | .u32 => 11
def CvtTy.ofCode : Nat → CvtTy
  | 1 => .f16
  | 2 => .bf16
  | 8 => .i64
  | 9 => .i32
  | 10 => .u64
  | 11 => .u32
  | _ => .f32

/-- The code of a field value of type Icc, and the value of a code (a reserved code reads as the first value, and is then refused). -/
def Icc.code : Icc → Nat
  | .eq => 0
  | .ne => 1
  | .lt => 2
  | .ge => 3
  | .ltu => 4
  | .geu => 5
  | .le => 6
  | .gt => 7
  | .leu => 8
  | .gtu => 9
  | .tst => 10
def Icc.ofCode : Nat → Icc
  | 1 => .ne
  | 2 => .lt
  | 3 => .ge
  | 4 => .ltu
  | 5 => .geu
  | 6 => .le
  | 7 => .gt
  | 8 => .leu
  | 9 => .gtu
  | 10 => .tst
  | _ => .eq

/-- The code of a field value of type Fcc, and the value of a code (a reserved code reads as the first value, and is then refused). -/
def Fcc.code : Fcc → Nat
  | .eq => 0
  | .ne => 1
  | .lt => 2
  | .ge => 3
  | .le => 4
  | .gt => 5
  | .ord => 6
  | .uno => 7
def Fcc.ofCode : Nat → Fcc
  | 1 => .ne
  | 2 => .lt
  | 3 => .ge
  | 4 => .le
  | 5 => .gt
  | 6 => .ord
  | 7 => .uno
  | _ => .eq

/-- The code of a field value of type MSize, and the value of a code (a reserved code reads as the first value, and is then refused). -/
def MSize.code : MSize → Nat
  | .b1 => 0
  | .b2 => 1
  | .b4 => 2
  | .b8 => 3
  | .b16 => 4
def MSize.ofCode : Nat → MSize
  | 1 => .b2
  | 2 => .b4
  | 3 => .b8
  | 4 => .b16
  | _ => .b1

/-- The code of a field value of type MOrd, and the value of a code (a reserved code reads as the first value, and is then refused). -/
def MOrd.code : MOrd → Nat
  | .rlx => 0
  | .acq => 1
  | .rel => 2
  | .ar => 3
def MOrd.ofCode : Nat → MOrd
  | 1 => .acq
  | 2 => .rel
  | 3 => .ar
  | _ => .rlx

/-- The code of a field value of type Scope, and the value of a code (a reserved code reads as the first value, and is then refused). -/
def Scope.code : Scope → Nat
  | .cor => 0
  | .cl => 1
  | .die => 2
  | .pkg => 3
  | .sys => 4
def Scope.ofCode : Nat → Scope
  | 1 => .cl
  | 2 => .die
  | 3 => .pkg
  | 4 => .sys
  | _ => .cor

/-- The code of a field value of type AmoKind, and the value of a code (a reserved code reads as the first value, and is then refused). -/
def AmoKind.code : AmoKind → Nat
  | .swap => 0
  | .add => 1
  | .and => 2
  | .or => 3
  | .xor => 4
  | .min => 5
  | .max => 6
  | .minu => 7
  | .maxu => 8
  | .fadd => 9
def AmoKind.ofCode : Nat → AmoKind
  | 1 => .add
  | 2 => .and
  | 3 => .or
  | 4 => .xor
  | 5 => .min
  | 6 => .max
  | 7 => .minu
  | 8 => .maxu
  | 9 => .fadd
  | _ => .swap

/-- The code of a field value of type InvScope, and the value of a code (a reserved code reads as the first value, and is then refused). -/
def InvScope.code : InvScope → Nat
  | .cl => 1
  | .die => 2
  | .pkg => 3
def InvScope.ofCode : Nat → InvScope
  | 2 => .die
  | 3 => .pkg
  | _ => .cl

/-- The code of a field value of type OutPort, and the value of a code (a reserved code reads as the first value, and is then refused). -/
def OutPort.code : OutPort → Nat
  | .hrows => 8
  | .htag => 9
  | .hblk => 10
  | .lrow => 11
  | .hval => 12
  | .stat => 136
  | .count => 200
def OutPort.ofCode : Nat → OutPort
  | 9 => .htag
  | 10 => .hblk
  | 11 => .lrow
  | 12 => .hval
  | 136 => .stat
  | 200 => .count
  | _ => .hrows

/-- The code of a field value of type ArMode, and the value of a code (a reserved code reads as the first value, and is then refused). -/
def ArMode.code : ArMode → Nat
  | .bf16 => 0
  | .fp16 => 1
  | .int8 => 2
  | .l6 => 3
  | .fp32 => 4
  | .fp32c => 5
  | .micro => 6
def ArMode.ofCode : Nat → ArMode
  | 1 => .fp16
  | 2 => .int8
  | 3 => .l6
  | 4 => .fp32
  | 5 => .fp32c
  | 6 => .micro
  | _ => .bf16

/-- The code of a field value of type Accum, and the value of a code (a reserved code reads as the first value, and is then refused). -/
def Accum.code : Accum → Nat
  | .zero => 0
  | .acc => 1
  | .pinf => 2
  | .ninf => 3
def Accum.ofCode : Nat → Accum
  | 1 => .acc
  | 2 => .pinf
  | 3 => .ninf
  | _ => .zero

/-- The code of a field value of type OFmt, and the value of a code (a reserved code reads as the first value, and is then refused). -/
def OFmt.code : OFmt → Nat
  | .fp32 => 0
  | .bf16 => 1
  | .fp16 => 2
  | .l6 => 3
  | .int8 => 4
  | .int4 => 5
def OFmt.ofCode : Nat → OFmt
  | 1 => .bf16
  | 2 => .fp16
  | 3 => .l6
  | 4 => .int8
  | 5 => .int4
  | _ => .fp32

/-- The code of a field value of type PpOp, and the value of a code (a reserved code reads as the first value, and is then refused). -/
def PpOp.code : PpOp → Nat
  | .none => 0
  | .rowmax => 1
  | .rowmin => 2
  | .rowsum => 3
  | .exp2 => 4
  | .mulv => 5
  | .divv => 13
  | .thrNeg => 6
  | .thrZero => 14
def PpOp.ofCode : Nat → PpOp
  | 1 => .rowmax
  | 2 => .rowmin
  | 3 => .rowsum
  | 4 => .exp2
  | 5 => .mulv
  | 13 => .divv
  | 6 => .thrNeg
  | 14 => .thrZero
  | _ => .none

/-- The code of a field value of type PalOpc, and the value of a code (a reserved code reads as the first value, and is then refused). -/
def PalOpc.code : PalOpc → Nat
  | .fin => 0
  | .mul => 1
  | .add => 2
  | .sub => 3
  | .min => 4
  | .max => 5
  | .selge => 6
def PalOpc.ofCode : Nat → PalOpc
  | 1 => .mul
  | 2 => .add
  | 3 => .sub
  | 4 => .min
  | 5 => .max
  | 6 => .selge
  | _ => .fin

/-- The code of a field value of type PalArg, and the value of a code (a reserved code reads as the first value, and is then refused). -/
def PalArg.code : PalArg → Nat
  | .a => 0
  | .b => 1
  | .s => 2
  | .t => 3
def PalArg.ofCode : Nat → PalArg
  | 1 => .b
  | 2 => .s
  | 3 => .t
  | _ => .a

/-- Operand bits of ICMP (R34): IMM12 at bits 20:9, or B at bits 20:15. -/
def CmpSrc.code : CmpSrc → Nat
  | .reg b => b.toNat * 64
  | .imm v => v.toNat
def CmpSrc.isImm : CmpSrc → Bool
  | .reg _ => false
  | .imm _ => true

def FeedSrc.code : FeedSrc → Nat
  | .tile => 0
  | .bank b => 4 + b.toNat

/-- A palette op's MOD value (R235). -/
def PalOp.code (o : PalOp) : Nat := o.opc.code * 16 + o.x.code * 4 + o.y.code
def PalOp.ofCode (n : Nat) : PalOp := ⟨PalOpc.ofCode (bits n 4 3), PalArg.ofCode (bits n 2 2), PalArg.ofCode (bits n 0 2)⟩

def JumpSrc.src : JumpSrc → Nat
  | .bay _ => 0xFF
  | .htag => 0x09
def JumpSrc.mod : JumpSrc → Nat
  | .bay m => m.toNat
  | .htag => 0
def LoopSrc.src : LoopSrc → Nat
  | .imm _ => 0xFF
  | .out p => p.code
def LoopSrc.mod : LoopSrc → Nat
  | .imm m => m.toNat
  | .out _ => 0

/-- SC field of a header (R30): 0 none, 4 to 7 dc0 to dc3. -/
def Hdr.scCode (h : Hdr) : Nat := match h.sc with
  | none => 0
  | some n => 4 + n.val

/-- Bits 63:41 of a word (R30). -/
def Hdr.word (h : Hdr) (op : Nat) : Nat :=
  h.gp.toNat * 2 ^ 57 + h.gn.toNat * 2 ^ 56 + op * 2 ^ 48 + h.wm.toNat * 2 ^ 44 + h.scCode * 2 ^ 41

/-- R form (R32). -/
def rWord (h : Hdr) (op d a b c fn ty rm : Nat) : Nat :=
  h.word op + d * 2 ^ 35 + a * 2 ^ 29 + b * 2 ^ 23 + c * 2 ^ 17 + fn * 2 ^ 9 + ty * 2 ^ 6 + rm * 2 ^ 3

/-- I form and B form (R33, R37). -/
def iWord (h : Hdr) (op d a imm : Nat) : Nat := h.word op + d * 2 ^ 35 + a * 2 ^ 29 + imm

/-- C form (R34); `src2` is the second operand's bits in place. -/
def cWord (h : Hdr) (op pt pf a src2 cc ty im cm : Nat) : Nat :=
  h.word op + pt * 2 ^ 34 + pf * 2 ^ 27 + a * 2 ^ 21 + src2 + cc * 2 ^ 5 + ty * 2 ^ 2 + im * 2 + cm

/-- C form of PLOG (R35). -/
def pWord (h : Hdr) (op pt pf pa pb cc cm : Nat) : Nat :=
  h.word op + pt * 2 ^ 34 + pf * 2 ^ 27 + pa * 2 ^ 20 + pb * 2 ^ 13 + cc * 2 ^ 5 + cm

/-- M form (R36). -/
def mWord (h : Hdr) (op d : Nat) (m : MAddr) (sz ord sco x : Nat) : Nat :=
  h.word op + d * 2 ^ 35 + m.a.toNat * 2 ^ 29 + m.b.toNat * 2 ^ 23 + m.off.toNat * 2 ^ 9 + sz * 2 ^ 6 + ord * 2 ^ 4 + sco * 2 + x

/-- E form (R38). -/
def eWord (h : Hdr) (op d a t1 t2 t3 sub : Nat) : Nat :=
  h.word op + d * 2 ^ 35 + a * 2 ^ 29 + t1 * 2 ^ 23 + t2 * 2 ^ 17 + t3 * 2 ^ 11 + sub

/-- A slot of a bundle (R43). -/
def slotWord (hold : Bool) (dst src mod : Nat) : Nat := hold.toNat * 2 ^ 23 + dst * 2 ^ 15 + src * 2 ^ 7 + mod

/-- The header of a word; SC codes 1 to 3 read as none, and are then refused (R30). -/
def fHdr (w : Nat) : Hdr :=
  ⟨BitVec.ofNat 7 (w / 2 ^ 57), bit w 56, BitVec.ofNat 4 (w / 2 ^ 44),
    if bit w 43 then some ⟨bits w 41 2, Nat.mod_lt _ (by decide)⟩ else none⟩
def fReg (w lo : Nat) : Reg := BitVec.ofNat 6 (w / 2 ^ lo)
def fPred (w lo : Nat) : Pred := BitVec.ofNat 7 (w / 2 ^ lo)
def fAddr (w : Nat) : MAddr := ⟨fReg w 29, fReg w 23, BitVec.ofNat 14 (w / 2 ^ 9)⟩

/-- The word of a swarm instruction, as a number (R30 to R38); none for what has no word. -/
def encodeNat : Instr → Option Nat
  | .add h ty d a b => some (rWord h 0x01 d.toNat a.toNat b.toNat 0 (0) ty.code 0)
  | .sub h ty d a b => some (rWord h 0x02 d.toNat a.toNat b.toNat 0 (0) ty.code 0)
  | .mul h ty d a b => some (rWord h 0x03 d.toNat a.toNat b.toNat 0 (0) ty.code 0)
  | .mulh h k ty d a b => some (rWord h 0x04 d.toNat a.toNat b.toNat 0 (k.code) ty.code 0)
  | .div h u ty d a b => some (rWord h 0x05 d.toNat a.toNat b.toNat 0 (u.toNat) ty.code 0)
  | .rem h u ty d a b => some (rWord h 0x06 d.toNat a.toNat b.toNat 0 (u.toNat) ty.code 0)
  | .and h ty d a b => some (rWord h 0x07 d.toNat a.toNat b.toNat 0 (0) ty.code 0)
  | .or h ty d a b => some (rWord h 0x08 d.toNat a.toNat b.toNat 0 (0) ty.code 0)
  | .xor h ty d a b => some (rWord h 0x09 d.toNat a.toNat b.toNat 0 (0) ty.code 0)
  | .andn h ty d a b => some (rWord h 0x0A d.toNat a.toNat b.toNat 0 (0) ty.code 0)
  | .shl h ty d a b => some (rWord h 0x0B d.toNat a.toNat b.toNat 0 (0) ty.code 0)
  | .shr h ty d a b => some (rWord h 0x0C d.toNat a.toNat b.toNat 0 (0) ty.code 0)
  | .sar h ty d a b => some (rWord h 0x0D d.toNat a.toNat b.toNat 0 (0) ty.code 0)
  | .min h u ty d a b => some (rWord h 0x0E d.toNat a.toNat b.toNat 0 (u.toNat) ty.code 0)
  | .max h u ty d a b => some (rWord h 0x0F d.toNat a.toNat b.toNat 0 (u.toNat) ty.code 0)
  | .clz h ty d a => some (rWord h 0x10 d.toNat a.toNat 0 0 (0) ty.code 0)
  | .ctz h ty d a => some (rWord h 0x11 d.toNat a.toNat 0 0 (0) ty.code 0)
  | .popc h ty d a => some (rWord h 0x12 d.toNat a.toNat 0 0 (0) ty.code 0)
  | .bfx h sg d a b => some (rWord h 0x13 d.toNat a.toNat b.toNat 0 (sg.toNat) 0 0)
  | .bfi h d a b c => some (rWord h 0x14 d.toNat a.toNat b.toNat c.toNat (0) 0 0)
  | .sel h d a b p => some (rWord h 0x15 d.toNat a.toNat b.toNat 0 (p.toNat) 0 0)
  | .hash h d a b => some (rWord h 0x16 d.toNat a.toNat b.toNat 0 (0) 0 0)
  | .madd h ty d a b c => some (rWord h 0x17 d.toNat a.toNat b.toNat c.toNat (0) ty.code 0)
  | .addi h d a imm => some (iWord h 0x18 d.toNat a.toNat imm.toNat)
  | .andi h d a imm => some (iWord h 0x19 d.toNat a.toNat imm.toNat)
  | .ori h d a imm => some (iWord h 0x1A d.toNat a.toNat imm.toNat)
  | .xori h d a imm => some (iWord h 0x1B d.toNat a.toNat imm.toNat)
  | .movi h d imm => some (iWord h 0x1C d.toNat 0 imm.toNat)
  | .ldc h d a imm => some (iWord h 0x1D d.toNat a.toNat imm.toNat)
  | .shi h k d a n => some (iWord h 0x1E d.toNat a.toNat (k.code * 64 + n.toNat))
  | .fadd h ty rm d a b => some (rWord h 0x20 d.toNat a.toNat b.toNat 0 (0) ty.code rm.code)
  | .fsub h ty rm d a b => some (rWord h 0x21 d.toNat a.toNat b.toNat 0 (0) ty.code rm.code)
  | .fmul h ty rm d a b => some (rWord h 0x22 d.toNat a.toNat b.toNat 0 (0) ty.code rm.code)
  | .ffma h ty rm d a b c => some (rWord h 0x23 d.toNat a.toNat b.toNat c.toNat (0) ty.code rm.code)
  | .fmin h ty d a b => some (rWord h 0x24 d.toNat a.toNat b.toNat 0 (0) ty.code 0)
  | .fmax h ty d a b => some (rWord h 0x25 d.toNat a.toNat b.toNat 0 (0) ty.code 0)
  | .fdiv h ty rm d a b => some (rWord h 0x26 d.toNat a.toNat b.toNat 0 (0) ty.code rm.code)
  | .fsqrt h ty rm d a => some (rWord h 0x27 d.toNat a.toNat 0 0 (0) ty.code rm.code)
  | .fcvt h dst src rm d a => some (rWord h 0x28 d.toNat a.toNat 0 0 (dst.code * 16 + src.code) 0 rm.code)
  | .fclass h ty d a => some (rWord h 0x29 d.toNat a.toNat 0 0 (0) ty.code 0)
  | .fexp2 h rm d a => some (rWord h 0x2A d.toNat a.toNat 0 0 (0) 0 rm.code)
  | .icmp h cc ty pt pf a b cm => some (cWord h 0x30 pt.toNat pf.toNat a.toNat (b.code * 512) cc.code ty.code b.isImm.toNat cm.toNat)
  | .fcmp h cc ty pt pf a b cm => some (cWord h 0x31 pt.toNat pf.toNat a.toNat (b.toNat * 2 ^ 15) cc.code ty.code 0 cm.toNat)
  | .plog h cc pt pf pa pb cm => some (pWord h 0x32 pt.toNat pf.toNat pa.toNat pb.toNat cc.toNat cm.toNat)
  | .pxferGet h d half => some (rWord h 0x33 d.toNat 0 0 0 (half.toNat * 2) 0 0)
  | .pxferPut h a half => some (rWord h 0x33 0 a.toNat 0 0 (half.toNat * 2 + 1) 0 0)
  | .br h disp => some (iWord h 0x38 0 0 disp.toNat)
  | .call h l disp => some (iWord h 0x39 l.toNat 0 disp.toNat)
  | .jmp h l a disp => some (iWord h 0x3A l.toNat a.toNat disp.toNat)
  | .ld h sz sx acq sco d m => some (mWord h 0x40 d.toNat m sz.code (if acq then 1 else 0) sco.code sx.toNat)
  | .st h sz rel sco d m => some (mWord h 0x41 d.toNat m sz.code (if rel then 2 else 0) sco.code 0)
  | .ldfe h d m => some (mWord h 0x42 d.toNat m 3 0 0 0)
  | .ldff h d m => some (mWord h 0x43 d.toNat m 3 0 0 0)
  | .stef h d m => some (mWord h 0x44 d.toNat m 3 0 0 0)
  | .stff h d m => some (mWord h 0x45 d.toNat m 3 0 0 0)
  | .fezero h m => some (mWord h 0x46 0 m 3 0 0 0)
  | .amo h k ty ord sco cmb d a b => some (rWord h 0x47 d.toNat a.toNat b.toNat 0 (ord.code * 64 + cmb.toNat * 32 + k.code) ty.code sco.code)
  | .cas h ty ord sco d a b c => some (rWord h 0x48 d.toNat a.toNat b.toNat c.toNat (ord.code * 64) ty.code sco.code)
  | .fence h ord sco => some (mWord h 0x49 0 ⟨0, 0, 0⟩ 0 ord.code sco.code 0)
  | .pref h l2 m => some (mWord h 0x4A 0 m 0 0 0 l2.toNat)
  | .clean h mm m => some (mWord h 0x4B 0 m 0 0 0 mm.toNat)
  | .inval h mm m => some (mWord h 0x4C 0 m 0 0 0 mm.toNat)
  | .copy h d a t1 t2 t3 => some (eWord h 0x50 d.toNat a.toNat t1.toNat t2.toNat t3.toNat (0))
  | .sbindIn h k esz sx d a t1 t2 t3 => some (eWord h 0x51 d.toNat a.toNat t1.toNat t2.toNat t3.toNat (k.toNat + esz.toNat * 8 + sx.toNat * 32))
  | .sbindOut h k esz sx d a t1 t2 t3 => some (eWord h 0x51 d.toNat a.toNat t1.toNat t2.toNat t3.toNat (k.toNat + 4 + esz.toNat * 8 + sx.toNat * 32))
  | .sclose h k d => some (eWord h 0x52 d.toNat 0 0 0 0 (k.toNat))
  | .tkwait h d a => some (eWord h 0x53 d.toNat a.toNat 0 0 0 (0))
  | .tktest h pt pf a cm => some (cWord h 0x54 pt.toNat pf.toNat a.toNat 0 0 0 0 cm.toNat)
  | .topen h ring d a p => some (eWord h 0x58 d.toNat a.toNat 0 0 0 (ring.toNat * 128 + p.toNat))
  | .trow h d a p => some (eWord h 0x59 d.toNat a.toNat 0 0 0 (p.toNat))
  | .tmark h a t1 => some (eWord h 0x5A 0 a.toNat t1.toNat 0 0 (0))
  | .tmarkVoid h a t1 => some (eWord h 0x5A 0 a.toNat t1.toNat 0 0 (1))
  | .seal h d a t1 t2 t3 => some (eWord h 0x5B d.toNat a.toNat t1.toNat t2.toNat t3.toNat (0))
  | .tdrop h a => some (eWord h 0x5C 0 a.toNat 0 0 0 (0))
  | .tstat h d a => some (eWord h 0x5D d.toNat a.toNat 0 0 0 (0))
  | .muload h m a t1 => some (eWord h 0x5E 0 a.toNat t1.toNat 0 0 (m.toNat))
  | .mupost h n d a t1 t2 t3 => some (eWord h 0x5F d.toNat a.toNat t1.toNat t2.toNat t3.toNat (n.toNat))
  | .sqnew h a t1 p => some (eWord h 0x60 0 a.toNat t1.toNat 0 0 (p.toNat))
  | .sqres h d a t1 p => some (eWord h 0x61 d.toNat a.toNat t1.toNat 0 0 (p.toNat))
  | .sqcmt h a t1 t2 => some (eWord h 0x62 0 a.toNat t1.toNat t2.toNat 0 (0))
  | .sqlen h d a => some (eWord h 0x63 d.toNat a.toNat 0 0 0 (0))
  | .sqfork h a t1 t2 p => some (eWord h 0x64 0 a.toNat t1.toNat t2.toNat 0 (p.toNat))
  | .sqdrop h a => some (eWord h 0x65 0 a.toNat 0 0 0 (0))
  | .kvst h a => some (eWord h 0x66 0 a.toNat 0 0 0 (0))
  | .kvgathK h d a t1 t2 t3 => some (eWord h 0x67 d.toNat a.toNat t1.toNat t2.toNat t3.toNat (0))
  | .kvgathV h d a t1 t2 t3 => some (eWord h 0x67 d.toNat a.toNat t1.toNat t2.toNat t3.toNat (1))
  | .kvsumB h d a t1 t2 t3 => some (eWord h 0x68 d.toNat a.toNat t1.toNat t2.toNat t3.toNat (0))
  | .kvsumR h d a t1 t2 t3 => some (eWord h 0x68 d.toNat a.toNat t1.toNat t2.toNat t3.toNat (1))
  | .kvpf h a t1 => some (eWord h 0x69 0 a.toNat t1.toNat 0 0 (0))
  | .kvpfW h d a t1 => some (eWord h 0x69 d.toNat a.toNat t1.toNat 0 0 (1))
  | .kvpinOn h d a t1 => some (eWord h 0x6A d.toNat a.toNat t1.toNat 0 0 (1))
  | .kvpinOff h d a t1 => some (eWord h 0x6A d.toNat a.toNat t1.toNat 0 0 (0))
  | .kvqrel h a t1 => some (eWord h 0x6B 0 a.toNat t1.toNat 0 0 (0))
  | .bar h sco b d a => some (eWord h 0x70 d.toNat a.toNat 0 0 0 (b.toNat + sco.code * 16))
  | .chopen h d a p => some (eWord h 0x71 d.toNat a.toNat 0 0 0 (p.toNat))
  | .chsend h a t1 t2 => some (eWord h 0x72 0 a.toNat t1.toNat t2.toNat 0 (0))
  | .chtry h a t1 t2 p => some (eWord h 0x73 0 a.toNat t1.toNat t2.toNat 0 (p.toNat))
  | .chrecv h d a t1 => some (eWord h 0x74 d.toNat a.toNat t1.toNat 0 0 (0))
  | .chgrant h d a t1 t2 => some (eWord h 0x75 d.toNat a.toNat t1.toNat t2.toNat 0 (0))
  | .alt h d a => some (eWord h 0x76 d.toNat a.toNat 0 0 0 (0))
  | .chclose h d a => some (eWord h 0x77 d.toNat a.toNat 0 0 0 (0))
  | .qbindUp h a => some (eWord h 0x78 0 a.toNat 0 0 0 (0))
  | .qbindDown h a => some (eWord h 0x78 0 a.toNat 0 0 0 (1))
  | .launch h d a p => some (eWord h 0x80 d.toNat a.toNat 0 0 0 (p.toNat))
  | .tenq h d a p => some (eWord h 0x81 d.toNat a.toNat 0 0 0 (p.toNat))
  | .tdec h a => some (eWord h 0x82 0 a.toNat 0 0 0 (0))
  | .tdone h => some (eWord h 0x83 0 0 0 0 0 (0))
  | .tpoll h d a => some (eWord h 0x84 d.toNat a.toNat 0 0 0 (0))
  | .start h d a t1 p => some (eWord h 0x85 d.toNat a.toNat t1.toNat 0 0 (p.toNat))
  | .hexit h a => some (eWord h 0x86 0 a.toNat 0 0 0 (0))
  | .hjoin h d a p => some (eWord h 0x87 d.toNat a.toNat 0 0 0 (p.toNat))
  | .msgbind h m a t1 t2 => some (eWord h 0x88 0 a.toNat t1.toNat t2.toNat 0 (m.toNat))
  | .sleep h d a => some (eWord h 0x89 d.toNat a.toNat 0 0 0 (0))
  | .getid h d k => some (eWord h 0x8A d.toNat 0 0 0 0 (k.toNat))
  | .trap h n => some (iWord h 0x90 0 0 n.toNat)
  | .trapBrk h n => some (iWord h 0x90 0 0 (n.toNat + 65536))
  | .eret h => some (eWord h 0x91 0 0 0 0 0 (0))
  | .srd h d n => some (iWord h 0x92 d.toNat 0 n.toNat)
  | .swr h a n => some (iWord h 0x93 0 a.toNat n.toNat)
  | .upret h a => some (eWord h 0x94 0 a.toNat 0 0 0 (0))
  | .wake h a t1 => some (eWord h 0x95 0 a.toNat t1.toNat 0 0 (0))
  | .wkdoneOk h lvl a t1 => some (eWord h 0x96 0 a.toNat t1.toNat 0 0 (lvl.toNat * 4))
  | .wkdoneNp h t1 => some (eWord h 0x96 0 0 t1.toNat 0 0 (1))
  | .wkdoneProt h t1 => some (eWord h 0x96 0 0 t1.toNat 0 0 (2))
  | .tlbinvPage h sco a t1 => some (eWord h 0x97 0 a.toNat t1.toNat 0 0 (0 + sco.code * 4))
  | .tlbinvAsid h sco t1 => some (eWord h 0x97 0 0 t1.toNat 0 0 (1 + sco.code * 4))
  | .tlbinvAll h sco => some (eWord h 0x97 0 0 0 0 0 (2 + sco.code * 4))
  | .gstopHalt h a => some (eWord h 0x98 0 a.toNat 0 0 0 (0))
  | .gstopGo h a => some (eWord h 0x98 0 a.toNat 0 0 0 (1))
  | .ctxsaveSlot h a t1 => some (eWord h 0x99 0 a.toNat t1.toNat 0 0 (0))
  | .ctxloadSlot h a t1 => some (eWord h 0x9A 0 a.toNat t1.toNat 0 0 (0))
  | .ctxsaveCl h d a t1 t2 => some (eWord h 0x99 d.toNat a.toNat t1.toNat t2.toNat 0 (1))
  | .ctxloadCl h a t1 => some (eWord h 0x9A 0 a.toNat t1.toNat 0 0 (1))
  | .ctxloadClRp h a t1 t2 => some (eWord h 0x9A 0 a.toNat t1.toNat t2.toNat 0 (3))
  | .seqTake _ => none
  | .seqJump _ _ => none
  | .seqLoopn _ _ => none
  | .seqEndl _ => none
  | .seqDone _ _ => none
  | .seqIdle _ => none
  | .afFeed _ _ _ => none
  | .afBase _ _ => none
  | .afFrom _ _ => none
  | .blLoad _ => none
  | .blSwap _ => none
  | .blHad _ _ => none
  | .blPop _ => none
  | .arMode _ _ => none
  | .arPal _ _ => none
  | .arDest _ _ => none
  | .arAccum _ _ => none
  | .acClear _ _ => none
  | .acSel _ _ => none
  | .acPclr _ _ => none
  | .drDrain _ _ _ => none
  | .drFmt _ _ => none
  | .drScale _ _ => none
  | .drRound _ _ => none
  | .ppOp _ _ => none
  | .ppK _ _ => none
  | .ppPasses _ _ => none
  | .ppNcol _ _ => none
  | .owOpen _ _ => none
  | .owWrite _ _ _ => none
  | .owSealout _ => none
  | .dispatchTake _ => none
  | .feedRowEntry _ => none
  | .rowLanding _ => none
  | .canvasLoadComplete _ => none
  | .drainRowRead _ => none
  | .outRowWrite _ => none
  | .sealoutComplete _ => none
  | .runTokenComplete _ => none
  | .muPoison _ _ => none
  | .muResume _ => none
  | .muRest _ => none
  | .tileTimerExpiry _ _ _ => none
  | .tilePost _ _ _ => none
  | .copyCommandStart _ => none
  | .copyCommandEnd _ => none
  | .streamFill _ _ => none
  | .countedAccessComplete _ _ => none
  | .remoteReply _ _ _ _ _ => none
  | .postedAck _ _ => none
  | .delayedFaultArrival _ _ _ => none
  | .remoteRequest _ => none
  | .feServe _ => none
  | .feTimeout _ _ => none
  | .barrierRelease _ => none
  | .messageArrival _ => none
  | .grantArrival _ => none
  | .messageAckArrival _ _ _ => none
  | .messageContextStart _ => none
  | .sleepExpiry _ => none
  | .hjoinWake _ => none
  | .relightArrival _ => none
  | .tlbEntryDrop _ _ _ => none
  | .wkMissPop _ => none
  | .upcallPop _ => none
  | .dispatchTask _ => none
  | .dispatchGroup _ => none
  | .routineImageLoad _ => none
  | .decrementArrival _ _ _ => none
  | .agingPromotion _ _ => none
  | .groupRecordWrite _ _ => none
  | .launchDoneRecord _ _ => none
  | .ridxPoll _ _ => none
  | .handlerSpawn _ => none
  | .schedAccessRetry _ _ => none
  | .gatherRun _ => none
  | .summaryRun _ => none
  | .frameAllocation _ => none
  | .evictionStart _ => none
  | .evictionComplete _ => none
  | .promotionComplete _ => none
  | .coreLsplitWrite _ => none
  | .coreAtpWrite _ => none
  | .kvCtlWrite _ => none
  | .schedUnderClear => none
  | .schedFclr _ => none
  | .fabExportWrite _ => none
  | .fabKload _ => none
  | .pwrCtlWrite _ => none
  | .islandStepChange _ => none
  | .powerWindow _ => none
  | .bootOk _ => none
  | .attestReport _ => none
  | .attestIdentityKey _ => none
  | .registerWrite _ _ => none
  | .moduleReset => none
  | .clusterReady _ => none
  | .dieReady _ => none
  | .linkReady _ => none
  | .bootDeadlineExpiry => none
  | .powerStageFault => none
  | .dieLoss _ => none
  | .hostDoorbell _ => none
  | .hostWindowAccess _ => none
  | .hostWindowRegisterWrite _ _ => none
  | .unassignedOpcode w => some w.toNat
  | .fetchFault _ _ => none
  | .barrierArrival _ _ _ _ => none
  | .schedulerAnswer _ _ => none
  | .lanternAnswer _ _ => none
  | .lsplitChangeDone _ => none

/-- The 64-bit word of a swarm instruction (R30 to R38). -/
def encode (i : Instr) : Option Word := (encodeNat i).map (BitVec.ofNat 64)

/-- The 24-bit slot of a matrix-unit move (R43, R227); none for what is no move. -/
def encodeMove : Instr → Option Nat
  | .add _ _ _ _ _ => none
  | .sub _ _ _ _ _ => none
  | .mul _ _ _ _ _ => none
  | .mulh _ _ _ _ _ _ => none
  | .div _ _ _ _ _ _ => none
  | .rem _ _ _ _ _ _ => none
  | .and _ _ _ _ _ => none
  | .or _ _ _ _ _ => none
  | .xor _ _ _ _ _ => none
  | .andn _ _ _ _ _ => none
  | .shl _ _ _ _ _ => none
  | .shr _ _ _ _ _ => none
  | .sar _ _ _ _ _ => none
  | .min _ _ _ _ _ _ => none
  | .max _ _ _ _ _ _ => none
  | .clz _ _ _ _ => none
  | .ctz _ _ _ _ => none
  | .popc _ _ _ _ => none
  | .bfx _ _ _ _ _ => none
  | .bfi _ _ _ _ _ => none
  | .sel _ _ _ _ _ => none
  | .hash _ _ _ _ => none
  | .madd _ _ _ _ _ _ => none
  | .addi _ _ _ _ => none
  | .andi _ _ _ _ => none
  | .ori _ _ _ _ => none
  | .xori _ _ _ _ => none
  | .movi _ _ _ => none
  | .ldc _ _ _ _ => none
  | .shi _ _ _ _ _ => none
  | .fadd _ _ _ _ _ _ => none
  | .fsub _ _ _ _ _ _ => none
  | .fmul _ _ _ _ _ _ => none
  | .ffma _ _ _ _ _ _ _ => none
  | .fmin _ _ _ _ _ => none
  | .fmax _ _ _ _ _ => none
  | .fdiv _ _ _ _ _ _ => none
  | .fsqrt _ _ _ _ _ => none
  | .fcvt _ _ _ _ _ _ => none
  | .fclass _ _ _ _ => none
  | .fexp2 _ _ _ _ => none
  | .icmp _ _ _ _ _ _ _ _ => none
  | .fcmp _ _ _ _ _ _ _ _ => none
  | .plog _ _ _ _ _ _ _ => none
  | .pxferGet _ _ _ => none
  | .pxferPut _ _ _ => none
  | .br _ _ => none
  | .call _ _ _ => none
  | .jmp _ _ _ _ => none
  | .ld _ _ _ _ _ _ _ => none
  | .st _ _ _ _ _ _ => none
  | .ldfe _ _ _ => none
  | .ldff _ _ _ => none
  | .stef _ _ _ => none
  | .stff _ _ _ => none
  | .fezero _ _ => none
  | .amo _ _ _ _ _ _ _ _ _ => none
  | .cas _ _ _ _ _ _ _ _ => none
  | .fence _ _ _ => none
  | .pref _ _ _ => none
  | .clean _ _ _ => none
  | .inval _ _ _ => none
  | .copy _ _ _ _ _ _ => none
  | .sbindIn _ _ _ _ _ _ _ _ _ => none
  | .sbindOut _ _ _ _ _ _ _ _ _ => none
  | .sclose _ _ _ => none
  | .tkwait _ _ _ => none
  | .tktest _ _ _ _ _ => none
  | .topen _ _ _ _ _ => none
  | .trow _ _ _ _ => none
  | .tmark _ _ _ => none
  | .tmarkVoid _ _ _ => none
  | .seal _ _ _ _ _ _ => none
  | .tdrop _ _ => none
  | .tstat _ _ _ => none
  | .muload _ _ _ _ => none
  | .mupost _ _ _ _ _ _ _ => none
  | .sqnew _ _ _ _ => none
  | .sqres _ _ _ _ _ => none
  | .sqcmt _ _ _ _ => none
  | .sqlen _ _ _ => none
  | .sqfork _ _ _ _ _ => none
  | .sqdrop _ _ => none
  | .kvst _ _ => none
  | .kvgathK _ _ _ _ _ _ => none
  | .kvgathV _ _ _ _ _ _ => none
  | .kvsumB _ _ _ _ _ _ => none
  | .kvsumR _ _ _ _ _ _ => none
  | .kvpf _ _ _ => none
  | .kvpfW _ _ _ _ => none
  | .kvpinOn _ _ _ _ => none
  | .kvpinOff _ _ _ _ => none
  | .kvqrel _ _ _ => none
  | .bar _ _ _ _ _ => none
  | .chopen _ _ _ _ => none
  | .chsend _ _ _ _ => none
  | .chtry _ _ _ _ _ => none
  | .chrecv _ _ _ _ => none
  | .chgrant _ _ _ _ _ => none
  | .alt _ _ _ => none
  | .chclose _ _ _ => none
  | .qbindUp _ _ => none
  | .qbindDown _ _ => none
  | .launch _ _ _ _ => none
  | .tenq _ _ _ _ => none
  | .tdec _ _ => none
  | .tdone _ => none
  | .tpoll _ _ _ => none
  | .start _ _ _ _ _ => none
  | .hexit _ _ => none
  | .hjoin _ _ _ _ => none
  | .msgbind _ _ _ _ _ => none
  | .sleep _ _ _ => none
  | .getid _ _ _ => none
  | .trap _ _ => none
  | .trapBrk _ _ => none
  | .eret _ => none
  | .srd _ _ _ => none
  | .swr _ _ _ => none
  | .upret _ _ => none
  | .wake _ _ _ => none
  | .wkdoneOk _ _ _ _ => none
  | .wkdoneNp _ _ => none
  | .wkdoneProt _ _ => none
  | .tlbinvPage _ _ _ _ => none
  | .tlbinvAsid _ _ _ => none
  | .tlbinvAll _ _ => none
  | .gstopHalt _ _ => none
  | .gstopGo _ _ => none
  | .ctxsaveSlot _ _ _ => none
  | .ctxloadSlot _ _ _ => none
  | .ctxsaveCl _ _ _ _ _ => none
  | .ctxloadCl _ _ _ => none
  | .ctxloadClRp _ _ _ _ => none
  | .seqTake hold => some (slotWord hold 0x00 (0xFF) (0))
  | .seqJump hold t => some (slotWord hold 0x01 (t.src) (t.mod))
  | .seqLoopn hold n => some (slotWord hold 0x02 (n.src) (n.mod))
  | .seqEndl hold => some (slotWord hold 0x03 (0xFF) (0))
  | .seqDone hold cont => some (slotWord hold 0x04 (0xFF) (cont.toNat))
  | .seqIdle hold => some (slotWord hold 0x05 (0xFF) (0))
  | .afFeed hold start n => some (slotWord hold 0x20 ((start.map OutPort.code).getD 0xFF) (n.toNat))
  | .afBase hold n => some (slotWord hold 0x21 (0xFF) (n.toNat))
  | .afFrom hold f => some (slotWord hold 0x22 (0xFF) (f.code))
  | .blLoad hold => some (slotWord hold 0x40 (0xFF) (0))
  | .blSwap hold => some (slotWord hold 0x41 (0xFF) (0))
  | .blHad hold half => some (slotWord hold 0x42 (0xFF) (half.toNat))
  | .blPop hold => some (slotWord hold 0x43 (0xFF) (0))
  | .arMode hold m => some (slotWord hold 0x60 (0xFF) (m.code))
  | .arPal hold op => some (slotWord hold 0x61 (0xFF) (op.code))
  | .arDest hold b => some (slotWord hold 0x62 (0xFF) (b.toNat))
  | .arAccum hold v => some (slotWord hold 0x63 (0xFF) (v.code))
  | .acClear hold b => some (slotWord hold 0x80 (0xFF) (b.toNat))
  | .acSel hold b => some (slotWord hold 0x81 (0xFF) (b.toNat))
  | .acPclr hold b => some (slotWord hold 0x82 (0xFF) (b.toNat))
  | .drDrain hold start n => some (slotWord hold 0xA0 ((start.map OutPort.code).getD 0xFF) (n.toNat))
  | .drFmt hold f => some (slotWord hold 0xA1 (0xFF) (f.code))
  | .drScale hold n => some (slotWord hold 0xA2 (0xFF) (n.toNat))
  | .drRound hold rm => some (slotWord hold 0xA3 (0xFF) (rm.code))
  | .ppOp hold op => some (slotWord hold 0xC0 (0xFF) (op.code))
  | .ppK hold n => some (slotWord hold 0xC1 (0xFF) (n.toNat))
  | .ppPasses hold n => some (slotWord hold 0xC2 (0xFF) (n.toNat))
  | .ppNcol hold n => some (slotWord hold 0xC3 (0xFF) (n.toNat))
  | .owOpen hold ring => some (slotWord hold 0xE0 (0xFF) (ring.toNat))
  | .owWrite hold en base => some (slotWord hold 0xE1 (0xFF) (en.toNat * 64 + base.toNat))
  | .owSealout hold => some (slotWord hold 0xE2 (0xFF) (0))
  | .dispatchTake _ => none
  | .feedRowEntry _ => none
  | .rowLanding _ => none
  | .canvasLoadComplete _ => none
  | .drainRowRead _ => none
  | .outRowWrite _ => none
  | .sealoutComplete _ => none
  | .runTokenComplete _ => none
  | .muPoison _ _ => none
  | .muResume _ => none
  | .muRest _ => none
  | .tileTimerExpiry _ _ _ => none
  | .tilePost _ _ _ => none
  | .copyCommandStart _ => none
  | .copyCommandEnd _ => none
  | .streamFill _ _ => none
  | .countedAccessComplete _ _ => none
  | .remoteReply _ _ _ _ _ => none
  | .postedAck _ _ => none
  | .delayedFaultArrival _ _ _ => none
  | .remoteRequest _ => none
  | .feServe _ => none
  | .feTimeout _ _ => none
  | .barrierRelease _ => none
  | .messageArrival _ => none
  | .grantArrival _ => none
  | .messageAckArrival _ _ _ => none
  | .messageContextStart _ => none
  | .sleepExpiry _ => none
  | .hjoinWake _ => none
  | .relightArrival _ => none
  | .tlbEntryDrop _ _ _ => none
  | .wkMissPop _ => none
  | .upcallPop _ => none
  | .dispatchTask _ => none
  | .dispatchGroup _ => none
  | .routineImageLoad _ => none
  | .decrementArrival _ _ _ => none
  | .agingPromotion _ _ => none
  | .groupRecordWrite _ _ => none
  | .launchDoneRecord _ _ => none
  | .ridxPoll _ _ => none
  | .handlerSpawn _ => none
  | .schedAccessRetry _ _ => none
  | .gatherRun _ => none
  | .summaryRun _ => none
  | .frameAllocation _ => none
  | .evictionStart _ => none
  | .evictionComplete _ => none
  | .promotionComplete _ => none
  | .coreLsplitWrite _ => none
  | .coreAtpWrite _ => none
  | .kvCtlWrite _ => none
  | .schedUnderClear => none
  | .schedFclr _ => none
  | .fabExportWrite _ => none
  | .fabKload _ => none
  | .pwrCtlWrite _ => none
  | .islandStepChange _ => none
  | .powerWindow _ => none
  | .bootOk _ => none
  | .attestReport _ => none
  | .attestIdentityKey _ => none
  | .registerWrite _ _ => none
  | .moduleReset => none
  | .clusterReady _ => none
  | .dieReady _ => none
  | .linkReady _ => none
  | .bootDeadlineExpiry => none
  | .powerStageFault => none
  | .dieLoss _ => none
  | .hostDoorbell _ => none
  | .hostWindowAccess _ => none
  | .hostWindowRegisterWrite _ _ => none
  | .unassignedOpcode _ => none
  | .fetchFault _ _ => none
  | .barrierArrival _ _ _ _ => none
  | .schedulerAnswer _ _ => none
  | .lanternAnswer _ _ => none
  | .lsplitChangeDone _ => none

/-- The instruction whose fields a word holds, by its opcode (R39): its fields are read here, its checks made in
`decodeNat`. -/
def candidate (w : Nat) : Option Instr :=
  match bits w 48 8 with
  | 0x01 => some (.add (fHdr w) (IntTy.ofCode (bits w 6 3)) (fReg w 35) (fReg w 29) (fReg w 23))
  | 0x02 => some (.sub (fHdr w) (IntTy.ofCode (bits w 6 3)) (fReg w 35) (fReg w 29) (fReg w 23))
  | 0x03 => some (.mul (fHdr w) (IntTy.ofCode (bits w 6 3)) (fReg w 35) (fReg w 29) (fReg w 23))
  | 0x04 => some (.mulh (fHdr w) (MulhKind.ofCode (bits w 9 8)) (IntTy.ofCode (bits w 6 3)) (fReg w 35) (fReg w 29) (fReg w 23))
  | 0x05 => some (.div (fHdr w) (bit w 9) (IntTy.ofCode (bits w 6 3)) (fReg w 35) (fReg w 29) (fReg w 23))
  | 0x06 => some (.rem (fHdr w) (bit w 9) (IntTy.ofCode (bits w 6 3)) (fReg w 35) (fReg w 29) (fReg w 23))
  | 0x07 => some (.and (fHdr w) (IntTy.ofCode (bits w 6 3)) (fReg w 35) (fReg w 29) (fReg w 23))
  | 0x08 => some (.or (fHdr w) (IntTy.ofCode (bits w 6 3)) (fReg w 35) (fReg w 29) (fReg w 23))
  | 0x09 => some (.xor (fHdr w) (IntTy.ofCode (bits w 6 3)) (fReg w 35) (fReg w 29) (fReg w 23))
  | 0x0A => some (.andn (fHdr w) (IntTy.ofCode (bits w 6 3)) (fReg w 35) (fReg w 29) (fReg w 23))
  | 0x0B => some (.shl (fHdr w) (IntTy.ofCode (bits w 6 3)) (fReg w 35) (fReg w 29) (fReg w 23))
  | 0x0C => some (.shr (fHdr w) (IntTy.ofCode (bits w 6 3)) (fReg w 35) (fReg w 29) (fReg w 23))
  | 0x0D => some (.sar (fHdr w) (IntTy.ofCode (bits w 6 3)) (fReg w 35) (fReg w 29) (fReg w 23))
  | 0x0E => some (.min (fHdr w) (bit w 9) (IntTy.ofCode (bits w 6 3)) (fReg w 35) (fReg w 29) (fReg w 23))
  | 0x0F => some (.max (fHdr w) (bit w 9) (IntTy.ofCode (bits w 6 3)) (fReg w 35) (fReg w 29) (fReg w 23))
  | 0x10 => some (.clz (fHdr w) (IntTy.ofCode (bits w 6 3)) (fReg w 35) (fReg w 29))
  | 0x11 => some (.ctz (fHdr w) (IntTy.ofCode (bits w 6 3)) (fReg w 35) (fReg w 29))
  | 0x12 => some (.popc (fHdr w) (IntTy.ofCode (bits w 6 3)) (fReg w 35) (fReg w 29))
  | 0x13 => some (.bfx (fHdr w) (bit w 9) (fReg w 35) (fReg w 29) (fReg w 23))
  | 0x14 => some (.bfi (fHdr w) (fReg w 35) (fReg w 29) (fReg w 23) (fReg w 17))
  | 0x15 => some (.sel (fHdr w) (fReg w 35) (fReg w 29) (fReg w 23) (fPred w 9))
  | 0x16 => some (.hash (fHdr w) (fReg w 35) (fReg w 29) (fReg w 23))
  | 0x17 => some (.madd (fHdr w) (IntTy.ofCode (bits w 6 3)) (fReg w 35) (fReg w 29) (fReg w 23) (fReg w 17))
  | 0x18 => some (.addi (fHdr w) (fReg w 35) (fReg w 29) (BitVec.ofNat 29 w))
  | 0x19 => some (.andi (fHdr w) (fReg w 35) (fReg w 29) (BitVec.ofNat 29 w))
  | 0x1A => some (.ori (fHdr w) (fReg w 35) (fReg w 29) (BitVec.ofNat 29 w))
  | 0x1B => some (.xori (fHdr w) (fReg w 35) (fReg w 29) (BitVec.ofNat 29 w))
  | 0x1C => some (.movi (fHdr w) (fReg w 35) (BitVec.ofNat 29 w))
  | 0x1D => some (.ldc (fHdr w) (fReg w 35) (fReg w 29) (BitVec.ofNat 29 w))
  | 0x1E => some (.shi (fHdr w) (ShiKind.ofCode (bits w 6 2)) (fReg w 35) (fReg w 29) (BitVec.ofNat 6 w))
  | 0x20 => some (.fadd (fHdr w) (FloatTy.ofCode (bits w 6 3)) (Rm.ofCode (bits w 3 3)) (fReg w 35) (fReg w 29) (fReg w 23))
  | 0x21 => some (.fsub (fHdr w) (FloatTy.ofCode (bits w 6 3)) (Rm.ofCode (bits w 3 3)) (fReg w 35) (fReg w 29) (fReg w 23))
  | 0x22 => some (.fmul (fHdr w) (FloatTy.ofCode (bits w 6 3)) (Rm.ofCode (bits w 3 3)) (fReg w 35) (fReg w 29) (fReg w 23))
  | 0x23 => some (.ffma (fHdr w) (FloatTy.ofCode (bits w 6 3)) (Rm.ofCode (bits w 3 3)) (fReg w 35) (fReg w 29) (fReg w 23) (fReg w 17))
  | 0x24 => some (.fmin (fHdr w) (FloatTy.ofCode (bits w 6 3)) (fReg w 35) (fReg w 29) (fReg w 23))
  | 0x25 => some (.fmax (fHdr w) (FloatTy.ofCode (bits w 6 3)) (fReg w 35) (fReg w 29) (fReg w 23))
  | 0x26 => some (.fdiv (fHdr w) (FloatTy.ofCode (bits w 6 3)) (Rm.ofCode (bits w 3 3)) (fReg w 35) (fReg w 29) (fReg w 23))
  | 0x27 => some (.fsqrt (fHdr w) (FloatTy.ofCode (bits w 6 3)) (Rm.ofCode (bits w 3 3)) (fReg w 35) (fReg w 29))
  | 0x28 => some (.fcvt (fHdr w) (CvtTy.ofCode (bits w 13 4)) (CvtTy.ofCode (bits w 9 4)) (Rm.ofCode (bits w 3 3)) (fReg w 35) (fReg w 29))
  | 0x29 => some (.fclass (fHdr w) (FloatTy.ofCode (bits w 6 3)) (fReg w 35) (fReg w 29))
  | 0x2A => some (.fexp2 (fHdr w) (Rm.ofCode (bits w 3 3)) (fReg w 35) (fReg w 29))
  | 0x30 => some (.icmp (fHdr w) (Icc.ofCode (bits w 5 4)) (IntTy.ofCode (bits w 2 3)) (fPred w 34) (fPred w 27) (fReg w 21) (if bit w 1 then .imm (BitVec.ofNat 12 (w / 2 ^ 9)) else .reg (fReg w 15)) (bit w 0))
  | 0x31 => some (.fcmp (fHdr w) (Fcc.ofCode (bits w 5 4)) (FloatTy.ofCode (bits w 2 3)) (fPred w 34) (fPred w 27) (fReg w 21) (fReg w 15) (bit w 0))
  | 0x32 => some (.plog (fHdr w) (BitVec.ofNat 4 (w / 2 ^ 5)) (fPred w 34) (fPred w 27) (fPred w 20) (fPred w 13) (bit w 0))
  | 0x33 => some (if bits w 9 1 == 0 then .pxferGet (fHdr w) (fReg w 35) (bit w 10) else .pxferPut (fHdr w) (fReg w 29) (bit w 10))
  | 0x38 => some (.br (fHdr w) (BitVec.ofNat 29 w))
  | 0x39 => some (.call (fHdr w) (fReg w 35) (BitVec.ofNat 29 w))
  | 0x3A => some (.jmp (fHdr w) (fReg w 35) (fReg w 29) (BitVec.ofNat 29 w))
  | 0x40 => some (.ld (fHdr w) (MSize.ofCode (bits w 6 3)) (bit w 0) (bit w 4) (Scope.ofCode (bits w 1 3)) (fReg w 35) (fAddr w))
  | 0x41 => some (.st (fHdr w) (MSize.ofCode (bits w 6 3)) (bit w 5) (Scope.ofCode (bits w 1 3)) (fReg w 35) (fAddr w))
  | 0x42 => some (.ldfe (fHdr w) (fReg w 35) (fAddr w))
  | 0x43 => some (.ldff (fHdr w) (fReg w 35) (fAddr w))
  | 0x44 => some (.stef (fHdr w) (fReg w 35) (fAddr w))
  | 0x45 => some (.stff (fHdr w) (fReg w 35) (fAddr w))
  | 0x46 => some (.fezero (fHdr w) (fAddr w))
  | 0x47 => some (.amo (fHdr w) (AmoKind.ofCode (bits w 9 5)) (IntTy.ofCode (bits w 6 3)) (MOrd.ofCode (bits w 15 2)) (Scope.ofCode (bits w 3 3)) (bit w 14) (fReg w 35) (fReg w 29) (fReg w 23))
  | 0x48 => some (.cas (fHdr w) (IntTy.ofCode (bits w 6 3)) (MOrd.ofCode (bits w 15 2)) (Scope.ofCode (bits w 3 3)) (fReg w 35) (fReg w 29) (fReg w 23) (fReg w 17))
  | 0x49 => some (.fence (fHdr w) (MOrd.ofCode (bits w 4 2)) (Scope.ofCode (bits w 1 3)))
  | 0x4A => some (.pref (fHdr w) (bit w 0) (fAddr w))
  | 0x4B => some (.clean (fHdr w) (bit w 0) (fAddr w))
  | 0x4C => some (.inval (fHdr w) (bit w 0) (fAddr w))
  | 0x50 => some (.copy (fHdr w) (fReg w 35) (fReg w 29) (fReg w 23) (fReg w 17) (fReg w 11))
  | 0x51 => some (if bits w 2 1 == 0 then .sbindIn (fHdr w) (BitVec.ofNat 2 w) (BitVec.ofNat 2 (w / 2 ^ 3)) (bit w 5) (fReg w 35) (fReg w 29) (fReg w 23) (fReg w 17) (fReg w 11) else .sbindOut (fHdr w) (BitVec.ofNat 2 w) (BitVec.ofNat 2 (w / 2 ^ 3)) (bit w 5) (fReg w 35) (fReg w 29) (fReg w 23) (fReg w 17) (fReg w 11))
  | 0x52 => some (.sclose (fHdr w) (BitVec.ofNat 2 w) (fReg w 35))
  | 0x53 => some (.tkwait (fHdr w) (fReg w 35) (fReg w 29))
  | 0x54 => some (.tktest (fHdr w) (fPred w 34) (fPred w 27) (fReg w 21) (bit w 0))
  | 0x58 => some (.topen (fHdr w) (BitVec.ofNat 4 (w / 2 ^ 7)) (fReg w 35) (fReg w 29) (fPred w 0))
  | 0x59 => some (.trow (fHdr w) (fReg w 35) (fReg w 29) (fPred w 0))
  | 0x5A => some (if bits w 0 1 == 0 then .tmark (fHdr w) (fReg w 29) (fReg w 23) else .tmarkVoid (fHdr w) (fReg w 29) (fReg w 23))
  | 0x5B => some (.seal (fHdr w) (fReg w 35) (fReg w 29) (fReg w 23) (fReg w 17) (fReg w 11))
  | 0x5C => some (.tdrop (fHdr w) (fReg w 29))
  | 0x5D => some (.tstat (fHdr w) (fReg w 35) (fReg w 29))
  | 0x5E => some (.muload (fHdr w) (bit w 0) (fReg w 29) (fReg w 23))
  | 0x5F => some (.mupost (fHdr w) (BitVec.ofNat 8 w) (fReg w 35) (fReg w 29) (fReg w 23) (fReg w 17) (fReg w 11))
  | 0x60 => some (.sqnew (fHdr w) (fReg w 29) (fReg w 23) (fPred w 0))
  | 0x61 => some (.sqres (fHdr w) (fReg w 35) (fReg w 29) (fReg w 23) (fPred w 0))
  | 0x62 => some (.sqcmt (fHdr w) (fReg w 29) (fReg w 23) (fReg w 17))
  | 0x63 => some (.sqlen (fHdr w) (fReg w 35) (fReg w 29))
  | 0x64 => some (.sqfork (fHdr w) (fReg w 29) (fReg w 23) (fReg w 17) (fPred w 0))
  | 0x65 => some (.sqdrop (fHdr w) (fReg w 29))
  | 0x66 => some (.kvst (fHdr w) (fReg w 29))
  | 0x67 => some (if bits w 0 1 == 0 then .kvgathK (fHdr w) (fReg w 35) (fReg w 29) (fReg w 23) (fReg w 17) (fReg w 11) else .kvgathV (fHdr w) (fReg w 35) (fReg w 29) (fReg w 23) (fReg w 17) (fReg w 11))
  | 0x68 => some (if bits w 0 1 == 0 then .kvsumB (fHdr w) (fReg w 35) (fReg w 29) (fReg w 23) (fReg w 17) (fReg w 11) else .kvsumR (fHdr w) (fReg w 35) (fReg w 29) (fReg w 23) (fReg w 17) (fReg w 11))
  | 0x69 => some (if bits w 0 1 == 0 then .kvpf (fHdr w) (fReg w 29) (fReg w 23) else .kvpfW (fHdr w) (fReg w 35) (fReg w 29) (fReg w 23))
  | 0x6A => some (if bits w 0 1 == 0 then .kvpinOff (fHdr w) (fReg w 35) (fReg w 29) (fReg w 23) else .kvpinOn (fHdr w) (fReg w 35) (fReg w 29) (fReg w 23))
  | 0x6B => some (.kvqrel (fHdr w) (fReg w 29) (fReg w 23))
  | 0x70 => some (.bar (fHdr w) (Scope.ofCode (bits w 4 3)) (BitVec.ofNat 4 w) (fReg w 35) (fReg w 29))
  | 0x71 => some (.chopen (fHdr w) (fReg w 35) (fReg w 29) (fPred w 0))
  | 0x72 => some (.chsend (fHdr w) (fReg w 29) (fReg w 23) (fReg w 17))
  | 0x73 => some (.chtry (fHdr w) (fReg w 29) (fReg w 23) (fReg w 17) (fPred w 0))
  | 0x74 => some (.chrecv (fHdr w) (fReg w 35) (fReg w 29) (fReg w 23))
  | 0x75 => some (.chgrant (fHdr w) (fReg w 35) (fReg w 29) (fReg w 23) (fReg w 17))
  | 0x76 => some (.alt (fHdr w) (fReg w 35) (fReg w 29))
  | 0x77 => some (.chclose (fHdr w) (fReg w 35) (fReg w 29))
  | 0x78 => some (if bits w 0 1 == 0 then .qbindUp (fHdr w) (fReg w 29) else .qbindDown (fHdr w) (fReg w 29))
  | 0x80 => some (.launch (fHdr w) (fReg w 35) (fReg w 29) (fPred w 0))
  | 0x81 => some (.tenq (fHdr w) (fReg w 35) (fReg w 29) (fPred w 0))
  | 0x82 => some (.tdec (fHdr w) (fReg w 29))
  | 0x83 => some (.tdone (fHdr w))
  | 0x84 => some (.tpoll (fHdr w) (fReg w 35) (fReg w 29))
  | 0x85 => some (.start (fHdr w) (fReg w 35) (fReg w 29) (fReg w 23) (fPred w 0))
  | 0x86 => some (.hexit (fHdr w) (fReg w 29))
  | 0x87 => some (.hjoin (fHdr w) (fReg w 35) (fReg w 29) (fPred w 0))
  | 0x88 => some (.msgbind (fHdr w) (BitVec.ofNat 4 w) (fReg w 29) (fReg w 23) (fReg w 17))
  | 0x89 => some (.sleep (fHdr w) (fReg w 35) (fReg w 29))
  | 0x8A => some (.getid (fHdr w) (fReg w 35) (BitVec.ofNat 3 w))
  | 0x90 => some (if bits w 16 1 == 0 then .trap (fHdr w) (BitVec.ofNat 16 w) else .trapBrk (fHdr w) (BitVec.ofNat 16 w))
  | 0x91 => some (.eret (fHdr w))
  | 0x92 => some (.srd (fHdr w) (fReg w 35) (BitVec.ofNat 12 w))
  | 0x93 => some (.swr (fHdr w) (fReg w 29) (BitVec.ofNat 12 w))
  | 0x94 => some (.upret (fHdr w) (fReg w 29))
  | 0x95 => some (.wake (fHdr w) (fReg w 29) (fReg w 23))
  | 0x96 => some (if bits w 0 2 == 0 then .wkdoneOk (fHdr w) (BitVec.ofNat 2 (w / 4)) (fReg w 29) (fReg w 23) else if bits w 0 2 == 1 then .wkdoneNp (fHdr w) (fReg w 23) else .wkdoneProt (fHdr w) (fReg w 23))
  | 0x97 => some (if bits w 0 2 == 0 then .tlbinvPage (fHdr w) (InvScope.ofCode (bits w 2 3)) (fReg w 29) (fReg w 23) else if bits w 0 2 == 1 then .tlbinvAsid (fHdr w) (InvScope.ofCode (bits w 2 3)) (fReg w 23) else .tlbinvAll (fHdr w) (InvScope.ofCode (bits w 2 3)))
  | 0x98 => some (if bits w 0 1 == 0 then .gstopHalt (fHdr w) (fReg w 29) else .gstopGo (fHdr w) (fReg w 29))
  | 0x99 => some (if bits w 0 1 == 0 then .ctxsaveSlot (fHdr w) (fReg w 29) (fReg w 23) else .ctxsaveCl (fHdr w) (fReg w 35) (fReg w 29) (fReg w 23) (fReg w 17))
  | 0x9A => some (if bits w 0 2 == 0 then .ctxloadSlot (fHdr w) (fReg w 29) (fReg w 23) else if bits w 0 2 == 1 then .ctxloadCl (fHdr w) (fReg w 29) (fReg w 23) else .ctxloadClRp (fHdr w) (fReg w 29) (fReg w 23) (fReg w 17))
  | _ => none

/-- The instruction of a word (R41): an unassigned opcode is an instruction of its own, whose meaning is the trap. -/
def decodeNat (w : Nat) : Except DecodeError Instr :=
  match candidate w with
  | none => .ok (.unassignedOpcode (BitVec.ofNat 64 w))
  | some i => if i.wf && encodeNat i == some w then .ok i else .error .illegalEnc

def decodeWord (w : Word) : Except DecodeError Instr := decodeNat w.toNat

/-- A little-endian number from bytes (R1). -/
def leNat : List Byte → Nat
  | [] => 0
  | b :: bs => b.toNat + 256 * leNat bs

/-- The `n` little-endian bytes of a number (R1). -/
def leBytes : Nat → Nat → List Byte
  | 0, _ => []
  | n + 1, v => BitVec.ofNat 8 v :: leBytes n (v / 256)

/-- Decoding at the head of a byte string: the instruction and the bytes after it; fewer than 8 bytes are no
instruction. -/
def decode (bs : List Byte) : Except DecodeError (Instr × List Byte) :=
  match bs with
  | b0 :: b1 :: b2 :: b3 :: b4 :: b5 :: b6 :: b7 :: rest =>
    (decodeNat (leNat [b0, b1, b2, b3, b4, b5, b6, b7])).map (·, rest)
  | _ => .error .illegalEnc

/-- The move whose fields a slot holds, by its destination port (R227). -/
def candidateMove (w : Nat) : Option Instr :=
  match bits w 15 8 with
  | 0x00 => some (.seqTake (bit w 23))
  | 0x01 => some (.seqJump (bit w 23) (if bits w 7 8 == 0x09 then .htag else .bay (BitVec.ofNat 7 w)))
  | 0x02 => some (.seqLoopn (bit w 23) (if bits w 7 8 == 0xFF then .imm (BitVec.ofNat 7 w) else .out (OutPort.ofCode (bits w 7 8))))
  | 0x03 => some (.seqEndl (bit w 23))
  | 0x04 => some (.seqDone (bit w 23) (bit w 0))
  | 0x05 => some (.seqIdle (bit w 23))
  | 0x20 => some (.afFeed (bit w 23) (if bits w 7 8 == 0xFF then none else some (OutPort.ofCode (bits w 7 8))) (BitVec.ofNat 7 w))
  | 0x21 => some (.afBase (bit w 23) (BitVec.ofNat 7 w))
  | 0x22 => some (.afFrom (bit w 23) (if bits w 0 7 == 0 then .tile else .bank (BitVec.ofNat 2 w)))
  | 0x40 => some (.blLoad (bit w 23))
  | 0x41 => some (.blSwap (bit w 23))
  | 0x42 => some (.blHad (bit w 23) (bit w 0))
  | 0x43 => some (.blPop (bit w 23))
  | 0x60 => some (.arMode (bit w 23) (ArMode.ofCode (bits w 0 7)))
  | 0x61 => some (.arPal (bit w 23) (PalOp.ofCode (bits w 0 7)))
  | 0x62 => some (.arDest (bit w 23) (BitVec.ofNat 2 w))
  | 0x63 => some (.arAccum (bit w 23) (Accum.ofCode (bits w 0 7)))
  | 0x80 => some (.acClear (bit w 23) (BitVec.ofNat 2 w))
  | 0x81 => some (.acSel (bit w 23) (BitVec.ofNat 2 w))
  | 0x82 => some (.acPclr (bit w 23) (BitVec.ofNat 2 w))
  | 0xA0 => some (.drDrain (bit w 23) (if bits w 7 8 == 0xFF then none else some (OutPort.ofCode (bits w 7 8))) (BitVec.ofNat 7 w))
  | 0xA1 => some (.drFmt (bit w 23) (OFmt.ofCode (bits w 0 7)))
  | 0xA2 => some (.drScale (bit w 23) (BitVec.ofNat 7 w))
  | 0xA3 => some (.drRound (bit w 23) (Rm.ofCode (bits w 0 7)))
  | 0xC0 => some (.ppOp (bit w 23) (PpOp.ofCode (bits w 0 7)))
  | 0xC1 => some (.ppK (bit w 23) (BitVec.ofNat 7 w))
  | 0xC2 => some (.ppPasses (bit w 23) (BitVec.ofNat 6 w))
  | 0xC3 => some (.ppNcol (bit w 23) (BitVec.ofNat 7 w))
  | 0xE0 => some (.owOpen (bit w 23) (BitVec.ofNat 4 w))
  | 0xE1 => some (.owWrite (bit w 23) (bit w 6) (BitVec.ofNat 5 w))
  | 0xE2 => some (.owSealout (bit w 23))
  | _ => none

/-- The move of a 24-bit slot (R43, R46, R227). -/
def decodeMove (w : Nat) : Except DecodeError Instr :=
  match candidateMove w with
  | none => .error .muEncoding
  | some i => if i.wf && encodeMove i == some w then .ok i else .error .muEncoding

/-- A bundle read from routine memory (R42 to R44): its repeat count - 1, END, the move of each present engine in
engine order, and its size in bytes. -/
structure Bundle where
  rep : Nat
  last : Bool
  moves : List (Nat × Instr)
  size : Nat
  deriving DecidableEq, Repr

/-- The slots of the engines present in `pm`, from engine `8 - n` on, read from the bit string `v` (R44): each slot's port
must be one of its engine (R43). -/
def decodeSlots (pm : Nat) : Nat → Nat → Except DecodeError (List (Nat × Instr) × Nat)
  | 0, v => .ok ([], v)
  | n + 1, v =>
    let e := 8 - (n + 1)
    if bit pm e then
      let sl := bits v 0 24
      match decodeMove sl with
      | .error x => .error x
      | .ok i =>
        if bits sl 20 3 == e then
          match decodeSlots pm n (v / 2 ^ 24) with
          | .error x => .error x
          | .ok (l, r) => .ok ((e, i) :: l, r)
        else .error .muEncoding
    else decodeSlots pm n v

def popcount8 (pm : Nat) : Nat := ((List.range 8).filter (bit pm ·)).length

/-- The bundle at the head of the bytes from a bundle's address to the end of routine memory (R42 to R46). -/
def decodeBundle (bs : List Byte) : Except DecodeError Bundle :=
  if bs.length < 4 then .error .muBeyond
  else
    let hd := leNat (bs.take 4)
    let pm := bits hd 24 8
    let size := (4 + 3 * popcount8 pm + 3) / 4 * 4
    if bits hd 0 15 != 0 then .error .muEncoding
    else if bs.length < size then .error .muBeyond
    else
      match decodeSlots pm 8 (leNat ((bs.take size).drop 4)) with
      | .error x => .error x
      | .ok (l, r) => if r == 0 then .ok ⟨bits hd 16 8, bit hd 15, l, size⟩ else .error .muEncoding

/-- The bytes of a bundle of the given moves, in engine order (R42 to R44). -/
def encodeBundle (rep : Nat) (last : Bool) (moves : List (Nat × Instr)) : List Byte :=
  let pm := (moves.map fun m => 2 ^ m.1).sum
  let k := moves.length
  let v := moves.foldr (fun m acc => (encodeMove m.2).getD 0 + 2 ^ 24 * acc) 0
  leBytes ((4 + 3 * k + 3) / 4 * 4) (pm * 2 ^ 24 + rep * 2 ^ 16 + last.toNat * 2 ^ 15 + 2 ^ 32 * v)

/-- The host's question (bits numbered as the opcode table numbers them): the instruction the decoder reads from the word
whose low `nbits` bits are `w`. -/
def decodeTableWord (nbits w : Nat) : Option Instr := (decodeNat (w % 2 ^ min nbits 64)).toOption

end Sys2Proof
end

