-- ==== Sys2Proof/Machine/Num.lean ====
section
/-! DEFINITION. The number formats and their exact arithmetic (03, R47 to R68). A float is its bit pattern as a number;
a finite value is a sign, a magnitude and a power of two, exact until it is rounded once. -/

namespace Sys2Proof.Machine

/-- A binary format (R47): precision, exponent of the least subnormal, pattern of infinity, sign bit. -/
structure Fmt where
  p : Nat
  tmin : Int
  inf : Nat
  sgn : Nat
  nan : Nat

def fp32 : Fmt := ⟨24, -149, 0x7F800000, 2 ^ 31, 0x7FC00000⟩
def fp16 : Fmt := ⟨11, -24, 0x7C00, 2 ^ 15, 0x7E00⟩
def bf16 : Fmt := ⟨8, -133, 0x7F80, 2 ^ 15, 0x7FC0⟩

/-- The value of a pattern. A finite value is `(-1)^neg * m * 2^e`. -/
inductive Val where
  | nan
  | inf (neg : Bool)
  | fin (neg : Bool) (m : Nat) (e : Int)

/-- The low bits of a register that hold a value of the format (R131). -/
def Fmt.low (f : Fmt) (v : Nat) : Nat := v % (2 * f.sgn)

def Fmt.val (f : Fmt) (v : Nat) : Val :=
  let v := f.low v
  let neg := f.sgn ≤ v
  let a := v % f.sgn
  if f.inf < a then .nan
  else if a = f.inf then .inf neg
  else
    let ex := a / 2 ^ (f.p - 1)
    let fr := a % 2 ^ (f.p - 1)
    if ex = 0 then .fin neg fr f.tmin else .fin neg (fr + 2 ^ (f.p - 1)) (f.tmin + (ex - 1 : Nat))

def Fmt.signed (f : Fmt) (neg : Bool) (a : Nat) : Nat := if neg then f.sgn + a else a

/-- `n * 2^k` and `n / 2^k` over a common denominator. -/
def scaleUp (n : Nat) (k : Int) : Nat := n * 2 ^ k.toNat

/-- Does a remainder round the magnitude up (R50)? `c`: the remainder against the half: 0 none, 1 below, 2 equal, 3 above. -/
def roundUp (rm : Rm) (neg odd : Bool) (c : Nat) : Bool :=
  match rm with
  | .rne => c = 3 || (c = 2 && odd)
  | .rz => false
  | .rd => neg && c ≠ 0
  | .ru => !neg && c ≠ 0

/-- Position of a remainder against the half of its divisor. -/
def remClass (r d : Nat) : Nat := if r = 0 then 0 else if 2 * r < d then 1 else if 2 * r = d then 2 else 3

/-- The pattern of `(-1)^neg * (n / d) * 2^e`, rounded once (R50); `n`, `d` positive. -/
def Fmt.round (f : Fmt) (rm : Rm) (neg : Bool) (n d : Nat) (e : Int) : Nat :=
  let k : Int := (n.log2 : Int) - d.log2
  let k := if scaleUp d k * 1 ≤ scaleUp n (-k) then k else k - 1
  let t := max (k + e - (f.p - 1 : Nat)) f.tmin
  let num := scaleUp n (e - t)
  let den := scaleUp d (t - e)
  let q := num / den
  let q := if roundUp rm neg (q % 2 = 1) (remClass (num % den) den) then q + 1 else q
  let a := (t - f.tmin).toNat * 2 ^ (f.p - 1) + q
  if a < f.inf then f.signed neg a
  else
    match rm with
    | .rne => f.signed neg f.inf
    | .rz => f.signed neg (f.inf - 1)
    | .rd => f.signed neg (if neg then f.inf else f.inf - 1)
    | .ru => f.signed neg (if neg then f.inf - 1 else f.inf)

/-- An exact signed value rounded; a zero takes the sign given. -/
def Fmt.ofInt (f : Fmt) (rm : Rm) (zneg : Bool) (v : Int) (e : Int) : Nat :=
  if v = 0 then f.signed zneg 0 else f.round rm (v < 0) v.natAbs 1 e

/-- Signed magnitude as an integer. -/
def sInt (neg : Bool) (m : Nat) : Int := if neg then -(m : Int) else m

/-- Exact sum of two finite values as an integer at the lesser exponent. -/
def addExact (n1 : Bool) (m1 : Nat) (e1 : Int) (n2 : Bool) (m2 : Nat) (e2 : Int) : Int × Int :=
  let e := min e1 e2
  (sInt n1 (scaleUp m1 (e1 - e)) + sInt n2 (scaleUp m2 (e2 - e)), e)

/-- a + b (R50, R139). -/
def Fmt.addV (f : Fmt) (rm : Rm) (a b : Val) : Nat :=
  match a, b with
  | .nan, _ | _, .nan => f.nan
  | .inf n, .inf k => if n = k then f.signed n f.inf else f.nan
  | .inf n, _ | _, .inf n => f.signed n f.inf
  | .fin n1 m1 e1, .fin n2 m2 e2 =>
    let zneg := if m1 = 0 && m2 = 0 && n1 == n2 then n1 else rm == .rd
    let r := addExact n1 m1 e1 n2 m2 e2
    f.ofInt rm zneg r.1 r.2

def Val.neg : Val → Val
  | .nan => .nan
  | .inf n => .inf (!n)
  | .fin n m e => .fin (!n) m e

/-- The exact product of two values. -/
def mulV (a b : Val) : Val :=
  match a, b with
  | .nan, _ | _, .nan => .nan
  | .inf n, .inf k => .inf (n != k)
  | .inf n, .fin k m _ | .fin k m _, .inf n => if m = 0 then .nan else .inf (n != k)
  | .fin n1 m1 e1, .fin n2 m2 e2 => .fin (n1 != n2) (m1 * m2) (e1 + e2)

/-- A value rounded to a format. -/
def Fmt.ofVal (f : Fmt) (rm : Rm) (v : Val) : Nat :=
  match v with
  | .nan => f.nan
  | .inf n => f.signed n f.inf
  | .fin n m e => if m = 0 then f.signed n 0 else f.round rm n m 1 e

def Fmt.add (f : Fmt) (rm : Rm) (a b : Nat) : Nat := f.addV rm (f.val a) (f.val b)
def Fmt.sub (f : Fmt) (rm : Rm) (a b : Nat) : Nat := f.addV rm (f.val a) (f.val b).neg
def Fmt.mul (f : Fmt) (rm : Rm) (a b : Nat) : Nat := f.ofVal rm (mulV (f.val a) (f.val b))
def Fmt.fma (f : Fmt) (rm : Rm) (a b c : Nat) : Nat := f.addV rm (mulV (f.val a) (f.val b)) (f.val c)

/-- a ÷ b of two values (R139). -/
def Fmt.divV (f : Fmt) (rm : Rm) (a b : Val) : Nat :=
  match a, b with
  | .nan, _ | _, .nan => f.nan
  | .inf _, .inf _ => f.nan
  | .inf n, .fin k _ _ => f.signed (n != k) f.inf
  | .fin n _ _, .inf k => f.signed (n != k) 0
  | .fin n1 m1 e1, .fin n2 m2 e2 =>
    if m2 = 0 then if m1 = 0 then f.nan else f.signed (n1 != n2) f.inf
    else if m1 = 0 then f.signed (n1 != n2) 0
    else f.round rm (n1 != n2) m1 m2 (e1 - e2)
def Fmt.div (f : Fmt) (rm : Rm) (a b : Nat) : Nat := f.divV rm (f.val a) (f.val b)

/-- Integer square root by bits: the greatest r below 2^n plus `acc` with r² ≤ m. -/
def isqrt (m : Nat) : Nat → Nat → Nat
  | 0, acc => acc
  | n + 1, acc => isqrt m n (if (acc + 2 ^ n) * (acc + 2 ^ n) ≤ m then acc + 2 ^ n else acc)

/-- √a (R139). -/
def Fmt.sqrt (f : Fmt) (rm : Rm) (a : Nat) : Nat :=
  match f.val a with
  | .nan => f.nan
  | .inf n => if n then f.nan else f.inf
  | .fin n m e =>
    if m = 0 then f.signed n 0
    else if n then f.nan
    else
      let e2 := (e - 60) / 2
      let v := scaleUp m (e - 2 * e2)
      let r := isqrt v (v.log2 / 2 + 1) 0
      f.round rm false (2 * r + (if r * r = v then 0 else 1)) 1 (e2 - 1)

/-- Total order of patterns in which -0 is below +0, for operands that are no NaN (R140). -/
def Fmt.ordKey (f : Fmt) (v : Nat) : Int := let v := f.low v; if f.sgn ≤ v then -((v - f.sgn : Nat) : Int) - 1 else (v : Int)

def Fmt.isNan (f : Fmt) (v : Nat) : Bool := f.inf < f.low v % f.sgn

/-- FMIN and FMAX (R140). -/
def Fmt.minmax (f : Fmt) (mx : Bool) (a b : Nat) : Nat :=
  if f.isNan a then (if f.isNan b then f.nan else f.low b)
  else if f.isNan b then f.low a
  else if (f.ordKey a < f.ordKey b) != mx then f.low a else f.low b

/-- Three-way comparison (R143): none when unordered. -/
def Fmt.cmp (f : Fmt) (a b : Nat) : Option Ordering :=
  if f.isNan a || f.isNan b then none
  else
    let key := fun v => let v := f.low v; if f.sgn ≤ v then -((v - f.sgn : Nat) : Int) else (v : Int)
    some (compare (key a) (key b))

/-- Class mask (R142). -/
def Fmt.fclass (f : Fmt) (a : Nat) : Nat :=
  let v := f.low a
  let neg := f.sgn ≤ v
  let m := v % f.sgn
  let b :=
    if f.inf < m then (if m / 2 ^ (f.p - 2) % 2 = 1 then 9 else 8)
    else if m = f.inf then (if neg then 0 else 7)
    else if m = 0 then (if neg then 3 else 4)
    else if m < 2 ^ (f.p - 1) then (if neg then 2 else 5)
    else if neg then 1 else 6
  2 ^ b

/-- A finite value rounded to an integer in a direction (R51). -/
def intOf (rm : Rm) (n : Bool) (m : Nat) (e : Int) : Int :=
  let den := 2 ^ (-e).toNat
  let num := scaleUp m e
  let q := num / den
  sInt n (if roundUp rm n (q % 2 = 1) (remClass (num % den) den) then q + 1 else q)

def clampI (v lo hi : Int) : Int := if v < lo then lo else if hi < v then hi else v

/-- A float value to an integer range (R51). -/
def toIntRange (rm : Rm) (v : Val) (lo hi : Int) : Int :=
  match v with
  | .nan => 0
  | .inf n => if n then lo else hi
  | .fin n m e => clampI (intOf rm n m e) lo hi

/-- Float to the same format: an integral value (R141). -/
def Fmt.integral (f : Fmt) (rm : Rm) (a : Nat) : Nat :=
  match f.val a with
  | .nan => f.nan
  | .inf n => f.signed n f.inf
  | .fin n m e =>
    let r := intOf rm n m e
    if r = 0 then f.signed n 0 else f.round rm (r < 0) r.natAbs 1 0

def Fmt.cvt (src dst : Fmt) (rm : Rm) (a : Nat) : Nat := dst.ofVal rm (src.val a)

/-! ### Powers of two with fractional exponents -/

/-- The greatest q with q^d ≤ v, by bits. -/
def iroot (d v : Nat) : Nat → Nat → Nat
  | 0, acc => acc
  | n + 1, acc => iroot d v n (if (acc + 2 ^ n) ^ d ≤ v then acc + 2 ^ n else acc)

/-- RNE_FP32(2^(k/d)) (R53, R54, R68). -/
def pow2 (k : Int) (d : Nat) : Nat :=
  let n := k / d
  let r := (k % d).toNat
  let q := iroot d (2 ^ (24 * d + r)) 25 0
  fp32.round .rne false (2 * q + (if q ^ d = 2 ^ (24 * d + r) then 0 else 1)) 1 (n - 25)

/-! ### L6 (R53 to R55) -/

def l6Decode (c : Nat) : Nat :=
  let e := c % 32
  let s := c / 32 % 2 == 1
  if e = 0 then fp32.signed s 0 else fp32.signed s (pow2 ((e : Int) - 16) 4)

/-- M_e (R54). -/
def l6Mid (e : Nat) : Nat := pow2 (2 * ((e : Int) - 16) + 1) 8

def l6Encode (x : Nat) : Nat :=
  let x := fp32.low x
  if fp32.isNan x then 0
  else
    let m := x % 2 ^ 31
    let s := x / 2 ^ 31
    let e := if m < pow2 (-19) 4 then 0 else 1 + ((List.range 30).filter fun j => l6Mid (j + 1) ≤ m).length
    s * 32 + e

def l6Q (i : Nat) : Nat := if i = 0 then 16384 else if i = 1 then 19484 else if i = 2 then 23170 else 27554

/-- Product of two codes in units of 2^-22 (R55). -/
def l6Mul (a b : Nat) : Int :=
  let ea := a % 32
  let eb := b % 32
  if ea = 0 || eb = 0 then 0
  else
    let sum := ea + eb
    sInt ((a / 32 % 2 == 1) != (b / 32 % 2 == 1)) (l6Q (sum % 4) * 2 ^ (sum / 4))

/-! ### Windows and storage formats (R57 to R59); format numbers are those of R17's windows, 6 FP32 -/

/-- Two's complement of an n-bit field. -/
def sext (v n : Nat) : Int := let v := v % 2 ^ n; if 2 ^ (n - 1) ≤ v then (v : Int) - 2 ^ n else v
/-- The low n bits of an integer. -/
def wrap (v : Int) (n : Nat) : Nat := (v % (2 ^ n : Nat)).toNat

/-- Storage bits of one element. -/
def fmtBits (f : Nat) : Nat := if f = 1 || f = 2 then 16 else if f = 3 then 6 else if f = 4 then 8 else if f = 5 then 4 else 32

/-- Storage code to FP32 (R58). -/
def decFmt (f v : Nat) : Nat :=
  if f = 1 then bf16.cvt fp32 .rne v
  else if f = 2 then fp16.cvt fp32 .rne v
  else if f = 3 then l6Decode v
  else if f = 4 then fp32.ofInt .rne false (sext v 8) 0
  else if f = 5 then fp32.ofInt .rne false (sext v 4) 0
  else v % 2 ^ 32

/-- FP32 to storage code in a rounding direction (R59, R238). -/
def encFmt (f : Nat) (rm : Rm) (v : Nat) : Nat :=
  if f = 1 then fp32.cvt bf16 rm v
  else if f = 2 then fp32.cvt fp16 rm v
  else if f = 3 then l6Encode v
  else if f = 4 then wrap (toIntRange rm (fp32.val v) (-128) 127) 8
  else if f = 5 then wrap (toIntRange rm (fp32.val v) (-8) 7) 4
  else v % 2 ^ 32

/-! ### EXP2 (R68) -/

def exp2 (x : Nat) : Nat :=
  match fp32.val x with
  | .nan => fp32.nan
  | .inf n => if n then 0 else fp32.inf
  | .fin neg m e =>
    -- x as an integer number of 2^-149
    let k : Int := sInt neg (scaleUp m (e + 149))
    if k < -126 * (2 ^ 149 : Nat) then 0
    else if 128 * (2 ^ 149 : Nat) ≤ k then fp32.inf
    else
      let n : Int := k / (2 ^ 149 : Nat)
      let fr : Nat := (k % (2 ^ 149 : Nat)).toNat
      let i := fr * 256 / 2 ^ 149
      let g := fr - i * 2 ^ 141
      let t := pow2 i 256
      let u := fp32.mul .rne t 0x3F317218
      let r := fp32.addV .rne (mulV (fp32.val u) (.fin false g (-149))) (fp32.val t)
      match fp32.val r with
      | .fin _ m e =>
        let e := e + n
        -- |y| < 2^-126
        if (scaleUp m (e + 150)) < scaleUp 1 (-126 + 150) * scaleUp 1 (-(e + 150)) then 0 else fp32.round .rne false m 1 e
      | .inf _ => fp32.inf
      | .nan => fp32.nan

/-! ### Matrix-unit arithmetic (R63 to R67) -/

/-- A subnormal read as zero with its sign (R63). -/
def daz (v : Nat) : Nat := if v % 2 ^ 31 < 2 ^ 23 then v / 2 ^ 31 % 2 * 2 ^ 31 else v % 2 ^ 32
/-- A result below 2^-126 in magnitude becomes zero with its sign (R63). -/
def ftz (v : Nat) : Nat := daz v

def muAdd (a b : Nat) : Nat := ftz (fp32.add .rne (daz a) (daz b))
def muSub (a b : Nat) : Nat := ftz (fp32.sub .rne (daz a) (daz b))
def muMul (a b : Nat) : Nat := ftz (fp32.mul .rne (daz a) (daz b))
def muDiv (a b : Nat) : Nat := ftz (fp32.div .rne (daz a) (daz b))

/-- Adjacent sums of one tree level (R64). -/
def pairSums : List Nat → List Nat
  | a :: b :: t => muAdd a b :: pairSums t
  | l => l

/-- The pairwise tree of a list of 2^n values (R64). -/
def tree : Nat → List Nat → Nat
  | 0, l => l.headD 0
  | n + 1, l => tree n (pairSums l)

/-- One TwoSum step of FP32C on (s, c) (R65). -/
def twoSum (sc : Nat × Nat) (p : Nat) : Nat × Nat :=
  let s := sc.1
  let c := sc.2
  let t := muAdd s p
  if t % 2 ^ 31 < fp32.inf then
    let z := muSub t s
    let e := muAdd (muSub s (muSub t z)) (muSub p z)
    (t, muAdd c e)
  else (t, c)

/-- One operand of a palette op. -/
def palArg (x : PalArg) (a b s t : Nat) : Nat :=
  match x with
  | .a => a
  | .b => b
  | .s => s
  | .t => t

/-- One palette op (R235, R63). -/
def palVal (o : PalOp) (x y : Nat) : Nat :=
  let x := daz x
  let y := daz y
  match o.opc with
  | .fin => y
  | .mul => muMul x y
  | .add => muAdd x y
  | .sub => muSub x y
  | .min => if fp32.isNan x || fp32.isNan y then fp32.nan else fp32.minmax false x y
  | .max => if fp32.isNan x || fp32.isNan y then fp32.nan else fp32.minmax true x y
  | .selge => if fp32.isNan x then 0 else if x = 2 ^ 31 || x < 2 ^ 31 then (if fp32.isNan y then fp32.nan else y) else 0

/-- A MICRO product step: the new s (R66). -/
def palStep : List PalOp → Nat → Nat → Nat → Nat → Nat
  | [], _, _, s, _ => s
  | [o], a, b, s, t => palVal o (palArg o.x a b s t) (palArg o.y a b s t)
  | o :: r, a, b, s, t => palStep r a b s (palVal o (palArg o.x a b s t) (palArg o.y a b s t))

end Sys2Proof.Machine

namespace Sys2Proof

open Machine

/-- Width of a type. -/
def IntTy.w : IntTy → Nat
  | .i64 => 64
  | .i32 => 32

/-- Operand of a type, unsigned and signed (R131). -/
def IntTy.u (t : IntTy) (v : Word) : Nat := v.toNat % 2 ^ t.w
def IntTy.s (t : IntTy) (v : Word) : Int := sext v.toNat t.w

/-- A result of a type as written to a register (R131). -/
def IntTy.res (t : IntTy) (v : Int) : Word := BitVec.ofInt 64 (sext (wrap v t.w) t.w)

/-- The format of a float type (R131). -/
def FloatTy.fmt : FloatTy → Fmt
  | .f32 => Machine.fp32
  | .f16 => Machine.fp16
  | .bf16 => Machine.bf16

/-- A source of FCVT as a value (R141). -/
def CvtTy.val (t : CvtTy) (v : Word) : Val :=
  let i := fun (k : Int) => Val.fin (k < 0) k.natAbs 0
  match t with
  | .f32 => Machine.fp32.val v.toNat
  | .f16 => Machine.fp16.val v.toNat
  | .bf16 => Machine.bf16.val v.toNat
  | .i64 => i (sext v.toNat 64)
  | .i32 => i (sext v.toNat 32)
  | .u64 => i v.toNat
  | .u32 => i (v.toNat % 2 ^ 32 : Nat)

end Sys2Proof

namespace Sys2Proof.Machine

/-! ### Integer helpers of the scalar instructions (R132 to R136) -/

/-- DIV (R134). -/
def divRes (un : Bool) (t : IntTy) (a b : Word) : Int :=
  if t.u b = 0 then -1 else if un then (t.u a / t.u b : Nat) else Int.tdiv (t.s a) (t.s b)

/-- REM (R134). -/
def remRes (un : Bool) (t : IntTy) (a b : Word) : Int :=
  if t.u b = 0 then t.u a else if un then (t.u a % t.u b : Nat) else Int.tmod (t.s a) (t.s b)

def mulhRes (k : MulhKind) (t : IntTy) (a b : Word) : Int :=
  match k with
  | .ss => t.s a * t.s b / 2 ^ t.w
  | .uu => t.u a * t.u b / 2 ^ t.w
  | .su => t.s a * t.u b / 2 ^ t.w

/-- Leading zero bits of a value of n bits, looked at from bit n - 1 down. -/
def clzN : Nat → Nat → Nat
  | 0, _ => 0
  | n + 1, v => if bit v n then 0 else 1 + clzN n v

/-- Trailing zero bits. -/
def ctzN : Nat → Nat → Nat
  | 0, _ => 0
  | n + 1, v => if bit v 0 then 0 else 1 + ctzN n (v / 2)

def popc : Nat → Nat → Nat
  | 0, _ => 0
  | n + 1, v => v % 2 + popc n (v / 2)

/-- Effective length of a bit-field descriptor (R135). -/
def bfLen (d : Nat) : Nat := min (min (bits d 8 7) 64) (64 - bits d 0 6)

def bfx (sg : Bool) (a d : Nat) : Word :=
  let l := bfLen d
  let v := bits a (bits d 0 6) l
  if l = 0 then 0 else if sg then BitVec.ofInt 64 (sext v l) else BitVec.ofNat 64 v

def bfi (a b d : Nat) : Word :=
  let l := bfLen d
  let p := bits d 0 6
  BitVec.ofNat 64 (a % 2 ^ p + b % 2 ^ l * 2 ^ p + a / 2 ^ (p + l) * 2 ^ (p + l))

/-- The 64-bit mixer (R136). -/
def hash64 (a b : Word) : Word :=
  let z := a + b * 0x9E3779B97F4A7C15#64
  let z := (z ^^^ (z >>> 32)) * 0xB3A74E1D9C256F8B#64
  let z := (z ^^^ (z >>> 29)) * 0xE5D2193B47A6C0F1#64
  z ^^^ (z >>> 32)

/-- SHL, SHR, SAR (R133): amount b mod 64 for either type. -/
def shlRes (t : IntTy) (a b : Word) : Int := (t.u a * 2 ^ (b.toNat % 64) : Nat)
def shrRes (t : IntTy) (a b : Word) : Int := (t.u a / 2 ^ (b.toNat % 64) : Nat)
def sarRes (t : IntTy) (a b : Word) : Int := t.s a / 2 ^ (b.toNat % 64)

/-- SHI (R138). -/
def shiRes (k : ShiKind) (a : Word) (n : Nat) : Word :=
  match k with
  | .l => a <<< n
  | .r => a >>> n
  | .a => a.sshiftRight n
  | .ror => a.rotateRight n

/-- FCVT (R51, R52, R141). -/
def fcvtRes (dst src : CvtTy) (rm : Rm) (v : Word) : Word :=
  let x := src.val v
  let fl := fun (f : Fmt) => BitVec.ofNat 64 (if dst = src then f.integral rm v.toNat else f.ofVal rm x)
  let it := fun (lo hi : Int) => BitVec.ofInt 64 (toIntRange rm x lo hi)
  match dst with
  | .f32 => fl fp32
  | .f16 => fl fp16
  | .bf16 => fl bf16
  | .i64 => it (-2 ^ 63) (2 ^ 63 - 1)
  | .i32 => it (-2 ^ 31) (2 ^ 31 - 1)
  | .u64 => it 0 (2 ^ 64 - 1)
  | .u32 => it 0 (2 ^ 32 - 1)

end Sys2Proof.Machine
end

