-- ==== Sys2Proof/Config.lean ====
section
/-! DEFINITION. What an implementation or the environment fixes, and the free values: opaque constants
without a body, so that no proof can see what they are (notes/assumptions 4, 6). -/

namespace Sys2Proof.Config

/-- The n-th free value of the run: every choice of R6 and every value the manual leaves open that is not
fixed by `State.oracle` is taken from it (DESIGN CHOICE, assumption 4). -/
opaque freeNat : Nat → Nat

/-- The free values of a core that logs or replays (R346): by the number of the logged run, and by cycle, slot and use, so that a replay
finds those of its run again. -/
opaque freeLogged : Nat → Nat → Nat

/-- DEV strap of fab.id (R319), taken modulo 4,096 (DESIGN CHOICE, assumption 6). -/
opaque strapDev : Nat

/-- BRIDGE strap of fab.id (R319) (DESIGN CHOICE, assumption 6). -/
opaque strapBridge : Bool

/-- Header and body of stored firmware image `n` (0 or 1), and its signature (R366). (assumption 6) -/
opaque imageBytes : Nat → List Byte
opaque imageSignature : Nat → List Byte

/-- Does the ML-DSA-87 signature over a SHA3-512 digest verify under the vendor key (R366)? (assumption 6) -/
opaque vendorSigned (digest signature : List Byte) : Bool

/-- The control entry and the walker entry (R362) of an image with this header and body, as physical addresses. (assumption 6) -/
opaque imageControl : List Byte → Nat
opaque imageWalker : List Byte → Nat

/-- The length of the body behind an image's header (R366), taken modulo 1 GiB. (assumption 6) -/
opaque bodyLength : List Byte → Nat

/-- The fused minimum security version (R366). (assumption 6) -/
opaque fusedSvn : Nat

/-- Module serial number, byte `i` of 16 (R367). -/
opaque serial : Nat → Byte

/-- Byte `i` of the ML-DSA-87 signature under the identity key over a SHA3-512 digest (R367). -/
opaque signature : List Byte → Nat → Byte

/-- Byte `i` of the ML-DSA-87 identity public key (R367). -/
opaque identityKey : Nat → Byte

end Sys2Proof.Config
end

