-- ==== Sys2Proof/Machine/State.lean ====
section
/-! DEFINITION. The state of the module as plain data, and the module right after reset. Tables the hardware indexes by
number are sparse lists of (number, entry) pairs in rising order of number; an entry not listed is the default entry. -/

namespace Sys2Proof.Machine

/-- Why a step of the model stops. -/
inductive Fault where
  /-- Raised by the step alone, on a turn that names a step of a device which is no device step: the state was not one the
  machine reaches. Safe: nothing is executed. -/
  | strayTurn
  deriving DecidableEq, Repr

/-- Why the model has no meaning for an instruction. -/
inductive Refusal where
  /-- Raised by the dispatch of an instruction the model does not yet give a meaning. Safe. -/
  | notModelled (mnemonic : String)
  deriving DecidableEq, Repr

/-- A fault on its way to delivery: what of the fault record (R82) the raiser knows. -/
structure Flt where
  code : Nat
  addr : Nat := 0
  /-- PC of the record when it is not the pc of the context -/
  pc : Option Nat := none
  prog : Nat := 0
  seq : Nat := 0
  layer : Nat := 0
  head : Nat := 0
  lblock : Nat := 0
  rseq : Nat := 0
  /-- OUTST of the record when it is not core.remote OUTST (R340) -/
  outst : Option Nat := none
  task : Option Nat := none
  deriving DecidableEq, Repr

/-- Why a context is off the wheel (R123). -/
inductive Park where
  /-- a condition of the instruction at pc: it is tried again at each own phase -/
  | retry
  /-- a miss request at the walker (R190) -/
  | miss
  /-- a reply on its way to the context, under this number -/
  | reply (tag : Nat)
  /-- on a full/empty list (R297), with its wait number -/
  | fe (tag : Nat)
  /-- arrived at a barrier (R302) -/
  | barrier
  /-- a group helper that waits for the routine image of its group (R96) -/
  | image
  /-- a restartable fault waits for the counted accesses before the park record is captured (R197 step 1) -/
  | drain (f : Flt)
  /-- the slot holds a park record (R197) -/
  | record
  deriving DecidableEq, Repr

/-- The states of a context (R123). -/
inductive CState where
  | empty
  | live
  | parked (p : Park)
  /-- SLEEP (R120): the timer cycle at which it ends, and the register that receives the woken classes -/
  | sleeping (due : Nat) (d : Reg)
  /-- HJOIN with this join handle (R118) -/
  | joining (h : Nat)
  /-- halted under the trap-entry rule (R336) or by replay (R346) -/
  | halted
  deriving DecidableEq, Repr

/-- An access that has not completed (R128, R161 to R163). -/
structure Outst where
  tag : Nat
  /-- registers, and the predicate, written at completion -/
  writes : List (Nat × Word)
  pred : Option (Pred × Bool)
  ctr : Option (Fin 4)
  load : Bool
  acq : Bool
  /-- request sequence number of a posted request (R163) -/
  posted : Option Nat
  addr : Nat
  /-- size and sign extension of a load answered by another module -/
  size : Nat
  sx : Bool
  /-- pc of the instruction, and the fault its data carries (R158) -/
  pc : Nat
  flt : Option Nat
  /-- registers written by a later instruction meanwhile (R129) -/
  raced : List Nat
  /-- the die that serves the access, where its loss ends it (R343) -/
  die : Option Nat
  /-- issued with PREC set: the next instruction waits for it (R341) -/
  prec : Bool
  /-- the module and the offset there, of a wait on a full/empty list of another module (R297, R298) -/
  fe : Option (Nat × Nat) := none
  deriving DecidableEq, Repr

/-- A refusal of a posted request that has arrived (R340), or the fault of a counted access (R158), with the record's PC when it is not
the pc of delivery, and the pc of the instruction. -/
structure Delayed where
  code : Nat
  addr : Nat
  rseq : Nat
  pc : Option Nat
  posted : Bool
  opc : Nat
  deriving DecidableEq, Repr

/-- A captured copy command block (R170). -/
structure CopyBlk where
  src : Nat
  dst : Nat
  sfmt : Nat
  dfmt : Nat
  nrows : Nat
  rlen : Nat
  sstr : Nat
  dstr : Nat
  prog : Nat
  deriving DecidableEq, Repr

/-- A stream binding (R179, R180). -/
structure Stream where
  out : Bool
  /-- element bytes on the register side -/
  esz : Nat
  sx : Bool
  blk : CopyBlk
  /-- entry of its token, and the generation it was allocated with -/
  tok : Nat
  gen : Nat
  deps : List Nat
  sys : Bool
  fifo : List Word
  /-- elements moved between memory and the FIFO -/
  moved : Nat
  /-- elements taken from, or pushed by, the register -/
  taken : Nat
  fault : Option Flt
  /-- the fault has been delivered at an access to the register (R180) -/
  told : Bool
  deriving DecidableEq, Repr

/-- What a context works for (R116, R121). -/
inductive UnitOf where
  | none
  /-- launch handle, group id, group word of GETID 4 -/
  | group (h gid gword : Nat)
  /-- task handle -/
  | task (h : Nat)
  deriving DecidableEq, Repr

/-- One hardware context, or a park record, or a fibre. -/
structure Ctx where
  st : CState := .empty
  x : Vector Word 64 := Vector.replicate 64 0
  /-- p0 to p127, pn at bit n; bit 0 is 1 (R21) -/
  p : BitVec 128 := 1
  dc : Vector (BitVec 4) 4 := Vector.replicate 4 0
  pc : Word := 0
  prec : Bool := false
  sys : Bool := false
  icount : Word := 0
  epc : Word := 0
  estat : Word := 0
  scratch : Word := 0
  /-- ALT pointer (R309) -/
  win : BitVec 3 := 7
  sent : BitVec 32 := 0
  recv : BitVec 32 := 0
  outst : List Outst := []
  delayed : List Delayed := []
  streams : List (Nat × Stream) := []
  /-- receive endpoint bound to x60, send endpoint bound to x61 (R310) -/
  upq : Option Nat := none
  downq : Option Nat := none
  unit : UnitOf := .none
  x1s : Word := 0
  x3s : Word := 0
  /-- page, kind and RES of the walker's answer to the context's miss (R193) -/
  missAns : Option (Nat × Nat × Nat) := none
  /-- number of the arrival with which the context waits at a barrier (R302) -/
  barTag : Nat := 0
  /-- code and record of the fault that halted the context (R336) -/
  hcode : Nat := 0
  hrec : Nat := 0
  deriving DecidableEq, Repr

/-- One wheel slot of a core (R107), by context id (R9). -/
structure Slot where
  ctx : Ctx := {}
  gen : Nat := 0
  ended : Bool := false
  exitWord : Word := 0
  /-- park record (R197) -/
  park : Option Ctx := none
  fibre : Bool := false
  /-- a relight of this park is posted (R196) -/
  relit : Bool := false
  bound : Word := 0
  bentry : Word := 0
  barg : Word := 0
  /-- halted by the snuffer (R344) -/
  gang : Bool := false
  /-- posted requests of contexts that have ended in the slot, and delayed faults that had arrived for them (R340) -/
  late : List Outst := []
  /-- out-streams of contexts that a fault has ended, under numbers from 4 on: their FIFOs are still to be written (R180) -/
  closing : List (Nat × Stream) := []
  deriving DecidableEq, Repr

/-- A TLB entry (R189). -/
structure TlbEntry where
  asid : Nat
  gl : Bool
  page : Nat
  /-- base-2 logarithm of the page size -/
  lg : Nat
  frame : Nat
  r : Bool
  w : Bool
  x : Bool
  u : Bool
  d : Bool
  conf : Bool
  deriving DecidableEq, Repr

/-- A TLBINV that performed while a miss was pending (R194). -/
structure InvRec where
  kind : Nat
  va : Nat
  asid : Nat
  deriving DecidableEq, Repr

/-- An entry of the miss mailbox (R191); `agent` says which engine, and which command of it, an entry of REQ 15 belongs to (R374),
`cyc` when it arrived. -/
structure MissReq where
  req : Nat
  vpn : Nat
  kind : Nat
  usr : Bool
  asid : Nat
  taken : Bool
  invs : List InvRec
  agent : Nat
  cyc : Nat
  deriving DecidableEq, Repr

/-- The walker's answer to an engine's miss (R374): the page, the kind, RES. -/
structure EngAns where
  agent : Nat
  vpn : Nat
  kind : Nat
  res : Nat
  deriving DecidableEq, Repr

/-- An upcall (R198). -/
structure Upcall where
  slot : Nat
  kind : Nat
  more : Nat
  lrseq : Nat
  deriving DecidableEq, Repr

/-- A receive endpoint (R304 to R306). -/
structure RecvEp where
  isOpen : Bool := false
  gen : Nat := 0
  base : Nat := 0
  slotw : Nat := 0
  nslot : Nat := 0
  auto : Bool := false
  peer : Nat := 0
  occ : Nat := 0
  granted : Nat := 0
  /-- slot of the head message, and slot after the last one written -/
  headIx : Nat := 0
  tailIx : Nat := 0
  /-- contexts parked in CHRECV, in issue order (R307) -/
  waiters : List Nat := []
  deriving DecidableEq, Repr

/-- A send endpoint (R306). -/
structure SendEp where
  isOpen : Bool := false
  gen : Nat := 0
  peer : Nat := 0
  allow : Nat := 0
  limit : Nat := 0
  buf : Nat := 0
  broken : Bool := false
  rgen : Option Nat := none
  deriving DecidableEq, Repr

/-- One swarm core. -/
structure Core where
  /-- what the phase counter is ahead of its cluster's cycle count (R122) -/
  phase : Nat := 0
  lsplit : Nat := 4
  /-- change of split in progress: the context that wrote, the new LS (R153) -/
  lsChange : Option (Nat × Nat) := none
  /-- changes of split that are done, their writes not yet: context, icount of the write -/
  lsDone : List (Nat × Word) := []
  vfrac : Nat := 0
  vmask : Option Nat := none
  nseq : Nat := 0
  outst : Nat := 0
  atp : Word := 0
  uparea : Word := 0
  mlog : Word := 0
  mlogPos : Nat := 0
  mlogStart : Option Nat := none
  replaying : Bool := false
  /-- log entries that a replay has taken for its contexts (R346) -/
  mlogUsed : List Nat := []
  /-- of the last logged run: its number, and phase counter and NSEQ at its CYC 0, from which a replay starts (R346) -/
  mlogRun : Nat := 0
  mlogPhase : Nat := 0
  mlogSeq : Nat := 0
  feLimit : Nat := 0
  tvec : Word := 0
  itlb : List TlbEntry := []
  dtlb : List TlbEntry := []
  mbox : List MissReq := []
  engWait : List MissReq := []
  engAns : List EngAns := []
  upcalls : List Upcall := []
  pending : Word := 0
  rx : List (Nat × RecvEp) := []
  tx : List (Nat × SendEp) := []
  /-- has the firmware loop called the general path with x41 = 0 (R375) -/
  fwCalled : Bool := false
  deriving DecidableEq, Repr

/-- States of a token entry (R174). -/
inductive TokSt where | free | pending | done | faulted | failed
  deriving DecidableEq, Repr

/-- A token entry (R173 to R175). -/
structure Tok where
  gen : Nat := 0
  st : TokSt := .free
  count : Nat := 0
  code : Nat := 0
  flt : Option Flt := none
  delivered : Bool := false
  /-- context to which a restartable fault was delivered (R182) -/
  dctx : Option Nat := none
  deriving DecidableEq, Repr

/-- The token table of one engine. -/
structure TokTab where
  next : Nat := 0
  ent : List (Nat × Tok) := []
  deriving DecidableEq, Repr

/-- Slot states of a ring (R200). -/
inductive TileSt where | empty | opened | closing | sealed | dropping
  deriving DecidableEq, Repr

/-- The status a slot records at the close of a generation (R214). -/
structure CloseRec where
  st : TokSt
  code : Nat
  count : Nat
  deriving DecidableEq, Repr

/-- A slot of a ring (R200, R214). -/
structure TSlot where
  st : TileSt := .empty
  gen : Nat := 0
  claimed : Nat := 0
  marked : Nat := 0
  valid : Nat := 0
  /-- bit r: row r is marked valid -/
  mask : Nat := 0
  /-- bit r: row r is marked -/
  rows : Nat := 0
  mu : Nat := 0
  tag : Nat := 0
  timer : Option Nat := none
  /-- closed by its timer; the timer has expired in this generation -/
  timed : Bool := false
  fired : Bool := false
  deps : List Nat := []
  /-- token entries of the target unit that complete with the routine run -/
  closers : List Nat := []
  rcd : CloseRec := ⟨.done, 0, 0⟩
  deriving DecidableEq, Repr

/-- A ring (R81, R200). -/
structure Ring where
  en : Bool := false
  base : Nat := 0
  slotb : Nat := 0
  nslot : Nat := 0
  kind : Nat := 0
  fmt : Nat := 0
  hlog : Nat := 0
  rowb : Nat := 0
  openPtr : Nat := 0
  slots : List (Nat × TSlot) := []
  deriving DecidableEq, Repr

/-- A row of a copy of which a part has been moved (R172, R295): the words read so far, by their number in the row, or the words still to
be written. -/
inductive RowPart where
  | reading (got : List (Nat × List Byte))
  | writing (left : List (Nat × List Byte))
  deriving DecidableEq, Repr

/-- A queued block copy (R172). -/
structure CopyCmd where
  blk : CopyBlk
  blkAddr : Nat
  tok : Nat
  deps : List Nat
  core : Nat
  sys : Bool
  running : Bool
  /-- rows have ended, with this fault (R172) -/
  rowsOver : Bool
  fault : Option Flt
  /-- row PROG, where it is moved word by word -/
  part : Option RowPart := none
  deriving DecidableEq, Repr

/-- A queued gather or summary (R261, R265). -/
structure LanCmd where
  gather : Bool
  flag : Bool
  blkAddr : Nat
  coord : Nat
  w1 : Nat
  w2 : Nat
  w3 : Nat
  tok : Nat
  deps : List Nat
  core : Nat
  sys : Bool
  /-- first position or block not done, as last known (the block in memory holds it between runs) -/
  prog : Nat
  /-- L at the start of the run in progress, and whether the run has claimed a row (R262, R265) -/
  snap : Option (Nat × Bool)
  deriving DecidableEq, Repr

/-- One cluster without its matrix units. -/
structure Cluster where
  ready : Bool := false
  gang : Bool := false
  /-- context whose save or load of this cluster is in progress, and those that wait for theirs in arrival order (R351) -/
  saving : Option Nat := none
  saveQ : List Nat := []
  /-- offset of the image that the save or load has come to, 0 before it moves data, and what a load has read of the image
  below its stores -/
  savePos : Nat := 0
  loading : Bool := false
  img : List Host.Cell := []
  rings : List (Nat × Ring) := []
  /-- token tables by ENG (R173) -/
  toks : List (Nat × TokTab) := []
  copyQ : List CopyCmd := []
  lanQ : List LanCmd := []
  /-- commands whose restartable fault waits for a requeue (R182) -/
  copyHeld : List CopyCmd := []
  lanHeld : List LanCmd := []
  l2tlb : List TlbEntry := []
  /-- handle of the launch whose rings and routine the last dispatch loaded (R96) -/
  loadedBy : Option Nat := none
  farea : Word := 0
  sstep : Nat := 19
  swAsk : Nat := 19
  sstop : Nat := 0
  sacc : Nat := 0
  scyc : Nat := 0
  /-- swarm cycles in which timers run (R208, R344, R358) -/
  tcyc : Nat := 0
  mstep : Nat := 19
  maAsk : Nat := 19
  mstop : Nat := 0
  macc : Nat := 0
  deriving DecidableEq, Repr

/-- An easel entry or a taken tile (R206). -/
structure Tile where
  tag : Nat
  nvalid : Nat
  kind : Nat
  hlog : Nat
  timed : Bool
  ring : Nat
  slot : Nat
  gen : Nat
  mask : Nat
  /-- module cycle and order of the post -/
  cyc : Nat
  order : Nat
  deriving DecidableEq, Repr

/-- Content tag of a canvas half (R219). -/
inductive CanTag where | fmt (f : Nat) | had
  deriving DecidableEq, Repr

/-- One half of the canvas: rows of FP32 patterns, or of storage codes for INT8, INT4 and L6 (R236). -/
structure Half where
  tag : CanTag := .fmt 0
  rows : List (Nat × List Nat) := []
  scales : List Nat := []
  deriving DecidableEq, Repr

/-- An accumulator row (R219, R234): 128 cells, valid, mode tag, FP32 row scale. -/
structure AccRow where
  cells : List Nat := []
  valid : Bool := false
  tag : Option ArMode := none
  scale : Nat := 0x3F800000
  deriving DecidableEq, Repr

/-- One accumulator bank. -/
structure Bank where
  rows : List (Nat × AccRow) := []
  poison : Bool := false
  /-- first bad row, and its raw-window address -/
  frow : Nat := 0
  faddr : Nat := 0
  /-- was it in the half of the bank that FB of mu.stat tells of (R246) -/
  fb : Bool := false
  deriving DecidableEq, Repr

/-- A queued FEED (R225, R231). -/
structure Feed where
  src : FeedSrc
  tile : Option Tile
  row : Nat
  left : Nat
  k0 : Nat
  mode : ArMode
  pal : List PalOp
  dest : Nat
  acc : Accum
  /-- first cycle at which the next row may enter -/
  at_ : Nat
  deriving DecidableEq, Repr

/-- A row in the array (R223): the A elements and canvas rows it read, and where it lands. -/
structure InArr where
  due : Nat
  row : Nat
  valid : Bool
  mode : ArMode
  pal : List PalOp
  dest : Nat
  acc : Accum
  a : List Nat
  can : List (List Nat)
  rscale : Nat
  deriving DecidableEq, Repr

/-- The out tile a DRAIN captured (R225, R242). -/
structure OutTile where
  ring : Nat
  slot : Nat
  gen : Nat
  deriving DecidableEq, Repr

/-- An issued DRAIN (R225, R238). -/
structure Drain where
  bank : Nat
  row : Nat
  left : Nat
  fmt : OFmt
  scale : Nat
  rm : Rm
  op : PpOp
  k : Nat
  passes : Nat
  ncol : Nat
  out : Option OutTile
  base : Nat
  at_ : Nat
  deriving DecidableEq, Repr

/-- A row read by a drain, in DR, PP or OW (R223). -/
structure InPipe where
  /-- read cycle -/
  rd : Nat
  row : Nat
  valid : Bool
  vals : List Nat
  /-- V[r] as read at the row's entry to PP -/
  v : Option Nat
  done : Bool
  fmt : OFmt
  rm : Rm
  op : PpOp
  k : Nat
  passes : Nat
  ncol : Nat
  out : Option OutTile
  base : Nat
  deriving DecidableEq, Repr

/-- A loop of the loop stack (R229). -/
structure Loop where
  body : Nat
  left : Nat
  index : Nat
  deriving DecidableEq, Repr

/-- A pending routine-memory load of MULOAD or of a group dispatch (R218, R96). -/
structure MuLoad where
  ctx : Option Nat
  off : Nat
  data : List Byte
  order : Nat
  /-- the launch whose dispatch loads it -/
  launch : Nat := 0
  deriving DecidableEq, Repr

/-- A seal-out in flight (R223, R242): due cycle. -/
structure SealOut where
  due : Nat
  out : OutTile
  deriving DecidableEq, Repr

/-- A run token in flight (R230). -/
structure RunTok where
  due : Nat
  ring : Nat
  slot : Nat
  gen : Nat
  /-- COUNT, or the code of an abandoned run; the token entries that complete -/
  rcd : CloseRec
  closers : List Nat
  deriving DecidableEq, Repr

/-- Condition of a matrix unit (R220). -/
inductive MuSt where | resting | running | halted
  deriving DecidableEq, Repr

/-- One matrix unit (R219). -/
structure Mu where
  st : MuSt := .resting
  cyc : Nat := 0
  easel : List Tile := []
  posted : Nat := 0
  curA : Option Tile := none
  bHold : Option Tile := none
  bLoaded : Bool := true
  front : Half := {}
  back : Half := {}
  /-- a LOAD or HAD filling the back: the cycle in which it is complete, and what the back will hold -/
  fill : Option (Nat × Half) := none
  fillStart : Nat := 0
  banks : Vector Bank 4 := Vector.replicate 4 {}
  clears : List (Nat × Nat) := []
  palette : Option (List PalOp) := none
  palNew : Option (List PalOp) := none
  palPart : List PalOp := []
  v : List (Nat × Nat) := []
  afBase : Nat := 0
  afFrom : FeedSrc := .tile
  arMode : ArMode := .bf16
  arDest : Nat := 0
  arAccum : Accum := .zero
  acSel : Nat := 0
  drFmt : OFmt := .fp32
  drScale : Nat := 64
  drRound : Rm := .rne
  ppOp : PpOp := .none
  ppK : Nat := 1
  ppPasses : Nat := 8
  ppNcol : Nat := 0
  owBase : Nat := 0
  owEn : Bool := false
  outTile : Option OutTile := none
  feeds : List Feed := []
  arr : List InArr := []
  drain : Option Drain := none
  pipe : List InPipe := []
  loops : List Loop := []
  afRow : Nat := 0
  drRow : Nat := 0
  /-- routine-memory offset of the bundle being issued, and its issues made -/
  bpc : Nat := 0
  rep : Nat := 0
  /-- control reached bpc by falling through END (R46) -/
  fell : Bool := false
  lastBpc : Nat := 0
  held : List (Nat × Instr) := []
  ppCount : Nat := 0
  /-- the survivor count at the start of the cycle, and the out tiles a row was written to in it (R223, R224) -/
  count0 : Nat := 0
  wrote : List OutTile := []
  sealOuts : List SealOut := []
  runTok : List RunTok := []
  firstOut : Nat := 0
  nOut : Nat := 0
  loads : List MuLoad := []
  reason : Nat := 0
  code : Nat := 0
  frow : Nat := 0
  fb : Bool := false
  deriving DecidableEq, Repr

/-- States of a task-table entry (R83). -/
inductive TaskSt where | free | waiting | ready | running | faulted | draining
  deriving DecidableEq, Repr

/-- A group in the reorder window (R93, R94). -/
structure Group where
  gid : Nat
  alive : Nat
  fcode : Nat
  /-- cycle and context of the fault that gave the code -/
  fkey : Nat
  deriving DecidableEq, Repr

/-- The launch of an entry (R73, R93). -/
structure Launch where
  lblk : Nat
  arg : Nat
  cring : Nat
  base : Nat
  log2n : Nat
  rconf : Nat
  descs : List (Nat × Nat)
  rout : Nat
  rsize : Nat
  hent : Nat
  gcount : Nat
  cpg : Nat
  hpc : Nat
  nextGid : Nat
  recs : Nat
  groups : List Group
  /-- launching context, in system mode? (R374) -/
  who : Nat
  sys : Bool
  /-- a record that could not be written, or an image that could not be read, is tried again at this cycle (R374) -/
  retryAt : Option Nat
  imgAt : Option Nat
  /-- the completion ring is full: RIDX is read again at this cycle (R75) -/
  pollAt : Option Nat
  lastCl : Option Nat
  deriving DecidableEq, Repr

/-- A task-table entry (R83). -/
structure Task where
  st : TaskSt := .free
  gen : Nat := 0
  ctr : Nat := 0
  qid : Nat := 0
  prio : Nat := 0
  /-- the cycle in which it became READY at its level: with the index, its place in the queue level (R85, R88) -/
  since : Nat := 0
  hnd : Nat := 0
  prec : Bool := false
  entry : Nat := 0
  kind : Nat := 0
  clu : Nat := 0
  succ : List Nat := []
  payload : List Word := []
  handler : Bool := false
  ctx : Nat := 0
  launch : Option Launch := none
  deriving DecidableEq, Repr

/-- A handler task to be spawned (R90, R98, R99): in the faulted task's own entry, or in a new one; the fields it takes, the
source's handle, and the fault record. -/
structure Spawn where
  same : Option Nat
  entry : Nat
  qid : Nat
  prio : Nat
  prec : Bool
  kind : Nat
  clu : Nat
  srcHandle : Nat
  rcd : Nat
  deriving DecidableEq, Repr

/-- One die: its scheduler and registers. -/
structure Die where
  ready : Bool := false
  tasks : List (Nat × Task) := []
  /-- queue last served at levels 0 to 3 (R86) -/
  lastQ : Vector Nat 4 := Vector.replicate 4 63
  prevCl : Nat := 31
  window : Nat := 0
  spawns : List Spawn := []
  htable : Word := 0
  under : Nat := 0
  frec : Word := 0
  lcompC : Nat := 0
  lcompR : Nat := 0
  evicts : Nat := 0
  deriving DecidableEq, Repr

/-- A waiter of a full/empty word (R297, R299). -/
structure FeWaiter where
  tag : Nat
  /-- 0 LDFE, 1 LDFF, 2 STEF -/
  op : Nat
  data : Word
  d : Reg
  va : Nat
  /-- waiting context, or a request of another module -/
  ctx : Option Nat
  remote : Option (Nat × Nat)
  due : Option Nat
  deriving DecidableEq, Repr

/-- The two wait lists of a word (R297). -/
structure FeLists where
  fl : List FeWaiter := []
  el : List FeWaiter := []
  deriving DecidableEq, Repr

/-- An arrival of a context of this module at a barrier (R302, R303): the register that receives the rank, the rank, or the count where
another module counts, and the number of the arrival, by which its release finds it. -/
structure BarArr where
  ctx : Nat
  d : Reg
  rank : Nat
  tag : Nat
  deriving DecidableEq, Repr

/-- A barrier generation (R302): its count, and the arrivals in rank order. -/
structure Barrier where
  count : Nat
  arr : List BarArr
  /-- arrivals of contexts of other modules: device, context, rank -/
  remote : List (Nat × Nat × Nat)
  /-- arrivals of a released generation that the release has not yet reached -/
  rel : List BarArr
  deriving DecidableEq, Repr

/-- A KV frame move in progress (R258): inverted-table indices of source and target. -/
structure KvMove where
  id : Nat
  promo : Bool
  src : Nat
  dst : Nat
  srcFrame : Nat
  deriving DecidableEq, Repr

/-- A frame that an operation of context `ctx` asks for (R257): a new one with these channel scales, or the promotion of the
block's frame from tier 1. -/
structure KvReq where
  ctx : Nat
  promo : Bool
  seq : Nat
  layer : Nat
  head : Nat
  lb : Nat
  scales : List Nat
  deriving DecidableEq, Repr

/-- An operation that waits at its lantern (R249): its context, the sequences whose order it keeps, whether it settles frames (R255), and
what a KVST has read of memory (R274). -/
structure KvOp where
  ctx : Nat
  seqs : List Nat
  settles : Bool
  data : List Nat
  deriving DecidableEq, Repr

/-- A key slot (R327). -/
structure KeySlot where
  v : Bool := false
  key : BitVec 256 := 0
  epoch : Nat := 0
  peer : Nat := 0
  ctr : Nat := 0
  /-- highest counter received, and the counters seen of the window -/
  high : Option Nat := none
  seen : List Nat := []
  deriving DecidableEq, Repr

/-- A packet that leaves the module: what an outside observer of the fabric sees (assumption 5). -/
inductive Packet where
  | request (dev : Nat) (r : RemoteReq)
  | reply (dev rid code val : Nat) (reason : Nat) (enc : Bool) (epoch ctr : Nat)
  | message (m : ChanMsg)
  | grant (g : GrantMsg)
  | ack (dst gen : Nat) (refused : Bool)
  | wake (dev ctx : Nat)
  | doorbell (v : Nat)
  | barrier (key count ctx : Nat)
  | release (dev key ctx rank : Nat)
  | hostWrite (addr : Nat) (data : List Byte)
  | hostReply (val : Nat) (ur : Bool)
  deriving DecidableEq, Repr

/-- A turn of the current cycle: a context issues, a matrix unit runs its cycle, or a device step takes place. -/
inductive Turn where
  | issue (ctx : Nat)
  | mu (m : Nat)
  | ev (i : Instr)
  /-- what the log of a replaying core brings in this cycle: ahead of the issues, or (`done`) the completions behind them (R346) -/
  | replay (core : Nat) (done : Bool)
  deriving DecidableEq, Repr

/-- A saved cluster behind the engine region of an image (R350, assumption 9). -/
structure Snapshot where
  cl : Cluster
  cores : List (Nat × Core)
  slots : List (Nat × Slot)
  mus : List (Nat × Mu)
  deriving DecidableEq, Repr

/-- The start-up state (R362 to R366). -/
structure Boot where
  svn : Nat := 0
  reason : Nat := 0
  fails : Nat := 0
  conf : Bool := false
  minimal : Bool := false
  /-- count of consecutive failed starts, kept across resets -/
  count : Nat := 0
  lastReason : Nat := 0
  /-- the start has begun and is neither confirmed nor failed -/
  started : Bool := false
  start : Nat := 0
  failed : Bool := false
  /-- minimal mode without an image: the ROM waits for a doorbell (R364) -/
  waiting : Bool := false
  image : Option Nat := none
  control : Nat := 0
  walker : Nat := 0
  reports : Nat := 0
  links : Nat := 0
  /-- SHA3-512 digest of the running image (R367) -/
  digest : List Byte := []
  deriving DecidableEq, Repr

/-- A WAKE that follows posted requests of its context (R196, R294): the target, and the requests that are not acknowledged yet. -/
structure WakeReq where
  dev : Nat
  ctx : Nat
  behind : List Nat
  deriving DecidableEq, Repr

/-- A TLBINV that has removed its entries: its context and icount, and the full/empty waits, translated through them, that it waits
for (R194 step 3). -/
structure InvHold where
  ctx : Nat
  icount : Word
  waits : List Nat
  deriving DecidableEq, Repr

/-- The module. -/
structure State where
  now : Nat
  cur : Nat
  curMu : Nat
  todo : List Turn
  events : List (Nat × Instr)
  freeCtr : Nat
  oracle : List Nat
  tagCtr : Nat
  mem : List Host.Cell
  full : List Nat
  /-- 8-byte words whose data is uncorrectable (R158): set by the environment alone -/
  ecc : List Nat
  feWait : List (Nat × FeLists)
  barriers : List (Nat × Barrier)
  outbox : List Packet
  /-- packets that wait in the network interface while no Kevel port is ready (R324, R362) -/
  nic : List Packet
  slots : List (Nat × Slot)
  cores : List (Nat × Core)
  clusters : List (Nat × Cluster)
  mus : List (Nat × Mu)
  dies : List (Nat × Die)
  sqTable : Word
  kvTable : Word
  kvShape : Word
  kvCtl : Word
  childCnt : List (Nat × Nat)
  moves : List KvMove
  kvReqs : List KvReq
  /-- operations that wait at their lanterns, in order of arrival (R249) -/
  kvWait : List KvOp
  /-- has kv.table been written or kv.ctl EN been set since reset: are there frames to count (R247)? -/
  kvUsed : Bool
  fabExport : Word
  fabPool : Nat
  fabResv : Nat
  fabRefc : Nat
  fabAuthf : Nat
  fabLastr : Nat
  fabFlits : Nat
  keys : List (Nat × KeySlot)
  /-- export entries as cached, by index (R320) -/
  exports : List (Nat × Nat)
  /-- writes of the host to other modules that are not answered yet: number, device (R331) -/
  hostOut : List (Nat × Nat)
  /-- relights that have not left yet (R196) -/
  wakes : List WakeReq
  windows : List (Nat × Nat)
  pwrIsl : Nat
  pwrStep : Nat
  pwrLimit : Nat
  pwrWatts : Nat
  pwrThrot : Nat
  /-- accepted writes of pwr.ctl whose island has not yet come to its step: context, island, icount of the write (R358) -/
  pwrWait : List (Nat × Nat × Word)
  /-- TLBINVs that have performed and wait for accesses (R194) -/
  invWait : List InvHold
  pkgLost : Nat
  boot : Boot
  snapshots : List (Nat × Snapshot)
  deriving DecidableEq, Repr

/-- The module right after reset: every register at its reset value, every table empty, and the module-reset step (R362)
the one turn to take (assumption 3). -/
def State.reset : State where
  now := 0
  cur := 0
  curMu := 0
  todo := [.ev .moduleReset]
  events := []
  freeCtr := 0
  oracle := []
  tagCtr := 0
  mem := []
  full := []
  ecc := []
  feWait := []
  barriers := []
  outbox := []
  nic := []
  slots := []
  cores := []
  clusters := []
  mus := []
  dies := []
  sqTable := 0
  kvTable := 8
  kvShape := 0
  kvCtl := 0
  childCnt := []
  moves := []
  kvReqs := []
  kvWait := []
  kvUsed := false
  fabExport := 0
  fabPool := 8
  fabResv := 4
  fabRefc := 0
  fabAuthf := 0
  fabLastr := 0
  fabFlits := 0
  keys := []
  exports := []
  hostOut := []
  wakes := []
  windows := []
  pwrIsl := 0
  pwrStep := 19
  pwrLimit := 2600
  pwrWatts := 0
  pwrThrot := 0
  pwrWait := []
  invWait := []
  pkgLost := 0
  boot := {}
  snapshots := []

end Sys2Proof.Machine
end

