-- ==== Sys2Proof/Machine/Store.lean ====
section
/-! DEFINITION. Sparse tables, memory in its canonical form, the places of the module by number, and free values. -/

namespace Sys2Proof.Machine

/-! ### Sparse tables -/

/-- The entry of number `k`. -/
def tget {α : Type} : List (Nat × α) → Nat → Option α
  | [], _ => none
  | (i, a) :: t, k => if i = k then some a else tget t k

/-- The table with entry `k` set, in rising order of number. -/
def tput {α : Type} : List (Nat × α) → Nat → α → List (Nat × α)
  | [], k, a => [(k, a)]
  | (i, b) :: t, k, a => if k < i then (k, a) :: (i, b) :: t else if i = k then (k, a) :: t else (i, b) :: tput t k a

/-- The table without entry `k`. -/
def tdel {α : Type} : List (Nat × α) → Nat → List (Nat × α)
  | [], _ => []
  | (i, b) :: t, k => if i = k then t else (i, b) :: tdel t k

/-- A set of numbers in rising order: insertion and removal. -/
def sput : List Nat → Nat → List Nat
  | [], k => [k]
  | i :: t, k => if k < i then k :: i :: t else if i = k then i :: t else i :: sput t k
def sdel : List Nat → Nat → List Nat
  | [], _ => []
  | i :: t, k => if i = k then t else i :: sdel t k

/-! ### Memory -/

/-- One byte; an address not listed reads 0 (assumption 1). -/
def memGet (m : List Host.Cell) (a : Nat) : Byte := (tget m a).getD 0

/-- Memory with one byte written, in canonical form. -/
def memSet (m : List Host.Cell) (a : Nat) (b : Byte) : List Host.Cell := if b = 0 then tdel m a else tput m a b

/-- The canonical form of memory: addresses strictly rising, no byte listed that reads as an unlisted one. -/
def Memory.wf (m : List Host.Cell) : Bool :=
  m.all (fun c => c.2 != 0) && (m.map Prod.fst).Pairwise (· < ·)

/-- `n` bytes from `a`. -/
def memBytes (m : List Host.Cell) (a n : Nat) : List Byte := (List.range n).map fun i => memGet m (a + i)

/-- The little-endian number of `n` bytes from `a` (R1). -/
def memRead (m : List Host.Cell) (a n : Nat) : Nat := leNat (memBytes m a n)

/-- Memory with bytes written from `a` on. -/
def memPut (m : List Host.Cell) (a : Nat) : List Byte → List Host.Cell
  | [] => m
  | b :: bs => memPut (memSet m a b) (a + 1) bs

/-- Memory with the low `n` bytes of `v` written at `a`, little-endian (R1). -/
def memWrite (m : List Host.Cell) (a n v : Nat) : List Host.Cell := memPut m a (leBytes n v)

/-- Memory with the range of `n` bytes from `src` copied to `dst`; ranges do not overlap. -/
def memBlit (m : List Host.Cell) (src dst n : Nat) : List Host.Cell :=
  let kept := m.filter fun c => !(dst ≤ c.1 && c.1 < dst + n)
  (m.filter fun c => src ≤ c.1 && c.1 < src + n).foldl (fun acc c => memSet acc (c.1 - src + dst) c.2) kept

/-- Memory with `n` bytes from `a` set to zero. -/
def memZero (m : List Host.Cell) (a n : Nat) : List Host.Cell := m.filter fun c => !(a ≤ c.1 && c.1 < a + n)

/-! ### Places by number (R9) -/

def ctxCore (c : Nat) : Nat := c / 16
def ctxCl (c : Nat) : Nat := c / 128
def ctxDie (c : Nat) : Nat := c / 4096
def ctxSlot (c : Nat) : Nat := c % 16
def coreCl (k : Nat) : Nat := k / 8
def clDie (cl : Nat) : Nat := cl / 32

/-- Location of host byte `a` behind the bridge (R331). -/
def locHost (a : Nat) : Nat := 2 ^ 48 + a
/-- Location of byte `o` of the scratchpad of cluster `cl` (R155). -/
def locSp (cl o : Nat) : Nat := 2 ^ 50 + cl * 2 ^ 23 + o
/-- Location of byte `o` of the local store of core `k` (R153). -/
def locLs (k o : Nat) : Nat := 2 ^ 50 + 2 ^ 32 + k * 2 ^ 18 + o
/-- Location of byte `o` of the routine memory of matrix unit `m` (R219). -/
def locRm (m o : Nat) : Nat := 2 ^ 50 + 2 ^ 33 + m * 2 ^ 16 + o

def State.slot (s : State) (c : Nat) : Slot := (tget s.slots c).getD {}
def State.setSlot (s : State) (c : Nat) (v : Slot) : State := { s with slots := tput s.slots c v }
def State.ctx (s : State) (c : Nat) : Ctx := (s.slot c).ctx
def State.setCtx (s : State) (c : Nat) (v : Ctx) : State := s.setSlot c { s.slot c with ctx := v }
def State.me (s : State) : Ctx := s.ctx s.cur
def State.setMe (s : State) (v : Ctx) : State := s.setCtx s.cur v
def State.core (s : State) (k : Nat) : Core := (tget s.cores k).getD {}
def State.setCore (s : State) (k : Nat) (v : Core) : State := { s with cores := tput s.cores k v }
def State.myCore (s : State) : Core := s.core (ctxCore s.cur)
def State.setMyCore (s : State) (v : Core) : State := s.setCore (ctxCore s.cur) v
def State.cluster (s : State) (k : Nat) : Cluster := (tget s.clusters k).getD {}
def State.setCluster (s : State) (k : Nat) (v : Cluster) : State := { s with clusters := tput s.clusters k v }
def State.mu (s : State) (k : Nat) : Mu := (tget s.mus k).getD {}
def State.setMu (s : State) (k : Nat) (v : Mu) : State := { s with mus := tput s.mus k v }
def State.die (s : State) (k : Nat) : Die := (tget s.dies k).getD {}
def State.setDie (s : State) (k : Nat) (v : Die) : State := { s with dies := tput s.dies k v }
def State.setMem (s : State) (m : List Host.Cell) : State := { s with mem := m }

/-- The role of a slot number (R107): 0 control, 1 helper, 2 message, 3 walker. -/
def slotRole (n : Nat) : Nat := if n = 0 then 0 else if n ≤ 10 then 1 else if n ≤ 14 then 2 else 3

def State.lost (s : State) (d : Nat) : Bool := bit s.pkgLost d

/-- Is die `d` gone: lost (R343), or not yet ready (R362)? -/
def State.dieGone (s : State) (d : Nat) : Bool := s.lost d || !(s.die d).ready

/-! ### Free values and timed steps -/

/-- The next free value, and the state that has drawn it (assumption 4). -/
def State.free (s : State) : Nat × State :=
  match s.oracle with
  | v :: r => (v, { s with oracle := r })
  | [] => (Config.freeNat s.freeCtr, { s with freeCtr := s.freeCtr + 1 })

/-- A free choice among `n` (R6); with one way there is no choice to draw. -/
def State.choose (s : State) (n : Nat) : Nat × State :=
  if n ≤ 1 then (0, s) else (s.free.1 % n, s.free.2)

/-- A free value below 2^64. -/
def State.freeWord (s : State) : Word × State := (BitVec.ofNat 64 s.free.1, s.free.2)

/-- Device step `i` due `d` cycles after the next. -/
def State.after (s : State) (d : Nat) (i : Instr) : State := { s with events := s.events ++ [(s.now + 1 + d, i)] }

/-- Device step `i` due after the latency of a variable path: a free number of cycles. -/
def State.later (s : State) (i : Instr) : State :=
  s.free.2.after (s.free.1) i

/-- A fresh number for an outstanding access or reply. -/
def State.tag (s : State) : Nat × State := (s.tagCtr, { s with tagCtr := s.tagCtr + 1 })

/-- Does a packet leave by the PCIe port, not by a Kevel port? -/
def Packet.host (p : Packet) : Bool :=
  match p with
  | .hostWrite _ _ | .hostReply _ _ => true
  | _ => false

/-- A packet leaves the module; while no Kevel port is ready it waits in the network interface (R324, R362). -/
def State.emit (s : State) (p : Packet) : State :=
  if p.host || s.boot.links != 0 then { s with outbox := s.outbox ++ [p] } else { s with nic := s.nic ++ [p] }

/-- What stays of an access that faults or misses: the free values drawn, the packets sent, the refusals counted. -/
def State.draws (s t : State) : State :=
  { s with freeCtr := t.freeCtr, oracle := t.oracle, tagCtr := t.tagCtr, outbox := t.outbox, nic := t.nic, keys := t.keys,
           exports := t.exports, fabRefc := t.fabRefc, fabLastr := t.fabLastr, fabAuthf := t.fabAuthf }

/-- Is the full/empty bit of the word at location `w` set (R296)? -/
def State.isFull (s : State) (w : Nat) : Bool := s.full.contains w
def State.setFull (s : State) (w : Nat) (v : Bool) : State :=
  { s with full := if v then sput s.full w else sdel s.full w }

/-- fab.id (R319). -/
def fabDev : Nat := Config.strapDev % 4096
def fabId : Nat := fabDev + Config.strapBridge.toNat * 4096

end Sys2Proof.Machine
end

