-- ==== Sys2Proof/Machine/Flags.lean ====
section
/-! DEFINITION. Predicates, dependence counters and the conditions of the compares (R21, R34, R35, R126, R128, R143). -/

namespace Sys2Proof.Machine

/-- The value of predicate `n`; p0 reads true (R21, R112). -/
def Ctx.pred (x : Ctx) (n : Pred) : Bool := n == 0 || x.p.getLsbD n.toNat

/-- Predicate `n` set; a write to p0 is discarded (R143). -/
def Ctx.setPred (x : Ctx) (n : Pred) (v : Bool) : Ctx :=
  if n = 0 then x else { x with p := if v then x.p ||| (1#128 <<< n.toNat) else x.p &&& ~~~(1#128 <<< n.toNat) }

/-- Bit n set when dcn is not zero (R126). -/
def Ctx.dcMask (x : Ctx) : BitVec 4 :=
  BitVec.ofNat 4 ((x.dc[0] != 0).toNat + (x.dc[1] != 0).toNat * 2 + (x.dc[2] != 0).toNat * 4 + (x.dc[3] != 0).toNat * 8)

/-- Counter `n` raised by one: the caller has checked that it is below 15 (R126, R128). -/
def Ctx.incDc (x : Ctx) (n : Fin 4) : Ctx := { x with dc := x.dc.set n (x.dc[n] + 1) }

/-- Counter `n` lowered by one; it never goes below 0 (R128). -/
def Ctx.decDc (x : Ctx) (n : Fin 4) : Ctx := { x with dc := x.dc.set n (if x.dc[n] = 0 then 0 else x.dc[n] - 1) }

/-- Guard of a header (R126). -/
def Ctx.guard (x : Ctx) (h : Hdr) : Bool := x.pred h.gp != h.gn

/-- Condition of ICMP on two register values (R34, R143). -/
def icmpCond (cc : Icc) (ty : IntTy) (a b : Word) : Bool :=
  match cc with
  | .eq => ty.u a == ty.u b
  | .ne => ty.u a != ty.u b
  | .lt => ty.s a < ty.s b
  | .ge => ty.s b ≤ ty.s a
  | .ltu => ty.u a < ty.u b
  | .geu => ty.u b ≤ ty.u a
  | .le => ty.s a ≤ ty.s b
  | .gt => ty.s b < ty.s a
  | .leu => ty.u a ≤ ty.u b
  | .gtu => ty.u b < ty.u a
  | .tst => (a &&& b).toNat % 2 ^ ty.w != 0

/-- Condition of FCMP (R143): a NaN makes every condition but ne and uno false. -/
def fcmpCond (cc : Fcc) (ty : FloatTy) (a b : Word) : Bool :=
  match ty.fmt.cmp a.toNat b.toNat with
  | none => cc == .ne || cc == .uno
  | some o =>
    match cc with
    | .eq => o == .eq
    | .ne => o != .eq
    | .lt => o == .lt
    | .ge => o != .lt
    | .le => o != .gt
    | .gt => o == .gt
    | .ord => true
    | .uno => false

/-- PLOG (R35): bit 2a + b of CC. -/
def plogVal (cc : BitVec 4) (a b : Bool) : Bool := cc.getLsbD (2 * a.toNat + b.toNat)

/-- The immediate of ICMP, sign-extended (R34). -/
def cmpImm (v : BitVec 12) : Word := v.signExtend 64

end Sys2Proof.Machine
end

