-- ==== Sys2Proof/Machine/Memory.lean ====
section
/-! DEFINITION. Where an address leads (R15 to R17, R151 to R160), translation (R185 to R190), the scratchpad windows
(R57 to R59), and reads and writes of the place an address names. -/

namespace Sys2Proof.Machine

/-! ### Fault codes (R339) -/

def cIllegalOp := 0x01
def cIllegalEnc := 0x02
def cPriv := 0x03
def cAlign := 0x04
def cNotPresent := 0x05
def cProt := 0x06
def cFeTimeout := 0x07
def cRefused := 0x08
def cEcc := 0x09
def cTileState := 0x0A
def cMuBundle := 0x0B
def cMuPoison := 0x0C
def cKvNotPresent := 0x0D
def cKvQuar := 0x0E
def cKvNonfinite := 0x0F
def cSeqCommitted := 0x10
def cSeqUnreserved := 0x11
def cSeqRange := 0x12
def cTaskDec := 0x13
def cLaunchRange := 0x14
def cChanBroken := 0x15
def cDieLost := 0x16
def cSaveFault := 0x17
def cTrapCall := 0x18
def cBreak := 0x19
def cTokenInvalid := 0x1A
def cConfAuth := 0x1B

/-- The restartable faults (R339). -/
def restartable (code : Nat) : Bool := code == 0x05 || code == 0x07 || code == 0x0D

/-! ### Places -/

/-- A place an access reaches (R151). -/
inductive Loc where
  | phys (a : Nat)
  | sp (cl win o : Nat)
  | ls (core o : Nat)
  | glob (dev off : Nat)
  | host (a : Nat)
  deriving DecidableEq, Repr

/-- What an access does there (R160, R190). -/
inductive AKind where | read | write | amo | fetch
  deriving DecidableEq, Repr

/-- Who makes an access: a context of a core, or an engine for it (R374). `req` is the mailbox entry. -/
structure Who where
  core : Nat
  sys : Bool
  walker : Bool
  req : Nat
  agent : Nat

/-- The outcome of translating an access. A miss of kind `holdKind` posts no request: the access is held (R351), or
waits for a port (R362). -/
inductive Xl where
  | ok (l : Loc)
  | flt (code : Nat)
  | miss (kind : Nat)
  deriving DecidableEq, Repr

def holdKind : Nat := 4

/-- The context that issues, as the maker of an access. -/
def State.who (s : State) : Who :=
  ⟨ctxCore s.cur, s.me.sys, ctxSlot s.cur == 15, ctxSlot s.cur, 0⟩

/-- Is a physical address outside both memories (R152)? -/
def physReserved (a : Nat) : Bool := !(a < 2 ^ 39) && !(2 ^ 43 ≤ a && a < 2 ^ 43 + 2 ^ 41)

/-- Home die of a physical address (R152). -/
def homeDie (a : Nat) : Nat := if a < 2 ^ 39 then a / 2 ^ 36 else (a - 2 ^ 43) / 2 ^ 35 / 8

/-- Is the access through window `w` at offset `o` legal (R57)? -/
def winLegal (w o size : Nat) (x : Bool) (k : AKind) : Bool :=
  !x && k != .amo && (size == 4 || size == 8 || size == 16) &&
    (if w == 1 || w == 2 then o % 2 == 0 else if w == 3 then o % 12 % 3 == 0 else true)

/-- First element number of window offset `o`, in storage bits (R57). -/
def winBit (w o i : Nat) : Nat :=
  if w = 3 then
    let e := 4 * (o % 12) / 3 + i
    96 * (o / 12 + e / 16) + 6 * (e % 16)
  else 8 * o + fmtBits w * i

/-- Bytes from the start of the scratchpad that the access's element storage ends at. -/
def winEnd (w o size : Nat) : Nat := (winBit w o (size / 4 - 1) + fmtBits w + 7) / 8

/-- Does an address lie in the scratchpad's windows? -/
def inScratchpad (va : Nat) : Bool := let pg := va / 2 ^ 32; pg == 0xFF || (0xC0 ≤ pg && pg ≤ 0xDF)

/-- A scratchpad access at offset `o` of an aperture (R17, R57, R160 steps 2 and 3). -/
def spDecode (cl o size : Nat) (x : Bool) (k : AKind) : Xl :=
  let w := o / 2 ^ 25
  let wo := o % 2 ^ 25
  if 1 ≤ w ∧ w ≤ 5 then
    if !winLegal w wo size x k then .flt cAlign
    else if winEnd w wo size ≤ 2 ^ 23 then .ok (.sp cl w wo) else .flt cProt
  else if wo % size ≠ 0 then .flt cAlign
  else if w = 0 && wo + size ≤ 2 ^ 23 then .ok (.sp cl 0 wo) else .flt cProt

/-- Does a TLB entry match (R189)? -/
def TlbEntry.hits (e : TlbEntry) (asid va : Nat) : Bool := (e.gl || e.asid == asid) && va / 2 ^ e.lg == e.page / 2 ^ e.lg

/-- What a matching entry gives (R190). -/
def TlbEntry.use (e : TlbEntry) (sys : Bool) (k : AKind) (va : Nat) : Xl :=
  if !sys && !e.u then .flt cProt
  else if (match k with
    | .read => !e.r
    | .write => !e.w
    | .amo => !(e.r && e.w)
    | .fetch => !e.x) then .flt cProt
  else if (k == .write || k == .amo) && !e.d then .miss 3
  else
    let pa := e.frame / 2 ^ e.lg * 2 ^ e.lg + va % 2 ^ e.lg
    if physReserved pa then .flt cProt else .ok (.phys pa)

/-- Translation of a local address outside the apertures (R185, R190): with several matches any one is used. -/
def translate (s : State) (w : Who) (va : Nat) (k : AKind) : Xl × State :=
  let pa := va % 2 ^ 48
  let direct := if physReserved pa then Xl.flt cProt else .ok (.phys pa)
  let c := s.core w.core
  if w.walker then (direct, s)
  else if !bit c.atp.toNat 0 then (if w.sys then direct else .flt cProt, s)
  else
    let asid := bits c.atp.toNat 48 16
    let l1 := if w.req = 15 then [] else if k = .fetch then c.itlb else c.dtlb
    let ms := (l1 ++ (s.cluster (coreCl w.core)).l2tlb).filter (·.hits asid va)
    match ms with
    | [] => (.miss (if k = .fetch then 2 else if k = .read then 0 else 1), s)
    | e :: _ =>
      let r := s.choose ms.length
      (((ms[r.1]?).getD e).use w.sys k va, r.2)

/-- Is any byte of scratchpad `cl` from `o` on, `n` bytes, in a sealed tile slot (R200)? -/
def sealedAt (s : State) (cl o n : Nat) : Bool :=
  (s.cluster cl).rings.any fun (_, r) => r.en && r.slots.any fun (i, t) =>
    t.st == .sealed && i ≤ r.nslot && r.base + i * r.slotb < o + n && o < r.base + (i + 1) * r.slotb

/-- Bytes of scratchpad storage that an access touches: first byte and count. -/
def spSpan (w o size : Nat) : Nat × Nat :=
  if w = 0 then (o, size) else let b := winBit w o 0 / 8; (b, winEnd w o size - b)

/-- Steps 1 to 6 of R160, and the loss of a home die (R343), for an access of a context or an engine. -/
def resolve (s : State) (w : Who) (va size : Nat) (x : Bool) (k : AKind) : Xl × State :=
  let cl := coreCl w.core
  let r : Xl × State :=
    if va / 2 ^ 57 ≠ 0 then (.flt cProt, s)
    else if bit va 56 then (if va % size ≠ 0 then .flt cAlign else .ok (.glob (bits va 44 12) (va % 2 ^ 44)), s)
    else
      let pg := va / 2 ^ 32
      let o := va % 2 ^ 32
      if pg = 0xFE then
        (if o % size ≠ 0 then .flt cAlign
         else if o + size ≤ (s.core w.core).lsplit * 2 ^ 15 then .ok (.ls w.core o) else .flt cProt, s)
      else if pg = 0xFF then (spDecode cl o size x k, s)
      else if 0xC0 ≤ pg ∧ pg ≤ 0xDF then
        let t := clDie cl * 32 + (pg - 0xC0)
        match spDecode t o size x k with
        | .ok l => (if t = cl || (s.cluster t).ready then .ok l else .flt cProt, s)
        | e => (e, s)
      else if va % size ≠ 0 then (.flt cAlign, s)
      else translate s w va k
  match r.1 with
  | .ok (.sp c wd o) =>
    let sp := spSpan wd o size
    if (k == .write || k == .amo) && sealedAt s c sp.1 sp.2 then (.flt cTileState, r.2) else r
  | .ok (.phys a) => if s.dieGone (homeDie a) then (.flt cDieLost, r.2) else r
  | _ => r

/-! ### Reading and writing a place -/

/-- Location number of the first byte of a place of the module (window 0). -/
def Loc.num : Loc → Nat
  | .phys a => a
  | .sp cl _ o => locSp cl o
  | .ls k o => locLs k o
  | .glob _ off => off
  | .host a => locHost a

/-- `n` bits of the bit string of a scratchpad from bit `b` (R56, R57). -/
def spBits (s : State) (cl b n : Nat) : Nat := bits (memRead s.mem (locSp cl (b / 8)) ((b % 8 + n + 7) / 8)) (b % 8) n

/-- The scratchpad with those bits replaced, and every other bit of the shared bytes kept (R59). -/
def spSetBits (s : State) (cl b n v : Nat) : State :=
  let a := locSp cl (b / 8)
  let k := (b % 8 + n + 7) / 8
  let old := memRead s.mem a k
  let new := old - bits old (b % 8) n * 2 ^ (b % 8) + v % 2 ^ n * 2 ^ (b % 8)
  s.setMem (memWrite s.mem a k new)

/-- A decoding window read: n FP32 patterns (R57, R58). -/
def winRead (s : State) (cl w o : Nat) : Nat → Nat → Nat
  | 0, _ => 0
  | n + 1, i => decFmt w (spBits s cl (winBit w o i) (fmtBits w)) + 2 ^ 32 * winRead s cl w o n (i + 1)

/-- An encoding window write (R59). -/
def winWrite (s : State) (cl w o : Nat) : Nat → Nat → Nat → State
  | 0, _, _ => s
  | n + 1, i, v =>
    winWrite (spSetBits s cl (winBit w o i) (fmtBits w) (encFmt w .rne (v % 2 ^ 32))) cl w o n (i + 1) (v / 2 ^ 32)

/-- The words of 8 bytes that `n` bytes at `a` touch. -/
def wordsOf (a n : Nat) : List Nat := (List.range ((a % 8 + n + 7) / 8)).map fun i => a / 8 * 8 + 8 * i

/-- Does a read meet uncorrectable data (R158)? -/
def State.eccAt (s : State) (a n : Nat) : Bool := (wordsOf a n).any s.ecc.contains

/-- The value of a place of the module (R164). -/
def loadLoc (s : State) (l : Loc) (size : Nat) : Nat :=
  match l with
  | .sp cl w o => if w = 0 then memRead s.mem (locSp cl o) size else winRead s cl w o (size / 4) 0
  | l => memRead s.mem l.num size

/-- The state with a place of the module written (R164). -/
def storeLoc (s : State) (l : Loc) (size v : Nat) : State :=
  match l with
  | .sp cl w o =>
    if w = 0 then s.setMem (memWrite s.mem (locSp cl o) size v) else winWrite s cl w o (size / 4) 0 v
  | l => s.setMem (memWrite s.mem l.num size v)

/-- Does reading the place meet uncorrectable data (R158)? -/
def locEcc (s : State) (l : Loc) (size : Nat) : Bool :=
  match l with
  | .sp cl w o => s.eccAt (locSp cl (spSpan w o size).1) (spSpan w o size).2
  | .glob _ _ => false
  | l => s.eccAt l.num size

/-- The paths of R151 for an access of core `k`. -/
inductive Path where | near | onDie | offDie | global
  deriving DecidableEq, Repr

def pathOf (k : Nat) (l : Loc) : Path :=
  match l with
  | .ls _ _ => .near
  | .sp cl _ _ => if cl = coreCl k then .near else .onDie
  | .phys a => if homeDie a = coreCl k / 32 then .onDie else .offDie
  | .glob _ _ | .host _ => .global

/-- The die whose memory a place is. -/
def Loc.die : Loc → Option Nat
  | .phys a => some (homeDie a)
  | .sp cl _ _ => some (clDie cl)
  | _ => none

/-- The result of an access or of a structure's read, with the state that made it: a value, a fault, or a miss to be posted. -/
inductive Acc (α : Type) where
  | ok (v : α) (s : State)
  | flt (f : Flt) (s : State)
  | miss (va kind : Nat) (s : State)

/-! ### The miss mailbox (R191, R374) -/

/-- Engine number of an agent, by which misses of one cycle are ordered (R191). -/
def MissReq.eng (m : MissReq) : Nat := m.agent % 8

/-- A request put behind the earlier ones, and within its cycle behind those of lower number (R191). -/
def missInsert (key : MissReq → Nat) (e : MissReq) : List MissReq → List MissReq
  | [] => [e]
  | m :: t => if m.cyc = e.cyc && !m.taken && key e < key m then e :: m :: t else m :: missInsert key e t

/-- A request at the walker of the core: entry `req`; an engine's request waits while entry 15 is taken. An engine's miss that finds
entry 15 posted in the same cycle by a higher engine, and not yet taken, goes before it. -/
def postMiss (s : State) (w : Who) (va kind : Nat) : State :=
  let c := s.core w.core
  let e : MissReq := ⟨w.req, bits va 12 44, kind, !w.sys, bits c.atp.toNat 48 16, false, [], w.agent, s.now⟩
  if kind = holdKind then s
  else if w.req ≠ 15 then
    if c.mbox.any (·.req == w.req) then s else s.setCore w.core { c with mbox := missInsert (·.req) e c.mbox }
  else if (c.mbox ++ c.engWait).any (fun m => m.req == 15 && m.agent == w.agent && m.vpn == e.vpn && m.kind == kind) then s
  else
    match c.mbox.find? (·.req == 15) with
    | none => s.setCore w.core { c with mbox := missInsert (·.req) e c.mbox }
    | some m =>
      if m.cyc = s.now && !m.taken && e.eng < m.eng then
        s.setCore w.core { c with mbox := missInsert (·.req) e (c.mbox.filter (·.req != 15)), engWait := missInsert MissReq.eng m c.engWait }
      else s.setCore w.core { c with engWait := missInsert MissReq.eng e c.engWait }

/-- An engine's command has gone: its requests at the walker, and the answers to them, go with it (R193). -/
def dropEngine (s : State) (k agent : Nat) : State :=
  let c := s.core k
  let keep (m : MissReq) : Bool := !(m.req == 15 && m.agent == agent)
  let mbox := c.mbox.filter keep
  let wait := c.engWait.filter keep
  let ans := c.engAns.filter (·.agent != agent)
  match wait with
  | e :: r => if mbox.any (·.req == 15) then s.setCore k { c with mbox := mbox, engWait := wait, engAns := ans }
    else s.setCore k { c with mbox := mbox ++ [e], engWait := r, engAns := ans }
  | [] => s.setCore k { c with mbox := mbox, engWait := wait, engAns := ans }

/-- The walker's answer to an engine's miss on the page of `va`, if it refused the page (R374). -/
def engAnswer (s : State) (w : Who) (va : Nat) : Option Nat :=
  ((s.core w.core).engAns.find? fun a => a.agent == w.agent && a.vpn == bits va 12 44).map (·.res)

/-- The refusal of a page is used up by the fault it causes. -/
def clearAnswers (s : State) (w : Who) (va : Nat) : State :=
  let c := s.core w.core
  s.setCore w.core { c with engAns := c.engAns.filter fun a => !(a.agent == w.agent && a.vpn == bits va 12 44) }

/-- Does a translation stand open to the walker's refusal of its page (R193)? The retry faults though the page may be mapped by now. -/
def Xl.walked (r : Xl) : Bool :=
  match r with
  | .miss _ | .ok (.phys _) => true
  | _ => false

/-- The fault of a page the walker has refused with RES. -/
def refusal (res : Nat) : Nat := if res = 1 then cNotPresent else cProt

/-- Translation for an engine (R374): the page whose miss the walker answered with np or prot faults. -/
def resolveEng (s : State) (w : Who) (va size : Nat) (k : AKind) : Xl × State :=
  let r := resolve s w va size false k
  match engAnswer s w va with
  | some res => if r.1.walked then (.flt (refusal res), r.2) else r
  | none => r

/-! ### The export table (R320): entries -/

/-- The index of the export entry for an offset, where the table covers it (R320). -/
def exportIx (s : State) (off : Nat) : Option Nat :=
  if bit s.fabExport.toNat 0 && bits off 21 23 < 2 ^ bits s.fabExport.toNat 1 5 then some (bits off 21 23) else none

/-- Entry `i` as memory holds it. -/
def exportMem (s : State) (i : Nat) : Nat := memRead s.mem (bits s.fabExport.toNat 12 36 * 4096 + 8 * i) 8

/-- The cluster whose scratchpad the export table gives for an offset, if it does. -/
def exportSp (s : State) (off : Nat) : Option Nat :=
  match exportIx s off with
  | none => none
  | some i =>
    let ent := (tget s.exports i).getD (exportMem s i)
    if bits ent 48 4 = 1 then some (bits ent 32 3 * 32 + bits ent 27 5) else none

/-- Does a save of the issuing context's cluster hold its access to a place (R351 step 3), a global address of the own module among them? -/
def saveHolds (s : State) (l : Loc) : Bool :=
  let cl := ctxCl s.cur
  let q := s.cluster cl
  q.saving.isSome && !q.loading && q.saving != some s.cur && (match l with
    | .sp n _ _ => n == cl
    | .ls _ _ => true
    | .glob dev off => dev == fabDev && exportSp s off == some cl
    | _ => false)

/-- Does a save hold the issuing context's accesses to its local store? -/
def saveHoldsLs (s : State) : Bool := saveHolds s (.ls (ctxCore s.cur) 0)

/-- Translation for the issuing context: the page whose miss the walker answered with np or prot faults (R193), and an access that a
save holds is held (R351). -/
def resolveCtx (s : State) (va size : Nat) (x : Bool) (k : AKind) : Xl × State :=
  let r := resolve s s.who va size x k
  match r.1, s.me.missAns with
  | .ok (.phys a), some (vpn, kind, res) =>
    (if bits va 12 44 = vpn && (kind == 2) == (k == .fetch) && !s.who.walker then .flt (refusal res) else .ok (.phys a), r.2)
  | .miss m, some (vpn, kind, res) =>
    (if bits va 12 44 = vpn && (kind == 2) == (k == .fetch) then .flt (refusal res) else .miss m, r.2)
  | .ok l, _ => (if saveHolds s l then .miss holdKind else .ok l, r.2)
  | _, _ => r

/-! ### The export table (R320 to R322) -/

/-- What a request asks of the target: a read, a write, an AMO or CAS, a full/empty instruction that changes the word or
that only reads it (R322). -/
inductive ROp where | read | write | amo | feChange | feRead
  deriving DecidableEq, Repr

def ROp.kind : ROp → AKind
  | .read | .feRead => .read
  | .write => .write
  | .amo | .feChange => .amo

/-- The entry for an offset looked up: the device caches entries, and may use a cached one or read it again (R320, R6). -/
def exportLook (s : State) (off : Nat) : State :=
  match exportIx s off with
  | none => s
  | some i =>
    match tget s.exports i with
    | none => { s with exports := tput s.exports i (exportMem s i) }
    | some _ => let r := s.choose 2; if r.1 = 0 then r.2 else { r.2 with exports := tput r.2.exports i (exportMem s i) }

/-- The target's checks of R322 but authentication, in its order: the place, or the reason and the code at the source. The data of a
full/empty word is looked at when a waiter takes it (`feServeN`).
`clear`: the request is not encrypted and comes from another module. -/
def exportResolve (s : State) (off size : Nat) (x : Bool) (op : ROp) (clear : Bool) : Except (Nat × Nat) Loc :=
  match exportIx s off with
  | none => .error (1, cRefused)
  | some i =>
    let ent := (tget s.exports i).getD (exportMem s i)
    let kind := bits ent 48 4
    let o := off % 2 ^ 21
    if !bit ent 0 || bits ent 52 12 ≠ 0 || bits ent 9 12 ≠ 0 || bits ent 5 3 ≠ 0 || bit ent 3 || 3 ≤ kind ||
        (kind == 2 && !Config.strapBridge) || (kind == 1 && (bits ent 35 13 ≠ 0 || bit ent 23 || 6 ≤ bits ent 24 3)) then
      .error (2, cRefused)
    else if (match op with
      | .read => !bit ent 1
      | .write => !bit ent 2
      | _ => !(bit ent 1 && bit ent 2 && bit ent 4)) then .error (3, cRefused)
    else if bit ent 8 && clear then .error (4, cRefused)
    else
      let ecc (l : Loc) : Except (Nat × Nat) Loc :=
        if (op == .read || op == .amo) && locEcc s l size then .error (8, cEcc) else .ok l
      let fin (l : Loc) : Except (Nat × Nat) Loc :=
        match l with
        | .sp cl w so =>
          let sp := spSpan w so size
          if (op == .write || op == .amo || op == .feChange) && sealedAt s cl sp.1 sp.2 then .error (6, cTileState)
          else ecc l
        | l => ecc l
      if kind = 0 then
        let pa := bits ent 21 27 * 2 ^ 21 + o
        if physReserved pa || s.dieGone (homeDie pa) || ((op == .feChange || op == .feRead) && 2 ^ 39 ≤ pa) then .error (5, cRefused)
        else fin (.phys pa)
      else if kind = 1 then
        let cl := bits ent 32 3 * 32 + bits ent 27 5
        let w := bits ent 24 3
        if s.dieGone (clDie cl) then .error (5, cRefused)
        else
          match spDecode cl (w * 2 ^ 25 + bits ent 21 2 * 2 ^ 21 + o) size x
              (if op == .feRead || op == .feChange then .amo else op.kind) with
          | .ok l => fin l
          | _ => .error (5, cRefused)
      else if op == .amo || op == .feChange || op == .feRead then .error (5, cRefused)
      else fin (.host (bits ent 21 27 * 2 ^ 21 + o))

/-- A refusal is counted at the target (R323). -/
def State.refused (s : State) (reason : Nat) : State :=
  { s with fabRefc := (s.fabRefc + 1) % 2 ^ 32, fabLastr := reason,
           fabAuthf := if reason = 7 then min (s.fabAuthf + 1) 0xFFFF else s.fabAuthf }

/-- A request of this module to itself (R16): its place, or the code of the refusal, which is counted. -/
def ownRequest (s : State) (off size : Nat) (x : Bool) (op : ROp) : Except Nat Loc × State :=
  let s := exportLook s off
  match exportResolve s off size x op false with
  | .ok l => (.ok l, s)
  | .error (r, c) => (.error c, s.refused r)

/-! ### Packets to other modules (R328, R329) -/

/-- The key slot for a device. -/
def keyFor (s : State) (dev : Nat) : Option (Nat × KeySlot) := s.keys.find? fun k => k.2.v && k.2.peer == dev

/-- An authentication failure is counted (R323). -/
def State.authFail (s : State) : State := { s with fabAuthf := min (s.fabAuthf + 1) 0xFFFF }

/-! ### Authentication of packets that arrive (R329) -/

/-- Does an encrypted packet authenticate against a slot? -/
def KeySlot.accepts (k : KeySlot) (epoch ctr : Nat) (tagOk : Bool) : Bool :=
  k.v && k.epoch == epoch && tagOk && (k.high.all fun t => t < ctr + 64) && !k.seen.contains ctr

/-- The replay window behind an accepted packet: 64 packets (R327). -/
def KeySlot.note (k : KeySlot) (ctr : Nat) : KeySlot :=
  let t := max (k.high.getD 0) ctr
  { k with high := some t, seen := (ctr :: k.seen).filter fun n => t < n + 64 }

/-- Is a packet of device `dev` authentic: clear, or encrypted under a slot that accepts it? -/
def authentic (s : State) (dev : Nat) (a : PktAuth) : Bool :=
  !a.enc || (match keyFor s dev with
    | some (_, k) => k.accepts a.epoch a.ctr a.tagOk
    | none => false)

/-- An accepted encrypted packet enters its replay window. -/
def noteAuth (s : State) (dev : Nat) (a : PktAuth) : State :=
  match a.enc, keyFor s dev with
  | true, some (i, k) => { s with keys := tput s.keys i (k.note a.ctr) }
  | _, _ => s

/-- Operation of a request to another module (R322, R326). -/
structure GReq where
  op : Nat
  size : Nat
  kind : AmoKind := .swap
  v1 : Nat := 0
  v2 : Nat := 0
  limit : Nat := 0
  x : Bool := false
  ord : MOrd := .rlx
  sco : Scope := .cor
  cmb : Bool := false

/-- A request leaves for another module, encrypted when a key slot for it is held (R328); none when the slot's counter is used
up (R329). -/
def sendGlobal (s : State) (dev off tag : Nat) (g : GReq) : Option State :=
  let mk (enc : Bool) (ep ct : Nat) : Packet :=
    .request dev { src := fabDev, rid := tag, off := off, op := g.op, size := g.size, kind := g.kind, v1 := g.v1, v2 := g.v2, enc := enc,
                   epoch := ep, ctr := ct, tagOk := true, ecc := false, limit := g.limit, x := g.x, ord := g.ord, sco := g.sco, cmb := g.cmb }
  match keyFor s dev with
  | none => some (s.emit (mk false 0 0))
  | some (i, k) =>
    if k.ctr = 2 ^ 80 - 1 then none
    else some ({ s with keys := tput s.keys i { k with ctr := k.ctr + 1 } }.emit (mk true k.epoch k.ctr))

/-- Does the place lie in another module while no Kevel port is ready: nothing answers there yet (R362, R364)? -/
def noPort (s : State) (l : Loc) : Bool :=
  match l with
  | .glob dev _ => dev != fabDev && s.boot.links == 0
  | _ => false

/-- What module `dev` answers to an access made in one step: performed, or refused with a code (R322), by a free choice. An encrypted
answer whose packet counter, a free value, its key slot does not accept is discarded (R329). -/
def remoteOutcome (s : State) (dev : Nat) (wr : Bool) : Option Nat × State :=
  let cs := [none, some cRefused, some cConfAuth, some (if wr then cTileState else cEcc)]
  let r := s.choose 4
  let c := ((cs[r.1]?).getD none)
  if c = some cConfAuth then (c, r.2.authFail)
  else
    match keyFor r.2 dev with
    | none => (c, r.2)
    | some (_, k) =>
      let n := r.2.free
      let a : PktAuth := ⟨true, k.epoch, n.1 % 2 ^ 80, true⟩
      if authentic n.2 dev a then (c, noteAuth n.2 dev a) else (some cConfAuth, n.2.authFail)

/-- A blocking read of a place by a context: the value, or the code of the refusal. A word of another module is what that
module holds: a free value here (assumption 4). -/
def readPlace (s : State) (l : Loc) (size : Nat) (x : Bool) : Except Nat Nat × State :=
  match l with
  | .glob dev off =>
    if dev = fabDev then
      match ownRequest s off size x .read with
      | (.ok l, s) => (.ok (loadLoc s l size), s)
      | (.error c, s) => (.error c, s)
    else
      let tg := s.tag
      match sendGlobal tg.2 dev off tg.1 { op := 0, size := size, x := x } with
      | none => (.error cConfAuth, s)
      | some s =>
        match remoteOutcome s dev false with
        | (some c, s) => (.error c, s)
        | (none, s) => (.ok (s.free.1 % 2 ^ (8 * size)), s.free.2)
  | l => if locEcc s l size then (.error cEcc, s) else (.ok (loadLoc s l size), s)

/-! ### What a context sends (R347) -/

/-- A request or message sent on a context's behalf (R347, SENT). -/
def State.countSent (s : State) (c : Nat) : State :=
  let x := s.ctx c
  s.setCtx c { x with sent := x.sent + 1 }

/-! ### The message log (R345, R346) -/

def physWrite (s : State) (a n v : Nat) : State := s.setMem (memWrite s.mem a n v)

/-- First byte, and size, of the log that core.mlog selects (R356). -/
def logBase (co : Core) : Nat := bits co.mlog.toNat 12 36 * 4096
def logSize (co : Core) : Nat := 4096 * 2 ^ bits co.mlog.toNat 2 5

/-- Core cycles since logging, or replay, began. -/
def logCycle (s : State) (k : Nat) : Nat := (s.cluster (coreCl k)).scyc - ((s.core k).mlogStart.getD 0)

/-- An item that enters the core from outside: counted in RECV of the receiving context (R347), and logged while the core
logs (R345). -/
def logItem (s : State) (c kind addr : Nat) (data : List Nat) : State :=
  let k := ctxCore c
  let x := s.ctx c
  let s := if kind = 8 then s else s.setCtx c { x with recv := x.recv + 1 }
  let co := s.core k
  if co.mlogStart.isNone || co.replaying then s
  else
    let n := 16 + 8 * data.length
    if logSize co < co.mlogPos + n + 16 then s.setCore k { co with mlogStart := none, mlog := co.mlog ||| 0x80 }
    else
      let hd := (addr % 2 ^ 48) + data.length * 2 ^ 48 + ctxSlot c * 2 ^ 56 + kind * 2 ^ 60
      let a := logBase co + co.mlogPos
      let s := physWrite s a 8 hd
      let s := physWrite s (a + 8) 8 (logCycle s k)
      let s := (data.zipIdx).foldl (fun s v => physWrite s (a + 16 + 8 * v.2) 8 v.1) s
      let s := physWrite s (a + n) 16 0
      s.setCore k { co with mlogPos := co.mlogPos + n }

/-- A free choice among `n` in an instruction of context `c`, made anew in each run but found again by a replay (R346): `use` tells apart the
choices of one cycle. -/
def chooseIn (s : State) (c use n : Nat) : Nat × State :=
  let co := s.core (ctxCore c)
  if co.mlogStart.isNone then s.choose n
  else (Config.freeLogged co.mlogRun ((logCycle s (ctxCore c) * 16 + ctxSlot c) * 256 + use) % n, s)

/-- The words in which a value of `size` bytes is logged. -/
def logWords (size v : Nat) : List Nat := if size = 16 then [v % 2 ^ 64, v / 2 ^ 64] else [v % 2 ^ 64]

/-- A write of an engine into the local store of core `k`, logged as the aligned word it leaves behind. -/
def logLsWrite (s : State) (k o : Nat) : State :=
  let o := o / 8 * 8
  logItem s (16 * k) 7 o [memRead s.mem (locLs k o) 8]

/-- An entry of a message log. -/
structure LogEnt where
  cyc : Nat
  kind : Nat
  slot : Nat
  addr : Nat
  data : List Nat

/-- The entry at offset `p` of core `k`'s log; none at the end. -/
def logAt (s : State) (k p : Nat) : Option LogEnt :=
  let co := s.core k
  let a := logBase co + p
  let h := memRead s.mem a 8
  if logSize co < p + 16 || bits h 60 4 = 0 then none
  else
    some ⟨memRead s.mem (a + 8) 8, bits h 60 4, bits h 56 4, bits h 0 48,
      (List.range (bits h 48 8)).map fun i => memRead s.mem (a + 16 + 8 * i) 8⟩

/-- The first entry not yet taken, from offset `p` on, that `q` accepts: its offset, and the entry. -/
def logFind (s : State) (k : Nat) (q : LogEnt → Bool) : Nat → Nat → Option (Nat × LogEnt)
  | 0, _ => none
  | n + 1, p =>
    match logAt s k p with
    | none => none
    | some e =>
      if q e && !(s.core k).mlogUsed.contains p then some (p, e) else logFind s k q n (p + 16 + 8 * e.data.length)

/-- The next item of kind `kind` that the log holds for context `c`, at an address if one is given. -/
def replayItem (s : State) (c kind : Nat) (addr : Option Nat) : Option (Nat × LogEnt) :=
  let k := ctxCore c
  logFind s k (fun e => e.kind == kind && e.slot == ctxSlot c && (addr.isNone || addr == some e.addr)) (logSize (s.core k) / 16) 0

/-- Is a log entry what an access that returns a value got: the value, or a fault (R345)? -/
def LogEnt.returns (e : LogEnt) : Bool := e.kind == 1 || (e.kind == 3 && e.data.length == 2 && e.data[1]? != some 0)

/-- Does a log entry answer an access: a value or a fault for one that returns a value, an acknowledgement under its sequence number for
a store (R345)? -/
def LogEnt.answers (e : LogEnt) (o : Outst) : Bool :=
  e.addr == o.addr % 2 ^ 48 &&
    (if o.load then e.returns else e.kind == 3 && e.data.length == 2 && e.data[0]? == some (o.posted.getD 0))

/-- The code of the fault that an answer carries, 0 for none. -/
def LogEnt.code (e : LogEnt) : Nat := if e.kind = 3 then (e.data[1]?).getD 0 else 0

/-- The next answer the log holds for an access of context `c`. -/
def replayAnswer (s : State) (c : Nat) (o : Outst) : Option (Nat × LogEnt) :=
  let k := ctxCore c
  logFind s k (fun e => e.slot == ctxSlot c && e.answers o) (logSize (s.core k) / 16) 0

/-- Has the log nothing left for this cycle or a later one? -/
def logOver (s : State) (k : Nat) : Bool := (logFind s k (fun e => logCycle s k ≤ e.cyc) (logSize (s.core k) / 16) 0).isNone

/-- An entry taken for its context. -/
def replayTake (s : State) (c p : Nat) : State :=
  let co := s.core (ctxCore c)
  let x := s.ctx c
  (s.setCtx c { x with recv := x.recv + 1 }).setCore (ctxCore c) { co with mlogUsed := p :: co.mlogUsed }

/-- The log lacks an item: every slot of the core halts (R346). -/
def replayHalt (s : State) (k : Nat) : State :=
  (List.range 16).foldl (fun s n =>
    let x := s.ctx (16 * k + n)
    if x.st = .empty then s else s.setCtx (16 * k + n) { x with st := .halted }) s

/-- The value of logged words. -/
def logValue (d : List Nat) : Nat := d.foldr (fun w v => w + 2 ^ 64 * v) 0

/-- What the log of the issuing context's replaying core holds for its next read at `va`. -/
def replayRead (s : State) (va : Nat) : Option (Nat × LogEnt) :=
  let k := ctxCore s.cur
  logFind s k (fun e => e.slot == ctxSlot s.cur && e.addr == va % 2 ^ 48 && e.returns) (logSize (s.core k) / 16) 0

/-- One blocking read of a context: off the local store its value is an item that enters the core (R345), which a replay takes
from the log. -/
def readOne (s : State) (l : Loc) (va size : Nat) : Except Nat Nat × State :=
  match l with
  | .ls _ _ => readPlace s l size false
  | l =>
    if s.myCore.replaying then
      match replayRead s va with
      | some (p, e) => if e.code = 0 then (.ok (logValue e.data), replayTake (s.countSent s.cur) s.cur p) else (.error e.code, s)
      | none => (.ok 0, replayHalt s (ctxCore s.cur))
    else
      match readPlace s l size false with
      | (.ok v, s) => (.ok v, logItem (s.countSent s.cur) s.cur 1 (va % 2 ^ 48) (logWords size v))
      | e => e

/-- A read of a context that its place has refused, or whose data is uncorrectable: off the local store that too is an item that enters the
core (R345), and its request is counted (R347). -/
def readRefused (s : State) (f : Flt) : State :=
  if !(f.code = cRefused || f.code = cConfAuth || f.code = cEcc) || f.addr / 2 ^ 32 = 0xFE then s
  else if s.myCore.replaying then
    match replayRead s f.addr with
    | some (p, _) => replayTake (s.countSent s.cur) s.cur p
    | none => s
  else logItem (s.countSent s.cur) s.cur 3 (f.addr % 2 ^ 48) [0, f.code]

/-- `n` accesses of `size` bytes each from `va`, one after another. -/
def readEach (s : State) (va size : Nat) : Nat → Acc (List Nat)
  | 0 => .ok [] s
  | n + 1 =>
    match resolveCtx s va size false .read with
    | (.miss k, s) => .miss va k s
    | (.flt c, s) => .flt { code := c, addr := va } s
    | (.ok l, s) =>
      if noPort s l then .miss va holdKind s
      else
        match readOne s l va size with
        | (.error c, s) => .flt { code := c, addr := va } s
        | (.ok v, s) =>
          match readEach s ((va + size) % 2 ^ 64) size n with
          | .ok vs s => .ok (v :: vs) s
          | .flt f s => .flt f s
          | .miss a k s => .miss a k s

/-- A context's blocking read of `n` accesses of `size` bytes each from `va` (R69, R160): each is checked before any is
used, and one that faults or misses leaves nothing of those before it. -/
def readSized (s : State) (va size n : Nat) : Acc (List Nat) :=
  match readEach s va size n with
  | .ok vs t => .ok vs t
  | .flt f t => .flt f (readRefused (s.draws t) f)
  | .miss a k t => .miss a k (s.draws t)

/-- A structure of `n` words read at `va`, as blocking loads of a context: misaligned, it faults as a load does, in a decoding window too
(R69). -/
def readWords (s : State) (va n : Nat) : Acc (List Nat) :=
  if va / 2 ^ 57 = 0 && va % 8 ≠ 0 then .flt { code := cAlign, addr := va } s else readSized s va 8 n

end Sys2Proof.Machine
end

