-- ==== Sys2Proof/Machine/Engine.lean ====
section
/-! DEFINITION. Accesses that the engines of the device make on behalf of an instruction (R374): bytes by address, and the elements
of copy rows and streams (R170 to R172, R179). -/

namespace Sys2Proof.Machine

/-! ### Accesses by address -/

/-- An engine that acts for core `k`; `agent`: its number by the ENG numbering of R173, the scheduler 5 (R191), plus 8 times the number of
its command. -/
def engine (k : Nat) (sys : Bool) (agent : Nat) : Who := ⟨k, sys, false, 15, agent⟩

/-- The copy unit for the command under token entry `tok`. -/
def copyWho (k : Nat) (sys : Bool) (tok : Nat) : Who := engine k sys (1 + 8 * tok)

/-- The accesses that make up `n` bytes from `va`: one for each aligned 8-byte word touched (R172). -/
def pieces : Nat → Nat → Nat → List (Nat × Nat)
  | 0, _, _ => []
  | _, _, 0 => []
  | f + 1, va, n => let k := min n (8 - va % 8); (va, k) :: pieces f ((va + k) % 2 ^ 64) (n - k)

/-- Size at which a piece of `k` bytes is checked: a whole word or half word, else bytes of a read-merge-write. -/
def pieceSize (va k : Nat) : Nat := if k = 8 then 8 else if k = 4 && va % 4 = 0 then 4 else 1

/-- Where one piece leads, with an address of the own module's fabric sent on to its place; one of another module waits for a port. -/
def pieceLoc (s : State) (w : Who) (va k : Nat) (wr : Bool) : Acc Loc :=
  match resolveEng s w va (pieceSize va k) (if wr then .write else .read) with
  | (.miss kind, s) => .miss va kind s
  | (.flt c, s) => .flt { code := c, addr := va } s
  | (.ok (.glob dev off), s) =>
    if dev = fabDev then
      match ownRequest s off (pieceSize va k) false (if wr then .write else .read) with
      | (.ok l, s) => .ok l s
      | (.error c, s) => .flt { code := c, addr := va } s
    else if noPort s (.glob dev off) then .miss va holdKind s
    else .ok (.glob dev off) s
  | (.ok l, s) => if !wr && locEcc s l k then .flt { code := cEcc, addr := va } s else .ok l s

/-- A piece with the place it leads to, and its size. -/
structure Piece where
  va : Nat
  loc : Loc
  size : Nat

/-- The places of a list of pieces: every one is checked before any is used. -/
def pieceLocs (s : State) (w : Who) (wr : Bool) : List (Nat × Nat) → Acc (List Piece)
  | [] => .ok [] s
  | (va, k) :: t =>
    match pieceLoc s w va k wr with
    | .flt f s => .flt f s
    | .miss a q s => .miss a q s
    | .ok l s =>
      match pieceLocs s w wr t with
      | .ok ls s => .ok (⟨va, l, k⟩ :: ls) s
      | .flt f s => .flt f s
      | .miss a q s => .miss a q s

/-- A request of an engine to another module (R163, R328), with what that module answers to it. -/
def engRemote (s : State) (dev off : Nat) (g : GReq) (wr : Bool) : Option Nat × State :=
  let tg := s.tag
  match sendGlobal tg.2 dev off tg.1 g with
  | none => (some cConfAuth, s)
  | some s => remoteOutcome s dev wr

/-- The bytes of pieces read; a word of another module is a free value (assumption 4), or its module refuses it. -/
def gatherBytes (s : State) : List Piece → Acc (List Byte)
  | [] => .ok [] s
  | p :: t =>
    let r : Except Nat (List Byte) × State :=
      match p.loc with
      | .glob dev off =>
        match engRemote s dev off { op := 0, size := p.size } false with
        | (some c, s) => (.error c, s)
        | (none, s) => (.ok (leBytes p.size s.free.1), s.free.2)
      | l => (.ok (leBytes p.size (loadLoc s l p.size)), s)
    match r with
    | (.error c, s) => .flt { code := c, addr := p.va } s
    | (.ok bs, s) =>
      match gatherBytes s t with
      | .ok q s => .ok (bs ++ q) s
      | .flt f s => .flt f s
      | .miss a k s => .miss a k s

/-- `n` bytes at `va` read for an engine. -/
def engRead (s : State) (w : Who) (va n : Nat) : Acc (List Byte) :=
  match pieceLocs s w false (pieces (n + 1) va n) with
  | .flt f s => .flt f s
  | .miss a k s => .miss a k s
  | .ok ls s => gatherBytes s ls

/-- Bytes written at pieces. One that another module refuses ends the write there. -/
def scatterBytes (s : State) (bs : List Byte) : List Piece → Acc Unit
  | [] => .ok () s
  | p :: t =>
    let v := leNat (bs.take p.size)
    match (match p.loc with
      | .glob dev off => engRemote s dev off { op := 1, size := p.size, v1 := v } true
      | .ls c o => (none, logLsWrite (storeLoc s (.ls c o) p.size v) c o)
      | l => (none, storeLoc s l p.size v)) with
    | (some c, s) => .flt { code := c, addr := p.va } s
    | (none, s) => scatterBytes s (bs.drop p.size) t

/-- Bytes written at `va` for an engine; nothing is written unless every place of this module can be. -/
def engWrite (s : State) (w : Who) (va : Nat) (bs : List Byte) : Acc Unit :=
  match pieceLocs s w true (pieces (bs.length + 1) va bs.length) with
  | .flt f s => .flt f s
  | .miss a k s => .miss a k s
  | .ok ls s => scatterBytes s bs ls

/-- `n` bytes at `va` changed by a read-merge-write of an engine (R172). -/
def engModify (s : State) (w : Who) (va n : Nat) (g : Nat → Nat) : Acc Unit :=
  match pieceLocs s w true (pieces (n + 1) va n) with
  | .flt f s => .flt f s
  | .miss a k s => .miss a k s
  | .ok ls s =>
    match gatherBytes s ls with
    | .flt f s => .flt f s
    | .miss a k s => .miss a k s
    | .ok bs s => scatterBytes s (leBytes n (g (leNat bs))) ls

/-- Little-endian words of 8 bytes. -/
def toWords : Nat → List Byte → List Nat
  | 0, _ => []
  | n + 1, bs => leNat (bs.take 8) :: toWords n (bs.drop 8)

/-! ### Elements of rows -/

/-- Address of row `i` of one side of a block (R170). -/
def rowAddr (base str i : Nat) : Nat := (base + i * str) % 2 ^ 64

/-- Bytes of a row of `n` elements of a format, or of `n` raw bytes (R171). -/
def rowBytes (fmt n : Nat) : Nat := if fmt = 0 then n else (fmtBits fmt * n + 7) / 8

/-- The codes of `n` elements of `b` bits each in a bit string. -/
def unpack (b : Nat) (v : Nat) : Nat → List Nat
  | 0 => []
  | n + 1 => v % 2 ^ b :: unpack b (v / 2 ^ b) n

def pack (b : Nat) : List Nat → Nat
  | [] => 0
  | c :: t => c % 2 ^ b + 2 ^ b * pack b t

/-- A row converted between formats (R171): decoded to FP32 and encoded RNE. -/
def convertRow (sf df n : Nat) (bs : List Byte) : List Byte :=
  if sf = 0 then bs
  else leBytes (rowBytes df n) (pack (fmtBits df) ((unpack (fmtBits sf) (leNat bs) n).map fun c => encFmt df .rne (decFmt sf c)))

/-- One row of a block copied: read in full before any byte of it is written (R172). -/
def copyRow (s : State) (w : Who) (b : CopyBlk) (i : Nat) : Acc Unit :=
  match engRead s w (rowAddr b.src b.sstr i) (rowBytes b.sfmt b.rlen) with
  | .flt f s => .flt f s
  | .miss a k s => .miss a k s
  | .ok bs s => engWrite s w (rowAddr b.dst b.dstr i) (convertRow b.sfmt b.dfmt b.rlen bs)

/-- How far a command has come: rows done, and why it stopped there. -/
inductive RowsEnd where | all | wait | flt (f : Flt)
  deriving DecidableEq, Repr

/-- Up to `n` rows copied from row `i` on. -/
def copyRows (w : Who) (b : CopyBlk) : Nat → State → Nat → State × Nat × RowsEnd
  | 0, s, i => (s, i, .all)
  | n + 1, s, i =>
    match copyRow s w b i with
    | .ok _ s => copyRows w b n s (i + 1)
    | .flt f s => (clearAnswers s w f.addr, i, .flt f)
    | .miss a k s => (postMiss s w a k, i, .wait)

/-! ### A row moved word by word (R172, R295) -/

/-- The bytes of a row by the pieces they go to. -/
def splitPieces : List (Nat × Nat) → List Byte → List (Nat × List Byte)
  | [], _ => []
  | (va, k) :: t, bs => (va, bs.take k) :: splitPieces t (bs.drop k)

/-- The words that row PROG of a block writes, from all the words it has read. -/
def rowWords (b : CopyBlk) (got : List (Nat × List Byte)) : List (Nat × List Byte) :=
  let n := rowBytes b.dfmt b.rlen
  splitPieces (pieces (n + 1) (rowAddr b.dst b.dstr b.prog) n) (convertRow b.sfmt b.dfmt b.rlen (got.flatMap (·.2)))

/-- One of the words left of a row written; nothing is written unless every one of them can be. -/
def engWriteOf (s : State) (w : Who) (left : List (Nat × List Byte)) (va : Nat) (bs : List Byte) : Acc Unit :=
  match pieceLocs s w true (left.map fun q => (q.1, q.2.length)) with
  | .flt f s => .flt f s
  | .miss a k s => .miss a k s
  | .ok _ s => engWrite s w va bs

/-- One word of row PROG moved, any of those left: the row is read in full before a word of it is written, and a word is written only while
every word left can be. None: the row goes on. -/
def rowWord (s : State) (w : Who) (b : CopyBlk) (p : RowPart) : State × RowPart × Option RowsEnd :=
  match p with
  | .reading got =>
    let n := rowBytes b.sfmt b.rlen
    let ps := (pieces (n + 1) (rowAddr b.src b.sstr b.prog) n).zipIdx
    let left := ps.filter fun q => (tget got q.2).isNone
    let c := s.choose left.length
    match left[c.1]? with
    | none => (c.2, .writing (rowWords b got), none)
    | some (q, j) =>
      match engRead c.2 w q.1 q.2 with
      | .miss a k s => (postMiss s w a k, p, some .wait)
      | .flt f s => (clearAnswers s w f.addr, p, some (.flt f))
      | .ok bs s =>
        let got := tput got j bs
        (s, if got.length < ps.length then .reading got else .writing (rowWords b got), none)
  | .writing left =>
    let c := s.choose left.length
    match left[c.1]? with
    | none => (c.2, p, some .all)
    | some (va, bs) =>
      match engWriteOf c.2 w left va bs with
      | .miss a k s => (postMiss s w a k, p, some .wait)
      | .flt f s => (clearAnswers s w f.addr, p, some (.flt f))
      | .ok _ s => (s, .writing (left.eraseIdx c.1), if left.length ≤ 1 then some .all else none)

/-- The words left of a row written one after another, as far as they can be. -/
def rowFinish (w : Who) : List (Nat × List Byte) → State → State × List (Nat × List Byte) × RowsEnd
  | [], s => (s, [], .all)
  | (va, bs) :: t, s =>
    match engWrite s w va bs with
    | .ok _ s => rowFinish w t s
    | .miss _ _ s => (s, (va, bs) :: t, .wait)
    | .flt f s => (clearAnswers s w f.addr, (va, bs) :: t, .flt f)

/-! ### Streams (R179, R180) -/

def Stream.raw (t : Stream) : Bool := t.blk.sfmt == 0

/-- Elements in a row of a stream's block. -/
def Stream.perRow (t : Stream) : Nat := if t.raw then t.blk.rlen / t.esz else t.blk.rlen

/-- Elements a stream's command moves in all: rows PROG to NROWS - 1 (R170). -/
def Stream.total (t : Stream) : Nat := (t.blk.nrows - t.blk.prog) * t.perRow

/-- Bits of one element on the memory side. -/
def Stream.memBits (t : Stream) : Nat := if t.raw then 8 * t.esz else fmtBits (if t.out then t.blk.dfmt else t.blk.sfmt)

/-- Address of the first byte of element `i` on the memory side, its bit there, and the bytes it touches. -/
def Stream.place (t : Stream) (i : Nat) : Nat × Nat × Nat :=
  let row := t.blk.prog + i / t.perRow
  let b := t.memBits * (i % t.perRow)
  let base := if t.out then rowAddr t.blk.dst t.blk.dstr row else rowAddr t.blk.src t.blk.sstr row
  ((base + b / 8) % 2 ^ 64, b % 8, (b % 8 + t.memBits + 7) / 8)

/-- The next element of an in-stream read from memory. -/
def streamRead (s : State) (w : Who) (t : Stream) : Acc Nat :=
  let p := t.place t.moved
  match engRead s w p.1 p.2.2 with
  | .flt f s => .flt f s
  | .miss a k s => .miss a k s
  | .ok bs s =>
    let c := bits (leNat bs) p.2.1 t.memBits
    .ok (if t.raw then c else decFmt t.blk.sfmt c) s

/-- The next element of an out-stream written to memory: the bits of the element alone change. -/
def streamWrite (s : State) (w : Who) (t : Stream) (v : Nat) : Acc Unit :=
  let p := t.place t.moved
  let c := if t.raw then v else encFmt t.blk.dfmt .rne v
  engModify s w p.1 p.2.2 fun old =>
    old - bits old p.2.1 t.memBits * 2 ^ p.2.1 + c % 2 ^ t.memBits * 2 ^ p.2.1

/-- The elements in the FIFO of an out-stream written, as far as they can be. -/
def streamDrain (w : Who) : Nat → State → Stream → State × Stream × RowsEnd
  | 0, s, t => (s, t, .all)
  | n + 1, s, t =>
    match t.fifo with
    | [] => (s, t, .all)
    | v :: r =>
      match streamWrite s w t v.toNat with
      | .ok _ s => streamDrain w n s { t with fifo := r, moved := t.moved + 1 }
      | .flt f s => (clearAnswers s w f.addr, t, .flt f)
      | .miss a k s => (postMiss s w a k, t, .wait)

/-- The FIFO of an in-stream filled, as far as it can be. -/
def streamLoad (w : Who) : Nat → State → Stream → State × Stream × RowsEnd
  | 0, s, t => (s, t, .all)
  | n + 1, s, t =>
    if 16 ≤ t.fifo.length || t.moved = t.total then (s, t, .all)
    else
      match streamRead s w t with
      | .ok v s => streamLoad w n s { t with fifo := t.fifo ++ [BitVec.ofNat 64 v], moved := t.moved + 1 }
      | .flt f s => (clearAnswers s w f.addr, t, .flt f)
      | .miss a k s => (postMiss s w a k, t, .wait)

end Sys2Proof.Machine
end

