-- ==== Sys2Proof/Machine/Ops.lean ====
section
/-! DEFINITION. The shared operations of the machine: dependence tokens (R173 to R175), the message log (R345), channel traffic
(R304 to R310), upcalls (R198), fault records (R82), parking (R197), the end of a context (R117, R335), taking an
exception (R334 to R336) and the return from one (R338). -/

namespace Sys2Proof.Machine

/-! ### Dependence tokens -/

/-- A token value (R173). -/
def tokVal (eng cl gen idx : Nat) : Nat := eng * 2 ^ 29 + cl % 32 * 2 ^ 24 + gen * 2 ^ 8 + idx

/-- What a token names (R173, R175). -/
inductive TokRef where
  | none
  | invalid
  | stale
  | entry (eng idx : Nat) (t : Tok)
  deriving DecidableEq, Repr

def Cluster.tab (c : Cluster) (eng : Nat) : TokTab := (tget c.toks eng).getD {}
def Cluster.tok (c : Cluster) (eng idx : Nat) : Tok := (tget (c.tab eng).ent idx).getD {}
def Cluster.setTok (c : Cluster) (eng idx : Nat) (t : Tok) : Cluster :=
  let tb := c.tab eng
  { c with toks := tput c.toks eng { tb with ent := tput tb.ent idx t } }

/-- The entry a token names in cluster `cl`. -/
def tokRef (s : State) (cl t : Nat) : TokRef :=
  if t = 0 then .none
  else
    let eng := bits t 29 3
    if 2 ^ 32 ≤ t || eng = 0 || 5 ≤ eng || bits t 24 5 ≠ cl % 32 then .invalid
    else
      let e := (s.cluster cl).tok eng (t % 256)
      if e.gen = bits t 8 16 && e.st != .free then .entry eng (t % 256) e else .stale

/-- May the entry be allocated (R175)? -/
def Tok.usable (t : Tok) : Bool :=
  match t.st with
  | .pending => false
  | .faulted => t.delivered && !restartable t.code
  | .free | .done | .failed => true

/-- The first usable entry from the round-robin place on (R175). -/
def TokTab.pick (tb : TokTab) : Option Nat :=
  ((List.range 256).map fun i => (tb.next + i) % 256).find? fun i => ((tget tb.ent i).getD {}).usable

/-- Allocation of a token entry of engine `eng`: the entry and the token (R175). -/
def tokAlloc (s : State) (cl eng : Nat) : Option (Nat × Nat × State) :=
  let c := s.cluster cl
  match (c.tab eng).pick with
  | none => none
  | some i =>
    let g := ((c.tok eng i).gen + 1) % 2 ^ 16
    let c := c.setTok eng i { gen := g, st := .pending }
    let c := { c with toks := tput c.toks eng { c.tab eng with next := (i + 1) % 256 } }
    some (i, tokVal eng cl g i, s.setCluster cl c)

/-- A token entry changed. -/
def tokUpd (s : State) (cl eng idx : Nat) (f : Tok → Tok) : State :=
  let c := s.cluster cl
  s.setCluster cl (c.setTok eng idx (f (c.tok eng idx)))

/-- Is the entry still the one a command was given? -/
def tokIs (s : State) (cl eng idx gen : Nat) : Bool := ((s.cluster cl).tok eng idx).gen == gen

def tokDone (s : State) (cl eng idx count : Nat) : State :=
  tokUpd s cl eng idx fun t => { t with st := .done, count := count }
def tokFail (s : State) (cl eng idx code : Nat) : State :=
  tokUpd s cl eng idx fun t => { t with st := .failed, code := code }
def tokFault (s : State) (cl eng idx : Nat) (f : Flt) (count : Nat) : State :=
  tokUpd s cl eng idx fun t => { t with st := .faulted, code := f.code, flt := some f, delivered := false, dctx := none, count := count }

/-- Where a command's consumed tokens stand (R174). -/
inductive Deps where
  | wait
  | ok
  | bad (code : Nat)
  deriving DecidableEq, Repr

def deps (s : State) (cl : Nat) : List Nat → Deps
  | [] => .ok
  | t :: ts =>
    let r := deps s cl ts
    match tokRef s cl t with
    | .entry _ _ e =>
      match e.st with
      | .pending => .wait
      | .faulted => if restartable e.code then .wait else if r = .wait then .wait else .bad e.code
      | .failed => if r = .wait then .wait else .bad e.code
      | .done | .free => r
    | _ => r

/-! ### Message classes (R113) and channels (R304 to R310) -/

/-- An arrival for message class `k` at a core (R113). -/
def classArrival (s : State) (core k : Nat) : State :=
  let c := s.core core
  let s := s.setCore core { c with pending := c.pending ||| (1 <<< k) }
  let m := ([11, 12, 13, 14].find? fun m => bit (s.slot (core * 16 + m)).bound.toNat k).getD 0
  logItem s (core * 16 + m) 4 k []

/-- The core and number an endpoint address names, on its device (R304). -/
def epCore (a : Nat) : Nat := bits a 12 3 * 256 + bits a 15 5 * 8 + bits a 20 3
def epNum (a : Nat) : Nat := bits a 23 6
def epDev (a : Nat) : Nat := bits a 0 12
def epAddr (core num : Nat) : Nat := fabDev + core / 256 * 2 ^ 12 + core / 8 % 32 * 2 ^ 15 + core % 8 * 2 ^ 20 + num * 2 ^ 23

def Core.rxEp (c : Core) (n : Nat) : RecvEp := (tget c.rx n).getD {}
def Core.txEp (c : Core) (n : Nat) : SendEp := (tget c.tx n).getD {}
def Core.setRx (c : Core) (n : Nat) (e : RecvEp) : Core := { c with rx := tput c.rx n e }
def Core.setTx (c : Core) (n : Nat) (e : SendEp) : Core := { c with tx := tput c.tx n e }

/-- A step due no earlier than every pending step of the same kind and source: messages of one endpoint keep their order
(R307). -/
def State.laterInOrder (s : State) (i : Instr) (same : Instr → Bool) : State :=
  let last := (s.events.filter fun e => same e.2).foldl (fun m e => max m e.1) 0
  { s.free.2 with events := s.free.2.events ++ [(max (s.now + 1 + s.free.1) last, i)] }

/-- A grant of up to `n` slots of receive endpoint `ep` of core `k` to the sender at `dst`: the amount granted, which may be 0 and is sent all
the same (R306). -/
def grantTo (s : State) (k ep dst n : Nat) : Nat × State :=
  let c := s.core k
  let e := c.rxEp ep
  let a := min n (e.nslot - e.occ - e.granted)
  let s := s.setCore k (c.setRx ep { e with granted := e.granted + a })
  let g : GrantMsg := ⟨dst, a, e.gen, e.slotw * 8 - 8⟩
  (a, if epDev dst = fabDev then s.later (.grantArrival g) else s.emit (.grant g))

/-- The grant that brings a queue's messages and allowance up to 16, if any is due (R310), sent on the issuing context's behalf (R347). -/
def queueGrant (s : State) (k ep : Nat) : State :=
  let e := (s.core k).rxEp ep
  if 16 ≤ e.occ + e.granted then s else (grantTo (s.countSent s.cur) k ep e.peer (16 - e.occ - e.granted)).2

/-- Send endpoint `ep` of core `k` sends one message (R307, R313). -/
def sendMsg (s : State) (k ep : Nat) (body : List Byte) : State :=
  let c := s.core k
  let e := c.txEp ep
  let s := s.setCore k (c.setTx ep { e with allow := e.allow - 1, buf := e.buf + 1 })
  let m : ChanMsg := ⟨e.peer, epAddr k ep, e.rgen.getD 0, body⟩
  if epDev e.peer = fabDev then
    s.laterInOrder (.messageArrival m) fun i => match i with
      | .messageArrival m' => m'.src == m.src
      | _ => false
  else s.emit (.message m)

/-- May the send endpoint send now (R313)? -/
def SendEp.ready (e : SendEp) : Bool := e.allow != 0 && e.buf < 8

/-- The head message of a receive endpoint: header and payload (R307). -/
def headMsg (s : State) (k : Nat) (e : RecvEp) : Nat × List Byte :=
  let a := locLs k (e.base + e.headIx * e.slotw * 8)
  let h := memRead s.mem a 8
  (h, memBytes s.mem (a + 8) (bits h 32 9))

/-- The head slot of receive endpoint `ep` freed. -/
def freeHead (s : State) (k ep : Nat) : State :=
  let c := s.core k
  let e := c.rxEp ep
  s.setCore k (c.setRx ep { e with occ := e.occ - 1, headIx := (e.headIx + 1) % e.nslot })

/-- One element popped from the queue bound to x60: its value is the payload's first 8 bytes, zero-filled; the endpoint then
grants up to 16 (R310). -/
def queuePop (s : State) (k ep : Nat) : State :=
  queueGrant (freeHead s k ep) k ep

/-! ### Streams (R179 to R181) -/

/-- The element a take of an in-stream gives, extended (R180). -/
def Stream.elem (t : Stream) : Word :=
  match t.fifo with
  | [] => 0
  | v :: _ => if t.sx then BitVec.ofInt 64 (sext v.toNat (8 * t.esz)) else v

/-- The take of one element of in-stream `k` of context `c`; the last one completes the token (R179). -/
def streamTake (s : State) (c k : Nat) : State :=
  let x := s.ctx c
  match tget x.streams k with
  | none => s
  | some t =>
    match t.fifo with
    | [] => s
    | _ :: r =>
      let t := { t with fifo := r, taken := t.taken + 1 }
      let s := s.setCtx c { x with streams := tput x.streams k t }
      if t.taken = t.total && tokIs s (ctxCl c) 1 t.tok t.gen then tokDone s (ctxCl c) 1 t.tok t.taken else s

/-- A push to out-stream `k`; past the last element it is discarded (R180). -/
def streamPush (s : State) (c k : Nat) (v : Word) : State :=
  let x := s.ctx c
  match tget x.streams k with
  | none => s
  | some t =>
    if t.total ≤ t.taken then s
    else
      let t := { t with fifo := t.fifo ++ [BitVec.ofNat 64 (v.toNat % 2 ^ (8 * t.esz))], taken := t.taken + 1 }
      s.setCtx c { x with streams := tput x.streams k t }

/-- Has a stream's command neither ended nor failed: its token stands open, or awaits the requeue of a restartable fault (R174, R182)? -/
def streamOpen (s : State) (cl : Nat) (t : Stream) : Bool :=
  let e := (s.cluster cl).tok 1 t.tok
  e.gen == t.gen && (e.st == .pending || (e.st == .faulted && restartable e.code))

/-- Does an out-stream still hold elements that its command can write (R181)? -/
def streamBusy (s : State) (cl : Nat) (t : Stream) : Bool := t.out && !t.fifo.isEmpty && streamOpen s cl t

/-- A stream binding with nothing left to write ended (R181): the token, unless its command has ended, is DONE with the elements taken or
written, and what the command asked of the walker is stale (R193). -/
def closeOne (s : State) (c : Nat) (t : Stream) : State :=
  let s := dropEngine s (ctxCore c) (1 + 8 * t.tok)
  if streamOpen s (ctxCl c) t then tokDone s (ctxCl c) 1 t.tok (if t.out then t.moved else t.taken) else s

/-- Every stream binding of an ended context closed as SCLOSE would (R180): an out-stream whose FIFO holds elements goes on until they are
written. -/
def closeStreams (s : State) (c : Nat) : State :=
  let ts := (s.ctx c).streams
  let busy := (ts.filter fun t => streamBusy s (ctxCl c) t.2).map (·.2)
  let s := (ts.filter fun t => !streamBusy s (ctxCl c) t.2).foldl (fun s t => closeOne s c t.2) s
  let sl := s.slot c
  let n := sl.closing.foldl (fun m t => max m t.1) 3
  s.setSlot c { sl with ctx := { sl.ctx with streams := [] },
                        closing := sl.closing ++ busy.zipIdx.map fun t => (n + 1 + t.2, t.1) }

/-! ### Upcalls and fault records -/

/-- An upcall posted or merged into a pending one (R198). -/
def postUpcall (s : State) (k slot kind lrseq : Nat) : State :=
  let c := s.core k
  if c.upcalls.any fun u => u.slot == slot && u.kind == kind then
    s.setCore k { c with upcalls := c.upcalls.map fun u =>
      if u.slot == slot && u.kind == kind then
        { u with more := min (u.more + 1) 255, lrseq := if kind = 3 then lrseq else u.lrseq } else u }
  else s.setCore k { c with upcalls := c.upcalls ++ [⟨slot, kind, 0, lrseq⟩] }

/-- The fault-record area of a core (R198, R334). -/
def upBase (s : State) (k : Nat) : Nat := bits (s.core k).uparea.toNat 10 38 * 1024

/-- Handle of a context's task, 0 outside a task (R82). -/
def taskOf (x : Ctx) : Nat := match x.unit with
  | .task h => h
  | _ => 0

/-- The fault record of context `c` (R82). -/
def record (s : State) (c : Nat) (f : Flt) : Nat :=
  let x := s.ctx c
  f.code + (restartable f.code).toNat * 2 ^ 8 + c * 2 ^ 16 + (f.pc.getD x.pc.toNat) * 2 ^ 64 + f.addr % 2 ^ 64 * 2 ^ 128 +
    f.rseq * 2 ^ 192 + (f.outst.getD (s.core (ctxCore c)).outst) * 2 ^ 208 + f.seq * 2 ^ 256 + f.layer * 2 ^ 280 +
    f.head * 2 ^ 288 + f.prog % 2 ^ 32 * 2 ^ 320 + f.lblock % 2 ^ 26 * 2 ^ 352 + (f.task.getD (taskOf x)) * 2 ^ 384 + s.now % 2 ^ 64 * 2 ^ 448

/-- A record written at physical address `a`. -/
def putRecord (s : State) (a r : Nat) : State := physWrite s a 64 r

/-- A late fault of a context that has ended (R340), or of a scheduler access (R374): the upcall and, unless one is pending, its
record. -/
def lateFault (s : State) (c : Nat) (rcd lrseq : Nat) : State :=
  let k := ctxCore c
  let p := (s.core k).upcalls.any fun u => u.slot == ctxSlot c && u.kind == 3
  let s := if p then s else putRecord s (upBase s k + 2048 + 64 * ctxSlot c) rcd
  postUpcall s k (ctxSlot c) 3 lrseq

/-- Delayed faults of posted requests that had arrived for a context when it ended (R340): they are late faults. -/
def lateAll (s : State) (c : Nat) (ds : List Delayed) : State :=
  (ds.filter (·.posted)).foldl (fun s d =>
    lateFault s c (record s c { code := d.code, addr := d.addr, pc := some d.opc, rseq := d.rseq,
                                outst := some ((s.core (ctxCore c)).outst + 1), task := some 0 }) d.rseq) s

/-! ### Task handles (R72) -/

def hDie (h : Nat) : Nat := bits h 29 3
def hIdx (h : Nat) : Nat := bits h 13 16
def hGen (h : Nat) : Nat := bits h 0 13
def mkHandle (die idx gen : Nat) : Nat := die * 2 ^ 29 + idx * 2 ^ 13 + gen

def Die.task (d : Die) (i : Nat) : Task := (tget d.tasks i).getD {}
def Die.setTask (d : Die) (i : Nat) (t : Task) : Die := { d with tasks := tput d.tasks i t }
def State.setTask (s : State) (die i : Nat) (t : Task) : State := s.setDie die ((s.die die).setTask i t)

/-- The live entry a handle names, if it is not stale (R72). -/
def taskAt (s : State) (h : Nat) : Option Task :=
  let t := (s.die (hDie h)).task (hIdx h)
  if h ≠ 0 && h < 2 ^ 32 && t.gen = hGen h && t.st != .free then some t else none

/-- A handler entry of a die that can serve (R97): entry PC and the fields of its map. -/
def handlerAt (s : State) (die n : Nat) : Option (Nat × Nat) :=
  let ht := (s.die die).htable.toNat
  if n = 0 || !bit ht 0 then none
  else
    let a := bits ht 12 36 * 4096 + 16 * n
    let pc := memRead s.mem a 8
    let w := memRead s.mem (a + 8) 8
    let kind := bits w 0 2
    if pc = 0 || pc % 8 ≠ 0 || bits w 48 16 ≠ 0 || 63 < bits w 40 8 || bits w 19 21 ≠ 0 || bits w 2 6 ≠ 0 || kind = 3 ||
        ((kind = 1 || kind = 2) && bits w 8 3 ≠ die) then none
    else some (pc, w)

/-- Are handler records enabled (R335, R356)? -/
def frecOn (s : State) (die : Nat) : Bool := bit (s.die die).frec.toNat 0

/-- A handler task asked for, from a handler entry (R98) or from HENT of a launch (R99). -/
def askSpawn (s : State) (die : Nat) (sp : Spawn) : State :=
  let d := s.die die
  s.setDie die { d with spawns := d.spawns ++ [sp] }

def spawnOf (same : Option Nat) (pc w h r : Nat) : Spawn :=
  ⟨same, pc, bits w 40 8, bits w 12 2, bit w 11, bits w 0 2, bits w 14 5, h, r⟩

/-! ### The end of a context -/

/-- The code a group records when a fault of member `c` is delivered (R76, R94): that of the first fault that is not restartable, in one
cycle of the lower context (assumption 89). -/
def Group.fail (g : Group) (now code c : Nat) : Group :=
  if code ≠ 0 && !restartable code && (g.fcode = 0 || now * 2 ^ 15 + c < g.fkey) then { g with fcode := code, fkey := now * 2 ^ 15 + c } else g

/-- Group `gid` of launch `h` changed. -/
def groupUpd (s : State) (h gid : Nat) (f : Group → Group) : State :=
  match taskAt s h with
  | none => s
  | some t =>
    match t.launch with
    | none => s
    | some l =>
      s.setTask (hDie h) (hIdx h) { t with launch := some { l with groups := l.groups.map fun g => if g.gid = gid then f g else g } }

/-- A group member has ended (R94): with code 0 by HEXIT. -/
def groupEnd (s : State) (h gid code c : Nat) : State :=
  groupUpd s h gid fun g => { g.fail s.now code c with alive := g.alive - 1 }

/-- A fault of context `c` counts for its group, if it has one, from its delivery on (R94). -/
def groupFault (s : State) (c code : Nat) : State :=
  match (s.ctx c).unit with
  | .group h gid _ => groupUpd s h gid fun g => g.fail s.now code c
  | _ => s

/-- A context ends (R117, R335): bindings closed, exit word recorded; the slot is free or, for a message context, idle. -/
def endCtx (s : State) (c : Nat) (exit : Word) (code : Nat) : State :=
  let s := closeStreams s c
  let x := s.ctx c
  let sl := s.slot c
  let s := s.setSlot c { sl with ctx := { x with st := .empty, upq := none, downq := none, outst := [], delayed := [], unit := .none,
                                                 missAns := none }, ended := true, exitWord := exit, park := none, fibre := false, relit := false,
                                     late := sl.late ++ x.outst.filter (·.posted.isSome) }
  let s := lateAll s c x.delayed
  match x.unit with
  | .group h gid _ => groupEnd s h gid code c
  | _ => s

/-! ### Taking an exception -/

/-- Trap entry (R336): into the handler at tvec, or the context halts. -/
def trapEntry (s : State) (f : Flt) : State :=
  let c := s.cur
  let x := s.ctx c
  let k := ctxCore c
  let r := record s c f
  let tv := (s.core k).tvec
  let s := groupFault (putRecord s (upBase s k + 64 * ctxSlot c) r) c f.code
  if bit x.estat.toNat 9 || !bit tv.toNat 0 then
    let s := s.setCtx c { x with st := .halted, hcode := f.code, hrec := r }
    if 1 ≤ ctxSlot c ∧ ctxSlot c ≤ 14 then postUpcall s k (ctxSlot c) 0 0 else s
  else
    s.setCtx c { x with
      epc := if f.code = cTrapCall || f.code = cBreak then x.pc + 8 else x.pc
      estat := BitVec.ofNat 64 (f.code + x.sys.toNat * 2 ^ 8 + 2 ^ 9)
      sys := true
      pc := tv &&& ~~~7#64 }

/-- Steps 2 to 4 of R197: the park record, the fault record, the upcall. -/
def finishPark (s : State) (c : Nat) (f : Flt) : State :=
  let k := ctxCore c
  let r := record s c f
  let x := { s.ctx c with st := .parked .record, missAns := none }
  let s := s.setSlot c { s.slot c with ctx := { x with outst := [], delayed := [] }, park := some x, relit := false }
  let s := putRecord s (upBase s k + 64 * ctxSlot c) r
  postUpcall s k (ctxSlot c) 0 0

/-- A restartable fault parks a context of slots 1 to 14 (R197); counted accesses complete first. -/
def parkFault (s : State) (f : Flt) : State :=
  let x := s.me
  if x.outst.any (·.ctr.isSome) then s.setMe { x with st := .parked (.drain f), missAns := none }
  else finishPark s s.cur f

/-- Fault `code` with record `r` ends helper or message context `c` (R335): its handler is asked for, or system software is told. A handler
of a launch takes the launch's PREC and the level it has aged to (assumption 65). -/
def endWith (s : State) (c code r : Nat) : State :=
  let x := s.ctx c
  let k := ctxCore c
  let exit := BitVec.ofNat 64 (2 ^ 63 + code)
  let tell (s : State) := postUpcall (putRecord s (upBase s k + 64 * ctxSlot c) r) k (ctxSlot c) 0 0
  match x.unit with
  | .task h =>
    match taskAt s h with
    | none => tell (endCtx s c exit code)
    | some t =>
      let s := s.setTask (hDie h) (hIdx h) { t with st := .faulted }
      match handlerAt s (hDie h) t.hnd with
      | some (pc, w) =>
        if frecOn s (hDie h) && !t.handler then
          askSpawn (endCtx s c exit code) (hDie h) (spawnOf (some (hIdx h)) pc w h r)
        else tell (endCtx s c exit code)
      | none => tell (endCtx s c exit code)
  | .group h _ _ =>
    match taskAt s h with
    | some { launch := some l, qid := q, prio := p, prec := pr, .. } =>
      if l.hent ≠ 0 && frecOn s (hDie h) then
        askSpawn (endCtx s c exit code) (hDie h) ⟨none, l.hent, q, p, pr, 0, 0, h, r⟩
      else tell (endCtx s c exit code)
    | _ => tell (endCtx s c exit code)
  | .none => tell (endCtx s c exit code)

/-- A fault that ends the issuing context (R335). -/
def endFault (s : State) (f : Flt) : State := endWith s s.cur f.code (record s s.cur f)

/-- A fault of a fibre halts it in place (R334). -/
def fibreFault (s : State) (f : Flt) : State :=
  let c := s.cur
  let k := ctxCore c
  let r := record s c f
  let s := s.setCtx c { s.ctx c with st := .halted, hcode := f.code }
  postUpcall (putRecord s (upBase s k + 1024 + 64 * ctxSlot c) r) k (ctxSlot c) 2 0

/-- What the instruction of context `c` has asked for is asked for no longer: its place at a lantern, its frame, its write of pwr.ctl, the
waits of its TLBINV. -/
def dropAsks (s : State) (c : Nat) : State :=
  { s with kvWait := s.kvWait.filter (·.ctx != c), kvReqs := s.kvReqs.filter fun r => r.promo || r.ctx != c,
           pwrWait := s.pwrWait.filter (·.1 != c), invWait := s.invWait.filter (·.ctx != c) }

/-- TAKING AN EXCEPTION: the delivery of a fault of the issuing context (R334). What its instruction waited for is over (R249, R267). -/
def takeFault (s : State) (f : Flt) : State :=
  let c := s.cur
  let sl := s.slot c
  let s := dropAsks (s.setCtx c { sl.ctx with missAns := none }) c
  if sl.fibre then fibreFault s f
  else if bit sl.ctx.estat.toNat 9 then trapEntry s f
  else if ctxSlot c = 0 || ctxSlot c = 15 then trapEntry s f
  else if restartable f.code then parkFault s f
  else if f.code = cTrapCall || f.code = cBreak then trapEntry s f
  else endFault s f

/-- THE RETURN FROM AN EXCEPTION (R338): the context at fault.epc, in the mode before. -/
def returnFromTrap (x : Ctx) : Ctx :=
  { x with sys := bit x.estat.toNat 8, estat := x.estat &&& ~~~0x200#64, pc := x.epc }

/-! ### Decrements (R89, R90, R104) -/

/-- What a decrement of context `c` says of its source (R90). -/
def decSrc (s : State) (c : Nat) : DecSrc :=
  let x := s.ctx c
  match x.unit with
  | .task h => ⟨c, x.pc.toNat, h, ((taskAt s h).map (·.hnd)).getD 0, 0, 0, 0, false, none⟩
  | .group h gid _ =>
    match taskAt s h with
    | some { launch := some l, qid := q, prio := p, prec := pr, .. } => ⟨c, x.pc.toNat, h, 0, l.hent, q, p, pr, some gid⟩
    | _ => ⟨c, x.pc.toNat, h, 0, 0, 0, 0, false, some gid⟩
  | .none => ⟨c, x.pc.toNat, 0, 0, 0, 0, 0, false, none⟩

/-- A discarded decrement is reported against its source (R90); `die` is the scheduler that discarded it. Of a launch helper it is a fault of
its group (R94). -/
def decUnder (s : State) (die h : Nat) (src : DecSrc) : State :=
  let s := match src.gid with
    | some gid => groupUpd s src.unit gid fun g => g.fail s.now cTaskDec src.ctx
    | none => s
  let f : Flt := { code := cTaskDec, addr := h, pc := some src.pc, task := some (if src.hent = 0 then src.unit else 0) }
  let r := record s src.ctx f
  let count (s : State) := let d := s.die die; s.setDie die { d with under := min (d.under + 1) 0xFFFFFFFF }
  if src.hent ≠ 0 && frecOn s (hDie src.unit) then
    askSpawn s (hDie src.unit) ⟨none, src.hent, src.qid, src.prio, src.prec, 0, 0, src.unit, r⟩
  else
    match handlerAt s (hDie src.unit) src.hnd with
    | some (pc, w) => if frecOn s (hDie src.unit) then askSpawn s (hDie src.unit) (spawnOf none pc w src.unit r) else count s
    | none => count s

/-- A decrement on its way to the scheduler its handle names, or discarded at the source's own die (R89). -/
def sendDec (s : State) (h : Nat) (src : DecSrc) : State :=
  if h = 0 || s.dieGone (hDie h) then decUnder s (ctxDie src.ctx) h src
  else s.later (.decrementArrival (hDie h) h src)

end Sys2Proof.Machine
end

