-- ==== Sys2Proof/Machine/Operands.lean ====
section
/-! DEFINITION. Reading and writing registers as operands (R31, R129 to R131, R180, R310), and the issue of one instruction
(R126 to R128): the shared shell in which every meaning of a swarm instruction runs. -/

namespace Sys2Proof.Machine

/-- What a meaning answers. -/
abbrev Ans := Host.Outcome State Fault Refusal

/-- Has the context a posted request that is not acknowledged? A release at system scope waits for it (R289, R290). -/
def Ctx.posts (x : Ctx) : Bool := x.outst.any (·.posted.isSome)

/-- Must the context's next instruction wait for an access that was issued with PREC set (R341)? -/
def Ctx.drains (x : Ctx) : Bool := x.outst.any (·.prec)

/-- Does traffic with endpoint `peer` wait, as a release at system scope, for the context's posted requests (R294)? -/
def postsTo (s : State) (peer : Nat) : Bool := epDev peer != fabDev && s.me.posts

/-- x0 to x63 as the register file holds them; x0 and x61 read 0 (R31). -/
def Ctx.reg (x : Ctx) (r : Reg) : Word := if r = 0 || r = 61 then 0 else x.x[r.toNat]'(r.isLt)

/-- An ordinary register written; a write to x0 is discarded (R31). A write that meets an outstanding access is recorded with it
(R129). -/
def Ctx.setReg (x : Ctx) (r : Reg) (v : Word) : Ctx :=
  if r = 0 then x
  else { x with x := x.x.set r.toNat v r.isLt,
                outst := x.outst.map fun o => if o.writes.any (·.1 == r.toNat) then { o with raced := r.toNat :: o.raced } else o }

/-- What taking the source fields gives. -/
inductive Src where
  | ok (vs : List Word) (s : State)
  | lack
  | flt (f : Flt)

/-- A stream register's number in its file, if the register is one (R130). -/
def streamIx (r : Reg) : Option Nat := if 56 ≤ r.toNat ∧ r.toNat ≤ 59 then some (r.toNat - 56) else none

/-- One source field (R129, R130): its value and the state with the element taken. -/
def takeOne (s : State) (r : Reg) : Src :=
  let x := s.me
  match streamIx r with
  | some k =>
    match tget x.streams k with
    | none => .flt { code := cIllegalEnc }
    | some t =>
      match t.fault with
      | some f => .flt f
      | none =>
        if t.out then .flt { code := cIllegalEnc }
        else if t.taken = t.total then .ok [0] s
        else if t.fifo = [] then .lack
        else .ok [t.elem] (streamTake s s.cur k)
  | none =>
    if r = 60 then
      match x.upq with
      | none => .flt { code := cIllegalEnc }
      | some ep =>
        let e := s.myCore.rxEp ep
        if e.occ = 0 || saveHoldsLs s || postsTo s e.peer then .lack
        else .ok [BitVec.ofNat 64 (leNat ((headMsg s (ctxCore s.cur) e).2.take 8))] (queuePop s (ctxCore s.cur) ep)
    else if r = 0 then .ok [0] s
    else
      match x.outst.find? fun o => o.writes.any (·.1 == r.toNat) with
      | some o =>
        -- R129: the value before the access, or the value it writes
        let c := chooseIn s s.cur r.toNat 2
        .ok [if c.1 = 0 then x.reg r else (tget o.writes r.toNat).getD 0] c.2
      | none => .ok [x.reg r] s

/-- The source fields in order (R130). A field that lacks its element parks the context ahead of the fault of another (R126). -/
def takeSrcs (s : State) : List Reg → Src
  | [] => .ok [] s
  | r :: rs =>
    match takeOne s r with
    | .ok v s' =>
      match takeSrcs s' rs with
      | .ok vs s'' => .ok (v ++ vs) s''
      | e => e
    | .flt f =>
      match takeSrcs s rs with
      | .lack => .lack
      | _ => .flt f
    | .lack => .lack

/-- The elements of stream and queue sources taken for good, after the instruction has performed. -/
def commitSrcs (s : State) : List Reg → State
  | [] => s
  | r :: rs =>
    match streamIx r with
    | some k => commitSrcs (streamTake s s.cur k) rs
    | none =>
      if r = 60 then
        match s.me.upq with
        | none => commitSrcs s rs
        | some ep => commitSrcs (queuePop s (ctxCore s.cur) ep) rs
      else commitSrcs s rs

/-- Can the destination take a result now (R130, R180, R310)? -/
def dstCheck (s : State) (r : Reg) : Src :=
  match streamIx r with
  | some k =>
    match tget s.me.streams k with
    | none => .flt { code := cIllegalEnc }
    | some t =>
      match t.fault with
      | some f => .flt f
      | none =>
        if !t.out then .flt { code := cIllegalEnc }
        else if 16 ≤ t.fifo.length && t.taken < t.total then .lack else .ok [] s
  | none =>
    if r = 61 then
      match s.me.downq with
      | none => .flt { code := cIllegalEnc }
      | some ep =>
        let e := s.myCore.txEp ep
        if !e.isOpen then .flt { code := cIllegalEnc }
        else if e.broken then .flt { code := cChanBroken }
        else if e.ready && !postsTo s e.peer then .ok [] s else .lack
    else .ok [] s

/-- A result written to destination `d` (R31, R130): a register, a stream, or the downstream queue. -/
def putReg (s : State) (d : Reg) (v : Word) : State :=
  match streamIx d with
  | some k => streamPush s s.cur k v
  | none =>
    if d = 61 then
      match s.me.downq with
      | some ep => sendMsg (s.countSent s.cur) (ctxCore s.cur) ep (leBytes 8 v.toNat)
      | none => s
    else s.setMe (s.me.setReg d v)

/-- A push to x61 among results that a later answer writes: it may be made, it waits as at issue, at an endpoint closed meanwhile too, whose
ALLOW is 0 (R310), or the endpoint is broken. -/
inductive Push where | go | wait | broken
  deriving DecidableEq, Repr

def pushNow (s : State) (c : Nat) (ws : List Nat) : Push :=
  if !ws.contains 61 then .go
  else
    match (s.ctx c).downq with
    | none => .go
    | some ep =>
      let e := (s.core (ctxCore c)).txEp ep
      if e.broken then .broken else if e.ready && !(epDev e.peer != fabDev && (s.ctx c).posts) then .go else .wait

/-- A predicate result. -/
def putPred (s : State) (n : Pred) (v : Bool) : State := s.setMe (s.me.setPred n v)

/-- How the perform step of an instruction ends. -/
inductive Res where
  /-- performed: retire at pc + 8 -/
  | next (s : State)
  /-- performed: retire at another pc -/
  | jump (s : State) (pc : Word)
  /-- held: the phase is dead, nothing has happened -/
  | hold
  /-- the context parks until the instruction can perform; it is tried again -/
  | park (s : State)
  /-- the pc stays and the instruction does not retire; the state says what the context waits for -/
  | stay (s : State)
  /-- a translation is missing (R190), or the access is held (`holdKind`); the state that has looked -/
  | miss (s : State) (va kind : Nat)
  | fault (f : Flt)
  /-- a fault of an access, with what stays of the access -/
  | faultAt (s : State) (f : Flt)
  /-- the context has ended -/
  | ended (s : State)

/-- A meaning that goes on with what a read of its operands' structure gave. -/
def Acc.bind {α : Type} (a : Acc α) (f : α → State → Res) : Res :=
  match a with
  | .ok v s => f v s
  | .flt e s => .faultAt s e
  | .miss va k s => .miss s va k

/-- What the shell needs to know of an instruction: header, source fields in the order A, B, C, the destination field it writes,
the predicates CM clears, whether it is S-marked, and whether it is a memory instruction. -/
structure Form where
  h : Hdr
  srcs : List Reg := []
  dst : Option Reg := none
  clear : Option (Pred × Pred) := none
  sysOnly : Bool := false
  mem : Bool := false

/-- Retire (R126, R150). -/
def retire (s : State) (pc : Word) : State :=
  let x := s.me
  s.setMe { x with pc := pc, icount := x.icount + 1, missAns := none }

/-- A parked context whose instruction is tried again issues as a live one. -/
def wakeRetry (s : State) : State :=
  let x := s.me
  match x.st with
  | .parked .retry => s.setMe { x with st := .live }
  | _ => s

/-- The end of the perform step (R126, R190, R334). -/
def settle (s : State) (srcs : List Reg) (r : Res) : State :=
  match r with
  | .next t => let t := commitSrcs t srcs; retire t (t.me.pc + 8)
  | .jump t pc => retire (commitSrcs t srcs) pc
  | .hold => s
  | .park t => t.setMe { t.me with st := .parked .retry }
  | .stay t => t
  | .miss t va k =>
    if k = holdKind then t
    else
      let t := postMiss t t.who va k
      t.setMe { t.me with st := .parked .miss, missAns := none }
  | .fault f => takeFault s f
  | .faultAt t f => takeFault t f
  | .ended t => t

/-- The stream that register `r` names, with its number. -/
def streamAt (s : State) (r : Reg) : Option (Nat × Stream) :=
  match streamIx r with
  | none => none
  | some k => (tget s.me.streams k).map fun t => (k, t)

/-- A stream whose restartable fault was delivered at its register goes on from where it stopped when the register is accessed
again (R180, R182). -/
def streamResume (s : State) (r : Reg) : State :=
  match streamAt s r with
  | none => s
  | some (k, t) =>
    match t.fault with
    | none => s
    | some f =>
      if t.told && restartable f.code then
        let x := s.me
        tokUpd (s.setMe { x with streams := tput x.streams k { t with fault := none, told := false } }) (ctxCl s.cur) 1 t.tok
          fun e => { e with st := .pending, code := 0, flt := none, delivered := false, dctx := none }
      else s

/-- The delivery of stream fault `f` at one of the registers is noted (R180). -/
def streamTold (f : Flt) (s : State) (r : Reg) : State :=
  match streamAt s r with
  | none => s
  | some (k, t) =>
    if t.fault = some f then let x := s.me; s.setMe { x with streams := tput x.streams k { t with told := true } } else s

/-- The stream registers among the operands of an instruction. -/
def Form.streams (f : Form) : List Reg := (f.srcs ++ f.dst.toList).filter fun r => (streamIx r).isSome

/-- What a destination that cannot take the result yet leaves of the perform step: faults and misses of the operands come first (R126). -/
def Res.orPark (r : Res) (s : State) : Res :=
  match r with
  | .fault f => .fault f
  | .faultAt t f => .faultAt t f
  | .miss t va k => .miss t va k
  | _ => .park s

/-- The perform step with the sources in hand. -/
def perform (f : Form) (body : State → (Nat → Word) → Res) (s : State) : State :=
  let s := f.streams.foldl streamResume s
  match takeSrcs s f.srcs with
  | .lack => settle s [] (.park s)
  | .flt e => takeFault (f.streams.foldl (streamTold e) s) e
  | .ok vs s1 =>
    let s2 := { s with freeCtr := s1.freeCtr, oracle := s1.oracle }
    match (match f.dst with
      | some d => dstCheck s2 d
      | none => .ok [] s2) with
    | .lack => settle s2 [] ((body s2 (fun i => (vs[i]?).getD 0)).orPark s)
    | .flt e => takeFault (f.streams.foldl (streamTold e) s) e
    | .ok _ _ => settle s2 f.srcs (body s2 (fun i => (vs[i]?).getD 0))

/-- ISSUING ONE INSTRUCTION (R126): the privilege check of its opcode, the holds, the guard, then the perform step. -/
def issueS (f : Form) (body : State → (Nat → Word) → Res) (s : State) : State :=
  let s := wakeRetry s
  let x := s.me
  if x.drains then s
  else if f.sysOnly && !x.sys then takeFault s { code := cPriv }
  else if (f.h.wm &&& x.dcMask) != 0 then s
  else if !x.guard f.h then
    let x := match f.clear with
      | some (pt, pf) => (x.setPred pt false).setPred pf false
      | none => x
    retire (s.setMe x) (x.pc + 8)
  else if (match f.h.sc with
    | some n => x.dc[n] == 15
    | none => false) then s
  else if f.mem && x.outst.any (·.acq) then s
  else perform f body s

def issue (f : Form) (body : State → (Nat → Word) → Res) (s : State) : Ans :=
  .next (issueS f body s)

/-- An instruction that computes one register from its sources and nothing else. -/
def issueAlu (h : Hdr) (srcs : List Reg) (d : Reg) (g : (Nat → Word) → Word) (s : State) : Ans :=
  issue { h := h, srcs := srcs, dst := some d } (fun s v => .next (putReg s d (g v))) s

/-- An instruction that writes a condition and its negation to two predicates (R34). -/
def issuePred (h : Hdr) (srcs : List Reg) (pt pf : Pred) (cm : Bool) (g : Ctx → (Nat → Word) → Bool) (s : State) : Ans :=
  issue { h := h, srcs := srcs, clear := if cm then some (pt, pf) else none }
    (fun s v => let c := g s.me v; .next (putPred (putPred s pt c) pf (!c))) s

end Sys2Proof.Machine
end

