-- ==== Sys2Proof/Machine/Branch.lean ====
section
/-! DEFINITION. The branches (R37, R146). -/

namespace Sys2Proof.Machine

/-- Displacement of a branch in bytes (R37). -/
def dispBytes (disp : BitVec 29) : Word := disp.signExtend 64 <<< 3

/-- A transfer of control to `t`: a target whose bits 2:0 are not 0 faults ALIGN and writes nothing (R146). -/
def branchTo (s : State) (l : Option Reg) (t : Word) : Res :=
  if t.toNat % 8 ≠ 0 then .fault { code := cAlign, addr := t.toNat }
  else
    match l with
    | some r => .jump (putReg s r (s.me.pc + 8)) t
    | none => .jump s t

/-- BR (R37, R146). -/
def execBr (h : Hdr) (disp : BitVec 29) (s : State) : Ans :=
  issue { h := h } (fun s _ => branchTo s none (s.me.pc + 8 + dispBytes disp)) s

/-- CALL (R37, R146): the link is a register write like any other (R37). -/
def execCall (h : Hdr) (l : Reg) (disp : BitVec 29) (s : State) : Ans :=
  issue { h := h, dst := some l } (fun s _ => branchTo s (some l) (s.me.pc + 8 + dispBytes disp)) s

/-- JMP (R37, R146): the base is read before the link is written; with L = 0 there is no link. -/
def execJmp (h : Hdr) (l a : Reg) (disp : BitVec 29) (s : State) : Ans :=
  issue { h := h, srcs := [a], dst := if l = 0 then none else some l } (fun s v =>
    branchTo s (if l = 0 then none else some l) (v 0 + dispBytes disp)) s

end Sys2Proof.Machine
end

