-- ==== Sys2Proof/Machine/MemOps.lean ====
section
/-! DEFINITION. The memory instructions: LD, ST, AMO, CAS, FENCE, PREF, CLEAN, INVAL (R161 to R169), and the completion of their
accesses. Every access performs at its serialisation point when it issues (assumption 17). -/

namespace Sys2Proof.Machine

def MSize.bytes : MSize → Nat
  | .b1 => 1
  | .b2 => 2
  | .b4 => 4
  | .b8 => 8
  | .b16 => 16

/-- Effective address of the M form (R36). -/
def effAddr (m : MAddr) (size : Nat) (a b : Word) : Nat := (a + b + m.off.signExtend 64 * BitVec.ofNat 64 size).toNat

/-- The register values a load of `size` bytes writes (R164). -/
def loadWrites (d : Reg) (size : Nat) (sx : Bool) (v : Nat) : List (Nat × Word) :=
  if size = 16 then [(d.toNat, BitVec.ofNat 64 v), (d.toNat + 1, BitVec.ofNat 64 (v / 2 ^ 64))]
  else [(d.toNat, if sx then BitVec.ofInt 64 (sext v (8 * size)) else BitVec.ofNat 64 (v % 2 ^ (8 * size)))]

/-- Registers written for the issuing context. -/
def putRegs (s : State) : List (Nat × Word) → State
  | [] => s
  | (r, v) :: t => putRegs (putReg s (BitVec.ofNat 6 r) v) t

/-- The result of an AMO: the new value of the word, from old `m` and operand `b` at width `w` bits (R165). -/
def amoNew (k : AmoKind) (w m b : Nat) : Nat :=
  let b := b % 2 ^ w
  match k with
  | .swap => b
  | .add => (m + b) % 2 ^ w
  | .and => m &&& b
  | .or => m ||| b
  | .xor => m ^^^ b
  | .min => if sext b w < sext m w then b else m
  | .max => if sext m w < sext b w then b else m
  | .minu => min m b
  | .maxu => max m b
  | .fadd => fp32.add .rne m b

/-- A reply leaves for another module, encrypted when a key slot for it is held (R328); a slot whose counter is used up sends nothing
(R329). -/
def sendReply (s : State) (dev rid code val reason : Nat) : State :=
  match keyFor s dev with
  | none => s.emit (.reply dev rid code val reason false 0 0)
  | some (i, k) =>
    if k.ctr = 2 ^ 80 - 1 then s
    else { s with keys := tput s.keys i { k with ctr := k.ctr + 1 } }.emit (.reply dev rid code val reason true k.epoch k.ctr)

/-- An access of the issuing context that completes later is outstanding; a counted one raises its counter (R128). -/
def addOutst (s : State) (o : Outst) : State :=
  let x := s.me
  let x := { x with outst := x.outst ++ [o] }
  s.setMe (match o.ctr with
    | some n => x.incDc n
    | none => x)

/-- A record of the issuing context's access. -/
def outstOf (s : State) (tag : Nat) (ctr : Option (Fin 4)) (load : Bool) (addr : Nat) : Outst :=
  { tag := tag, writes := [], pred := none, ctr := ctr, load := load, acq := false, posted := none, addr := addr, size := 8, sx := false,
    pc := s.me.pc.toNat, flt := none, raced := [], die := none, prec := s.me.prec }

/-- The context parks at its instruction until the reply `o.tag` (R163); its sources are taken. -/
def parkReply (s : State) (srcs : List Reg) (o : Outst) : Res :=
  let s := commitSrcs (addOutst s o) srcs
  .stay (s.setMe { s.me with st := .parked (.reply o.tag) })

/-- May a destination be written at a later completion: an ordinary register (streams and the queue complete in the step). -/
def plainDst (d : Reg) : Bool := !(56 ≤ d.toNat && d.toNat ≤ 61)

/-- What an access that returns a value does at its place: the value returned and the state after (LD, AMO, CAS). -/
abbrev Touch := State → Loc → Nat × State

/-- How a reply that needs no authentication arrives: from this module, or in clear. -/
def clearAuth : PktAuth := ⟨false, 0, 0, true⟩

/-- What an access at its instruction asks of the order of accesses: an acquire of an LD (R164), a release at system scope (R289, R290). -/
structure Ordered where
  acq : Bool := false
  relSys : Bool := false

/-- The order of an access with ORD and SCO. -/
def orderOf (ord : MOrd) (sco : Scope) : Ordered := { relSys := (ord == .rel || ord == .ar) && sco == .sys }

/-- Must the access wait, as a release at system scope, for the context's posted requests (R290)? -/
def relWaits (s : State) (o : Ordered) : Bool := o.relSys && s.me.posts

/-- An access off the local store in a replay (R346): its value comes from the log, now, or at the logged cycle as a counted access
or a reply. -/
def replayAccess (s : State) (h : Hdr) (srcs : List Reg) (d : Reg) (parks : Bool) (wr : Nat → List (Nat × Word)) (o : Outst) : Res :=
  match replayAnswer s s.cur o with
  | none => .stay (replayHalt s (ctxCore s.cur))
  | some (p, e) =>
    let here := e.cyc ≤ logCycle s (ctxCore s.cur)
    if e.kind = 1 && here then .next (putRegs (replayTake s s.cur p) (wr (logValue e.data)))
    else if e.code ≠ 0 && here && h.sc.isNone then .faultAt (replayTake s s.cur p) { code := e.code, addr := o.addr }
    else
      let s := { s with tagCtr := s.tagCtr + 1 }
      let o := { o with writes := wr (logValue e.data) }
      if h.sc.isSome && plainDst d && !parks then .next (addOutst s o) else parkReply s srcs o

/-- A counted access that completes at its issue has met uncorrectable data: it writes nothing, and the fault comes at the context's next own
phase, with the access's own address as PC (R158). -/
def eccLater (s : State) (va : Nat) : State :=
  let x := s.me
  s.setMe { x with delayed := x.delayed ++ [⟨cEcc, va, 0, some x.pc.toNat, false, x.pc.toNat⟩] }

/-- The answer to an access off the local store that its issue meets with uncorrectable data, as an item that enters the core (R345). -/
def eccItem (s : State) (va : Nat) : State := logItem (s.countSent s.cur) s.cur 3 (va % 2 ^ 48) [0, cEcc]

/-- An access that returns a value to `d`: by path, at once, counted, or by a reply (R161 to R163). An L1 hit on a line of another die is
served on this one; whether there is one is free (R151). `g` is what the request asks of another module. -/
def valueAccess (s : State) (h : Hdr) (srcs : List Reg) (d : Reg) (va size : Nat) (sx : Bool) (ord : Ordered) (k : AKind) (touch : Touch)
    (wr : Nat → List (Nat × Word)) (g : GReq) : Res :=
  match resolveCtx s va size (sx && k == .read) k with
  | (.miss kind, s) => .miss s va kind
  | (.flt c, s) => .faultAt s { code := c, addr := va }
  | (.ok (.ls q o), s) =>
    if relWaits s ord then .hold
    else if locEcc s (.ls q o) size then (if h.sc.isSome then .next (eccLater s va) else .fault { code := cEcc, addr := va })
    else let t := touch s (.ls q o); .next (putRegs t.2 (wr t.1))
  | (.ok l, s) =>
    let tg := s.tag
    let o := { outstOf s tg.1 h.sc true va with acq := ord.acq, size := size, sx := sx }
    let path := pathOf (ctxCore s.cur) l
    if relWaits s ord then .hold else
    if s.myCore.replaying then replayAccess (s.countSent s.cur) h srcs d (path == .offDie || path == .global) wr o else
  match l with
  | .glob dev off =>
    let s := tg.2.countSent s.cur
    if dev = fabDev then
      match ownRequest s off size (sx && k == .read) (if k == .amo then .amo else .read) with
      | (.error c, s) => parkReply (s.later (.remoteReply s.cur tg.1 c 0 clearAuth)) srcs { o with writes := wr 0 }
      | (.ok l, s) =>
        let t := touch s l
        parkReply (t.2.later (.remoteReply s.cur tg.1 0 0 clearAuth)) srcs { o with writes := wr t.1, die := l.die }
    else
      match sendGlobal s dev off tg.1 g with
      | none => .fault { code := cConfAuth, addr := va }
      | some s => parkReply s srcs { o with writes := (wr 0).map fun w => (w.1, 0), flt := none }
  | l =>
    let hit := if path == .offDie && k == .read then s.choose 2 else (0, s)
    if locEcc s l size then
      if h.sc.isNone then .faultAt (eccItem s va) { code := cEcc, addr := va }
      else if path == .offDie && hit.1 = 0 then
        let tg := (hit.2.countSent s.cur).tag
        parkReply (tg.2.later (.remoteReply s.cur tg.1 cEcc 0 clearAuth)) srcs
          { outstOf s tg.1 h.sc true va with acq := ord.acq, die := l.die }
      else if path == .onDie && plainDst d then
        let tg := (s.countSent s.cur).tag
        .next (addOutst (tg.2.later (.countedAccessComplete s.cur tg.1))
          { outstOf s tg.1 h.sc true va with acq := ord.acq, flt := some cEcc })
      else .next (eccLater (eccItem hit.2 va) va)
    else
      let t := touch hit.2 l
      let s' := t.2.countSent s.cur
      if path == .offDie && hit.1 = 0 then
        let tg := s'.tag
        parkReply (tg.2.later (.remoteReply s.cur tg.1 0 0 clearAuth)) srcs
          { outstOf s tg.1 h.sc true va with acq := ord.acq, writes := wr t.1, die := l.die }
      else if path == .onDie && h.sc.isSome && plainDst d then
        let tg := s'.tag
        .next (addOutst (tg.2.later (.countedAccessComplete s.cur tg.1))
          { outstOf s tg.1 h.sc true va with acq := ord.acq, writes := wr t.1 })
      else .next (putRegs (logItem s' s.cur 1 (va % 2 ^ 48) (logWords size t.1)) (wr t.1))

/-- A store of the issuing context: at once on the near and on-die paths, posted off the die (R161 to R163). `perf` is what it does
at its place. In a replay it leaves the core unperformed, and its completion comes from the log (R346). -/
def storeAccess (s : State) (h : Hdr) (va size : Nat) (ord : Ordered) (k : AKind) (op : ROp) (perf : State → Loc → State) (g : GReq) : Res :=
  match resolveCtx s va size false k with
  | (.miss kind, s) => .miss s va kind
  | (.flt c, s) => .faultAt s { code := c, addr := va }
  | (.ok (.ls q o), s) => if relWaits s ord then .hold else .next (perf s (.ls q o))
  | (.ok l, s) =>
    let path := pathOf (ctxCore s.cur) l
    let co := s.myCore
    let perf (s : State) (l : Loc) : State := if co.replaying then s else perf s l
    let ends (s : State) (i : Instr) : State := if co.replaying then s else s.later i
    let posted (s : State) (tag : Nat) (die : Option Nat) : State :=
      let s := s.countSent s.cur
      let co := s.myCore
      let s := s.setMyCore { co with nseq := (co.nseq + 1) % 2 ^ 16, outst := co.outst + 1 }
      addOutst s { outstOf s tag h.sc false va with posted := some co.nseq, die := die }
    if relWaits s ord then .hold else
    match l with
    | .glob dev off =>
      if 64 ≤ co.outst then .hold
      else
        let tg := s.tag
        if co.replaying then .next (posted tg.2 tg.1 none)
        else if dev = fabDev then
          match ownRequest tg.2 off size false op with
          | (.error c, s) => .next ((posted s tg.1 none).later (.delayedFaultArrival s.cur tg.1 ⟨c, clearAuth⟩))
          | (.ok l, s) => .next ((perf (posted s tg.1 l.die) l).later (.postedAck s.cur ⟨tg.1, clearAuth⟩))
        else
          match sendGlobal (posted tg.2 tg.1 none) dev off tg.1 g with
          | none => .fault { code := cConfAuth, addr := va }
          | some s => .next s
    | l =>
      if path == .offDie then
        if 64 ≤ co.outst then .hold
        else
          let tg := s.tag
          .next (ends (perf (posted tg.2 tg.1 l.die) l) (.postedAck s.cur ⟨tg.1, clearAuth⟩))
      else if path == .onDie && h.sc.isSome then
        let tg := s.tag
        .next (addOutst (ends (perf (tg.2.countSent s.cur) l) (.countedAccessComplete s.cur tg.1)) (outstOf s tg.1 h.sc false va))
      else .next (perf (s.countSent s.cur) l)

/-- LD (R164). -/
def execLd (h : Hdr) (sz : MSize) (sx acq : Bool) (sco : Scope) (d : Reg) (m : MAddr) (s : State) : Ans :=
  issue { h := h, srcs := [m.a, m.b], dst := some d, mem := true } (fun s v =>
    valueAccess s h [m.a, m.b] d (effAddr m (MSize.bytes sz) (v 0) (v 1)) (MSize.bytes sz) sx { acq := acq } .read
      (fun s l => (loadLoc s l (MSize.bytes sz), s)) (loadWrites d (MSize.bytes sz) sx)
      { op := 0, size := MSize.bytes sz, x := sx, ord := if acq then .acq else .rlx, sco := sco }) s

/-- ST (R164): the data source is taken after the address sources (R130). -/
def execSt (h : Hdr) (sz : MSize) (rel : Bool) (sco : Scope) (d : Reg) (m : MAddr) (s : State) : Ans :=
  let srcs := if sz = .b16 then [m.a, m.b, d, d + 1] else [m.a, m.b, d]
  issue { h := h, srcs := srcs, mem := true } (fun s v =>
    let val := ((v 2).toNat + 2 ^ 64 * (if sz = .b16 then (v 3).toNat else 0)) % 2 ^ (8 * MSize.bytes sz)
    storeAccess s h (effAddr m (MSize.bytes sz) (v 0) (v 1)) (MSize.bytes sz)
      (orderOf (if rel then .rel else .rlx) sco) .write .write (fun s l => storeLoc s l (MSize.bytes sz) val)
      { op := 1, size := MSize.bytes sz, v1 := val, ord := if rel then .rel else .rlx, sco := sco }) s

/-- Register value of an AMO or CAS that found `m` (R165, R166). -/
def oldWrites (fadd : Bool) (ty : IntTy) (d : Reg) (m : Nat) : List (Nat × Word) :=
  [(d.toNat, if fadd then BitVec.ofNat 64 m else ty.res m)]

/-- AMO (R165). -/
def execAmo (h : Hdr) (k : AmoKind) (ty : IntTy) (ord : MOrd) (sco : Scope) (cmb : Bool) (d a b : Reg) (s : State) : Ans :=
  issue { h := h, srcs := [a, b], dst := some d, mem := true } (fun s v =>
    valueAccess s h [a, b] d (v 0).toNat (ty.w / 8) (k != .fadd) (orderOf ord sco) .amo
      (fun s l => let m := loadLoc s l (ty.w / 8); (m, storeLoc s l (ty.w / 8) (amoNew k ty.w m (v 1).toNat)))
      (oldWrites (k == .fadd) ty d)
      { op := 2, size := ty.w / 8, kind := k, v1 := ty.u (v 1), ord := ord, sco := sco, cmb := cmb }) s

/-- CAS (R166). -/
def execCas (h : Hdr) (ty : IntTy) (ord : MOrd) (sco : Scope) (d a b c : Reg) (s : State) : Ans :=
  issue { h := h, srcs := [a, b, c], dst := some d, mem := true } (fun s v =>
    valueAccess s h [a, b, c] d (v 0).toNat (ty.w / 8) true (orderOf ord sco) .amo
      (fun s l => let m := loadLoc s l (ty.w / 8); (m, if m = ty.u (v 1) then storeLoc s l (ty.w / 8) (ty.u (v 2)) else s))
      (oldWrites false ty d) { op := 3, size := ty.w / 8, v1 := ty.u (v 1), v2 := ty.u (v 2), ord := ord, sco := sco }) s

/-- FENCE (R167): it holds until the earlier accesses it names have completed; at core scope it waits for nothing (R289). -/
def execFence (h : Hdr) (ord : MOrd) (sco : Scope) (s : State) : Ans :=
  issue { h := h, mem := true } (fun s _ =>
    let x := s.me
    let acq := (ord == .acq || ord == .ar) && x.outst.any (·.load)
    let rel := (ord == .rel || ord == .ar) && x.outst.any fun o => o.posted.isNone || sco == .sys
    if sco != .cor && (acq || rel) then .hold else .next s) s

/-- PREF (R168): it changes no value a program can read; the model drops every prefetch, so a counter it names is back at once. -/
def execPref (h : Hdr) (_l2 : Bool) (m : MAddr) (s : State) : Ans :=
  issue { h := h, srcs := [m.a, m.b], mem := true } (fun s _ => .next s) s

/-- CLEAN and INVAL (R169): faults as a load's; a counted one completes later. No cache holds a value of its own. -/
def lineOp (h : Hdr) (m : MAddr) (s : State) : Ans :=
  issue { h := h, srcs := [m.a, m.b], mem := true } (fun s v =>
    let va := effAddr m 1 (v 0) (v 1)
    match resolveCtx s va 1 false .read with
    | (.miss kind, s) => .miss s va kind
    | (.flt c, s) =>
      let pg := va / 2 ^ 32
      if va / 2 ^ 57 = 0 && (pg = 0xFE || pg = 0xFF || (0xC0 ≤ pg && pg ≤ 0xDF)) then .next s else .faultAt s { code := c, addr := va }
    | (.ok (.phys _), s) =>
      let s := s.countSent s.cur
      match h.sc with
      | none => .next s
      | some n =>
        let tg := s.tag
        .next (addOutst (tg.2.later (.countedAccessComplete s.cur tg.1)) (outstOf s tg.1 (some n) false va))
    | (.ok _, s) => .next s) s

def execClean (h : Hdr) (_mm : Bool) (m : MAddr) (s : State) : Ans := lineOp h m s
def execInval (h : Hdr) (_mm : Bool) (m : MAddr) (s : State) : Ans := lineOp h m s

/-! ### Completion of accesses -/

/-- Writes of a completing access; where another instruction wrote the register meanwhile, either value may stay (R129). -/
def completeWrites (s : State) (c : Nat) (raced : List Nat) : List (Nat × Word) → State
  | [] => s
  | (r, v) :: t =>
    let ch := if raced.contains r then chooseIn s c (64 + r) 2 else (1, s)
    let x := ch.2.ctx c
    let s := if ch.1 = 1 then ch.2.setCtx c { x with x := if r = 0 || 64 ≤ r then x.x else x.x.setIfInBounds r v } else ch.2
    completeWrites s c raced t

/-- Whose an outstanding access is: the running context's, the park record's, or an ended context's (R340). -/
inductive Owner where | run | park | late
  deriving DecidableEq, Repr

def State.findOutst (s : State) (c tag : Nat) : Option (Owner × Outst) :=
  let sl := s.slot c
  match sl.ctx.outst.find? (·.tag == tag) with
  | some o => some (.run, o)
  | none =>
    match (sl.park.map (·.outst)).getD [] |>.find? (·.tag == tag) with
    | some o => some (.park, o)
    | none => (sl.late.find? (·.tag == tag)).map fun o => (.late, o)

def Ctx.without (x : Ctx) (o : Outst) : Ctx :=
  let x := { x with outst := x.outst.filter (·.tag != o.tag) }
  match o.ctr with
  | some n => x.decDc n
  | none => x

/-- An outstanding access removed: its counter falls (R128). -/
def dropOutst (s : State) (c : Nat) (w : Owner) (o : Outst) : State :=
  let sl := s.slot c
  match w with
  | .run => s.setSlot c { sl with ctx := sl.ctx.without o }
  | .park => s.setSlot c { sl with park := sl.park.map (·.without o) }
  | .late => s.setSlot c { sl with late := sl.late.filter (·.tag != o.tag) }

/-- A fault kept for the context's next issue phase (R158, R340): lower RSEQ first. -/
def addDelayed (s : State) (c : Nat) (w : Owner) (d : Delayed) : State :=
  let sl := s.slot c
  let ins (x : Ctx) : Ctx := { x with delayed := x.delayed ++ [d] }
  match w with
  | .run => s.setSlot c { sl with ctx := ins sl.ctx }
  | .park => s.setSlot c { sl with park := sl.park.map ins }
  | .late => s

/-- A context that waits to park has its counters at 0 (R197 step 1). -/
def drainDone (s : State) (c : Nat) : State :=
  let x := s.ctx c
  match x.st with
  | .parked (.drain f) => if x.outst.any (·.ctr.isSome) then s else finishPark s c f
  | _ => s

/-- An acknowledgement that enters the core, logged with the sequence number and the code it carries (R345). -/
def logAck (s : State) (c : Nat) (o : Outst) (code : Nat) : State := logItem s c 3 (o.addr % 2 ^ 48) [o.posted.getD 0, code]

/-- A counted access completes (R128, R161): registers, counter; uncorrectable data is delivered at the context's next own phase, with the
access's address as PC (R158). -/
def execCountedAccessComplete (c tag : Nat) (s : State) : Ans :=
  match s.findOutst c tag with
  | some (.run, o) =>
    let s := dropOutst (completeWrites s c o.raced o.writes) c .run o
    let s := if o.load && o.flt.isNone then logItem s c 1 (o.addr % 2 ^ 48) (o.writes.map (·.2.toNat)) else logAck s c o (o.flt.getD 0)
    let s := match o.flt with
      | some code => addDelayed s c .run ⟨code, o.addr, 0, some o.pc, false, o.pc⟩
      | none => s
    .next (drainDone s c)
  | _ => .next s

/-- The device a global access went to. -/
def Outst.dev (o : Outst) : Nat := bits o.addr 44 12

/-- Does an access wait for another module while no Kevel port is ready: no answer to it arrives (R362, R364)? -/
def Outst.unanswered (o : Outst) (s : State) : Bool := bit o.addr 56 && noPort s (.glob o.dev 0)

/-- Registers written by the reply `val` of another module (R163, R164, R165). -/
def replyWrites (o : Outst) (val : Nat) : List (Nat × Word) :=
  match o.writes with
  | [(r, v)] => if val = 0 then [(r, v)] else loadWrites (BitVec.ofNat 6 r) o.size o.sx val
  | [(r, v), (r', v')] =>
    if val = 0 then [(r, v), (r', v')] else [(r, BitVec.ofNat 64 val), (r', BitVec.ofNat 64 (val / 2 ^ 64))]
  | w => w

/-- Does an access leave the core, so that its answer is an item that enters it (R345)? One of the local store does not. -/
def Outst.leaves (o : Outst) : Bool := o.addr / 2 ^ 32 != 0xFE

/-- The reply of a context's parked access is in: it writes the registers and the context returns to the wheel, or the fault is raised at
its instruction; uncorrectable data of a counted one at the context's next own phase (R158). A result for x61 is pushed when the queue takes it (R310); until then the context stays parked, the reply's step coming
again. -/
def endReply (s : State) (c : Nat) (o : Outst) (r : Except Nat (List (Nat × Word))) : State :=
  let cur := s.cur
  let live (s : State) : State := let s := { s with cur := c }; dropOutst (s.setMe { s.me with st := .live }) c .run o
  match r with
  | .error code =>
    let s := if o.leaves then logAck (live s) c o code else live s
    if code = cEcc && o.ctr.isSome then { retire (eccLater s o.addr) (s.me.pc + 8) with cur := cur }
    else { takeFault s { code := code, addr := o.addr } with cur := cur }
  | .ok ws =>
    match pushNow s c (ws.map (·.1)) with
    | .wait =>
      let x := s.ctx c
      let s := s.setCtx c { x with outst := x.outst.map fun q => if q.tag = o.tag then { q with writes := ws } else q }
      s.after 0 (.remoteReply c o.tag 0 0 ⟨false, 0, 0, true⟩)
    | .broken => { takeFault (live s) { code := cChanBroken } with cur := cur }
    | .go =>
      let s := putRegs (live s) ws
      let s := if o.leaves then logItem s c 1 (o.addr % 2 ^ 48) (ws.map (·.2.toNat)) else s
      { retire s (s.me.pc + 8) with cur := cur }

/-- The reply to a parked access (R163): it writes the registers and ends the park, or carries the target's refusal (R322), raised
at the instruction; a reply that fails authentication is discarded and raises CONF_AUTH (R329). -/
def execRemoteReply (c tag code val : Nat) (auth : PktAuth) (s : State) : Ans :=
  match s.findOutst c tag with
  | some (.run, o) =>
    if (s.ctx c).st = .parked (.reply tag) && !o.unanswered s then
      let ok := authentic s o.dev auth
      let code := if ok then code else cConfAuth
      let s' := if code = cConfAuth then s.authFail else s
      .next (endReply (if ok then noteAuth s' o.dev auth else s') c o (if code = 0 then .ok (replyWrites o val) else .error code))
    else .next s
  | _ => .next s

/-- A relight leaves for its core (R196). -/
def wakeGo (s : State) (dev ctx : Nat) : State := if dev = fabDev then s.later (.relightArrival ctx) else s.emit (.wake dev ctx)

/-- The relights that wait for the posted request `tag` alone leave (R196, R294). -/
def wakesBehind (s : State) (tag : Nat) : State :=
  let ws := s.wakes.map fun w => { w with behind := w.behind.filter (· != tag) }
  let s := { s with wakes := ws.filter fun w => !w.behind.isEmpty }
  (ws.filter (·.behind.isEmpty)).foldl (fun s w => wakeGo s w.dev w.ctx) s

/-- Posted request `tag` is acknowledged or refused: their count falls (R163), and relights behind it may leave. -/
def unpost (s : State) (k tag : Nat) : State :=
  let co := s.core k
  wakesBehind (s.setCore k { co with outst := co.outst - 1 }) tag

/-- A write of the host that another module refuses is counted at the bridge (R331). -/
def hostAnswered (s : State) (tag : Nat) (refused : Bool) : State :=
  { s with hostOut := s.hostOut.filter (·.1 != tag), fabRefc := if refused then (s.fabRefc + 1) % 2 ^ 32 else s.fabRefc }

/-- The answer of module `dev` to a write of the host; one that fails authentication is discarded, and counts as a refusal (R329, R331). -/
def hostAnswer (s : State) (tag dev : Nat) (refused : Bool) (auth : PktAuth) : State :=
  if noPort s (.glob dev 0) then s
  else if authentic s dev auth then hostAnswered (noteAuth s dev auth) tag refused
  else hostAnswered s.authFail tag true

/-- A refusal of a posted request arrives (R340): it waits for the context's next issue phase, or, when the context has ended, an
upcall of kind late fault tells of it. OUTST of the record is the count before the arrival. With PREC set the fault is delivered precisely,
with the pc of its instruction (R341). A refusal that fails authentication is discarded, and the request fails with CONF_AUTH (R329). -/
def execDelayedFaultArrival (c tag : Nat) (late : LateCode) (s : State) : Ans :=
  match s.hostOut.find? (·.1 == tag) with
  | some q => .next (hostAnswer s tag q.2 true late.auth)
  | none =>
    let n := (s.core (ctxCore c)).outst
    match s.findOutst c tag with
    | none => .next s
    | some (w, o) =>
      if o.unanswered s then .next s
      else
        let rs := o.posted.getD 0
        let ok := authentic s o.dev late.auth
        let code := if ok then late.code else cConfAuth
        let s := if ok then noteAuth s o.dev late.auth else s
        let s := if code = cConfAuth then s.authFail else s
        let s := logAck (dropOutst (unpost s (ctxCore c) tag) c w o) c o code
        if w = .late then
          let r := record s c { code := code, addr := o.addr, pc := some o.pc, rseq := rs, outst := some n, task := some 0 }
          .next (lateFault s c r rs)
        else .next (drainDone (addDelayed s c w ⟨code, o.addr, rs, if o.prec then some o.pc else none, true, o.pc⟩) c)

/-- A posted request is acknowledged (R161, R163); an acknowledgement that fails authentication is discarded, and the request fails with
CONF_AUTH (R329). -/
def execPostedAck (c : Nat) (ack : PostedAck) (s : State) : Ans :=
  let tag := ack.tag
  match s.hostOut.find? (·.1 == tag) with
  | some q => .next (hostAnswer s tag q.2 false ack.auth)
  | none =>
    match s.findOutst c tag with
    | none => .next s
    | some (w, o) =>
      if o.unanswered s then .next s
      else if authentic s o.dev ack.auth then
        .next (drainDone (logAck (dropOutst (unpost (noteAuth s o.dev ack.auth) (ctxCore c) tag) c w o) c o 0) c)
      else execDelayedFaultArrival c tag ⟨cConfAuth, clearAuth⟩ s

end Sys2Proof.Machine
end

