-- ==== Sys2Proof/Machine/Contexts.lean ====
section
/-! DEFINITION. Contexts: the state at a start (R112), START, HEXIT, HJOIN, MSGBIND, SLEEP, GETID (R115 to R121), retirement of a
task (R92, R105), and the wake-ups (R113, R114, R118, R120). -/

namespace Sys2Proof.Machine

/-- A free helper slot (R108); a helper halted under R336 is not free. -/
def slotFree (s : State) (c : Nat) : Bool := (s.slot c).ctx.st == .empty && (s.slot c).park.isNone

/-- The free helper slots of a core, lowest first. -/
def freeSlots (s : State) (k : Nat) : List Nat := ((List.range 10).map (· + 1)).filter fun n => slotFree s (16 * k + n)

/-- The state a context begins with (R112). -/
def freshCtx (entry x1 x2 x3 : Word) (sys prec : Bool) (u : UnitOf) : Ctx :=
  { st := .live, pc := entry, sys := sys, prec := prec, unit := u, x1s := x1, x3s := x3,
    x := (((Vector.replicate 64 0).set 1 x1).set 2 x2).set 3 x3 }

/-- Generation of a slot's next start (R116). -/
def nextGen (g : Nat) : Nat := if g = 4095 then 1 else g + 1

/-- A context started in its slot. -/
def startCtx (s : State) (c : Nat) (x : Ctx) : State :=
  let sl := s.slot c
  s.setSlot c { sl with ctx := x, gen := if slotRole (ctxSlot c) = 1 then nextGen sl.gen else sl.gen, ended := false, park := none,
                        fibre := false, relit := false, gang := (s.cluster (ctxCl c)).gang }

/-- START (R116). -/
def execStart (h : Hdr) (d a t1 : Reg) (p : Pred) (s : State) : Ans :=
  issue { h := h, srcs := [a, t1], dst := some d } (fun s v =>
    let k := ctxCore s.cur
    if (v 0).toNat % 8 ≠ 0 then .fault { code := cAlign, addr := (v 0).toNat }
    else
      match freeSlots s k with
      | [] => .next (putPred (putReg s d 0) p false)
      | n :: _ =>
        let x := s.me
        let u := match x.unit with
          | .group h g w => .group h g w
          | _ => UnitOf.none
        let s := startCtx s (16 * k + n) (freshCtx (v 0) x.x1s (v 1) (BitVec.ofNat 64 n) false x.prec u)
        let s := match u with
          | .group h g _ =>
            match taskAt s h with
            | some t => s.setTask (hDie h) (hIdx h) { t with launch := t.launch.map fun l =>
                { l with groups := l.groups.map fun q => if q.gid = g then { q with alive := q.alive + 1 } else q } }
            | none => s
          | _ => s
        let g := (s.slot (16 * k + n)).gen
        .next (putPred (putReg s d (BitVec.ofNat 64 (g * 16 + n))) p true)) s

/-! ### The end of a context -/

/-- A fibre's end gives its slot back to the park record below it (R199); delayed faults that had arrived for it are late faults (R340). -/
def endFibre (s : State) (c : Nat) : State :=
  let s := lateAll s c (s.ctx c).delayed
  let sl := s.slot c
  s.setSlot c { sl with ctx := (sl.park.map fun x => { x with outst := [], delayed := [] }).getD {}, fibre := false,
                        late := sl.late ++ sl.ctx.outst.filter (·.posted.isSome) }

/-- A task retires (R92): one decrement a successor word, then its entry is FREE. -/
def retireTask (s : State) (c h : Nat) : State :=
  match taskAt s h with
  | none => s
  | some t =>
    let src := decSrc s c
    let s := t.succ.foldl (fun s q => if q = 0 then s else sendDec s q src) s
    s.setTask (hDie h) (hIdx h) { gen := t.gen }

/-- A context ends by HEXIT or TDONE (R105, R117). -/
def finishCtx (s : State) (c : Nat) (exit : Word) : State :=
  if (s.slot c).fibre then endFibre s c
  else
    let s := match (s.ctx c).unit with
      | .task h => retireTask s c h
      | _ => s
    endCtx s c exit 0

/-- Have the context's counters come to 0? -/
def Ctx.counted (x : Ctx) : Bool := x.dcMask != 0

/-- The retirement of the instruction that ends its context (R150). -/
def countRetired (s : State) : State := s.setMe { s.me with icount := s.me.icount + 1 }

/-- The end of a context closes its bindings as SCLOSE would (R180): it is held until every out-stream is written. A restartable fault of
one is delivered at it, as at an access to its register, and the stream goes on when the instruction issues again. -/
def closingHold (s : State) (k : State → Res) : Res :=
  let s := s.me.streams.foldl (fun s t => streamResume s (BitVec.ofNat 6 (56 + t.1))) s
  match (s.me.streams.filter fun t => streamBusy s (ctxCl s.cur) t.2).findSome? (·.2.fault) with
  | some f => .stay (takeFault (s.me.streams.foldl (fun s t => streamTold f s (BitVec.ofNat 6 (56 + t.1))) s) f)
  | none => if s.me.streams.any fun t => streamBusy s (ctxCl s.cur) t.2 then .stay s else k s

/-- HEXIT (R117): it waits until the counters are 0. -/
def execHexit (h : Hdr) (a : Reg) (s : State) : Ans :=
  issue { h := h, srcs := [a] } (fun s v =>
    if s.me.counted then .hold
    else if ctxSlot s.cur = 0 || ctxSlot s.cur = 15 then .fault { code := cIllegalEnc }
    else closingHold s fun s =>
      let s := countRetired (commitSrcs s [a])
      .ended (finishCtx s s.cur (v 0))) s

/-- TDONE (R105). -/
def execTdone (h : Hdr) (s : State) : Ans :=
  issue { h := h } (fun s _ =>
    match s.me.unit with
    | .task _ => closingHold s fun s => .ended (finishCtx (countRetired s) s.cur 0)
    | _ => .fault { code := cIllegalEnc }) s

/-! ### Joining, binding, sleeping -/

/-- Does a join handle name no start, or one of the own slot (R118)? -/
def joinStale (s : State) (v : Word) : Bool :=
  let n := v.toNat % 16
  !(v.toNat < 2 ^ 16 && 1 ≤ n && n ≤ 10 && n != ctxSlot s.cur && v.toNat / 16 = (s.slot (16 * ctxCore s.cur + n)).gen && v.toNat / 16 != 0)

/-- HJOIN (R118): while the slot has not ended, the context sleeps at its HJOIN. -/
def execHjoin (h : Hdr) (d a : Reg) (p : Pred) (s : State) : Ans :=
  issue { h := h, srcs := [a], dst := some d } (fun s v =>
    if joinStale s (v 0) then .next (putPred (putReg s d 0) p false)
    else
      let sl := s.slot (16 * ctxCore s.cur + (v 0).toNat % 16)
      if sl.ended then .next (putPred (putReg s d sl.exitWord) p true)
      else .stay (s.setMe { s.me with st := .joining (v 0).toNat })) s

/-- Has the start that a sleeping HJOIN names ended, or its slot been started again (R118)? -/
def joinOver (s : State) (c : Nat) : Bool :=
  match (s.ctx c).st with
  | .joining h => let sl := s.slot (16 * ctxCore c + h % 16); sl.ended || sl.gen != h / 16
  | _ => false

/-- HJOIN_WAKE (R118): the context is back on the wheel, and issues its HJOIN again. -/
def execHjoinWake (ctx : Nat) (s : State) : Ans :=
  .next (if joinOver s ctx then s.setCtx ctx { s.ctx ctx with st := .live } else s)

/-- MSGBIND (R119). -/
def execMsgbind (h : Hdr) (m : BitVec 4) (a t1 t2 : Reg) (s : State) : Ans :=
  issue { h := h, srcs := [a, t1, t2] } (fun s v =>
    if !s.me.sys && (v 0).toNat / 2 ^ 48 ≠ 0 then .fault { code := cPriv }
    else if (v 1).toNat % 8 ≠ 0 && v 0 ≠ 0 then .fault { code := cAlign, addr := (v 1).toNat }
    else
      let k := ctxCore s.cur
      let s := [11, 12, 13, 14].foldl (fun s n =>
        if n = m.toNat then s else let sl := s.slot (16 * k + n); s.setSlot (16 * k + n) { sl with bound := sl.bound &&& ~~~(v 0) }) s
      let c := 16 * k + m.toNat
      .next (s.setSlot c { s.slot c with bound := v 0, bentry := v 1, barg := v 2 })) s

/-- Ready classes of message context `c` (R113). -/
def readyBits (s : State) (c : Nat) : Word := (s.core (ctxCore c)).pending &&& (s.slot c).bound

/-- The ready bits cleared as they are delivered (R113, R114). -/
def clearReady (s : State) (c : Nat) : State :=
  let k := s.core (ctxCore c)
  s.setCore (ctxCore c) { k with pending := k.pending &&& ~~~(s.slot c).bound }

/-- MESSAGE_CONTEXT_START (R113). -/
def execMessageContextStart (ctx : Nat) (s : State) : Ans :=
  let sl := s.slot ctx
  let r := readyBits s ctx
  if slotRole (ctxSlot ctx) ≠ 2 || !slotFree s ctx || sl.bound = 0 || r = 0 then .next s
  else
    .next (startCtx (clearReady s ctx) ctx
      (freshCtx sl.bentry r sl.barg (BitVec.ofNat 64 (ctxSlot ctx - 11)) false false .none))

/-- SLEEP (R120): the instruction has performed when the context sleeps; x[D] is written when it resumes. -/
def execSleep (h : Hdr) (d a : Reg) (s : State) : Ans :=
  issue { h := h, srcs := [a], dst := some d } (fun s v =>
    let due := (s.cluster (ctxCl s.cur)).tcyc + min (v 0).toNat (2 ^ 40 - 1)
    .next (s.setMe { s.me with st := .sleeping due d })) s

/-- Does a sleeping context resume now (R120)? -/
def sleepOver (s : State) (c : Nat) : Bool :=
  match (s.ctx c).st with
  | .sleeping due _ =>
    let k := s.core (ctxCore c)
    due ≤ (s.cluster (ctxCl c)).tcyc || (slotRole (ctxSlot c) = 2 && readyBits s c != 0) ||
      (ctxSlot c = 0 && !k.upcalls.isEmpty) || (ctxSlot c = 15 && k.mbox.any fun m => !m.taken)
  | _ => false

/-- SLEEP_EXPIRY (R120): the context resumes; a message context takes its ready classes. A write to x61 waits while the queue cannot take
it, and of a broken channel faults at the SLEEP (R310). -/
def execSleepExpiry (ctx : Nat) (s : State) : Ans :=
  match (s.ctx ctx).st with
  | .sleeping _ d =>
    if !sleepOver s ctx || pushNow s ctx [d.toNat] = .wait then .next s
    else if pushNow s ctx [d.toNat] = .broken then
      .next { takeFault ({ s with cur := ctx }.setMe { s.ctx ctx with st := .live }) { code := cChanBroken, pc := some ((s.ctx ctx).pc.toNat - 8) } with
              cur := s.cur }
    else
      let cur := s.cur
      let s := { s with cur := ctx }
      let r := if slotRole (ctxSlot ctx) = 2 then readyBits s ctx else 0
      let s := if slotRole (ctxSlot ctx) = 2 then clearReady s ctx else s
      .next { putReg (s.setMe { s.me with st := .live }) d r with cur := cur }
  | _ => .next s

/-- GETID (R121). -/
def getidVal (s : State) (k : Nat) : Nat :=
  let x := s.me
  match k with
  | 0 => s.cur
  | 1 => match x.unit with
    | .group h _ _ | .task h => h
    | .none => 0
  | 2 => match x.unit with
    | .group _ g _ => g
    | _ => 0
  | 3 => x.x3s.toNat
  | 4 => match x.unit with
    | .group _ _ w => w
    | _ => 0
  | 5 => fabDev
  | 6 => 2 * ctxCl s.cur
  | _ => x.sys.toNat + 2 * slotRole (ctxSlot s.cur)

def execGetid (h : Hdr) (d : Reg) (k : BitVec 3) (s : State) : Ans :=
  issue { h := h, dst := some d } (fun s _ => .next (putReg s d (BitVec.ofNat 64 (getidVal s k.toNat)))) s

/-! ### Answers to parked contexts -/

/-- An answer arrives for a context parked under `tag`: it writes the registers and the predicate, or raises `f`, and the context
returns to the wheel. One for x61 waits while the queue cannot take it (R310). -/
def answer (s : State) (c tag : Nat) (f : Option Flt) : State :=
  match s.findOutst c tag with
  | some (.run, o) =>
    if (s.ctx c).st = .parked (.reply tag) then
      let cur := s.cur
      let push := pushNow s c (o.writes.map (·.1))
      let wait := s.after 0 (.schedulerAnswer c tag)
      let s := { s with cur := c }
      let s := dropOutst (s.setMe { s.me with st := .live }) c .run o
      match f, push with
      | some f, _ => { takeFault s f with cur := cur }
      | none, .wait => wait
      | none, .broken => { takeFault s { code := cChanBroken } with cur := cur }
      | none, .go =>
        let s := logItem (putRegs s o.writes) c 1 (o.addr % 2 ^ 48)
          (o.writes.map (·.2.toNat) ++ (o.pred.map fun p => p.2.toNat).toList)
        let s := match o.pred with
          | some (p, b) => putPred s p b
          | none => s
        { retire s (s.me.pc + 8) with cur := cur }
    else s
  | _ => s

/-- The context parks until an answer that will write `writes` and `pred`; `ev` is the answer's step, `die` the die that
serves it. -/
def parkAnswer (s : State) (srcs : List Reg) (addr die : Nat) (writes : List (Nat × Word)) (pred : Option (Pred × Bool))
    (ev : Nat → Nat → Instr) : Res :=
  let tg := s.tag
  let s := (tg.2.countSent s.cur).later (ev s.cur tg.1)
  parkReply s srcs { outstOf s tg.1 none false addr with writes := writes, pred := pred, die := some die }

end Sys2Proof.Machine
end

