-- ==== Sys2Proof/Machine/Copy.lean ====
section
/-! DEFINITION. The copy unit: copy command blocks (R170 to R172), streams (R179 to R181), dependence tokens at TKWAIT and TKTEST
(R182 to R184), and the steps of the unit itself. -/

namespace Sys2Proof.Machine

/-- The block a command names, or none where R171 refuses it; `dir`: 0 block copy, 1 in-stream, 2 out-stream. -/
def copyBlock (ws : List Nat) (dir : Nat) : Option CopyBlk :=
  let g (i : Nat) : Nat := (ws[i]?).getD 0
  let sh := g 2
  let sf := bits sh 49 3
  let df := bits sh 52 3
  let b : CopyBlk := ⟨g 0, g 1, sf, df, bits sh 24 24, bits sh 0 24, g 3, g 4, g 5⟩
  let size (f : Nat) : Nat := if f = 1 || f = 2 then 2 else if f = 6 then 4 else 1
  if bits sh 55 9 ≠ 0 || bit sh 48 || sf = 7 || df = 7 || (sf = 0) != (df = 0) || b.nrows = 0 || b.rlen = 0 || b.nrows ≤ b.prog ||
      (dir = 0 && (b.src = 0 || b.dst = 0)) ||
      ((sf = 3 || df = 3) && b.rlen % 16 ≠ 0) || ((sf = 5 || df = 5) && b.rlen % 2 ≠ 0) ||
      b.src % size sf ≠ 0 || b.sstr % size sf ≠ 0 || b.dst % size df ≠ 0 || b.dstr % size df ≠ 0 then none
  else some b

/-- The further checks of SBIND (R179). -/
def streamBlock (ws : List Nat) (out : Bool) (esz : Nat) (sx : Bool) : Option CopyBlk :=
  match copyBlock ws (if out then 2 else 1) with
  | none => none
  | some b =>
    let reg := if out then b.sfmt else b.dfmt
    if (if out then b.src else b.dst) ≠ 0 || (reg ≠ 0 && reg ≠ 6) || (reg = 6 && (esz ≠ 4 || sx)) || (out && sx) ||
        (reg = 0 && (b.rlen % esz ≠ 0 || b.src % esz ≠ 0 || b.dst % esz ≠ 0 || b.sstr % esz ≠ 0 || b.dstr % esz ≠ 0)) then none
    else some b

/-- Is one of the tokens ill-formed (R173)? -/
def badTokens (s : State) (ts : List Nat) : Bool := ts.any fun t => tokRef s (ctxCl s.cur) t = .invalid

/-- The tokens of the fields T1 to T3, which follow the operand A. -/
def consumed (v : Nat → Word) : List Nat := [(v 1).toNat, (v 2).toNat, (v 3).toNat]

/-- The part of an engine command behind its checks: one token of engine `eng` allocated, or the context held (R175). -/
def withToken (s : State) (eng : Nat) (d : Reg) (k : State → Nat → State) : Res :=
  match tokAlloc s (ctxCl s.cur) eng with
  | none => .hold
  | some (i, t, s) => .next (putReg (k s i) d (BitVec.ofNat 64 t))

/-- COPY (R178). -/
def execCopy (h : Hdr) (d a t1 t2 t3 : Reg) (s : State) : Ans :=
  issue { h := h, srcs := [a, t1, t2, t3], dst := some d, mem := true } (fun s v =>
    let va := (v 0).toNat
    (readWords s va 6).bind fun ws s =>
      match copyBlock ws 0 with
      | none => .fault { code := cIllegalEnc, addr := va }
      | some b =>
        if badTokens s (consumed v) then .fault { code := cTokenInvalid }
        else if 64 ≤ (s.cluster (ctxCl s.cur)).copyQ.length then .hold
        else withToken s 1 d fun s i =>
          let c := s.cluster (ctxCl s.cur)
          s.setCluster (ctxCl s.cur) { c with copyQ := c.copyQ ++
            [⟨b, va, i, consumed v, ctxCore s.cur, s.me.sys, false, false, none, none⟩] }) s

/-- SBIND (R179); a fibre may not execute it (R347). -/
def sbind (h : Hdr) (out : Bool) (k esz : BitVec 2) (sx : Bool) (d a t1 t2 t3 : Reg) (s : State) : Ans :=
  issue { h := h, srcs := [a, t1, t2, t3], dst := some d, mem := true } (fun s v =>
    let va := (v 0).toNat
    let e := 2 ^ esz.toNat
    if (s.slot s.cur).fibre || (tget s.me.streams k.toNat).isSome then .fault { code := cIllegalEnc }
    else (readWords s va 6).bind fun ws s =>
      match streamBlock ws out e sx with
      | none => .fault { code := cIllegalEnc, addr := va }
      | some b =>
        if badTokens s (consumed v) then .fault { code := cTokenInvalid }
        else withToken s 1 d fun s i =>
          let x := s.me
          let g := ((s.cluster (ctxCl s.cur)).tok 1 i).gen
          let t : Stream := ⟨out, e, sx, b, i, g, consumed v, x.sys, [], 0, 0, none, false⟩
          s.setMe { x with streams := tput x.streams k.toNat t }) s

def execSbindIn (h : Hdr) (k esz : BitVec 2) (sx : Bool) (d a t1 t2 t3 : Reg) (s : State) : Ans :=
  sbind h false k esz sx d a t1 t2 t3 s
def execSbindOut (h : Hdr) (k esz : BitVec 2) (sx : Bool) (d a t1 t2 t3 : Reg) (s : State) : Ans :=
  sbind h true k esz sx d a t1 t2 t3 s

/-- SCLOSE (R181). A restartable fault of a stream that still has elements to write is delivered at it, as at an access to its register
(R180), and the stream goes on when the instruction issues again. -/
def execSclose (h : Hdr) (k : BitVec 2) (d : Reg) (s : State) : Ans :=
  issue { h := h, dst := some d, mem := true } (fun s _ =>
    let r := BitVec.ofNat 6 (56 + k.toNat)
    let s := streamResume s r
    match tget s.me.streams k.toNat with
    | none => .fault { code := cIllegalEnc }
    | some t =>
      if streamBusy s (ctxCl s.cur) t then
        match t.fault with
        | some f => .stay (takeFault (streamTold f s r) f)
        | none => .stay s
      else
        let s := closeOne s s.cur t
        let s := s.setMe { s.me with streams := tdel s.me.streams k.toNat }
        .next (putReg s d (BitVec.ofNat 64 (if t.out then t.moved else t.taken)))) s

/-! ### TKWAIT and TKTEST -/

/-- Status word of TKWAIT (R182). -/
def tkStatus (st code count : Nat) : Word := BitVec.ofNat 64 (st + code % 256 * 2 ^ 16 + count % 2 ^ 32 * 2 ^ 32)

/-- A stream of a context of cluster `cl` under token entry `idx` goes on (R182). -/
def resumeStreams (s : State) (cl idx : Nat) : State :=
  let go (q : Nat × Stream) : Nat × Stream :=
    (q.1, if q.2.tok = idx && tokIs s cl 1 idx q.2.gen && q.2.fault.isSome then { q.2 with fault := none, told := false } else q.2)
  { s with slots := s.slots.map fun (c, sl) =>
      if ctxCl c = cl then
        (c, { sl with ctx := { sl.ctx with streams := sl.ctx.streams.map go },
                      park := sl.park.map fun x => { x with streams := x.streams.map go }, closing := sl.closing.map go })
      else (c, sl) }

/-- A command whose restartable fault has been delivered is queued again from its recorded progress, under the same token
(R182, R183, R264). -/
def requeue (s : State) (cl eng idx : Nat) : State :=
  let s := tokUpd s cl eng idx fun t => { t with st := .pending, code := 0, flt := none, delivered := false, dctx := none }
  let c := s.cluster cl
  if eng = 1 then
    match c.copyHeld.find? (·.tok == idx) with
    | some q => s.setCluster cl { c with copyHeld := c.copyHeld.filter (·.tok != idx),
                                         copyQ := c.copyQ ++ [{ q with running := false, rowsOver := false, fault := none }] }
    | none => resumeStreams s cl idx
  else
    match c.lanHeld.find? (·.tok == idx) with
    | some q => s.setCluster cl { c with lanHeld := c.lanHeld.filter (·.tok != idx), lanQ := c.lanQ ++ [q] }
    | none => s

/-- The status of a completed token written to `d`, an item that enters the core (R345). -/
def tkReturn (s : State) (d : Reg) (w : Word) : Res := .next (putReg (logItem s s.cur 6 0 [w.toNat]) d w)

/-- TKWAIT of a token in a replay (R346): its completion comes from the log. -/
def tkReplay (s : State) (d : Reg) : Res :=
  match replayItem s s.cur 6 none with
  | none => .stay (replayHalt s (ctxCore s.cur))
  | some (p, e) =>
    if e.cyc ≤ logCycle s (ctxCore s.cur) then .next (putReg (replayTake s s.cur p) d (BitVec.ofNat 64 (logValue e.data))) else .park s

/-- TKWAIT (R182). -/
def execTkwait (h : Hdr) (d a : Reg) (s : State) : Ans :=
  issue { h := h, srcs := [a], dst := some d, mem := true } (fun s v =>
    let cl := ctxCl s.cur
    match tokRef s cl (v 0).toNat with
    | .none => .next (putReg s d 0)
    | .invalid => .fault { code := cTokenInvalid }
    | .stale => if s.myCore.replaying then tkReplay s d else tkReturn s d (tkStatus 3 0 0)
    | .entry eng i t =>
      if s.myCore.replaying then tkReplay s d else
      match t.st with
      | .pending | .free => .park s
      | .done => tkReturn s d (tkStatus 1 0 t.count)
      | .failed => tkReturn s d (tkStatus 2 t.code t.count)
      | .faulted =>
        if !t.delivered then
          .stay (takeFault (tokUpd s cl eng i fun t => { t with delivered := true, dctx := some s.cur }) (t.flt.getD { code := t.code }))
        else if restartable t.code then
          .park (if t.dctx = some s.cur || s.me.sys then requeue s cl eng i else s)
        else tkReturn s d (tkStatus 2 t.code t.count)) s

/-- Is the token complete for TKTEST (R184)? -/
def tokComplete (r : TokRef) : Bool :=
  match r with
  | .entry _ _ t => t.st == .done || t.st == .failed || (t.st == .faulted && !restartable t.code)
  | _ => true

/-- TKTEST's answer about a token that is named; a replay takes the completion from the log (R346). One that the log says has not come by
then is not complete; past the end of the log the core halts. -/
def tktestSays (s : State) (r : TokRef) : Option (Bool × State) :=
  match r with
  | .none => some (true, s)
  | r =>
    if s.myCore.replaying then
      match replayItem s s.cur 6 none with
      | some (p, e) => if e.cyc ≤ logCycle s (ctxCore s.cur) then some (true, replayTake s s.cur p) else some (false, s)
      | none => if logOver s (ctxCore s.cur) then none else some (false, s)
    else if tokComplete r then some (true, logItem s s.cur 6 0 [1])
    else some (false, s)

/-- TKTEST (R184): a completion it sees is an item that enters the core (R345). -/
def execTktest (h : Hdr) (pt pf : Pred) (a : Reg) (cm : Bool) (s : State) : Ans :=
  issue { h := h, srcs := [a], clear := if cm then some (pt, pf) else none, mem := true } (fun s v =>
    match tokRef s (ctxCl s.cur) (v 0).toNat with
    | .invalid => .fault { code := cTokenInvalid }
    | r =>
      match tktestSays s r with
      | some (b, s) => .next (putPred (putPred s pt b) pf (!b))
      | none => .stay (replayHalt s (ctxCore s.cur))) s

/-! ### The steps of the copy unit -/

/-- Command `q` of cluster `cl` has come to row `i`, with `part` of it moved, and stopped there as `e` says. -/
def copyAt (s : State) (cl : Nat) (q : CopyCmd) (i : Nat) (part : Option RowPart) (e : RowsEnd) : State :=
  let q' := { q with blk := { q.blk with prog := i }, running := true, part := part,
                     rowsOver := e != .wait && (e != .all || i == q.blk.nrows),
                     fault := match e with
                       | .flt f => some { f with prog := i }
                       | _ => none }
  let c := s.cluster cl
  s.setCluster cl { c with copyQ := c.copyQ.map fun o => if o.tok = q.tok then q' else o }

/-- What a step on a part of row PROG comes to: the row goes on, is done, waits, or faults. -/
def copyPart (s : State) (cl : Nat) (q : CopyCmd) (p : RowPart) (e : Option RowsEnd) : State :=
  match e with
  | none => copyAt s cl q q.blk.prog (some p) .wait
  | some .wait => copyAt s cl q q.blk.prog (some p) .wait
  | some .all => copyAt s cl q (q.blk.prog + 1) none .all
  | some (.flt f) => copyAt s cl q q.blk.prog none (.flt f)

/-- Rows of the running command `q` of cluster `cl` copied: one or more of those left, a free number in one step, or one word of the next row
in a free order, so that another agent may see any part of a row done (R295); as far as they can be (R172, R183). -/
def copyProceed (s : State) (cl : Nat) (q : CopyCmd) : State :=
  let w := copyWho q.core q.sys q.tok
  let words (s : State) (p : RowPart) : State := let r := rowWord s w q.blk p; copyPart r.1 cl q r.2.1 r.2.2
  match q.part with
  | some p => words s p
  | none =>
    let c := s.choose 2
    if c.1 = 1 then words c.2 (.reading [])
    else
      let n := c.2.choose (q.blk.nrows - q.blk.prog)
      let r := copyRows w q.blk (n.1 + 1) n.2 q.blk.prog
      copyAt r.1 cl q r.2.1 none r.2.2

/-- The copy unit of cluster `cl` comes to a stop between rows (R344, R351): a row being written is finished, as far as it can be; one being
read has done nothing yet. -/
def copySettle (s : State) (cl : Nat) : State :=
  match (s.cluster cl).copyQ.find? (·.part.isSome) with
  | none => s
  | some q =>
    match q.part with
    | some (.writing l) =>
      let r := rowFinish (copyWho q.core q.sys q.tok) l s
      copyPart r.1 cl q (.writing r.2.1) (some r.2.2)
    | _ => copyAt s cl q q.blk.prog none .wait

/-- Does a change of local-store split hold the command's core (R153)? -/
def CopyCmd.held (s : State) (q : CopyCmd) : Bool := (s.core q.core).lsChange.isSome

/-- COPY_COMMAND_START (R172, R174): the first queued command, in order of acceptance, whose consumed tokens are complete runs, or
fails; a command that waited for a translation goes on. -/
def execCopyCommandStart (cl : Nat) (s : State) : Ans :=
  let c := s.cluster cl
  match c.copyQ.find? (·.running) with
  | some q => .next (if q.rowsOver || q.held s then s else copyProceed s cl q)
  | none =>
    match c.copyQ.find? fun q => !q.held s && deps s cl q.deps != .wait with
    | none => .next s
    | some q =>
      match deps s cl q.deps with
      | .bad code => .next (tokFail (s.setCluster cl { c with copyQ := c.copyQ.filter (·.tok != q.tok) }) cl 1 q.tok code)
      | _ => .next (copyProceed s cl q)

/-- The end of a copy command: its token, and what is kept of it for a requeue (R174, R182, R183); what it asked of the walker is stale
(R193). -/
def copyFinish (s : State) (cl : Nat) (q : CopyCmd) (f : Option Flt) : State :=
  let s := dropEngine s q.core (1 + 8 * q.tok)
  let c := s.cluster cl
  let c := { c with copyQ := c.copyQ.filter (·.tok != q.tok) }
  match f with
  | none => tokDone (s.setCluster cl c) cl 1 q.tok q.blk.prog
  | some f =>
    let c := if restartable f.code then { c with copyHeld := c.copyHeld ++ [q] } else c
    tokFault (s.setCluster cl c) cl 1 q.tok f q.blk.prog

/-- COPY_COMMAND_END (R178): PROG is written back to the block, and the command ends DONE or FAULTED. -/
def execCopyCommandEnd (cl : Nat) (s : State) : Ans :=
  match (s.cluster cl).copyQ.find? fun q => q.running && q.rowsOver with
  | none => .next s
  | some q =>
    let w := copyWho q.core q.sys q.tok
    let va := (q.blkAddr + 0x28) % 2 ^ 64
    match engWrite s w va (leBytes 8 q.blk.prog) with
    | .ok _ s => .next (copyFinish s cl q q.fault)
    | .miss a k s => .next (postMiss s w a k)
    | .flt g s =>
      .next (copyFinish (clearAnswers s w g.addr) cl q (some (q.fault.getD { g with prog := q.blk.prog })))

/-- Can the copy unit move elements of this stream now (R179)? -/
def Stream.movable (t : Stream) : Bool :=
  t.fault.isNone && (if t.out then !t.fifo.isEmpty else t.fifo.length < 16 && t.moved != t.total)

/-- A stream by context and number: bound to a register of the context, or (from 4 on) left by a context that has ended. -/
def streamOf (s : State) (c k : Nat) : Option Stream := if k < 4 then tget (s.ctx c).streams k else tget (s.slot c).closing k
def putStream (s : State) (c k : Nat) (t : Stream) : State :=
  if k < 4 then let x := s.ctx c; s.setCtx c { x with streams := tput x.streams k t }
  else let sl := s.slot c; s.setSlot c { sl with closing := tput sl.closing k t }

/-- Does a change of local-store split (R153) or a park record hold the stream? A stream of an ended context goes on. -/
def streamHeld (s : State) (c k : Nat) : Bool :=
  (s.core (ctxCore c)).lsChange.isSome || (k < 4 && (s.ctx c).st == .parked .record)

/-- A stream left by an ended context is gone once its FIFO is written or its command has failed: then its token completes (R180, R181). -/
def sweepStream (s : State) (c k : Nat) : State :=
  match streamOf s c k with
  | none => s
  | some t =>
    if k < 4 || streamBusy s (ctxCl c) t then s
    else let s := closeOne s c t; s.setSlot c { s.slot c with closing := tdel (s.slot c).closing k }

/-- Is the stream to be looked at: it can move elements, or its consumed tokens let it fail (R174)? -/
def streamDue (s : State) (cl : Nat) (t : Stream) : Bool :=
  tokIs s cl 1 t.tok t.gen && ((s.cluster cl).tok 1 t.tok).st == .pending &&
    (match deps s cl t.deps with
      | .wait => false
      | .bad _ => true
      | .ok => t.movable)

/-- STREAM_FILL (R179): elements move between memory and the FIFO, in row and element order, a free number in one step (R295). A stream whose
consumed token has failed fails, whatever its FIFO holds (R174). -/
def execStreamFill (ctx k : Nat) (s : State) : Ans :=
  let cl := ctxCl ctx
  match streamOf s ctx k with
  | none => .next s
  | some t =>
    if !streamDue s cl t || streamHeld s ctx k then .next s
    else
      match deps s cl t.deps with
      | .wait => .next s
      | .bad code => .next (sweepStream (tokFail s cl 1 t.tok code) ctx k)
      | .ok =>
        let w := copyWho (ctxCore ctx) t.sys t.tok
        let n := s.choose 16
        let r := if t.out then streamDrain w (n.1 + 1) n.2 t else streamLoad w (n.1 + 1) n.2 t
        let t := { r.2.1 with deps := [] }
        let r := if t.moved = t.total then (dropEngine r.1 w.core w.agent, r.2) else r
        match r.2.2 with
        | .wait => .next (putStream r.1 ctx k t)
        | .flt f =>
          let f := { f with prog := t.blk.prog + t.moved / t.perRow }
          .next (sweepStream (tokFault (putStream r.1 ctx k { t with fault := some f }) cl 1 t.tok f (if t.out then t.moved else t.taken)) ctx k)
        | .all =>
          let s := putStream r.1 ctx k t
          .next (sweepStream (if t.out && t.moved == t.total then tokDone s cl 1 t.tok t.moved else s) ctx k)

end Sys2Proof.Machine
end

