-- ==== Sys2Proof/Machine/FullEmpty.lean ====
section
/-! DEFINITION. Full/empty words (R296 to R301): the wait lists, their service, the five instructions, and the time limit. -/

namespace Sys2Proof.Machine

def State.fe (s : State) (w : Nat) : FeLists := (tget s.feWait w).getD {}
def State.setFe (s : State) (w : Nat) (l : FeLists) : State :=
  { s with feWait := if l.fl = [] && l.el = [] then tdel s.feWait w else tput s.feWait w l }

/-- A waiter is served (R298): the reply writes x[D] of LDFE and LDFF, and the context returns to the wheel behind its instruction. -/
def feReply (s : State) (q : FeWaiter) (v : Word) : State :=
  match q.ctx with
  | some c =>
    let cur := s.cur
    let s := { s with cur := c }
    let o := { outstOf s q.tag none true q.va with writes := if q.op = 2 then [] else [(q.d.toNat, v)] }
    let s := s.setMe { s.me with st := .parked (.reply q.tag), outst := s.me.outst ++ [o] }
    { endReply s c o (.ok o.writes) with cur := cur }
  | none =>
    match q.remote with
    | some (dev, rid) => sendReply s dev rid 0 (if q.op = 2 then 0 else v.toNat) 0
    | none => s

/-- A waiter leaves its list with a fault: of its limit (R299), or of uncorrectable data (R160 step 8), which through the export table is a
refusal of this module (R322, R323). -/
def feFault (s : State) (q : FeWaiter) (code : Nat) : State :=
  match q.ctx, q.remote with
  | some c, _ =>
    let cur := s.cur
    let s := { s with cur := c }
    let o := outstOf s q.tag none true q.va
    let s := s.setMe { s.me with st := .live }
    let s := if code = cEcc && 2 ^ 56 ≤ q.va then s.refused 8 else s
    let s := if o.leaves then logAck s c o code else s
    { takeFault s { code := code, addr := q.va } with cur := cur }
  | none, some (dev, rid) => if code = cEcc then sendReply (s.refused 8) dev rid code 0 8 else sendReply s dev rid code 0 0
  | none, none => s

/-- The serving loop of a word (R297), for at most `n` services; data that a waiter would take and that is uncorrectable is a fault of that
waiter, and the word stays as it is. -/
def feServeN : Nat → State → Nat → State
  | 0, s, _ => s
  | n + 1, s, w =>
    let l := s.fe w
    if s.isFull w then
      match l.fl with
      | [] => s
      | q :: r =>
        if s.eccAt w 8 then feServeN n (feFault (s.setFe w { l with fl := r }) q cEcc) w
        else
          let s := feReply (s.setFe w { l with fl := r }) q (BitVec.ofNat 64 (memRead s.mem w 8))
          feServeN n (if q.op = 0 then s.setFull w false else s) w
    else
      match l.el with
      | [] => s
      | q :: r =>
        let s := (s.setFe w { l with el := r }).setMem (memWrite s.mem w 8 q.data.toNat)
        feServeN n (feReply (s.setFull w true) q 0) w

/-- The lists of a word served (R297). -/
def feServe (s : State) (w : Nat) : State := feServeN ((s.fe w).fl.length + (s.fe w).el.length) s w

/-- A waiter joins the tail of its list, and the word is served (R297). -/
def feJoin (s : State) (w : Nat) (q : FeWaiter) : State :=
  let l := s.fe w
  feServe (s.setFe w (if q.op = 2 then { l with el := l.el ++ [q] } else { l with fl := l.fl ++ [q] })) w

/-- STFF and FEZERO: the word changes at once, and is served (R297, R301). -/
def feChange (s : State) (w v : Nat) (full : Bool) : State :=
  feServe ((s.setMem (memWrite s.mem w 8 v)).setFull w full) w

/-- The waiters that `p` names removed from their lists. -/
def feDrop (s : State) (p : FeWaiter → Bool) : State :=
  { s with feWait := (s.feWait.map fun (w, l) =>
      (w, { fl := l.fl.filter (!p ·), el := l.el.filter (!p ·) : FeLists })).filter fun (_, l) => !(l.fl.isEmpty && l.el.isEmpty) }

/-- A context's waiter removed from its list, when it is saved or halted (R298). -/
def feRemove (s : State) (c : Nat) : State := feDrop s (·.ctx == some c)

/-- Is the address in a decoding window of a scratchpad (R301)? -/
def feWindow (va : Nat) : Bool :=
  let pg := va / 2 ^ 32
  (pg == 0xFF || (0xC0 ≤ pg && pg ≤ 0xDF)) && (let w := va % 2 ^ 32 / 2 ^ 25; 1 ≤ w && w ≤ 5)

/-- The checks of a full/empty instruction (R160, R301). -/
def feResolve (s : State) (va : Nat) (k : AKind) : Xl × State :=
  if feWindow va then (.flt cAlign, s)
  else
    match resolveCtx s va 8 false k with
    | (.ok (.phys a), s) => if 2 ^ 39 ≤ a then (.flt cProt, s) else (.ok (.phys a), s)
    | r => r

def feOp (op : Nat) : ROp := if op = 1 then .feRead else .feChange

/-- The package cycles that pass while the swarm island of a cluster advances by at most 15 (R3, R125), at its step. -/
def nearSpan (k : Cluster) : Nat := (303 - k.sacc) / k.sstep

/-- The last cycle of a wait at a place (R299), counted from the cycle in which the access joins the list: within 15 island cycles of the
issue at the own cluster (R3, R125), any later one elsewhere. -/
def feDue (s : State) (l : Loc) : Option Nat × State :=
  let lim := s.myCore.feLimit
  if lim = 0 then (none, s)
  else
    let j := if pathOf (ctxCore s.cur) l == .near then chooseIn s s.cur 128 (nearSpan (s.cluster (ctxCl s.cur)) + 1) else s.free
    (some (s.now + j.1 + lim), j.2)

/-- LDFE, LDFF and STEF (R301): the context parks on the word's list, and may be served at once. STEF is a release at the home scope, which
is system for a global address (R283). `op`: 0 LDFE, 1 LDFF, 2 STEF. -/
def feWaitInstr (s : State) (srcs : List Reg) (va : Nat) (k : AKind) (op : Nat) (d : Reg) (data : Word) : Res :=
  match feResolve s va k with
  | (.miss kind, s) => .miss s va kind
  | (.flt c, s) => .faultAt s { code := c, addr := va }
  | (.ok l, s) =>
    let tg := s.tag
    let s := match l with
      | .ls _ _ => tg.2
      | _ => tg.2.countSent s.cur
    let o := { outstOf s tg.1 none true va with writes := if op = 2 then [] else [(d.toNat, 0)] }
    let join (s : State) (l : Loc) : Res :=
      let due := feDue s l
      let s := commitSrcs due.2 srcs
      let s := s.setMe { s.me with st := .parked (.fe tg.1) }
      .stay (feJoin s l.num ⟨tg.1, op, data, d, va, some s.cur, none, due.1⟩)
    let away := match l with
      | .ls _ _ => false
      | _ => true
    if away && s.myCore.replaying then
      replayAccess s {} srcs d true (fun v => if op = 2 then [] else [(d.toNat, BitVec.ofNat 64 v)]) o
    else
    match l with
    | .glob dev off =>
      let lim := s.myCore.feLimit
      let o := { o with fe := some (dev, off) }
      if op = 2 && s.me.posts then .hold
      else if dev = fabDev then
        match ownRequest s off 8 false (feOp op) with
        | (.error c, s) => parkReply (s.later (.remoteReply s.cur tg.1 c 0 clearAuth)) srcs o
        | (.ok l, s) => join s l
      else
        match sendGlobal s dev off tg.1 { op := 4 + op, size := 8, v1 := data.toNat, limit := lim } with
        | none => .fault { code := cConfAuth, addr := va }
        | some s => parkReply s srcs o
    | l => join s l

/-- STFF and FEZERO (R300, R301): posted off the die as ST. -/
def feStoreInstr (s : State) (h : Hdr) (va v : Nat) (full : Bool) : Res :=
  if feWindow va then .fault { code := cAlign, addr := va }
  else
    match feResolve s va .write with
    | (.miss kind, s) => .miss s va kind
    | (.flt c, s) => .faultAt s { code := c, addr := va }
    | (.ok l, t) =>
      let glob := match l with
        | .glob _ _ => true
        | _ => false
      storeAccess (s.draws t) h va 8 { relSys := full && glob } .write .feChange (fun s l => feChange s l.num v full)
        { op := if full then 7 else 8, size := 8, v1 := v }

/-- LDFE (R301): waits for the word to be full, takes its value and leaves it empty. -/
def execLdfe (h : Hdr) (d : Reg) (m : MAddr) (s : State) : Ans :=
  issue { h := h, srcs := [m.a, m.b], dst := some d, mem := true } (fun s v =>
    feWaitInstr s [m.a, m.b] (effAddr m 8 (v 0) (v 1)) .amo 0 d 0) s

/-- LDFF (R301): waits for the word to be full and leaves it full. -/
def execLdff (h : Hdr) (d : Reg) (m : MAddr) (s : State) : Ans :=
  issue { h := h, srcs := [m.a, m.b], dst := some d, mem := true } (fun s v =>
    feWaitInstr s [m.a, m.b] (effAddr m 8 (v 0) (v 1)) .read 1 d 0) s

/-- STEF (R301): waits for the word to be empty, writes it and leaves it full. -/
def execStef (h : Hdr) (d : Reg) (m : MAddr) (s : State) : Ans :=
  issue { h := h, srcs := [m.a, m.b, d], mem := true } (fun s v =>
    feWaitInstr s [m.a, m.b, d] (effAddr m 8 (v 0) (v 1)) .write 2 d (v 2)) s

/-- STFF (R301): writes the word and leaves it full, at once. -/
def execStff (h : Hdr) (d : Reg) (m : MAddr) (s : State) : Ans :=
  issue { h := h, srcs := [m.a, m.b, d], mem := true } (fun s v =>
    feStoreInstr s h (effAddr m 8 (v 0) (v 1)) (v 2).toNat true) s

/-- FEZERO (R301): writes 0 and leaves the word empty, at once. -/
def execFezero (h : Hdr) (m : MAddr) (s : State) : Ans :=
  issue { h := h, srcs := [m.a, m.b], mem := true } (fun s v => feStoreInstr s h (effAddr m 8 (v 0) (v 1)) 0 false) s

/-- The service of a word as a step of its own (R297). -/
def execFeServe (w : Nat) (s : State) : Ans := .next (feServe s w)

/-- A waiter whose limit is up leaves its list and raises FE_TIMEOUT (R299); one of another module is told so. -/
def execFeTimeout (w tag : Nat) (s : State) : Ans :=
  let l := s.fe w
  match (l.fl ++ l.el).find? (·.tag == tag) with
  | none => .next s
  | some q =>
    match q.due with
    | none => .next s
    | some t =>
      if s.now < t then .next s
      else
        .next (feFault (s.setFe w { fl := l.fl.filter (·.tag != tag), el := l.el.filter (·.tag != tag) }) q cFeTimeout)

end Sys2Proof.Machine
end

