-- ==== Sys2Proof/Machine/Fabric.lean ====
section
/-! DEFINITION. The fabric and the host: requests of other modules (R320 to R323, R328, R329), key slots (R327), and the host's
doorbell and windows (R330 to R332). -/

namespace Sys2Proof.Machine

/-! ### Requests (R322) -/

def reqOp (op : Nat) : ROp :=
  if op = 0 then .read else if op = 1 then .write else if op = 2 || op = 3 then .amo else if op = 5 then .feRead else .feChange

/-- How a request says it is authentic (R328). -/
def reqAuth (r : RemoteReq) : PktAuth := ⟨r.enc, r.epoch, r.ctr, r.tagOk⟩

/-- The checks of a request in the order of R322: a place, or the reason and the code. -/
def reqCheck (s : State) (r : RemoteReq) : Except (Nat × Nat) Loc :=
  let ok := authentic s r.src (reqAuth r)
  match exportResolve s r.off r.size r.x (reqOp r.op) (!r.enc && r.src != fabDev) with
  | .error (8, c) => if ok then .error (8, c) else .error (7, cConfAuth)
  | .error e => .error e
  | .ok l =>
    if !ok then .error (7, cConfAuth)
    else if r.ecc && (r.op ≤ 5 && r.op != 1) then .error (8, cEcc)
    else .ok l

/-- A request performed at its place, and its reply (R322, R163); a full/empty access joins the word's list and is answered when it
is served. -/
def reqPerform (s : State) (r : RemoteReq) (l : Loc) : State :=
  let reply (s : State) (v : Nat) : State := sendReply s r.src r.rid 0 v 0
  let w := 8 * r.size
  if r.op = 0 then reply s (loadLoc s l r.size)
  else if r.op = 1 then reply (storeLoc s l r.size (r.v1 % 2 ^ w)) 0
  else if r.op = 2 then
    let m := loadLoc s l r.size
    reply (storeLoc s l r.size (amoNew r.kind w m r.v1)) m
  else if r.op = 3 then
    let m := loadLoc s l r.size
    reply (if m = r.v1 % 2 ^ w then storeLoc s l r.size (r.v2 % 2 ^ w) else s) m
  else if r.op ≤ 6 then
    let tg := s.tag
    feJoin tg.2 l.num ⟨tg.1, r.op - 4, BitVec.ofNat 64 r.v1, 0, 0, none, some (r.src, r.rid), if r.limit = 0 then none else some (s.now + r.limit)⟩
  else if r.op = 7 then reply (feChange s l.num r.v1 true) 0
  else reply (feChange s l.num 0 false) 0

/-- REMOTE_REQUEST (R322); while no Kevel port is ready none arrives (R362, R364). Operation 9 is no access: the waiter of that request
leaves its list, because its context is saved or halted (R298). -/
def execRemoteRequest (r : RemoteReq) (s : State) : Ans :=
  if s.boot.links = 0 then .next s
  else if r.op = 9 then
    .next (if authentic s r.src (reqAuth r) then noteAuth (feDrop s (·.remote == some (r.src, r.rid))) r.src (reqAuth r) else s)
  else
    let s := exportLook s r.off
    match reqCheck s r with
    | .ok l => .next (reqPerform (noteAuth s r.src (reqAuth r)) r l)
    | .error (reason, code) =>
      .next (if reason = 7 then (s.refused 7).emit (.reply r.src r.rid code 0 7 false 0 0)
        else
          let s := s.refused reason
          sendReply (if authentic s r.src (reqAuth r) then noteAuth s r.src (reqAuth r) else s) r.src r.rid code 0 reason)

/-! ### fab.export and fab.kload (R320, R327) -/

/-- A write of fab.export, or none where its LOG2 is above 23: it drops every cached entry. -/
def fabExportSet (s : State) (v : Word) : Option State :=
  if 23 < bits v.toNat 1 5 then none else some { s with fabExport := v &&& 0xFFFFFFFFF03F, exports := [] }

/-- FAB_EXPORT_WRITE (R320). -/
def execFabExportWrite (v : Word) (s : State) : Ans :=
  .next ((fabExportSet s v).getD (takeFault s { code := cIllegalEnc }))

/-- A write of fab.kload: the slot loaded or cleared from the record, or the code of the refusal. -/
def fabKloadSet (s : State) (v : Word) : Except Nat State :=
  let a := v.toNat % 2 ^ 48
  let r := memRead s.mem a 64
  let i := bits r 272 4
  let peer := bits r 256 12
  if v.toNat % 64 ≠ 0 then .error cIllegalEnc
  else if 2 ^ 48 ≤ v.toNat || physReserved a then .error cProt
  else if s.dieGone (homeDie a) then .error cDieLost
  else if bits r 320 192 ≠ 0 || bits r 276 43 ≠ 0 || s.keys.any (fun k => k.1 != i && k.2.v && k.2.peer == peer) then .error cIllegalEnc
  else
    let k : KeySlot := if bit r 319 then { v := true, key := BitVec.ofNat 256 r, epoch := bits r 268 4, peer := peer } else {}
    .ok { s with keys := tput s.keys i k }

/-- FAB_KLOAD (R327). -/
def execFabKload (v : Word) (s : State) : Ans :=
  .next (match fabKloadSet s v with
    | .ok s => s
    | .error c => takeFault s { code := c })

/-! ### The host (R330 to R332) -/

/-- Is the PCIe port enabled (R330, R364)? -/
def pcieOn (s : State) : Bool := Config.strapBridge || s.boot.minimal

/-- The effect of a doorbell while an image runs (R332). -/
def ringDoorbell (s : State) (v : Nat) : State :=
  if 2 ^ 23 ≤ v then s
  else if v % 2 ^ 12 ≠ fabDev then s.emit (.doorbell v)
  else
    let k := bits v 12 3 * 256 + bits v 15 5 * 8 + bits v 20 3
    if s.dieGone (k / 256) then s else classArrival s k 50

/-- HOST_WINDOW_REGISTER_WRITE (R331). -/
def execHostWindowRegisterWrite (n v : Nat) (s : State) : Ans :=
  .next (if !pcieOn s || 64 ≤ n || 2 ^ 56 ≤ v || bits v 1 29 ≠ 0 then s else { s with windows := tput s.windows n v })

/-- A refused host access (R331). -/
def hostRefused (s : State) (a : HostAcc) : State :=
  let s := { s with fabRefc := (s.fabRefc + 1) % 2 ^ 32 }
  if a.write then s else s.emit (.hostReply (2 ^ (8 * a.size) - 1) true)

/-- The places of a host access, one piece for each word touched, or the reason of a refusal: each is checked before any is used. -/
def hostPlaces (s : State) (write : Bool) : List (Nat × Nat) → Except Nat (List Piece) × State
  | [] => (.ok [], s)
  | (o, k) :: t =>
    let s := exportLook s o
    match exportResolve s o k false (if write then .write else .read) false with
    | .error e => (.error e.1, s)
    | .ok l =>
      match hostPlaces s write t with
      | (.error e, s) => (.error e, s)
      | (.ok ls, s) => (.ok (⟨o, l, k⟩ :: ls), s)

/-- HOST_WINDOW_ACCESS (R331, R364): at the own module, or sent on to another, whose answer to a read is a free value, and whose answer to a
write comes later; while no Kevel port is ready one for another module waits at the bridge (R362). -/
def execHostWindowAccess (a : HostAcc) (s : State) : Ans :=
  let w := (tget s.windows (a.off / 2 ^ 30)).getD 0
  let o := a.off % 2 ^ 30
  if !pcieOn s then .next s
  else if s.boot.waiting then
    if a.off / 2 ^ 30 ≠ 0 then .next (hostRefused s a)
    else if a.write then .next (physWrite s o a.size a.val)
    else .next (s.emit (.hostReply (memRead s.mem o a.size) false))
  else if !bit w 0 || 64 ≤ a.off / 2 ^ 30 then .next (hostRefused s a)
  else
    let dev := bits w 44 12
    let off := bits w 30 14 * 2 ^ 30 + o
    if dev = fabDev then
      match hostPlaces s a.write (pieces (a.size + 1) off a.size) with
      | (.error r, s) => .next (hostRefused { s with fabLastr := r } a)
      | (.ok ls, s) =>
        if a.write then
          .next (match scatterBytes s (leBytes a.size a.val) ls with
            | .ok _ t | .flt _ t | .miss _ _ t => t)
        else
          match gatherBytes s ls with
          | .ok bs t => .next (t.emit (.hostReply (leNat bs) false))
          | .flt _ t | .miss _ _ t => .next (hostRefused t a)
    else if s.boot.links = 0 then .next (s.after 0 (.hostWindowAccess a))
    else
      let tg := s.tag
      match sendGlobal tg.2 dev off tg.1 { op := a.write.toNat, size := a.size, v1 := a.val } with
      | none => .next (hostRefused s a)
      | some s =>
        if a.write then .next { s with hostOut := s.hostOut ++ [(tg.1, dev)] }
        else
          match remoteOutcome s dev false with
          | (none, s) => .next (s.free.2.emit (.hostReply (s.free.1 % 2 ^ (8 * a.size)) false))
          | (some _, s) => .next (hostRefused s a)

end Sys2Proof.Machine
end

