-- ==== Sys2Proof/Machine/Float.lean ====
section
/-! DEFINITION. The floating-point instructions (R139 to R142). -/

namespace Sys2Proof.Machine

/-- FADD (R139): rounded once (R50). -/
def execFadd (h : Hdr) (ty : FloatTy) (rm : Rm) (d a b : Reg) (s : State) : Ans :=
  issueAlu h [a, b] d (fun v => BitVec.ofNat 64 (ty.fmt.add rm (v 0).toNat (v 1).toNat)) s

/-- FSUB (R139): rounded once (R50). -/
def execFsub (h : Hdr) (ty : FloatTy) (rm : Rm) (d a b : Reg) (s : State) : Ans :=
  issueAlu h [a, b] d (fun v => BitVec.ofNat 64 (ty.fmt.sub rm (v 0).toNat (v 1).toNat)) s

/-- FMUL (R139): rounded once (R50). -/
def execFmul (h : Hdr) (ty : FloatTy) (rm : Rm) (d a b : Reg) (s : State) : Ans :=
  issueAlu h [a, b] d (fun v => BitVec.ofNat 64 (ty.fmt.mul rm (v 0).toNat (v 1).toNat)) s

/-- FFMA (R139): a * b + c with one rounding. -/
def execFfma (h : Hdr) (ty : FloatTy) (rm : Rm) (d a b c : Reg) (s : State) : Ans :=
  issueAlu h [a, b, c] d (fun v => BitVec.ofNat 64 (ty.fmt.fma rm (v 0).toNat (v 1).toNat (v 2).toNat)) s

/-- FMIN (R140). -/
def execFmin (h : Hdr) (ty : FloatTy) (d a b : Reg) (s : State) : Ans :=
  issueAlu h [a, b] d (fun v => BitVec.ofNat 64 (ty.fmt.minmax false (v 0).toNat (v 1).toNat)) s

/-- FMAX (R140). -/
def execFmax (h : Hdr) (ty : FloatTy) (d a b : Reg) (s : State) : Ans :=
  issueAlu h [a, b] d (fun v => BitVec.ofNat 64 (ty.fmt.minmax true (v 0).toNat (v 1).toNat)) s

/-- FDIV (R139). -/
def execFdiv (h : Hdr) (ty : FloatTy) (rm : Rm) (d a b : Reg) (s : State) : Ans :=
  issueAlu h [a, b] d (fun v => BitVec.ofNat 64 (ty.fmt.div rm (v 0).toNat (v 1).toNat)) s

/-- FSQRT (R139). -/
def execFsqrt (h : Hdr) (ty : FloatTy) (rm : Rm) (d a : Reg) (s : State) : Ans :=
  issueAlu h [a] d (fun v => BitVec.ofNat 64 (ty.fmt.sqrt rm (v 0).toNat)) s

/-- FCVT (R141). -/
def execFcvt (h : Hdr) (dst src : CvtTy) (rm : Rm) (d a : Reg) (s : State) : Ans :=
  issueAlu h [a] d (fun v => fcvtRes dst src rm (v 0)) s

/-- FCLASS (R142). -/
def execFclass (h : Hdr) (ty : FloatTy) (d a : Reg) (s : State) : Ans :=
  issueAlu h [a] d (fun v => BitVec.ofNat 64 (ty.fmt.fclass (v 0).toNat)) s

/-- FEXP2 (R68, R139): RM has no effect. -/
def execFexp2 (h : Hdr) (_rm : Rm) (d a : Reg) (s : State) : Ans :=
  issueAlu h [a] d (fun v => BitVec.ofNat 64 (exp2 (fp32.low (v 0).toNat))) s


end Sys2Proof.Machine
end

