-- ==== Sys2Proof/Machine/Int.lean ====
section
/-! DEFINITION. The integer and immediate instructions (R132 to R138). -/

namespace Sys2Proof.Machine

/-- ADD (R132): the sum modulo 2^w. -/
def execAdd (h : Hdr) (ty : IntTy) (d a b : Reg) (s : State) : Ans :=
  issueAlu h [a, b] d (fun v => ty.res (ty.u (v 0) + ty.u (v 1))) s

/-- SUB (R132): the difference modulo 2^w. -/
def execSub (h : Hdr) (ty : IntTy) (d a b : Reg) (s : State) : Ans :=
  issueAlu h [a, b] d (fun v => ty.res (ty.u (v 0) - ty.u (v 1))) s

/-- MUL (R132): the low w bits of the product. -/
def execMul (h : Hdr) (ty : IntTy) (d a b : Reg) (s : State) : Ans :=
  issueAlu h [a, b] d (fun v => ty.res (ty.u (v 0) * ty.u (v 1))) s

/-- MULH (R132): bits 2w-1:w of the exact product. -/
def execMulh (h : Hdr) (k : MulhKind) (ty : IntTy) (d a b : Reg) (s : State) : Ans :=
  issueAlu h [a, b] d (fun v => ty.res (mulhRes k ty (v 0) (v 1))) s

/-- DIV (R132, R134). -/
def execDiv (h : Hdr) (u : Bool) (ty : IntTy) (d a b : Reg) (s : State) : Ans :=
  issueAlu h [a, b] d (fun v => ty.res (divRes u ty (v 0) (v 1))) s

/-- REM (R132, R134). -/
def execRem (h : Hdr) (u : Bool) (ty : IntTy) (d a b : Reg) (s : State) : Ans :=
  issueAlu h [a, b] d (fun v => ty.res (remRes u ty (v 0) (v 1))) s

/-- AND (R132). -/
def execAnd (h : Hdr) (ty : IntTy) (d a b : Reg) (s : State) : Ans :=
  issueAlu h [a, b] d (fun v => ty.res (((v 0 &&& v 1).toNat : Nat))) s

/-- OR (R132). -/
def execOr (h : Hdr) (ty : IntTy) (d a b : Reg) (s : State) : Ans :=
  issueAlu h [a, b] d (fun v => ty.res (((v 0 ||| v 1).toNat : Nat))) s

/-- XOR (R132). -/
def execXor (h : Hdr) (ty : IntTy) (d a b : Reg) (s : State) : Ans :=
  issueAlu h [a, b] d (fun v => ty.res (((v 0 ^^^ v 1).toNat : Nat))) s

/-- ANDN (R132): a AND NOT b. -/
def execAndn (h : Hdr) (ty : IntTy) (d a b : Reg) (s : State) : Ans :=
  issueAlu h [a, b] d (fun v => ty.res (((v 0 &&& ~~~(v 1)).toNat : Nat))) s

/-- SHL (R133). -/
def execShl (h : Hdr) (ty : IntTy) (d a b : Reg) (s : State) : Ans :=
  issueAlu h [a, b] d (fun v => ty.res (shlRes ty (v 0) (v 1))) s

/-- SHR (R133). -/
def execShr (h : Hdr) (ty : IntTy) (d a b : Reg) (s : State) : Ans :=
  issueAlu h [a, b] d (fun v => ty.res (shrRes ty (v 0) (v 1))) s

/-- SAR (R133). -/
def execSar (h : Hdr) (ty : IntTy) (d a b : Reg) (s : State) : Ans :=
  issueAlu h [a, b] d (fun v => ty.res (sarRes ty (v 0) (v 1))) s

/-- MIN (R132): the lesser, signed or unsigned. -/
def execMin (h : Hdr) (u : Bool) (ty : IntTy) (d a b : Reg) (s : State) : Ans :=
  issueAlu h [a, b] d (fun v => ty.res (if u then ((if ty.u (v 0) < ty.u (v 1) then ty.u (v 0) else ty.u (v 1) : Nat) : Int) else if ty.s (v 0) < ty.s (v 1) then ty.s (v 0) else ty.s (v 1))) s

/-- MAX (R132): the greater, signed or unsigned. -/
def execMax (h : Hdr) (u : Bool) (ty : IntTy) (d a b : Reg) (s : State) : Ans :=
  issueAlu h [a, b] d (fun v => ty.res (if u then ((if ty.u (v 1) < ty.u (v 0) then ty.u (v 0) else ty.u (v 1) : Nat) : Int) else if ty.s (v 1) < ty.s (v 0) then ty.s (v 0) else ty.s (v 1))) s

/-- CLZ (R132): leading zero bits. -/
def execClz (h : Hdr) (ty : IntTy) (d a : Reg) (s : State) : Ans :=
  issueAlu h [a] d (fun v => ty.res (clzN ty.w (ty.u (v 0)))) s

/-- CTZ (R132): trailing zero bits. -/
def execCtz (h : Hdr) (ty : IntTy) (d a : Reg) (s : State) : Ans :=
  issueAlu h [a] d (fun v => ty.res (ctzN ty.w (ty.u (v 0)))) s

/-- POPC (R132): set bits. -/
def execPopc (h : Hdr) (ty : IntTy) (d a : Reg) (s : State) : Ans :=
  issueAlu h [a] d (fun v => ty.res (popc ty.w (ty.u (v 0)))) s

/-- BFX (R135). -/
def execBfx (h : Hdr) (sg : Bool) (d a b : Reg) (s : State) : Ans :=
  issueAlu h [a, b] d (fun v => bfx sg (v 0).toNat (v 1).toNat) s

/-- BFI (R135). -/
def execBfi (h : Hdr) (d a b c : Reg) (s : State) : Ans :=
  issueAlu h [a, b, c] d (fun v => bfi (v 0).toNat (v 1).toNat (v 2).toNat) s

/-- SEL (R132): a if the predicate is true, else b. -/
def execSel (h : Hdr) (d a b : Reg) (p : Pred) (s : State) : Ans :=
  issue { h := h, srcs := [a, b], dst := some d } (fun s v => .next (putReg s d (if s.me.pred p then v 0 else v 1))) s

/-- HASH (R136). -/
def execHash (h : Hdr) (d a b : Reg) (s : State) : Ans :=
  issueAlu h [a, b] d (fun v => hash64 (v 0) (v 1)) s

/-- MADD (R132): (a * b + c) modulo 2^w. -/
def execMadd (h : Hdr) (ty : IntTy) (d a b c : Reg) (s : State) : Ans :=
  issueAlu h [a, b, c] d (fun v => ty.res (ty.u (v 0) * ty.u (v 1) + ty.u (v 2))) s

/-- ADDI (R137). -/
def execAddi (h : Hdr) (d a : Reg) (imm : BitVec 29) (s : State) : Ans :=
  issueAlu h [a] d (fun v => v 0 + imm.signExtend 64) s

/-- ANDI (R137). -/
def execAndi (h : Hdr) (d a : Reg) (imm : BitVec 29) (s : State) : Ans :=
  issueAlu h [a] d (fun v => v 0 &&& imm.signExtend 64) s

/-- ORI (R137). -/
def execOri (h : Hdr) (d a : Reg) (imm : BitVec 29) (s : State) : Ans :=
  issueAlu h [a] d (fun v => v 0 ||| imm.signExtend 64) s

/-- XORI (R137). -/
def execXori (h : Hdr) (d a : Reg) (imm : BitVec 29) (s : State) : Ans :=
  issueAlu h [a] d (fun v => v 0 ^^^ imm.signExtend 64) s

/-- MOVI (R137). -/
def execMovi (h : Hdr) (d : Reg) (imm : BitVec 29) (s : State) : Ans :=
  issueAlu h [] d (fun _ => imm.signExtend 64) s

/-- LDC (R137): the register shifted left by 29, the immediate below. -/
def execLdc (h : Hdr) (d a : Reg) (imm : BitVec 29) (s : State) : Ans :=
  issueAlu h [a] d (fun v => (v 0 <<< 29) ||| imm.setWidth 64) s

/-- SHI (R138). -/
def execShi (h : Hdr) (k : ShiKind) (d a : Reg) (n : BitVec 6) (s : State) : Ans :=
  issueAlu h [a] d (fun v => shiRes k (v 0) n.toNat) s


end Sys2Proof.Machine
end

