-- ==== Sys2Proof/Machine/KvTables.lean ====
section
/-! DEFINITION. The tables of the KV space: sequence control blocks (R77), KV frames (R78, R79) with their quantisation (R60 to R62),
the inverted table and its chains (R80), lookups (R250), allocation (R257), moves and the cancelling of an eviction (R258 to
R260). -/

namespace Sys2Proof.Machine

/-- The id that names no sequence (R77). -/
def noSeq : Nat := 0xFFFFFF
/-- The end of a chain (R80). -/
def noEnt : Nat := 0xFFFFFFFF

/-! ### Control blocks (R77) -/

structure SeqCb where
  l : Nat
  f : Nat
  st : Nat
  home : Nat
  hdim : Bool
  parent : Nat
  p : Nat
  deriving DecidableEq, Repr

def cbAddr (s : State) (i : Nat) : Nat := (bits s.sqTable.toNat 10 38 * 1024 + 1024 * i) % 2 ^ 48

def readCb (s : State) (i : Nat) : SeqCb :=
  let w := memRead s.mem (cbAddr s i) 24
  ⟨bits w 0 32, bits w 32 32, bits w 64 2, bits w 72 3, bit w 75, bits w 80 24, bits w 128 32⟩

def writeCb (s : State) (i : Nat) (c : SeqCb) : State :=
  physWrite s (cbAddr s i) 24
    (c.l + c.f * 2 ^ 32 + c.st * 2 ^ 64 + c.home * 2 ^ 72 + c.hdim.toNat * 2 ^ 75 + c.parent * 2 ^ 80 + c.p * 2 ^ 128)

/-- A legal sequence id (R249). -/
def seqLegal (s : State) (i : Nat) : Bool := i < 2 ^ bits s.sqTable.toNat 0 5 && i != noSeq

/-- Head dimension of a sequence. -/
def SeqCb.hd (c : SeqCb) : Nat := if c.hdim then 128 else 64

/-- Byte of CMAP that holds the bit of position `p`. -/
def cmapAddr (s : State) (i p : Nat) : Nat := cbAddr s i + 512 + p % 4096 / 8

/-- Commit bit of a position (R77). -/
def cmapBit (s : State) (i p : Nat) : Bool := bit (memRead s.mem (cmapAddr s i p) 1) (p % 8)

def setCmap (s : State) (i p : Nat) (v : Bool) : State :=
  let a := cmapAddr s i p
  let b := memRead s.mem a 1
  physWrite s a 1 (b - (bit b (p % 8)).toNat * 2 ^ (p % 8) + v.toNat * 2 ^ (p % 8))

/-- Every (layer, head) of the model (R247). -/
def kvShapes (s : State) : List (Nat × Nat) :=
  (List.range (bits s.kvShape.toNat 0 8 + 1)).flatMap fun l => (List.range (bits s.kvShape.toNat 8 8 + 1)).map fun h => (l, h)

def State.children (s : State) (i : Nat) : Nat := (tget s.childCnt i).getD 0
def State.setChildren (s : State) (i n : Nat) : State :=
  { s with childCnt := if n = 0 then tdel s.childCnt i else tput s.childCnt i n }

/-! ### The inverted table (R80) -/

structure KvKey where
  seq : Nat
  layer : Nat
  head : Nat
  lb : Nat
  deriving DecidableEq, Repr

structure KvEnt where
  key : KvKey
  owner : Nat
  /-- 0 FREE, 1 FILLING, 2 RESIDENT, 3 EVICTING -/
  st : Nat
  quar : Bool
  pin : Bool
  refc : Nat
  tier : Nat
  /-- physical address of the frame -/
  frame : Nat
  next : Nat
  deriving DecidableEq, Repr

/-- Entries of the table. -/
def kvN (s : State) : Nat := 2 ^ bits s.kvTable.toNat 0 5
def entAddr (s : State) (i : Nat) : Nat := (bits s.kvTable.toNat 12 36 * 4096 + 32 * i) % 2 ^ 48

def readEnt (s : State) (i : Nat) : KvEnt :=
  let w := memRead s.mem (entAddr s i) 32
  { key := ⟨bits w 0 24, bits w 24 8, bits w 32 8, bits w 64 26⟩, owner := bits w 40 24, st := bits w 92 2, quar := bit w 96,
    pin := bit w 97, refc := bits w 112 16, tier := bits w 140 2, frame := bits w 142 34 * 2 ^ 14, next := bits w 192 32 }

def writeEnt (s : State) (i : Nat) (e : KvEnt) : State :=
  physWrite s (entAddr s i) 32
    (e.key.seq + e.key.layer * 2 ^ 24 + e.key.head * 2 ^ 32 + e.owner * 2 ^ 40 + e.key.lb * 2 ^ 64 + e.st * 2 ^ 92 +
      e.quar.toNat * 2 ^ 96 + e.pin.toNat * 2 ^ 97 + e.refc * 2 ^ 112 + e.tier * 2 ^ 140 + e.frame / 2 ^ 14 * 2 ^ 142 + e.next * 2 ^ 192)

def modEnt (s : State) (i : Nat) (f : KvEnt → KvEnt) : State := writeEnt s i (f (readEnt s i))

/-- The first probe entry of a key. -/
def kvHash (s : State) (k : KvKey) : Nat :=
  (hash64 (BitVec.ofNat 64 (k.lb * 2 ^ 40 + k.head * 2 ^ 32 + k.layer * 2 ^ 24 + k.seq)) 0).toNat % kvN s

/-- Probe entry `j` of a key, and the head of its chain (R80). -/
def probe (s : State) (k : KvKey) (j : Nat) : Nat := (kvHash s k + j) % kvN s

def KvEnt.is (e : KvEnt) (k : KvKey) : Bool := e.st != 0 && e.key == k

/-- The entry of a key on the chain from entry `i` on. -/
def chainFind (s : State) (k : KvKey) : Nat → Nat → Option Nat
  | 0, _ => none
  | n + 1, i => if kvN s ≤ i then none else let e := readEnt s i; if e.is k then some i else chainFind s k n e.next

/-- Own lookup (R250). -/
def ownLookup (s : State) (k : KvKey) : Option Nat :=
  match (List.range 8).find? fun j => (readEnt s (probe s k j)).is k with
  | some j => some (probe s k j)
  | none => chainFind s k (kvN s) (readEnt s (probe s k 7)).next

/-- Reading lookup (R250), through at most `n` parents. -/
def lookupFrom (s : State) : Nat → KvKey → Option Nat
  | 0, k => ownLookup s k
  | n + 1, k =>
    match ownLookup s k with
    | some i => some i
    | none =>
      let c := readCb s k.seq
      if seqLegal s k.seq && 64 * k.lb < c.p && c.parent != noSeq then lookupFrom s n { k with seq := c.parent } else none

def readLookup (s : State) (k : KvKey) : Option Nat := lookupFrom s (2 ^ bits s.sqTable.toNat 0 5) k

/-- The last entry of the chain from `j` on, unless entry `i` is on it. -/
def chainTail (s : State) (i : Nat) : Nat → Nat → Option Nat
  | 0, _ => none
  | n + 1, j => let nx := (readEnt s j).next; if nx = i then none else if kvN s ≤ nx then some j else chainTail s i n nx

def inWindow (s : State) (k : KvKey) (i : Nat) : Bool := (List.range 8).any fun j => probe s k j == i

/-- Entry `i` linked at the tail of the key's chain, unless it is a probe entry (R80, R257). -/
def linkEnt (s : State) (k : KvKey) (i : Nat) : State :=
  if inWindow s k i then s
  else
    match chainTail s i (kvN s) (probe s k 7) with
    | none => s
    | some t => modEnt s t fun e => { e with next := i }

/-- Entry `i` leaves every chain it is in; its own NEXT is kept (R80). -/
def unlinkEnt (s : State) (i : Nat) : State :=
  let nx := (readEnt s i).next
  (List.range (kvN s)).foldl (fun s j => if j != i && (readEnt s j).next == i then modEnt s j fun e => { e with next := nx } else s) s

/-- An entry becomes FREE and unlinked. -/
def freeEnt (s : State) (i : Nat) : State := unlinkEnt (modEnt s i fun e => { e with st := 0 }) i

/-- FREE entries that a move in progress keeps: an eviction's target, a promotion's source (R258). -/
def kvReserved (s : State) : List Nat := s.moves.map fun m => if m.promo then m.src else m.dst

/-- A FREE entry of a tier for a key (R257): a probe entry, lowest offset first, else any FREE entry that ends its chain. -/
def kvPick (s : State) (k : KvKey) (tier : Nat) (die : Option Nat) : Option (Nat × State) :=
  let ok (i : Nat) : Bool :=
    let e := readEnt s i
    e.st == 0 && e.tier == tier && die.all (· == homeDie e.frame) && !s.dieGone (homeDie e.frame) && !(kvReserved s).contains i
  match (List.range 8).find? fun j => ok (probe s k j) with
  | some j => some (probe s k j, s)
  | none =>
    let fr := (List.range (kvN s)).filter fun i => ok i && (readEnt s i).next == noEnt
    let r := s.choose fr.length
    (fr[r.1]?).map fun i => (i, r.2)

/-- An entry given a key and linked (R257). -/
def keyEnt (s : State) (i : Nat) (k : KvKey) (f : KvEnt → KvEnt) : State := linkEnt (modEnt s i fun e => f { e with key := k }) k i

/-! ### Frames (R78) -/

/-- Bytes of a list of 16-bit words. -/
def halves (l : List Nat) : List Byte := l.flatMap (leBytes 2)

/-- The summary rows that an empty frame holds (R257): 512 bytes. -/
def emptySummary (hd : Nat) : List Byte :=
  halves ((List.range 128).map (fun c => if c < hd then 0x7C00 else 0) ++ (List.range 128).map fun c => if c < hd then 0xFC00 else 0)

/-- An empty frame (R257). -/
def emptyFrame (s : State) (a hd : Nat) (scales : List Nat) : State :=
  let m := memZero s.mem a 16384
  let m := memPut m (a + 0x3000) (halves (scales.take hd))
  s.setMem (memPut m (a + 0x3200) (emptySummary hd))

/-- Channel scales of 1.0. -/
def unitScales (hd : Nat) : List Nat := List.replicate hd 0x3C00

/-- The sixteen outlier entries of a frame. -/
def outliers (s : State) (a : Nat) : List Nat := toWords 16 (memBytes s.mem (a + 0x3180) 128)

/-- The decoded keys of in-block position `q` (R62), as BF16. -/
def keyRow (s : State) (a q hd : Nat) : List Nat :=
  let ol := outliers s a
  let nib := memRead s.mem (a + 64 * q) 64
  let sc := memRead s.mem (a + 0x3000) 256
  (List.range hd).map fun c =>
    let v := match ol.find? fun e => bit e 13 && bits e 0 6 == q && bits e 6 7 == c with
      | some e => decFmt 2 (bits e 16 16)
      | none => fp32.mul .rne (fp32.ofInt .rne false (sext (bits nib (4 * c) 4) 4) 0) (decFmt 2 (bits sc (16 * c) 16))
    fp32.cvt bf16 .rne v

/-- The decoded values of in-block position `q` (R62), as BF16. -/
def valRow (s : State) (a q hd : Nat) : List Nat :=
  let v := memRead s.mem (a + 0x1000 + 128 * q) 128
  let sp := decFmt 2 (memRead s.mem (a + 0x3100 + 2 * q) 2)
  (List.range hd).map fun c => fp32.cvt bf16 .rne (fp32.mul .rne (fp32.ofInt .rne false (sext (bits v (8 * c) 8) 8) 0) sp)

/-- Is a BF16 pattern finite? -/
def bfFinite (v : Nat) : Bool := v % 2 ^ 15 < bf16.inf

/-- One key element quantised (R60): the outlier entries and the nibbles so far. -/
def quantKey (q sc : Nat) (st : List Nat × Nat) (kc : Nat × Nat) : List Nat × Nat :=
  let d := fp32.div .rne kc.1 (decFmt 2 (bits sc (16 * kc.2) 16))
  let big := fp32.isNan d || 0x40F00000 < d % 2 ^ 31
  match big, st.1.findIdx? fun e => !bit e 13 with
  | true, some j => (st.1.set j (q + kc.2 * 2 ^ 6 + 2 ^ 13 + fp32.cvt fp16 .rne kc.1 * 2 ^ 16), st.2)
  | _, _ => (st.1, st.2 + wrap (toIntRange .rne (fp32.val d) (-8) 7) 4 * 2 ^ (4 * kc.2))

/-- The keys of one position written (R60, R274). Neither rule says in which order the channels take the free outlier entries: they are
taken in ascending order (assumption 90, DESIGN CHOICE). -/
def storeKeys (s : State) (a q : Nat) (ks : List Nat) : State :=
  let sc := memRead s.mem (a + 0x3000) 256
  let ol := (outliers s a).map fun e => if bits e 0 6 = q then 0 else e
  let r := ks.zipIdx.foldl (quantKey q sc) (ol, 0)
  let m := memPut s.mem (a + 64 * q) (leBytes (ks.length / 2) r.2)
  s.setMem (memPut m (a + 0x3180) (r.1.flatMap (leBytes 8)))

/-- The scale of a value row (R61). -/
def valScale (vs : List Nat) : Nat :=
  let m := if vs.any fp32.isNan then fp32.nan else vs.foldl (fun m v => max m (v % 2 ^ 31)) 0
  fp32.cvt fp16 .rne (fp32.div .rne m 0x42FE0000)

/-- The values of one position written (R61). -/
def storeVals (s : State) (a q : Nat) (vs : List Nat) : State :=
  let sp := valScale vs
  let z (v : Nat) : Nat :=
    if sp % 2 ^ 15 = 0 then 0 else wrap (toIntRange .rne (fp32.val (fp32.div .rne v (decFmt 2 sp))) (-127) 127) 8
  let m := memPut s.mem (a + 0x1000 + 128 * q) (vs.flatMap fun v => leBytes 1 (z v))
  s.setMem (memWrite m (a + 0x3100 + 2 * q) 2 sp)

/-- The summary rows widened to a list of in-block positions (R79). -/
def widen (s : State) (a hd : Nat) (qs : List Nat) : State :=
  let rows := qs.map fun q => keyRow s a q hd
  let side (base : Nat) (mx : Bool) (rm : Rm) (s : State) : State :=
    let old := memRead s.mem (a + base) 256
    let new := (List.range hd).map fun c => rows.foldl (fun m r =>
      let v := (r[c]?).getD 0
      if bfFinite v then fp16.minmax mx m (bf16.cvt fp16 rm v) else m) (bits old (16 * c) 16)
    s.setMem (memPut s.mem (a + base) (halves new))
  side 0x3300 true .ru (side 0x3200 false .rd s)

/-- Every trace of in-block position `q` cleared (R254). -/
def clearPos (s : State) (a q : Nat) : State :=
  let ol := (outliers s a).map fun e => if bit e 13 && bits e 0 6 = q then 0 else e
  let m := memZero (memZero s.mem (a + 64 * q) 64) (a + 0x1000 + 128 * q) 128
  s.setMem (memPut (memZero m (a + 0x3100 + 2 * q) 2) (a + 0x3180) (ol.flatMap (leBytes 8)))

/-- The contents of frame `src` copied into frame `dst` for an appender whose next in-block position is `f` (R254). -/
def copyAppend (s : State) (src dst hd f : Nat) : State :=
  let s := s.setMem (memBlit s.mem src dst 16384)
  let s := ((List.range 64).filter (f ≤ ·)).foldl (fun s q => clearPos s dst q) s
  let s := s.setMem (memPut s.mem (dst + 0x3200) (emptySummary hd))
  widen s dst hd (List.range f)

/-! ### Allocation and moves -/

/-- A new frame for a key (R257), keyed under a sequence that owns it: FILLING, then RESIDENT once initialised. -/
def allocFrame (s : State) (k : KvKey) (init : State → Nat → State) : Option State :=
  match kvPick s k 0 (some (readCb s k.seq).home) with
  | none => none
  | some (i, s) =>
    let s := keyEnt s i k fun e => { e with owner := k.seq, st := 1, quar := false, pin := false, refc := 1 }
    some (modEnt (init s (readEnt s i).frame) i fun e => { e with st := 2 })

/-- An entry that an operation finds EVICTING is RESIDENT again, and the eviction's target is released (R260). -/
def cancelEvict (s : State) (i : Nat) : State :=
  match s.moves.find? fun m => !m.promo && m.src == i with
  | none => s
  | some m =>
    let s := unlinkEnt s m.dst
    modEnt { s with moves := s.moves.filter (·.id != m.id) } i fun e => { e with st := 2 }

/-- An entry as an operation meets it (R260): none while it is FILLING, else the state with an eviction of it cancelled. -/
def kvTouch (s : State) (i : Nat) : Option State :=
  let st := (readEnt s i).st
  if st = 1 then none else if st = 3 then some (cancelEvict s i) else some s

/-- A promotion of the block of entry `i` started, if a tier-0 frame is FREE (R258, R260). -/
def startPromo (s : State) (i : Nat) : Option State :=
  let e := readEnt s i
  match kvPick s e.key 0 (some (readCb s e.key.seq).home) with
  | none => none
  | some (t, s) =>
    let s := freeEnt s i
    let s := keyEnt s t e.key fun f => { f with owner := e.owner, st := 1, quar := e.quar, pin := e.pin, refc := e.refc }
    let n := s.tag
    let m : KvMove := ⟨n.1, true, i, t, e.frame⟩
    some (State.later { n.2 with moves := n.2.moves ++ [m] } (.promotionComplete n.1))

/-- PROMOTION_COMPLETE (R258). -/
def execPromotionComplete (n : Nat) (s : State) : Ans :=
  match s.moves.find? fun m => m.promo && m.id == n with
  | none => .next s
  | some m =>
    let s := s.setMem (memBlit s.mem m.srcFrame (readEnt s m.dst).frame 16384)
    .next (modEnt { s with moves := s.moves.filter (·.id != n) } m.dst fun e => { e with st := 2 })

/-- FREE tier-0 entries whose frame is on a die (R247); none before software first writes kv.table or sets kv.ctl EN. -/
def freeTier0 (s : State) (die : Nat) : Nat :=
  if !s.kvUsed then 0 else ((List.range (kvN s)).filter fun i => let e := readEnt s i; e.st == 0 && e.tier == 0 && homeDie e.frame == die).length

/-- By how many the FREE tier-0 entries of a die and its evictions in progress are below LOW (R259). -/
def evictLack (s : State) (die : Nat) : Nat :=
  bits s.kvCtl.toNat 8 24 - (freeTier0 s die + (s.moves.filter fun m => !m.promo && homeDie m.srcFrame == die).length)

/-- May an eviction start on a die now (R259)? -/
def evictDue (s : State) (die : Nat) : Bool := bit s.kvCtl.toNat 0 && bits s.kvCtl.toNat 8 24 != 0 && !s.dieGone die && evictLack s die != 0

/-- The entries of a die that may be evicted (R259): RESIDENT in tier 0 and not pinned. -/
def evictable (s : State) (die : Nat) : List Nat :=
  (List.range (kvN s)).filter fun i =>
    let e := readEnt s i
    e.st == 2 && e.tier == 0 && !e.pin && homeDie e.frame == die

/-- EVICTION_START (R259): any RESIDENT, unpinned tier-0 entry of the die, to any qualifying FREE tier-1 entry, which is linked at once
and stays FREE and reserved. -/
def execEvictionStart (die : Nat) (s : State) : Ans :=
  if !evictDue s die then .next s
  else
    let vs := evictable s die
    let r := s.choose vs.length
    match vs[r.1]? with
    | none => .next s
    | some i =>
      let e := readEnt s i
      match kvPick r.2 e.key 1 none with
      | none => .next s
      | some (t, s) =>
        let s := modEnt (linkEnt s e.key t) i fun e => { e with st := 3 }
        let n := s.tag
        let m : KvMove := ⟨n.1, false, i, t, e.frame⟩
        .next (State.later { n.2 with moves := n.2.moves ++ [m] } (.evictionComplete n.1))

/-- EVICTION_COMPLETE (R258): the target becomes RESIDENT with the key and the source FREE, in one step. -/
def execEvictionComplete (n : Nat) (s : State) : Ans :=
  match s.moves.find? fun m => !m.promo && m.id == n with
  | none => .next s
  | some m =>
    let e := readEnt s m.src
    let s := s.setMem (memBlit s.mem e.frame (readEnt s m.dst).frame 16384)
    let s := modEnt { s with moves := s.moves.filter (·.id != n) } m.dst fun f => { e with tier := f.tier, frame := f.frame, next := f.next, st := 2 }
    let s := freeEnt s m.src
    let d := s.die (homeDie e.frame)
    .next (s.setDie (homeDie e.frame) { d with evicts := (d.evicts + 1) % 2 ^ 32 })

end Sys2Proof.Machine
end

