-- ==== Sys2Proof/Machine/Sequences.lean ====
section
/-! DEFINITION. The instructions on sequences: SQNEW, SQRES, SQCMT, SQLEN, SQFORK, SQDROP (R249 to R256, R268 to R273), and
LANTERN_ANSWER. An operation performs at its lantern in the step in which it can; the context stays parked until the answer. -/

namespace Sys2Proof.Machine

/-- Do the lanterns not serve the KV space (R248)? -/
def kvOff (s : State) : Bool := !bit s.kvCtl.toNat 0

/-- A fault of a sequence operation (R267). -/
def seqFault (code seq addr : Nat) : Flt := { code := code, seq := seq % 2 ^ 24, addr := addr }

/-- Is the register value no legal id (R267)? -/
def badId (s : State) (v : Word) : Bool := v.toNat / 2 ^ 24 != 0 || !seqLegal s v.toNat

/-- Is the lantern of a sequence, or its control block, on a die that is gone (R343)? -/
def seqGone (s : State) (i home : Nat) : Bool := s.dieGone (homeDie (cbAddr s i)) || s.dieGone home

/-- The context waits at its lantern (R257, R260), behind the operations that came before it: its instruction is tried again. -/
def kvStay (s : State) (o : KvOp) : Res :=
  .park { s with kvWait := if s.kvWait.any (·.ctx == s.cur) then s.kvWait.map fun q => if q.ctx = s.cur then o else q else s.kvWait ++ [o] }

/-- An operation of the issuing context on sequences, to be kept while it waits. -/
def kvOp (s : State) (seqs : List Nat) : KvOp := ⟨s.cur, seqs, false, []⟩

/-- The issuing context's operation waits no longer. -/
def kvLeave (s : State) : State := { s with kvWait := s.kvWait.filter (·.ctx != s.cur) }

/-- The operations that came to their lanterns before the issuing context's. -/
def kvAhead (s : State) : List KvOp := s.kvWait.takeWhile (·.ctx != s.cur)

/-- An operation on sequences: it performs behind the operations on them that came before it (R249). -/
def kvEnter (s : State) (o : KvOp) (k : State → Res) : Res :=
  if (kvAhead s).any fun q => q.seqs.any o.seqs.contains then kvStay s o else k s

/-- An operation of the issuing context faults. -/
def kvFault (s : State) (f : Flt) : Res := .faultAt (kvLeave s) f

/-- The operation has performed: its answer is on the way (R267). -/
def kvAnswer (s : State) (die : Nat) (srcs : List Reg) (writes : List (Nat × Word)) (pred : Option (Pred × Bool)) : Res :=
  parkAnswer (kvLeave s) srcs 0 die writes pred .lanternAnswer

/-- LANTERN_ANSWER (R267). -/
def execLanternAnswer (ctx tag : Nat) (s : State) : Ans := .next (answer s ctx tag none)

/-- Does any entry that is not FREE belong to sequence `i`? -/
def keyedUnder (s : State) (i : Nat) : Bool := (List.range (kvN s)).any fun j => let e := readEnt s j; e.st != 0 && e.key.seq == i

/-- A dropping sequence with no child and no frame is freed, and so may its ancestors be (R249). -/
def freeSeqs : Nat → State → Nat → State
  | 0, s, _ => s
  | n + 1, s, i =>
    let c := readCb s i
    let s := if c.st = 2 && s.children i = 0 && !keyedUnder s i then
        let s := s.setMem (memZero s.mem (cbAddr s i) 1024)
        if c.parent = noSeq then s else s.setChildren c.parent (s.children c.parent - 1)
      else s
    if c.parent != noSeq && seqLegal s c.parent && c.st != 0 then freeSeqs n s c.parent else s

def freeSeqsFrom (s : State) (i : Nat) : State := freeSeqs (2 ^ bits s.sqTable.toNat 0 5) s i

/-- A new control block (R253, R268). -/
def newCb (s : State) (i : Nat) (c : SeqCb) : State :=
  (writeCb (s.setMem (memZero s.mem (cbAddr s i) 1024)) i c).setChildren i 0

/-- SQNEW (R268). -/
def execSqnew (h : Hdr) (a t1 : Reg) (p : Pred) (s : State) : Ans :=
  issue { h := h, srcs := [a, t1], mem := true } (fun s v =>
    let i := (v 0).toNat
    let w := (v 1).toNat
    if kvOff s then kvFault s { code := cIllegalEnc }
    else if badId s (v 0) then kvFault s (seqFault cSeqRange i 0)
    else if w / 16 ≠ 0 then kvFault s { code := cIllegalEnc }
    else if seqGone s i (w / 2) then kvFault s (seqFault cDieLost i 0)
    else kvEnter s (kvOp s [i]) fun s =>
    if (readCb s i).st ≠ 0 then kvAnswer s (w / 2) [a, t1] [] (some (p, false))
    else kvAnswer (newCb s i ⟨0, 0, 1, w / 2, bit w 0, noSeq, 0⟩) (w / 2) [a, t1] [] (some (p, true))) s

/-! ### Settlement (R254) -/

/-- Entry `i` rekeyed to a sequence that takes ownership (R254); where it cannot enter the new key's chain its fields move to a FREE
entry, which gives it its own frame in exchange. -/
def rekey (s : State) (i : Nat) (k : KvKey) : Option State :=
  let e := readEnt s i
  if inWindow s k i || e.next = noEnt then some (keyEnt (unlinkEnt s i) i k fun e => { e with owner := k.seq })
  else
    match kvPick s k e.tier (if e.tier = 0 then some (readCb s k.seq).home else none) with
    | none => none
    | some (f, s) =>
      let g := readEnt s f
      let s := keyEnt s f k fun g => { g with owner := k.seq, st := 2, quar := e.quar, pin := e.pin, refc := e.refc, tier := e.tier, frame := e.frame }
      some (freeEnt (modEnt s i fun e => { e with tier := g.tier, frame := g.frame }) i)

/-- The frame of one (layer, head) of the block that holds position `f` settled for appender `i`; none while it has to wait. -/
def settleOne (s : State) (i f : Nat) (lh : Nat × Nat) : Option State :=
  let k : KvKey := ⟨i, lh.1, lh.2, f / 64⟩
  match readLookup s k with
  | none => some s
  | some j =>
    match kvTouch s j with
    | none => none
    | some s =>
      let e := readEnt s j
      if e.owner = i then some s
      else if 1 < e.refc then
        (allocFrame s k fun s a => copyAppend s e.frame a (readCb s i).hd (f % 64)).map fun s =>
          modEnt s j fun e => { e with refc := e.refc - 1 }
      else if e.owner = noSeq then rekey s j k
      else some s

/-- The frames of a block settled one at a time, and whether all are. -/
def settleAll (i f : Nat) : List (Nat × Nat) → State → State × Bool
  | [], s => (s, true)
  | lh :: t, s =>
    match settleOne s i f lh with
    | none => (s, false)
    | some s => settleAll i f t s

/-- The entries that an appender to sequence `i` has to settle (R254). -/
def settling (s : State) (i : Nat) : List Nat :=
  let f := (readCb s i).f
  if f % 64 = 0 then [] else (kvShapes s).filterMap fun lh => readLookup s ⟨i, lh.1, lh.2, f / 64⟩

/-- Does a settlement that came before reach a frame that this one reaches (R255)? -/
def settlesBehind (s : State) (i : Nat) : Bool :=
  (kvAhead s).any fun o => o.settles && o.seqs.any fun j => (settling s j).any (settling s i).contains

/-- SQRES (R269). -/
def execSqres (h : Hdr) (d a t1 : Reg) (p : Pred) (s : State) : Ans :=
  issue { h := h, srcs := [a, t1], dst := some d, mem := true } (fun s v =>
    let i := (v 0).toNat
    let n := (v 1).toNat
    if kvOff s then kvFault s { code := cIllegalEnc }
    else if badId s (v 0) then kvFault s (seqFault cSeqRange i 0)
    else
      let o : KvOp := { kvOp s [i] with settles := true }
      kvEnter s o fun s =>
      let c := readCb s i
      if c.st ≠ 1 || n = 0 || 4096 < n || 0xFFFFFFFF < c.f + n then kvFault s (seqFault cSeqRange i 0)
      else if seqGone s i c.home then kvFault s (seqFault cDieLost i 0)
      else if 4096 < c.f + n - c.l then kvAnswer s c.home [a, t1] [] (some (p, false))
      else if settlesBehind s i then kvStay s o
      else
        let r := if c.f % 64 ≠ 0 then settleAll i c.f (kvShapes s) s else (s, true)
        if !r.2 then kvStay r.1 o
        else
          let s := writeCb r.1 i { readCb r.1 i with f := c.f + n }
          kvAnswer (freeSeqsFrom s i) c.home [a, t1] [(d.toNat, BitVec.ofNat 64 c.f)] (some (p, true))) s

/-! ### SQCMT (R252, R270) -/

/-- Why a position cannot be filled or committed (R270, R274). -/
def posFault (s : State) (i : Nat) (c : SeqCb) (p : Nat) : Option Nat :=
  if p < c.l then some cSeqCommitted
  else if c.f ≤ p then some cSeqUnreserved
  else if cmapBit s i p then some cSeqCommitted
  else none

/-- L advances over the committed positions above it (R252 step 3). -/
def advance (i f : Nat) : Nat → State → Nat → State × Nat
  | 0, s, l => (s, l)
  | n + 1, s, l => if l < f && cmapBit s i l then advance i f n (setCmap s i l false) (l + 1) else (s, l)

/-- The own frames of the blocks of a run of positions: entry and block. -/
def ownFrames (s : State) (i b n : Nat) : List (Nat × Nat) :=
  ((List.range ((b + n - 1) / 64 + 1 - b / 64)).map (b / 64 + ·)).flatMap fun lb =>
    (kvShapes s).filterMap fun lh => (ownLookup s ⟨i, lh.1, lh.2, lb⟩).map fun j => (j, lb)

/-- The committed positions of a block, by their place in it (R79): below L, or in the window with their commit bit set. -/
def committed (s : State) (i : Nat) (c : SeqCb) (lb : Nat) : List Nat :=
  (List.range 64).filter fun q => 64 * lb + q < c.l || (64 * lb + q < c.f && cmapBit s i (64 * lb + q))

/-- Every entry of a list as an operation meets it (R260); none while one is FILLING. -/
def touchAll : List Nat → State → Option State
  | [], s => some s
  | j :: t, s => (kvTouch s j).bind (touchAll t)

/-- SQCMT (R270). -/
def execSqcmt (h : Hdr) (a t1 t2 : Reg) (s : State) : Ans :=
  issue { h := h, srcs := [a, t1, t2], mem := true } (fun s v =>
    let i := (v 0).toNat
    let b := (v 1).toNat
    let n := (v 2).toNat
    if kvOff s then kvFault s { code := cIllegalEnc }
    else if badId s (v 0) then kvFault s (seqFault cSeqRange i 0)
    else kvEnter s (kvOp s [i]) fun s =>
      let c := readCb s i
      if c.st ≠ 1 || n = 0 || 4096 < n || 2 ^ 32 < b + n then kvFault s (seqFault cSeqRange i 0)
      else if seqGone s i c.home then kvFault s (seqFault cDieLost i 0)
      else
        match (List.range n).findSome? fun j => (posFault s i c (b + j)).map fun code => (code, b + j) with
        | some (code, p) => kvFault s (seqFault code i p)
        | none =>
          let own := ownFrames s i b n
          match touchAll (own.map Prod.fst) s with
          | none => kvStay s (kvOp s [i])
          | some s =>
            let s := (List.range n).foldl (fun s j => setCmap s i (b + j) true) s
            let s := own.foldl (fun s o => widen s (readEnt s o.1).frame c.hd (committed s i c o.2)) s
            let r := advance i c.f 4096 s c.l
            kvAnswer (writeCb r.1 i { readCb r.1 i with l := r.2 }) c.home [a, t1, t2] [] none) s

/-- SQLEN (R271). -/
def execSqlen (h : Hdr) (d a : Reg) (s : State) : Ans :=
  issue { h := h, srcs := [a], dst := some d, mem := true } (fun s v =>
    let i := (v 0).toNat
    let c := readCb s i
    if kvOff s then kvFault s { code := cIllegalEnc }
    else if badId s (v 0) then kvFault s (seqFault cSeqRange i 0)
    else kvEnter s (kvOp s [i]) fun s =>
    if c.st ≠ 1 then kvFault s (seqFault cSeqRange i 0)
    else if seqGone s i c.home then kvFault s (seqFault cDieLost i 0)
    else kvAnswer s c.home [a] [(d.toNat, BitVec.ofNat 64 c.l)] none) s

/-! ### SQFORK and SQDROP (R253, R256) -/

/-- Keys of the blocks 0 to `n - 1` of a sequence, over all layers and heads. -/
def blockKeys (s : State) (i n : Nat) : List KvKey :=
  (List.range n).flatMap fun lb => (kvShapes s).map fun lh => ⟨i, lh.1, lh.2, lb⟩

/-- Empty frames allocated for keys (R253); none while one has to wait. -/
def allocEmpty (hd : Nat) : List KvKey → State → Option State
  | [], s => some s
  | k :: t, s => (allocFrame s k fun s a => emptyFrame s a hd (unitScales hd)).bind (allocEmpty hd t)

/-- SQFORK (R272). -/
def execSqfork (h : Hdr) (a t1 t2 : Reg) (p : Pred) (s : State) : Ans :=
  issue { h := h, srcs := [a, t1, t2], mem := true } (fun s v =>
    let new := (v 0).toNat
    let src := (v 1).toNat
    let n := (v 2).toNat
    let c := readCb s src
    if kvOff s then kvFault s { code := cIllegalEnc }
    else if badId s (v 0) then kvFault s (seqFault cSeqRange new 0)
    else if badId s (v 1) then kvFault s (seqFault cSeqRange src 0)
    else kvEnter s (kvOp s [src, new]) fun s =>
    if c.st ≠ 1 || c.l < n then kvFault s (seqFault cSeqRange src 0)
    else if seqGone s src c.home || s.dieGone (homeDie (cbAddr s new)) then kvFault s (seqFault cDieLost src 0)
    else if (readCb s new).st ≠ 0 then kvAnswer s c.home [a, t1, t2] [] (some (p, false))
    else
      let keys := blockKeys s src ((n + 63) / 64)
      let shared := keys.filterMap (readLookup s)
      if (n ≠ 0 && 65535 ≤ s.children src) || shared.any (fun j => 65535 ≤ (readEnt s j).refc) then
        kvAnswer s c.home [a, t1, t2] [] (some (p, false))
      else
        let tail := if n % 64 = 0 then [] else keys.filter fun k => k.lb == n / 64 && (readLookup s k).isNone
        match (touchAll shared s).bind (allocEmpty c.hd tail) with
        | none => kvStay s (kvOp s [src, new])
        | some s =>
          let s := (keys.filterMap (readLookup s)).foldl (fun s j => modEnt s j fun e => { e with refc := e.refc + 1 }) s
          let s := if n = 0 then s else s.setChildren src (s.children src + 1)
          kvAnswer (newCb s new ⟨n, n, 1, c.home, c.hdim, if n = 0 then noSeq else src, n⟩) c.home [a, t1, t2] [] (some (p, true))) s

/-- One reference of sequence `i` to entry `j` released (R256). -/
def unref (i : Nat) (s : State) (j : Nat) : State :=
  let e := readEnt s j
  let s := modEnt s j fun e => { e with refc := e.refc - 1, owner := if e.owner = i then noSeq else e.owner }
  if e.refc ≤ 1 then freeEnt s j else s

/-- SQDROP (R273). -/
def execSqdrop (h : Hdr) (a : Reg) (s : State) : Ans :=
  issue { h := h, srcs := [a], mem := true } (fun s v =>
    let i := (v 0).toNat
    let c := readCb s i
    if kvOff s then kvFault s { code := cIllegalEnc }
    else if badId s (v 0) then kvFault s (seqFault cSeqRange i 0)
    else kvEnter s (kvOp s [i]) fun s =>
    if c.st ≠ 1 then kvFault s (seqFault cSeqRange i 0)
    else if seqGone s i c.home then kvFault s (seqFault cDieLost i 0)
    else
      let reached := (blockKeys s i ((c.f + 63) / 64)).filterMap (readLookup s)
      match touchAll reached s with
      | none => kvStay s (kvOp s [i])
      | some s =>
        let s := writeCb (s.setMem (memZero s.mem (cbAddr s i + 512) 512)) i { c with st := 2, f := c.l }
        let s := reached.foldl (unref i) s
        kvAnswer (freeSeqsFrom s i) c.home [a] [] none) s

end Sys2Proof.Machine
end

