-- ==== Sys2Proof/Machine/Tiles.lean ====
section
/-! DEFINITION. Rings, tile slots and the easel (R81, R200 to R208), and the eight tile instructions (R210 to R218). -/

namespace Sys2Proof.Machine

/-! ### Rings and slots -/

def State.ring (s : State) (cl r : Nat) : Ring := (tget (s.cluster cl).rings r).getD {}
def Ring.slot (g : Ring) (i : Nat) : TSlot := (tget g.slots i).getD {}
def State.tslot (s : State) (cl r i : Nat) : TSlot := (s.ring cl r).slot i
def State.setRing (s : State) (cl r : Nat) (g : Ring) : State :=
  let c := s.cluster cl
  s.setCluster cl { c with rings := tput c.rings r g }
def State.setTslot (s : State) (cl r i : Nat) (t : TSlot) : State :=
  let g := s.ring cl r
  s.setRing cl r { g with slots := tput g.slots i t }

/-- Byte offset in the scratchpad of row `row` of slot `i` (R200). -/
def Ring.rowOff (g : Ring) (i row : Nat) : Nat := g.base + i * g.slotb + row * g.rowb

/-- The fields of a handle (R201). -/
def hdRing (h : Nat) : Nat := bits h 12 4
def hdSlot (h : Nat) : Nat := bits h 4 8
def hdGen (h : Nat) : Nat := bits h 0 4
def tileHandle (r i g : Nat) : Nat := r * 2 ^ 12 + i * 2 ^ 4 + g

/-- Is the handle stale (R201)? -/
def tileStale (s : State) (cl h : Nat) : Bool :=
  let g := s.ring cl (hdRing h)
  !g.en || g.nslot < hdSlot h || (g.slot (hdSlot h)).gen != hdGen h

/-- Matrix unit `m` of cluster `cl`. -/
def muOf (cl m : Nat) : Nat := 2 * cl + m

/-- A slot opened (R200). -/
def TSlot.opening (t : TSlot) (mu tag : Nat) (timer : Option Nat) : TSlot :=
  { st := .opened, gen := (t.gen + 1) % 16, mu := mu, tag := tag, timer := timer, rcd := t.rcd }

/-- The recorded status of a close given to a token (R214). -/
def giveStatus (s : State) (cl eng idx : Nat) (r : CloseRec) : State :=
  if r.st = .done then tokDone s cl eng idx r.count else tokFail s cl eng idx r.code

/-- A slot emptied with a status: every token that waits for this close completes with it (R205, R214). -/
def closeSlot (s : State) (cl r i : Nat) (rc : CloseRec) : State :=
  let t := s.tslot cl r i
  let s := s.setTslot cl r i { t with st := .empty, rcd := rc, deps := [], closers := [] }
  t.closers.foldl (fun s k => giveStatus s cl (2 + t.mu) k rc) s

/-- Reading of a ring descriptor (R81). -/
def descRing (d : Nat) : Ring :=
  { en := bit d 113, base := bits d 0 23, slotb := bits d 64 32, nslot := bits d 96 8, kind := bits d 104 2, fmt := bits d 106 3,
    hlog := bits d 109 4, rowb := bits d 128 24 }

/-- The checks of R81 that do not depend on the cluster. -/
def descLegal (d : Nat) : Bool :=
  let g := descRing d
  bits d 152 104 = 0 && bits d 114 14 = 0 && bits d 23 41 = 0 && g.kind != 3 && g.fmt < 6 &&
    (!g.en || (3 ≤ g.hlog && g.hlog ≤ 8 && g.rowb != 0 && g.slotb != 0 && g.slotb % 64 = 0 && g.base % 64 = 0 &&
      g.rowb * 2 ^ g.hlog ≤ g.slotb && g.base + g.slotb * (g.nslot + 1) ≤ 2 ^ 23))

/-- The checks that do (R81): every slot of the ring replaced is EMPTY, and the span overlaps no other enabled ring. -/
def descFits (s : State) (cl r d : Nat) : Bool :=
  let g := descRing d
  (s.ring cl r).slots.all (fun t => t.2.st == .empty) &&
    (!g.en || (s.cluster cl).rings.all fun (n, o) =>
      n == r || !o.en || o.base + o.slotb * (o.nslot + 1) ≤ g.base || g.base + g.slotb * (g.nslot + 1) ≤ o.base)

/-- An accepted descriptor loaded: every slot EMPTY at GEN 0, the open pointer 0 (R81, R202). -/
def loadRing (s : State) (cl r d : Nat) : State := s.setRing cl r (descRing d)

/-! ### Instructions -/

/-- The rings of the executing cluster. -/
def State.myCl (s : State) : Nat := ctxCl s.cur

/-- A register checked as a handle (R201). -/
def handleBad (v : Word) : Bool := v.toNat / 2 ^ 16 != 0

/-- TOPEN (R211). -/
def execTopen (h : Hdr) (ring : BitVec 4) (d a : Reg) (p : Pred) (s : State) : Ans :=
  issue { h := h, srcs := [a], mem := true } (fun s v =>
    let w := (v 0).toNat
    let g := s.ring s.myCl ring.toNat
    let i := g.openPtr
    let t := g.slot i
    if bits w 41 23 ≠ 0 || bits w 24 8 ≠ 0 then .fault { code := cIllegalEnc }
    else if !g.en || g.kind = 2 then .fault { code := cTileState }
    else if t.st ≠ .empty then .next (putPred s p false)
    else
      let t := t.opening (bits w 40 1) (bits w 32 8) (if bits w 0 24 = 0 then none else some ((s.cluster s.myCl).tcyc + bits w 0 24))
      let s := s.setRing s.myCl ring.toNat { g with openPtr := (i + 1) % (g.nslot + 1), slots := tput g.slots i t }
      let s := putReg s d (BitVec.ofNat 64 (tileHandle ring.toNat i t.gen))
      let s := putReg s (d + 1) (BitVec.ofNat 64 (0xFF00000000 + g.rowOff i 0))
      .next (putPred s p true)) s

/-- TROW (R212). -/
def execTrow (h : Hdr) (d a : Reg) (p : Pred) (s : State) : Ans :=
  issue { h := h, srcs := [a], dst := some d, mem := true } (fun s v =>
    let w := (v 0).toNat
    let g := s.ring s.myCl (hdRing w)
    let t := g.slot (hdSlot w)
    if handleBad (v 0) then .fault { code := cIllegalEnc }
    else if tileStale s s.myCl w || g.kind = 2 || t.st ≠ .opened || t.claimed = 2 ^ g.hlog then .next (putPred s p false)
    else
      let s := s.setTslot s.myCl (hdRing w) (hdSlot w) { t with claimed := t.claimed + 1 }
      .next (putPred (putReg s d (BitVec.ofNat 64 t.claimed)) p true)) s

/-- One row of a slot marked (R213); a mark that completes a DROPPING tile empties it. -/
def markRow (s : State) (cl r i row : Nat) (void : Bool) : State :=
  let t := s.tslot cl r i
  let t := { t with marked := t.marked + 1, rows := t.rows + 2 ^ row,
                    valid := if void then t.valid else t.valid + 1, mask := if void then t.mask else t.mask + 2 ^ row }
  let s := s.setTslot cl r i t
  if t.st = .dropping && t.marked = t.claimed then closeSlot s cl r i ⟨.done, 0, 0⟩ else s

/-- Has an earlier access of the context not yet performed at the scope of a release (R204)? -/
def Ctx.unperformed (x : Ctx) : Bool := x.outst.any (·.posted.isNone)

/-- TMARK (R213), a release at cluster scope (R204). -/
def tmark (h : Hdr) (a t1 : Reg) (void : Bool) (s : State) : Ans :=
  issue { h := h, srcs := [a, t1], mem := true } (fun s v =>
    let w := (v 0).toNat
    let row := (v 1).toNat
    let g := s.ring s.myCl (hdRing w)
    let t := g.slot (hdSlot w)
    if handleBad (v 0) then .fault { code := cIllegalEnc }
    else if tileStale s s.myCl w || g.kind = 2 || !(t.st == .opened || t.st == .closing || t.st == .dropping) || t.claimed ≤ row ||
        bit t.rows row then .fault { code := cTileState }
    else if s.me.unperformed then .hold
    else .next (markRow s s.myCl (hdRing w) (hdSlot w) row void)) s

def execTmark (h : Hdr) (a t1 : Reg) (s : State) : Ans := tmark h a t1 false s
def execTmarkVoid (h : Hdr) (a t1 : Reg) (s : State) : Ans := tmark h a t1 true s

/-- The tokens named by T1 to T3, behind the handle A. -/
def tileTokens (v : Nat → Word) : List Nat := [(v 1).toNat, (v 2).toNat, (v 3).toNat]

def tokensBad (s : State) (v : Nat → Word) : Bool := (tileTokens v).any fun t => tokRef s s.myCl t = .invalid

/-- A token of the tile's target unit allocated, or the context held (R175, R214). -/
def tileToken (s : State) (mu : Nat) (d : Reg) (k : State → Nat → State) : Res :=
  match tokAlloc s s.myCl (2 + mu) with
  | none => .hold
  | some (i, t, s) => .next (putReg (k s i) d (BitVec.ofNat 64 t))

/-- SEAL (R214). -/
def execSeal (h : Hdr) (d a t1 t2 t3 : Reg) (s : State) : Ans :=
  issue { h := h, srcs := [a, t1, t2, t3], dst := some d, mem := true } (fun s v =>
    let w := (v 0).toNat
    let r := hdRing w
    let i := hdSlot w
    let g := s.ring s.myCl r
    let t := g.slot i
    if handleBad (v 0) then .fault { code := cIllegalEnc }
    else if tokensBad s v then .fault { code := cTokenInvalid }
    else if tileStale s s.myCl w || g.kind = 2 then .fault { code := cTileState }
    else
      match t.st with
      | .dropping => .fault { code := cTileState }
      | .opened => tileToken s t.mu d fun s k =>
          s.setTslot s.myCl r i { t with st := .closing, deps := tileTokens v, closers := [k] }
      | .closing | .sealed => tileToken s t.mu d fun s k => s.setTslot s.myCl r i { t with closers := t.closers ++ [k] }
      | .empty => tileToken s t.mu d fun s k =>
          -- a run whose token is still on its way gives its status when it completes (R230)
          let m := muOf s.myCl t.mu
          let u := s.mu m
          let mine (k : RunTok) : Bool := k.ring == r && k.slot == i && k.gen == t.gen
          if u.runTok.any mine then
            s.setMu m { u with runTok := u.runTok.map fun q => if mine q then { q with closers := q.closers ++ [k] } else q }
          else giveStatus s s.myCl (2 + t.mu) k t.rcd) s

/-- MUPOST (R215): closes an unclaimed tile with its first n rows valid. -/
def execMupost (h : Hdr) (n : BitVec 8) (d a t1 t2 t3 : Reg) (s : State) : Ans :=
  issue { h := h, srcs := [a, t1, t2, t3], dst := some d, mem := true } (fun s v =>
    let w := (v 0).toNat
    let r := hdRing w
    let i := hdSlot w
    let g := s.ring s.myCl r
    let t := g.slot i
    let n := n.toNat + 1
    if handleBad (v 0) then .fault { code := cIllegalEnc }
    else if tokensBad s v then .fault { code := cTokenInvalid }
    else if tileStale s s.myCl w || g.kind = 2 || t.st ≠ .opened || t.claimed ≠ 0 || 2 ^ g.hlog < n then
      .fault { code := cTileState }
    else tileToken s t.mu d fun s k =>
      s.setTslot s.myCl r i { t with st := .closing, claimed := n, marked := n, valid := n, mask := 2 ^ n - 1, rows := 2 ^ n - 1,
                                     deps := tileTokens v, closers := [k] }) s

/-- TDROP (R216). -/
def execTdrop (h : Hdr) (a : Reg) (s : State) : Ans :=
  issue { h := h, srcs := [a], mem := true } (fun s v =>
    let w := (v 0).toNat
    let r := hdRing w
    let i := hdSlot w
    let g := s.ring s.myCl r
    let t := g.slot i
    if handleBad (v 0) then .fault { code := cIllegalEnc }
    else if tileStale s s.myCl w then .fault { code := cTileState }
    else if t.st = .opened && g.kind ≠ 2 then
      if t.marked = t.claimed then .next (closeSlot (s.setTslot s.myCl r i { t with timer := none }) s.myCl r i ⟨.done, 0, 0⟩)
      else .next (s.setTslot s.myCl r i { t with st := .dropping, timer := none })
    else if t.st = .sealed && g.kind = 2 then .next (closeSlot s s.myCl r i ⟨.done, 0, 0⟩)
    else .fault { code := cTileState }) s

/-- Codes of the slot states (R200). -/
def TileSt.code : TileSt → Nat
  | .empty => 0
  | .opened => 1
  | .closing => 2
  | .sealed => 3
  | .dropping => 4

/-- TSTAT (R217). -/
def tstatWord (s : State) (cl w : Nat) : Nat :=
  let g := s.ring cl (hdRing w)
  let t := g.slot (hdSlot w)
  if tileStale s cl w then 7 + (if g.en && hdSlot w ≤ g.nslot then t.gen * 2 ^ 32 else 0)
  else t.st.code + t.claimed * 2 ^ 4 + t.marked * 2 ^ 13 + t.valid * 2 ^ 22 + t.fired.toNat * 2 ^ 31 + t.gen * 2 ^ 32

def execTstat (h : Hdr) (d a : Reg) (s : State) : Ans :=
  issue { h := h, srcs := [a], dst := some d, mem := true } (fun s v =>
    if handleBad (v 0) then .fault { code := cIllegalEnc }
    else .next (putReg s d (BitVec.ofNat 64 (tstatWord s s.myCl (v 0).toNat)))) s

/-! ### Routine images (R218, R96) -/

/-- Has every handle posted to the unit before the load been popped (R218)? -/
def Mu.drained (u : Mu) (order : Nat) : Bool :=
  (u.easel ++ u.curA.toList ++ u.bHold.toList).all fun t => order ≤ t.order

/-- Routine memory of unit `m` written at an offset. -/
def writeRoutine (s : State) (m off : Nat) (data : List Byte) : State := s.setMem (memPut s.mem (locRm m off) data)

/-- Is the matrix island of cluster `cl` gated, or on its way to be (R358, R359)? -/
def State.gated (s : State) (cl : Nat) : Bool :=
  let c := s.cluster cl
  c.mstep == 0 || (c.mstop != 0 && c.maAsk == 0)

/-- The loads of unit `m` that can be done now are written, and their contexts go on behind their MULOAD. -/
def finishLoads (s : State) (m : Nat) : State :=
  let u := s.mu m
  (u.loads.filter fun l => u.drained l.order && u.st != .running && !s.gated (m / 2) && (s.cluster (m / 2)).mstop == 0).foldl (fun s l =>
    let s := writeRoutine s m l.off l.data
    let u := s.mu m
    let s := s.setMu m { u with loads := u.loads.filter (· != l) }
    match l.ctx with
    | none => s
    | some c =>
      let cur := s.cur
      let s := { s with cur := c }
      { retire (s.setMe { s.me with st := .live }) (s.me.pc + 8) with cur := cur }) s

/-- MULOAD (R218): the context parks until the image is in routine memory. -/
def execMuload (h : Hdr) (m : Bool) (a t1 : Reg) (s : State) : Ans :=
  issue { h := h, srcs := [a, t1], mem := true } (fun s v =>
    let w := (v 1).toNat
    let size := bits w 0 17
    let off := bits w 32 16
    let va := (v 0).toNat
    if bits w 17 15 ≠ 0 || bits w 48 16 ≠ 0 || size < 4 || 65536 < size || size % 4 ≠ 0 || off % 4 ≠ 0 || 65536 < off + size then
      .fault { code := cIllegalEnc }
    else if va % 4 ≠ 0 then .fault { code := cAlign, addr := va }
    else (readSized s va 4 (size / 4)).bind fun ws s =>
      let u := muOf s.myCl m.toNat
      let mu := s.mu u
      let tg := s.tag
      let s := tg.2.setMu u { mu with loads := mu.loads ++ [⟨some s.cur, off, ws.flatMap (leBytes 4), mu.posted, 0⟩] }
      let s := commitSrcs s [a, t1]
      .stay (finishLoads (s.setMe { s.me with st := .parked (.reply tg.1) }) u)) s

/-! ### The steps of the tile logic -/

/-- TILE_TIMER_EXPIRY (R208). -/
def execTileTimerExpiry (cl ring slot : Nat) (s : State) : Ans :=
  let t := s.tslot cl ring slot
  match t.timer with
  | none => .next s
  | some due =>
    if (s.cluster cl).tcyc < due then .next s
    else
      let t := { t with timer := none, fired := true }
      .next (s.setTslot cl ring slot (if t.st = .opened then { t with st := .closing, timed := true, deps := [], closers := [] } else t))

/-- What may happen to a CLOSING slot now (R205, R359). -/
inductive PostNow where | no | discard (rc : CloseRec) | post
  deriving DecidableEq, Repr

def postNow (s : State) (cl ring slot : Nat) : PostNow :=
  let t := s.tslot cl ring slot
  if t.st ≠ .closing || t.marked ≠ t.claimed then .no
  else
    match deps s cl t.deps with
    | .wait => .no
    | .bad code => .discard ⟨.failed, code, 0⟩
    | .ok =>
      if t.valid = 0 then .discard ⟨.done, 0, 0⟩
      else if (s.mu (muOf cl t.mu)).easel.length < 32 && !s.gated cl then .post else .no

/-- TILE_POST (R205, R206). -/
def execTilePost (cl ring slot : Nat) (s : State) : Ans :=
  let g := s.ring cl ring
  let t := g.slot slot
  match postNow s cl ring slot with
  | .no => .next s
  | .discard rc => .next (closeSlot s cl ring slot rc)
  | .post =>
    let m := muOf cl t.mu
    let u := s.mu m
    let e : Tile := ⟨t.tag, t.valid, g.kind, g.hlog, t.timed, ring, slot, t.gen, t.mask, s.now, u.posted⟩
    let s := s.setTslot cl ring slot { t with st := .sealed, deps := [] }
    .next (s.setMu m { u with easel := u.easel ++ [e], posted := u.posted + 1 })

end Sys2Proof.Machine
end

