-- ==== Sys2Proof/Machine/Kv.lean ====
section
/-! DEFINITION. The instructions on the KV space and the lanterns' commands: KVST, KVGATH, KVSUM, KVPF, KVPIN, KVQREL (R274 to R279),
gather and summary runs (R261 to R265), frames asked for (R257), and writes of kv.ctl (R248). -/

namespace Sys2Proof.Machine

/-! ### Coordinates (R267) -/

def coSeq (w : Nat) : Nat := bits w 0 24
def coLayer (w : Nat) : Nat := bits w 24 8
def coHead (w : Nat) : Nat := bits w 32 8
def coKey (w lb : Nat) : KvKey := ⟨coSeq w, coLayer w, coHead w, lb⟩

/-- The checks of a coordinate word (R267). -/
def coordFault (s : State) (w : Nat) : Option Flt :=
  if w / 2 ^ 40 ≠ 0 then some { code := cIllegalEnc }
  else if bits s.kvShape.toNat 0 8 < coLayer w || bits s.kvShape.toNat 8 8 < coHead w then
    some { code := cSeqRange, seq := coSeq w, layer := coLayer w, head := coHead w }
  else none

/-! ### Frames asked for (R257) -/

/-- A request noted, once a context and block. -/
def askFrame (s : State) (r : KvReq) : State :=
  if s.kvReqs.any fun q => q.ctx == r.ctx && q.promo == r.promo && q.seq == r.seq && q.layer == r.layer && q.head == r.head && q.lb == r.lb then s
  else { s with kvReqs := s.kvReqs ++ [r] }

def reqKey (r : KvReq) : KvKey := ⟨r.seq, r.layer, r.head, r.lb⟩

/-- A request served: the new frame, or the start of the promotion; a request whose reason has gone needs nothing. None while no
qualifying entry is FREE. -/
def serveReq (s : State) (r : KvReq) : Option State :=
  let k := reqKey r
  if r.promo then
    match ownLookup s k with
    | some i => if (readEnt s i).st = 2 && (readEnt s i).tier != 0 then startPromo s i else some s
    | none => some s
  else
    let c := readCb s r.seq
    if (s.ctx r.ctx).st ≠ .parked .retry || c.st ≠ 1 || (ownLookup s k).isSome then some s
    else allocFrame s k fun s a => emptyFrame s a c.hd r.scales

/-- FRAME_ALLOCATION (R257). -/
def execFrameAllocation (ctx : Nat) (s : State) : Ans :=
  match s.kvReqs.find? fun r => r.ctx == ctx && (serveReq s r).isSome with
  | none => .next s
  | some r => .next ((serveReq { s with kvReqs := s.kvReqs.filter (· != r) } r).getD s)

/-- An entry that is needed RESIDENT in tier 0 (R260): the state, and whether it is so now; a promotion is started if it can be. -/
def needTier0 (s : State) (i : Nat) : State × Bool :=
  match kvTouch s i with
  | none => (s, false)
  | some s => if (readEnt s i).tier = 0 then (s, true) else ((startPromo s i).getD s, false)

/-! ### KVST (R274) -/

/-- The part of KVST behind its reads: the keys, values and channel scales, in this order in `data`, stored at position `p` of the block
that `co` names; while its frame is not there, the operation waits with what it has read. -/
def kvstStore (s : State) (a : Reg) (co p : Nat) (data : List Nat) : Res :=
  let i := coSeq co
  let c := readCb s i
  let k := coKey co (p / 64)
  let o : KvOp := ⟨s.cur, [i], false, 1 :: co :: p :: data⟩
  if seqGone s i c.home then kvFault s (seqFault cDieLost i 0)
  else
    match ownLookup s k with
    | none => kvStay (askFrame s ⟨s.cur, false, k.seq, k.layer, k.head, k.lb, data.drop (2 * c.hd)⟩) o
    | some e =>
      let r := needTier0 s e
      if !r.2 then kvStay r.1 o
      else
        let fr := (readEnt r.1 e).frame
        kvAnswer (storeVals (storeKeys r.1 fr (p % 64) (data.take c.hd)) fr (p % 64) ((data.drop c.hd).take c.hd)) c.home [a] [] none

/-- What a KVST that waits at its lantern has read: 0 and its block, or 1, coordinate, position, keys, values, scales. -/
def kvstData (s : State) : List Nat := ((s.kvWait.find? (·.ctx == s.cur)).map (·.data)).getD []

/-- The part of KVST behind the read of its block `ws` at `va`: the checks, then the reads of its operands, once (R274). -/
def kvstBlock (s : State) (a : Reg) (va : Nat) (ws : List Nat) : Res :=
  let g (j : Nat) : Nat := (ws[j]?).getD 0
  let co := g 0
  let p := g 1
  let i := coSeq co
  if 2 ^ 32 ≤ p || g 2 % 4 ≠ 0 || g 3 % 4 ≠ 0 || g 4 % 2 ≠ 0 then kvFault s { code := cIllegalEnc, addr := va }
  else
    match coordFault s co with
    | some f => kvFault s f
    | none =>
      let c := readCb s i
      if !seqLegal s i then kvFault s (seqFault cSeqRange i 0)
      else kvEnter s ⟨s.cur, [i], false, 0 :: ws⟩ fun s =>
      if c.st ≠ 1 then kvFault s (seqFault cSeqRange i 0)
      else if seqGone s i c.home then kvFault s (seqFault cDieLost i 0)
      else
        match posFault s i c p with
        | some code => kvFault s (seqFault code i p)
        | none =>
          (readSized s (g 2) 4 c.hd).bind fun ks s =>
          (readSized s (g 3) 4 c.hd).bind fun vs s =>
          (if g 4 = 0 then Acc.ok (unitScales c.hd) s else readSized s (g 4) 2 c.hd).bind fun sc s =>
            kvstStore s a co p (ks ++ vs ++ sc)

/-- KVST (R274): its block is read once, when it issues, and its operands once, before it waits for a frame (R69). -/
def execKvst (h : Hdr) (a : Reg) (s : State) : Ans :=
  issue { h := h, srcs := [a], mem := true } (fun s v =>
    let va := (v 0).toNat
    if kvOff s then kvFault s { code := cIllegalEnc }
    else
    match kvstData s with
    | 0 :: ws => kvstBlock s a va ws
    | 1 :: co :: p :: data => kvEnter s ⟨s.cur, [coSeq co], false, 1 :: co :: p :: data⟩ fun s => kvstStore s a co p data
    | _ => (readWords s va 5).bind fun ws s => kvstBlock s a va ws) s

/-! ### KVPF, KVPIN, KVQREL (R277 to R279) -/

/-- The operand checks of the instructions that name a block (R267). -/
def blockFault (s : State) (co lb : Word) : Option Flt :=
  if kvOff s then some { code := cIllegalEnc }
  else (coordFault s co.toNat).or (if lb.toNat / 2 ^ 26 ≠ 0 then some { code := cIllegalEnc } else none)

/-- Does the coordinate name a sequence that is being dropped (R256), or whose die is gone (R343)? -/
def dropFault (s : State) (co : Word) : Option Flt :=
  let i := coSeq co.toNat
  if !seqLegal s i then none
  else if (readCb s i).st = 2 then some (seqFault cSeqRange i 0)
  else if seqGone s i (readCb s i).home then some (seqFault cDieLost i 0)
  else none

/-- KVPF without W (R277): it never parks. -/
def execKvpf (h : Hdr) (a t1 : Reg) (s : State) : Ans :=
  issue { h := h, srcs := [a, t1], mem := true } (fun s v =>
    match blockFault s (v 0) (v 1) with
    | some f => .fault f
    | none =>
      match readLookup s (coKey (v 0).toNat (v 1).toNat) with
      | none => .next s
      | some i =>
        match kvTouch s i with
        | none => .next s
        | some s =>
          let e := readEnt s i
          if e.tier = 0 then .next s
          else
            match startPromo s i with
            | some s => .next s
            | none => .next (askFrame s ⟨s.cur, true, e.key.seq, e.key.layer, e.key.head, e.key.lb, []⟩)) s

/-- An operation on the block that x[A] and x[T1] name, behind its checks and in the order of its sequence. -/
def kvBlock (s : State) (v : Nat → Word) (k : State → Res) : Res :=
  match blockFault s (v 0) (v 1) with
  | some f => kvFault s f
  | none => kvEnter s (kvOp s [coSeq (v 0).toNat]) fun s =>
    match dropFault s (v 0) with
    | some f => kvFault s f
    | none => k s

/-- KVPF.w and KVPIN.on (R277, R278): `pin` sets PIN once the block is resident. -/
def kvWant (h : Hdr) (pin : Bool) (d a t1 : Reg) (s : State) : Ans :=
  issue { h := h, srcs := [a, t1], dst := some d, mem := true } (fun s v =>
    kvBlock s v fun s =>
      match readLookup s (coKey (v 0).toNat (v 1).toNat) with
      | none => kvAnswer s (readCb s (coSeq (v 0).toNat)).home [a, t1] [(d.toNat, 0)] none
      | some i =>
        let r := needTier0 s i
        if !r.2 then kvStay r.1 (kvOp s [coSeq (v 0).toNat])
        else kvAnswer (if pin then modEnt r.1 i fun e => { e with pin := true } else r.1) (readCb s (coSeq (v 0).toNat)).home [a, t1] [(d.toNat, 1)] none) s

def execKvpfW (h : Hdr) (d a t1 : Reg) (s : State) : Ans := kvWant h false d a t1 s
def execKvpinOn (h : Hdr) (d a t1 : Reg) (s : State) : Ans := kvWant h true d a t1 s

/-- KVPIN.off (R278). -/
def execKvpinOff (h : Hdr) (d a t1 : Reg) (s : State) : Ans :=
  issue { h := h, srcs := [a, t1], dst := some d, mem := true } (fun s v =>
    kvBlock s v fun s =>
      match readLookup s (coKey (v 0).toNat (v 1).toNat) with
      | none => kvAnswer s (readCb s (coSeq (v 0).toNat)).home [a, t1] [(d.toNat, 0)] none
      | some i =>
        match kvTouch s i with
        | none => kvStay s (kvOp s [coSeq (v 0).toNat])
        | some s => kvAnswer (modEnt s i fun e => { e with pin := false }) (readCb s (coSeq (v 0).toNat)).home [a, t1] [(d.toNat, 1)] none) s

/-- KVQREL (R279): it waits for an entry that is FILLING, and changes nothing but QUAR: an eviction goes on (R260). -/
def execKvqrel (h : Hdr) (a t1 : Reg) (s : State) : Ans :=
  issue { h := h, srcs := [a, t1], mem := true } (fun s v =>
    kvBlock s v fun s =>
      let done (s : State) : Res := kvAnswer s (readCb s (coSeq (v 0).toNat)).home [a, t1] [] none
      match readLookup s (coKey (v 0).toNat (v 1).toNat) with
      | none => done s
      | some i =>
        if (readEnt s i).st = 1 then kvStay s (kvOp s [coSeq (v 0).toNat])
        else done (if (readEnt s i).quar then modEnt s i fun e => { e with quar := false } else s)) s

/-! ### KVGATH and KVSUM (R275, R276) -/

/-- The part of KVGATH and KVSUM behind the block's own checks. -/
def lanSubmit (s : State) (v : Nat → Word) (d : Reg) (co : Nat) (q : Nat → LanCmd) : Res :=
  match coordFault s co with
  | some f => .fault f
  | none =>
    if badTokens s (consumed v) then .fault { code := cTokenInvalid }
    else withToken s 4 d fun s i =>
      let c := s.cluster (ctxCl s.cur)
      s.setCluster (ctxCl s.cur) { c with lanQ := c.lanQ ++ [q i] }

/-- Is a gather block legal (R261)? -/
def gatherLegal (ws : List Nat) : Bool :=
  let g (j : Nat) : Nat := (ws[j]?).getD 0
  let p0 := bits (g 1) 0 32
  let n := bits (g 1) 32 32
  g 0 / 2 ^ 40 = 0 && n ≠ 0 && p0 + n ≤ 2 ^ 32 && g 2 / 2 ^ 16 = 0 && p0 ≤ g 3 && g 3 ≤ p0 + n && g 3 < 2 ^ 32

/-- KVGATH (R275). -/
def kvgath (h : Hdr) (vals : Bool) (d a t1 t2 t3 : Reg) (s : State) : Ans :=
  issue { h := h, srcs := [a, t1, t2, t3], dst := some d, mem := true } (fun s v =>
    let va := (v 0).toNat
    if kvOff s then .fault { code := cIllegalEnc }
    else (readWords s va 4).bind fun ws s =>
      let g (j : Nat) : Nat := (ws[j]?).getD 0
      if !gatherLegal ws then .fault { code := cIllegalEnc, addr := va }
      else lanSubmit s v d (g 0) fun i => ⟨true, vals, va, g 0, g 1, g 2, 0, i, consumed v, ctxCore s.cur, s.me.sys, g 3, none⟩) s

def execKvgathK (h : Hdr) (d a t1 t2 t3 : Reg) (s : State) : Ans := kvgath h false d a t1 t2 t3 s
def execKvgathV (h : Hdr) (d a t1 t2 t3 : Reg) (s : State) : Ans := kvgath h true d a t1 t2 t3 s

/-- Is a summary block legal in a mode (R265, R276)? -/
def summaryLegal (raw : Bool) (ws : List Nat) : Bool :=
  let g (j : Nat) : Nat := (ws[j]?).getD 0
  let b0 := bits (g 1) 0 26
  let n := bits (g 1) 32 32
  g 0 / 2 ^ 40 = 0 && bits (g 1) 26 6 = 0 && 1 ≤ n && n ≤ 65536 && (g 2 = 0) == raw && g 2 % 4 = 0 &&
    g 3 % (if raw then 16 else 4) = 0 && b0 ≤ g 4 && g 4 ≤ b0 + n

/-- KVSUM (R276). -/
def kvsum (h : Hdr) (raw : Bool) (d a t1 t2 t3 : Reg) (s : State) : Ans :=
  issue { h := h, srcs := [a, t1, t2, t3], dst := some d, mem := true } (fun s v =>
    let va := (v 0).toNat
    if kvOff s then .fault { code := cIllegalEnc }
    else (readWords s va 5).bind fun ws s =>
      let g (j : Nat) : Nat := (ws[j]?).getD 0
      if !summaryLegal raw ws then .fault { code := cIllegalEnc, addr := va }
      else lanSubmit s v d (g 0) fun i => ⟨false, raw, va, g 0, g 1, g 2, g 3, i, consumed v, ctxCore s.cur, s.me.sys, g 4, none⟩) s

def execKvsumB (h : Hdr) (d a t1 t2 t3 : Reg) (s : State) : Ans := kvsum h false d a t1 t2 t3 s
def execKvsumR (h : Hdr) (d a t1 t2 t3 : Reg) (s : State) : Ans := kvsum h true d a t1 t2 t3 s

/-! ### Runs (R262, R265) -/

/-- A fault of a run, with the fields of R264: the address is that of the command block, but where an access at QADDR or at a
destination faults, it is the access's own (R15). -/
def runFault (q : LanCmd) (code p lb : Nat) : Flt :=
  { code := code, addr := q.blkAddr, prog := p, seq := coSeq q.coord, layer := coLayer q.coord, head := coHead q.coord, lblock := lb }

/-- The entry a run reads for a block: the entry with the state, or how the run ends there. A block in tier 1 is promoted first. -/
def runEntry (s : State) (q : LanCmd) (p lb : Nat) : State × (Option Nat × RowsEnd) :=
  let np := runFault q cKvNotPresent p lb
  match readLookup s (coKey q.coord lb) with
  | none => (s, none, .flt np)
  | some i =>
    match kvTouch s i with
    | none => (s, none, .flt np)
    | some s =>
      if (readEnt s i).tier = 0 then (s, some i, .all)
      else
        match startPromo s i with
        | some s => (s, none, .flt np)
        | none => (s, none, .wait)

/-- Does the destination of a gather take BF16 rows of `hd` elements (R262)? -/
def gatherDest (s : State) (cl w hd : Nat) : Bool :=
  let g := s.ring cl (hdRing w)
  g.en && (g.kind == 0 || g.kind == 1) && g.fmt == 1 && 2 * hd ≤ g.rowb && !tileStale s cl w && (g.slot (hdSlot w)).st == .opened

/-- Positions delivered from `p` on, at most `n`: the state, the first position not delivered, whether a row has been claimed, the
end. -/
def gatherRows (cl hd : Nat) (q : LanCmd) : Nat → State → Nat → Bool → State × Nat × Bool × RowsEnd
  | 0, s, p, c => (s, p, c, .all)
  | n + 1, s, p, c =>
    let r := runEntry s q p (p / 64)
    let s := r.1
    match r.2.1 with
    | none => (s, p, c, r.2.2)
    | some i =>
      let e := readEnt s i
      if e.quar then (s, p, c, .flt (runFault q cKvQuar p (p / 64)))
      else if s.eccAt (e.frame + (if q.flag then 0x1000 + p % 64 * 128 else p % 64 * 64)) (if q.flag then hd else hd / 2) ||
          s.eccAt (e.frame + 0x3000) 0x200 then (s, p, c, .flt (runFault q cEcc p (p / 64)))
      else
        let row := if q.flag then valRow s e.frame (p % 64) hd else keyRow s e.frame (p % 64) hd
        if !row.all bfFinite then (modEnt s i fun e => { e with quar := true }, p, c, .flt (runFault q cKvNonfinite p (p / 64)))
        else if !c && !gatherDest s cl q.w2 hd then (s, p, c, .flt (runFault q cTileState p (p / 64)))
        else
          let g := s.ring cl (hdRing q.w2)
          let t := g.slot (hdSlot q.w2)
          if tileStale s cl q.w2 || t.st ≠ .opened || t.claimed = 2 ^ g.hlog then (s, p, true, .all)
          else
            let s := s.setMem (memPut s.mem (locSp cl (g.rowOff (hdSlot q.w2) t.claimed)) (halves row))
            let s := s.setTslot cl (hdRing q.w2) (hdSlot q.w2) { t with claimed := t.claimed + 1 }
            gatherRows cl hd q n (markRow s cl (hdRing q.w2) (hdSlot q.w2) t.claimed false) (p + 1) true

/-- One term of a bound (R265) in units of 2^-173; none for +∞. -/
def boundTerm (q m1 m2 : Nat) : Option Int :=
  match fp32.val q with
  | .nan | .inf _ => none
  | .fin nq mq eq =>
    if mq = 0 then some 0
    else
      let prod (m : Nat) : Option Int ⊕ Unit :=
        match fp16.val m with
        | .nan => .inl none
        | .inf n => if n = nq then .inl none else .inr ()
        | .fin n k e => .inl (some (sInt (n != nq) (scaleUp (k * mq) (e + eq + 173))))
      match prod m1, prod m2 with
      | .inl none, _ | _, .inl none => none
      | .inr _, .inr _ => none
      | .inr _, .inl (some v) | .inl (some v), .inr _ => some v
      | .inl (some u), .inl (some v) => some (max u v)

/-- U_b (R265). -/
def blockBound (s : State) (a hd : Nat) (qs : List Nat) : Nat :=
  let lo := memRead s.mem (a + 0x3200) 256
  let hi := memRead s.mem (a + 0x3300) 256
  let ts := (List.range hd).map fun c => boundTerm ((qs[c]?).getD 0) (bits lo (16 * c) 16) (bits hi (16 * c) 16)
  match ts.foldl (fun acc t => acc.bind fun x => t.map (x + ·)) (some (0 : Int)) with
  | none => fp32.inf
  | some v => fp32.ofInt .ru false v (-173)

/-- The bytes a summary writes for a block, or how the run ends there. -/
def summaryBytes (s : State) (q : LanCmd) (l hd b : Nat) (qs : List Nat) : State × (Option (List Byte) × RowsEnd) :=
  if l ≤ 64 * b then (s, some (if q.flag then emptySummary hd else leBytes 4 0xFF800000), .all)
  else
    let r := runEntry s q b b
    match r.2.1 with
    | none => (r.1, none, r.2.2)
    | some i =>
      let a := (readEnt r.1 i).frame
      if r.1.eccAt (a + 0x3200) 512 then (r.1, none, .flt (runFault q cEcc b b))
      else (r.1, some (if q.flag then memBytes r.1.mem (a + 0x3200) 512 else leBytes 4 (blockBound r.1 a hd qs)), .all)

/-- Blocks summarised from `b` on, at most `n`. -/
def summaryRows (w : Who) (l hd : Nat) (q : LanCmd) (qs : List Nat) : Nat → State → Nat → State × Nat × RowsEnd
  | 0, s, b => (s, b, .all)
  | n + 1, s, b =>
    let r := summaryBytes s q l hd b qs
    match r.2.1 with
    | none => (r.1, b, r.2.2)
    | some bs =>
      match engWrite r.1 w ((q.w3 + (b - bits q.w1 0 26) * bs.length) % 2 ^ 64) bs with
      | .ok _ s => summaryRows w l hd q qs n s (b + 1)
      | .flt f s => (clearAnswers s w f.addr, b, .flt { runFault q f.code b b with addr := f.addr })
      | .miss a k s => (postMiss s w a k, b, .wait)

/-- A run of command `q` goes on in a later step, with `n` more done; other commands may run before it (R174). -/
def lanGoOn (s : State) (cl : Nat) (q : LanCmd) (n : Nat) : State :=
  let c := s.cluster cl
  tokUpd (s.setCluster cl { c with lanQ := c.lanQ.map fun o => if o.tok = q.tok then q else o }) cl 4 q.tok fun t => { t with count := t.count + n }

/-- The end of a step of command `q`, with `n` more done (R264); at the end of the run what it asked of the walker is stale (R193). -/
def lanEnd (s : State) (cl : Nat) (q : LanCmd) (n : Nat) (e : RowsEnd) : State :=
  let c := s.cluster cl
  let rest := c.lanQ.filter (·.tok != q.tok)
  let count := (c.tok 4 q.tok).count + n
  match e with
  | .all => tokDone (dropEngine (s.setCluster cl { c with lanQ := rest }) q.core (4 + 8 * q.tok)) cl 4 q.tok count
  | .wait => tokUpd (s.setCluster cl { c with lanQ := rest ++ [q] }) cl 4 q.tok fun t => { t with count := count }
  | .flt f =>
    let held := if restartable f.code then c.lanHeld ++ [{ q with snap := none }] else c.lanHeld
    tokFault (dropEngine (s.setCluster cl { c with lanQ := rest, lanHeld := held }) q.core (4 + 8 * q.tok)) cl 4 q.tok f count

/-- The range of PROG of a command: its first and last value. -/
def lanRange (q : LanCmd) : Nat × Nat :=
  if q.gather then (bits q.w1 0 32, bits q.w1 0 32 + bits q.w1 32 32) else (bits q.w1 0 26, bits q.w1 0 26 + bits q.w1 32 32)

/-- The value of PROG at which a run under snapshot `l` ends (R262, R265). -/
def lanLast (q : LanCmd) (l : Nat) : Nat := if q.gather then min (lanRange q).2 l else (lanRange q).2

/-- `n` positions or blocks of a run done from `q.prog` on, under snapshot `l`: state, PROG, whether a row is claimed, the end. -/
def lanBody (s : State) (w : Who) (cl : Nat) (q : LanCmd) (l : Nat) (cd : Bool) (n : Nat) : State × Nat × Bool × RowsEnd :=
  let hd := (readCb s (coSeq q.coord)).hd
  if q.gather then gatherRows cl hd q n s q.prog cd
  else
    let go (s : State) (qs : List Nat) : State × Nat × Bool × RowsEnd :=
      let r := summaryRows w l hd q qs n s q.prog
      (r.1, r.2.1, false, r.2.2)
    if q.flag || n = 0 then go s []
    else
      match engRead s w q.w2 (4 * hd) with
      | .ok bs s => go s ((List.range hd).map fun j => leNat ((bs.drop (4 * j)).take 4))
      | .flt f s => (clearAnswers s w f.addr, q.prog, false, .flt { runFault q f.code q.prog q.prog with addr := f.addr })
      | .miss a k s => (postMiss s w a k, q.prog, false, .wait)

/-- One step of command `q` of cluster `cl`: at the start of a run PROG is read and L taken; then one or more of the positions or blocks
left are done, a free number in one step; at the end of the run PROG is written back, through a translation found before anything is
delivered (R261, R262). -/
def lanStep (s : State) (cl : Nat) (q : LanCmd) : State :=
  let w := engine q.core q.sys (4 + 8 * q.tok)
  let pa := (q.blkAddr + (if q.gather then 0x18 else 0x20)) % 2 ^ 64
  let lb (p : Nat) : Nat := if q.gather then p / 64 else p
  let stop (s : State) (q : LanCmd) (code : Nat) : State := lanEnd s cl q 0 (.flt (runFault q code q.prog (lb q.prog)))
  let finish (s : State) (locs : List Piece) (q : LanCmd) (n : Nat) (e : RowsEnd) : State :=
    match scatterBytes s (leBytes 8 q.prog) locs with
    | .flt f s => lanEnd s cl q n (if e = .all then .flt (runFault q f.code q.prog (lb q.prog)) else e)
    | .miss _ _ s | .ok _ s => lanEnd s cl q n e
  let run (s : State) (locs : List Piece) (q : LanCmd) (l : Nat) (cd : Bool) : State :=
    let left := lanLast q l - q.prog
    let n := s.choose left
    let want := min left (n.1 + 1)
    let r := lanBody n.2 w cl q l cd want
    let done := r.2.1 - q.prog
    let q' := { q with prog := r.2.1, snap := some (l, r.2.2.1) }
    match r.2.2.2 with
    | .wait => lanEnd r.1 cl q' done .wait
    | .flt f => finish r.1 locs q' done (.flt f)
    | .all => if done = want && done < left then lanGoOn r.1 cl q' done else finish r.1 locs q' done .all
  let gone (s : State) : Bool := seqGone s (coSeq q.coord) (readCb s (coSeq q.coord)).home
  match pieceLocs s w true (pieces 9 pa 8) with
  | .miss a k s => lanEnd (postMiss s w a k) cl q 0 .wait
  | .flt f s => stop (clearAnswers s w f.addr) q f.code
  | .ok locs s =>
    match q.snap with
    | some (l, cd) => if gone s then finish s locs q 0 (.flt (runFault q cDieLost q.prog (lb q.prog))) else run s locs q l cd
    | none =>
      match engRead s w pa 8 with
      | .miss a k s => lanEnd (postMiss s w a k) cl q 0 .wait
      | .flt f s => stop (clearAnswers s w f.addr) q f.code
      | .ok bs s =>
        let p := leNat bs
        let c := readCb s (coSeq q.coord)
        if p < (lanRange q).1 || (lanRange q).2 < p then stop s q cIllegalEnc
        else if !seqLegal s (coSeq q.coord) || c.st ≠ 1 then stop s { q with prog := p } cSeqRange
        else if gone s then stop s { q with prog := p } cDieLost
        else run s locs { q with prog := p } c.l false

/-- The first command of a kind that can run, or fail, now (R174). -/
def lanReady (s : State) (cl : Nat) (gather : Bool) : Option LanCmd :=
  if kvOff s then none else (s.cluster cl).lanQ.find? fun q => q.gather == gather && deps s cl q.deps != .wait

/-- A step of the lanterns for cluster `cl` (R262, R265, R174). -/
def lanRun (gather : Bool) (cl : Nat) (s : State) : Ans :=
  match lanReady s cl gather with
  | none => .next s
  | some q =>
    match deps s cl q.deps with
    | .bad code =>
      let c := s.cluster cl
      .next (tokFail (s.setCluster cl { c with lanQ := c.lanQ.filter (·.tok != q.tok) }) cl 4 q.tok code)
    | _ => .next (lanStep s cl q)

def execGatherRun (cl : Nat) (s : State) : Ans := lanRun true cl s
def execSummaryRun (cl : Nat) (s : State) : Ans := lanRun false cl s

/-! ### kv.ctl (R248) -/

/-- Is a lantern operation of the KV space in progress (R248)? -/
def kvBusy (s : State) : Bool :=
  !s.moves.isEmpty || !s.kvReqs.isEmpty || !s.kvWait.isEmpty ||
    s.clusters.any (fun c => c.2.lanQ.any (·.snap.isSome)) ||
    s.events.any fun e => match e.2 with
      | .lanternAnswer _ _ => true
      | _ => false

/-- A write of kv.ctl; none while it holds. -/
def kvCtlSet (s : State) (v : Word) : Option State :=
  if bit s.kvCtl.toNat 0 && !bit v.toNat 0 && kvBusy s then none
  else some { s with kvCtl := v &&& 0xFFFFFF01, kvUsed := s.kvUsed || bit v.toNat 0 }

/-- KV_CTL_WRITE (R248). -/
def execKvCtlWrite (v : Word) (s : State) : Ans := .next ((kvCtlSet s v).getD s)

end Sys2Proof.Machine
end

