-- ==== Sys2Proof/Machine/MuArith.lean ====
section
/-! DEFINITION. The arithmetic of the matrix unit on whole rows: decoding of tile rows (R232), landing (R64 to R66, R234), the value of a
cell (R67), post-processing (R240, R241) and the output conversion (R238, R239). -/

namespace Sys2Proof.Machine

/-! ### Rows of tiles -/

/-- Elements of an A row by the ring's FMT (R232). -/
def rowCount (fmt rowb : Nat) : Nat :=
  if fmt = 1 || fmt = 2 then rowb / 2
  else if fmt = 3 then 16 * ((rowb - 4) / 12)
  else if fmt = 4 then rowb
  else if fmt = 5 then 2 * rowb
  else rowb / 4

/-- An element as the array reads it: an FP32 pattern, an L6 code, or an INT8 code. -/
def storedElem (fmt c : Nat) : Nat := if fmt = 3 || fmt = 4 then c else if fmt = 5 then wrap (sext c 4) 8 else decFmt fmt c

/-- The elements of a row's bytes. -/
def rowElems (fmt rowb : Nat) (bs : List Byte) : List Nat :=
  (unpack (fmtBits fmt) (leNat bs) (rowCount fmt rowb)).map (storedElem fmt)

/-- `n` elements from index `k0` on, with +0 beyond the end (R232). -/
def elemsFrom (l : List Nat) (k0 n : Nat) : List Nat := (List.range n).map fun j => (l[k0 + j]?).getD 0

/-- K of a mode (R64). -/
def modeK : ArMode → Nat
  | .bf16 | .fp16 => 64
  | .int8 => 128
  | .l6 => 256
  | .fp32 | .micro => 16
  | .fp32c => 8

/-- Do rows of the mode occupy a bank pair (R234)? -/
def modePair : ArMode → Bool
  | .l6 | .fp32c => true
  | _ => false

/-! ### Landing (R64 to R66, R234) -/

/-- Two's complement of `n` bits. -/
def twos (v : Int) (n : Nat) : Nat := wrap v n

/-- Start value of a cell and of the paired cell. -/
def startCell (a : Accum) (same : Bool) (c : Nat × Nat) : Nat × Nat :=
  match a with
  | .acc => if same then c else (0, 0)
  | .zero => (0, 0)
  | .pinf => (fp32.inf, 0)
  | .ninf => (fp32.inf + 2 ^ 31, 0)

/-- One cell after a row-cycle: `c` its start value with that of the paired cell, `a` and `b` the operands in ascending k. -/
def landCell (m : ArMode) (pal : List PalOp) (c : Nat × Nat) (a b : List Nat) : Nat × Nat :=
  let ab := a.zip b
  match m with
  | .bf16 | .fp16 => (muAdd c.1 (tree 6 (ab.map fun p => muMul p.1 p.2)), 0)
  | .int8 =>
    let t := ab.foldl (fun t p => t + sext p.1 8 * sext p.2 8) 0
    (twos (clampI (sext c.1 32 + t) (-(2 ^ 31)) (2 ^ 31 - 1)) 32, 0)
  | .l6 =>
    let t := ab.foldl (fun t p => t + l6Mul p.1 p.2) 0
    let n := twos (clampI (sext (c.1 + 2 ^ 32 * c.2) 64 + t) (-(2 ^ 55)) (2 ^ 55 - 1)) 64
    (n % 2 ^ 32, n / 2 ^ 32)
  | .fp32 => (ab.foldl (fun t p => muAdd t (muMul p.1 p.2)) c.1, 0)
  | .fp32c => ab.foldl (fun t p => twoSum t (muMul p.1 p.2)) c
  | .micro => (ab.foldl (fun t p => palStep pal p.1 p.2 t 0) c.1, 0)

def Bank.row (b : Bank) (r : Nat) : AccRow := (tget b.rows r).getD {}
def Bank.setRow (b : Bank) (r : Nat) (v : AccRow) : Bank := { b with rows := tput b.rows r v }

/-- Column `j` of the canvas rows a row-cycle uses. -/
def column (can : List (List Nat)) (j : Nat) : List Nat := can.map fun r => (r[j]?).getD 0

/-- A row lands in its bank, and in the paired bank of a pair mode (R234): `lo` and `hi` the accumulator rows. -/
def landRow (x : InArr) (lo hi : AccRow) : AccRow × AccRow :=
  let lo' := { lo with valid := x.valid, tag := some x.mode }
  let hi' := if modePair x.mode then { hi with valid := x.valid, tag := some x.mode } else hi
  if !x.valid then (lo', hi')
  else
    let cells := (List.range 128).map fun j =>
      let c := startCell x.acc (lo.tag == some x.mode) ((lo.cells[j]?).getD 0, (hi.cells[j]?).getD 0)
      landCell x.mode x.pal c x.a (column x.can j)
    ({ lo' with cells := cells.map Prod.fst, scale := if x.mode = .l6 then x.rscale else lo'.scale },
      if modePair x.mode then { hi' with cells := cells.map Prod.snd } else hi')

/-! ### The value of a cell (R67, R234) -/

/-- Value of cell `j` of row `lo` of bank `b`, `hi` the same row of the bank after it, `cs` the column scale of the front. -/
def cellValue (b : Nat) (lo hi : AccRow) (cs j : Nat) : Nat :=
  let c := (lo.cells[j]?).getD 0
  let h := (hi.cells[j]?).getD 0
  match lo.tag with
  | some .int8 => fp32.ofInt .rne false (sext c 32) 0
  | some .fp32c => if b % 2 = 0 then muAdd c h else c
  | some .l6 =>
    if b % 2 = 0 then muMul (muMul (fp32.ofInt .rne false (sext (c + 2 ^ 32 * h) 64) (-22)) lo.scale) cs
    else fp32.ofInt .rne false (sext c 32) 0
  | _ => c

/-! ### Post-processing (R240, R241) -/

/-- Greatest or least of the elements that take part. -/
def rowBest (mx : Bool) (l : List Nat) : Nat := l.foldl (fun m v => fp32.minmax mx m v) fp32.nan

/-- RNE of half the exact sum of two values (R241). -/
def midpoint (a b : Nat) : Nat :=
  match fp32.val a, fp32.val b with
  | .fin n1 m1 e1, .fin n2 m2 e2 => let r := addExact n1 m1 e1 n2 m2 e2; ftz (fp32.ofInt .rne (n1 && n2) r.1 (r.2 - 1))
  | x, y => fp32.addV .rne x y

def geF (a b : Nat) : Bool :=
  match fp32.cmp a b with
  | some .lt | none => false
  | _ => true

/-- The bisection of THR: thresholds after `n` passes. -/
def bisect (ys : List Nat) (k : Nat) : Nat → Nat → Nat → Nat
  | 0, lo, _ => lo
  | n + 1, lo, hi =>
    let tau := if lo = fp32.inf + 2 ^ 31 && hi = fp32.inf then 0 else midpoint lo hi
    if k ≤ (ys.filter (geF · tau)).length then bisect ys k n tau hi else bisect ys k n lo tau

/-- The first `k` members of a list of columns. -/
def thrRow (xs : List Nat) (ncol k n fill : Nat) : List Nat × Nat × Nat :=
  let ys := (xs.take ncol).map fun x => if fp32.isNan x then fp32.inf + 2 ^ 31 else x
  let lo := bisect ys k n (rowBest false ys) (rowBest true ys)
  let sel := (ys.zipIdx.filter fun y => geF y.1 lo).map Prod.snd
  let kept := sel.take k
  (xs.zipIdx.map fun x => if kept.contains x.2 then x.1 else fill, lo, sel.length)

/-- What PP makes of a row: the row that leaves it, V[r] if it changes, and the survivor count of THR. `v` is V[r] at entry. -/
def ppRow (op : PpOp) (ncol k passes v : Nat) (xs : List Nat) : List Nat × Option Nat × Option Nat :=
  let part (f : Nat → Nat) : List Nat := xs.zipIdx.map fun x => if x.2 < ncol then f x.1 else x.1
  match op with
  | .none => (xs, none, none)
  | .rowmax => (xs, some (rowBest true (xs.take ncol)), none)
  | .rowmin => (xs, some (rowBest false (xs.take ncol)), none)
  | .rowsum => (xs, some (tree 7 (xs.zipIdx.map fun x => if x.2 < ncol then x.1 else 0)), none)
  | .exp2 => (part fun x => exp2 (muSub x v), none, none)
  | .mulv => (part fun x => muMul x v, none, none)
  | .divv => (part fun x => muDiv x v, none, none)
  | .thrNeg => let r := thrRow xs ncol k passes (fp32.inf + 2 ^ 31); (r.1, some r.2.1, some r.2.2)
  | .thrZero => let r := thrRow xs ncol k passes 0; (r.1, some r.2.1, some r.2.2)

/-- Passes a row spends in PP beyond the rest (R223). -/
def ppDelay (op : PpOp) (passes : Nat) : Nat :=
  match op with
  | .thrNeg | .thrZero => passes
  | _ => 0

/-! ### Output (R238, R239) -/

/-- An element in the output format; a subnormal BF16 or FP16 result becomes a zero (R238). -/
def outElem (f : OFmt) (rm : Rm) (v : Nat) : Nat :=
  let c := encFmt f.code rm v
  match f with
  | .bf16 => if c % 2 ^ 15 < 2 ^ 7 then c / 2 ^ 15 * 2 ^ 15 else c
  | .fp16 => if c % 2 ^ 15 < 2 ^ 10 then c / 2 ^ 15 * 2 ^ 15 else c
  | _ => c

/-- The bytes of an output row before they are cut to ROWB. -/
def outBytes (f : OFmt) (rm : Rm) (xs : List Nat) : List Byte :=
  leBytes (128 * fmtBits f.code / 8) (pack (fmtBits f.code) (xs.map (outElem f rm)))

/-- Drain scale (R227). -/
def drainScale (n : Nat) : Nat := pow2 ((n : Int) - 64) 2

end Sys2Proof.Machine
end

