-- ==== Sys2Proof/Machine/Mu.lean ====
section
/-! DEFINITION. The matrix unit's moves (R227 to R242), the issue of a bundle (R42 to R46, R223, R224), and its halt (R243, R342).
A meaning of one move is the issue, on unit `curMu`, of a bundle that holds this one slot. -/

namespace Sys2Proof.Machine

def Mu.bank (u : Mu) (b : Nat) : Bank := u.banks[b % 4]'(Nat.mod_lt _ (by decide))
def Mu.setBank (u : Mu) (b : Nat) (v : Bank) : Mu := { u with banks := u.banks.set (b % 4) v (Nat.mod_lt _ (by decide)) }

/-- Where control goes behind an issue. -/
inductive Ctl where | on | jump (pc : Nat) | rest
  deriving DecidableEq, Repr

/-- What a move answers: done, a failed check with its reason (R237), a poisoned bank, or a TAKE that finds no entry. -/
inductive MRes where
  | ok (s : State) (c : Ctl)
  | bad (reason : Nat)
  | poison (bank : Nat)
  | wait

/-- The issue a move belongs to: its unit, the unit at the start of the cycle, the offset behind the bundle, and whether it is the
bundle's first issue and its last. -/
structure MIssue where
  m : Nat
  u0 : Mu
  nxt : Nat
  first : Bool
  last : Bool

/-- The ring of a tile of unit `m`. -/
def tileRing (s : State) (m : Nat) (t : Tile) : Ring := s.ring (m / 2) t.ring

/-- Value of an output port at the start of the cycle (R224, R227); with no current A tile, TAG and NVALID are free values. -/
def outVal (s : State) (u : Mu) (p : OutPort) : Nat × State :=
  match p with
  | .hrows => ((u.curA.map fun t => 2 ^ t.hlog).getD 0, s)
  | .hblk => ((u.curA.map fun t => 2 ^ t.hlog / 8).getD 0, s)
  | .htag => match u.curA with
    | some t => (t.tag, s)
    | none => (s.free.1 % 256, s.free.2)
  | .hval => match u.curA with
    | some t => (t.nvalid, s)
    | none => (s.free.1 % 257, s.free.2)
  | .lrow => ((u.loops.head?.map fun l => 8 * l.index).getD 0, s)
  | .stat => (((List.range 4).map fun b => (u.bank b).poison.toNat * 2 ^ b).sum, s)
  | .count => (u.count0, s)

/-- May the easel's head be taken: posted before this cycle, and not behind a routine load that waits (R218, R223)? -/
def takeable (s : State) (m : Nat) : Option Tile :=
  match (s.mu m).easel with
  | e :: _ => if e.cyc < s.now && (s.mu m).loads.all fun l => e.order < l.order then some e else none
  | [] => none

/-- The entry `e` at the easel's head taken (R220, R228). -/
def takeEntry (u : Mu) (e : Tile) : Mu :=
  if e.kind = 1 then { u with easel := u.easel.tail, bHold := some e, bLoaded := true }
  else { u with easel := u.easel.tail, curA := some e, afRow := 0, drRow := 0, firstOut := 0, nOut := 0 }

def moveTake (x : MIssue) (s : State) : MRes :=
  match takeable s x.m with
  | none => .wait
  | some e =>
    let u := s.mu x.m
    if (e.kind = 1 && u.bHold.isSome) || (e.kind ≠ 1 && u.curA.isSome) then .bad 6 else .ok (s.setMu x.m (takeEntry u e)) .on

def moveJump (x : MIssue) (t : JumpSrc) (s : State) : MRes :=
  match t with
  | .bay b => .ok s (.jump (256 * b.toNat))
  | .htag => let v := outVal s x.u0 .htag; .ok v.2 (.jump (256 * v.1))

/-- SEQ.LOOPN acts at its bundle's first issue (R229). -/
def moveLoopn (x : MIssue) (n : LoopSrc) (s : State) : MRes :=
  if !x.first then .ok s .on
  else
    let v := match n with
      | .imm c => (c.toNat + 1, s)
      | .out p => outVal s x.u0 p
    let u := v.2.mu x.m
    if 4 ≤ u.loops.length || v.1 = 0 || 65536 < v.1 then .bad 7
    else .ok (v.2.setMu x.m { u with loops := ⟨x.nxt, v.1, 0⟩ :: u.loops }) .on

/-- SEQ.ENDL acts at its bundle's last issue (R229). -/
def moveEndl (x : MIssue) (s : State) : MRes :=
  if !x.last then .ok s .on
  else
    let u := s.mu x.m
    match u.loops with
    | [] => .bad 7
    | l :: r =>
      if 1 < l.left then .ok (s.setMu x.m { u with loops := { l with left := l.left - 1, index := l.index + 1 } :: r }) (.jump l.body)
      else .ok (s.setMu x.m { u with loops := r }) .on

/-- Cycle in which a drained row is written (R223). -/
def InPipe.writeAt (p : InPipe) : Nat := p.rd + 12 + ppDelay p.op p.passes

/-- The slot of a tile emptied by the unit's pop; its waiting token entries are given back. -/
def popSlot (s : State) (m : Nat) (t : Tile) : List Nat × State :=
  let sl := s.tslot (m / 2) t.ring t.slot
  (sl.closers, s.setTslot (m / 2) t.ring t.slot { sl with st := .empty, deps := [], closers := [] })

/-- The run's token completes DONE in the cycle of R223, with the COUNT of R214. -/
def runToken (u : Mu) (a : Tile) (closers : List Nat) : RunTok :=
  let w := (u.pipe.filter fun p => p.out.isSome).foldl (fun d p => max d (p.writeAt + 1)) (u.cyc + 1)
  let d := u.sealOuts.foldl (fun d o => max d (o.due + 1)) w
  ⟨d, a.ring, a.slot, a.gen, ⟨.done, 0, u.firstOut + u.nOut * 2 ^ 16⟩, closers⟩

/-- SEQ.DONE (R230): it traps while a FEED of its tile, or any FEED of its own issue (R224), has not entered. -/
def moveDone (x : MIssue) (cont : Bool) (s : State) : MRes :=
  let u := s.mu x.m
  match u.curA with
  | none => .bad 8
  | some a =>
    if u.feeds.any (fun f => f.tile == some a) || x.u0.feeds.length < u.feeds.length then .bad 8
    else
      let r := popSlot s x.m a
      .ok (r.2.setMu x.m { u with curA := none, runTok := u.runTok ++ [runToken u a r.1] }) (if cont then .on else .rest)

/-- Element format of a feed's source: the ring's FMT, or FP32 patterns of a bank (R232). -/
def feedFmt (s : State) (m : Nat) (src : FeedSrc) (a : Option Tile) : Nat :=
  match src, a with
  | .tile, some t => (tileRing s m t).fmt
  | _, _ => 0

/-- The checks of R233 on the captured mode, the source's format and the front canvas tag. -/
def feedFits (md : ArMode) (bank : Bool) (fmt : Nat) (tag : CanTag) (dest : Nat) (acc : Accum) (pal : Option (List PalOp)) : Bool :=
  let tagIn (l : List Nat) : Bool := match tag with
    | .fmt f => l.contains f
    | .had => false
  (match md with
    | .bf16 => if bank then tag == .had else fmt == 1 && (tagIn [1] || tag == .had)
    | .fp16 => if bank then tag == .had else fmt == 2 && (tagIn [2] || tag == .had)
    | .int8 => !bank && (fmt == 4 || fmt == 5) && tagIn [4, 5]
    | .l6 => !bank && fmt == 3 && tagIn [3]
    | .fp32 | .fp32c | .micro => (bank || fmt ≤ 2) && (tagIn [0, 1, 2] || tag == .had)) &&
  (!modePair md || dest % 2 == 0) && !((acc == .pinf || acc == .ninf) && (md == .int8 || md == .l6)) &&
  !(md == .micro && pal.isNone)

/-- Start row of a FEED or a DRAIN: a pointer, or an output. -/
def startRow (x : MIssue) (s : State) (start : Option OutPort) (ptr : Nat) : Nat × State :=
  match start with
  | none => (ptr, s)
  | some p => outVal s x.u0 p

/-- AF.FEED (R231 to R233). -/
def moveFeed (x : MIssue) (start : Option OutPort) (n : BitVec 7) (s : State) : MRes :=
  let u := s.mu x.m
  let v := startRow x s start u.afRow
  let bank := u.afFrom != .tile
  let ext := match u.afFrom, u.curA with
    | .tile, some a => 2 ^ a.hlog
    | _, _ => 256
  let cnt := if n = 0 then ext - v.1 else n.toNat
  let k0 := 8 * u.afBase
  if 16 ≤ u.feeds.length then .bad 3
  else if (!bank && u.curA.isNone) || (start.isSome && 256 ≤ v.1) || (n = 0 && ext ≤ v.1) || ext < v.1 + cnt ||
      256 < k0 % 256 + modeK u.arMode ||
      !feedFits u.arMode bank (feedFmt s x.m u.afFrom u.curA) u.front.tag u.arDest u.arAccum u.palette then .bad 4
  else if (u.bank u.arDest).poison then .poison u.arDest
  else if modePair u.arMode && (u.bank (u.arDest + 1)).poison then .poison (u.arDest + 1)
  else
    let f : Feed := ⟨u.afFrom, if bank then none else u.curA, v.1, cnt, k0, u.arMode, u.palette.getD [], u.arDest, u.arAccum, u.cyc + 1⟩
    .ok (v.2.setMu x.m { u with feeds := u.feeds ++ [f], afRow := v.1 + cnt }) .on

/-- A row of tile `t` of unit `m` from its slot. -/
def tileRow (s : State) (m : Nat) (t : Tile) (r : Nat) : List Nat :=
  let g := tileRing s m t
  rowElems g.fmt g.rowb (memBytes s.mem (locSp (m / 2) (g.rowOff t.slot r)) g.rowb)

/-- What BL.LOAD fills the back with (R236). -/
def loadHalf (s : State) (m : Nat) (t : Tile) : Half :=
  let g := tileRing s m t
  { tag := .fmt g.fmt
    rows := ((List.range (2 ^ t.hlog)).filter (bit t.mask ·)).map fun r => (r, (tileRow s m t r).take 128)
    scales := if g.fmt = 3 then
        unpack 32 (leNat (memBytes s.mem (locSp (m / 2) (g.rowOff t.slot 0 + g.rowb * 2 ^ t.hlog)) 512)) 128
      else [] }

/-- A LOAD or HAD starts to fill the back canvas: complete in 32 cycles (R223). -/
def Mu.startFill (u : Mu) (h : Half) (load : Bool) : Mu :=
  { u with fill := some (u.cyc + 32, h), fillStart := u.cyc, bLoaded := if load then false else u.bLoaded }

def moveLoad (x : MIssue) (s : State) : MRes :=
  let u := s.mu x.m
  match u.bHold with
  | none => .bad 5
  | some t =>
    let g := tileRing s x.m t
    if u.fill.isSome || (g.fmt = 3 && g.slotb < g.rowb * 2 ^ t.hlog + 512) then .bad 5
    else .ok (s.setMu x.m (u.startFill (loadHalf s x.m t) true)) .on

def moveSwap (x : MIssue) (s : State) : MRes :=
  let u := s.mu x.m
  if u.fill.isSome then .bad 5 else .ok (s.setMu x.m { u with front := u.back, back := u.front }) .on

/-- Parity of the set bits of a number below 256. -/
def oddBits (v : Nat) : Bool := ((List.range 8).filter (bit v ·)).length % 2 == 1

/-- Rows 64h to 64h + 63 of H128 (R236). -/
def hadHalf (h : Bool) : Half :=
  { tag := .had
    rows := (List.range 64).map fun i =>
      let r := i + if h then 64 else 0
      (r, (List.range 128).map fun j => if oddBits (r &&& j) then 0xBF800000 else 0x3F800000)
    scales := [] }

def moveHad (x : MIssue) (h : Bool) (s : State) : MRes :=
  let u := s.mu x.m
  if u.fill.isSome then .bad 5 else .ok (s.setMu x.m (u.startFill (hadHalf h) false)) .on

def movePop (x : MIssue) (s : State) : MRes :=
  let u := s.mu x.m
  match u.bHold with
  | none => .bad 5
  | some t =>
    if !u.bLoaded then .bad 5
    else .ok (closeSlot (s.setMu x.m { u with bHold := none, bLoaded := true }) (x.m / 2) t.ring t.slot ⟨.done, 0, 0⟩) .on

/-- AR.PAL (R235): END, or a fourth op, completes the palette; FEEDs see it from the next cycle on. -/
def palWrite (u : Mu) (o : PalOp) : Mu :=
  if o.opc = .fin then { u with palNew := some u.palPart, palPart := [] }
  else if 3 ≤ u.palPart.length then { u with palNew := some (u.palPart ++ [o]), palPart := [] }
  else { u with palPart := u.palPart ++ [o] }

/-- DR.DRAIN (R238). -/
def moveDrain (x : MIssue) (start : Option OutPort) (n : BitVec 7) (s : State) : MRes :=
  let u := s.mu x.m
  let v := startRow x s start u.drRow
  let ext := (u.curA.map fun a => 2 ^ a.hlog).getD 0
  let cnt := if n = 0 then ext - v.1 else n.toNat
  let misfit := match u.outTile with
    | none => true
    | some o => let g := s.ring (x.m / 2) o.ring; g.fmt ≠ u.drFmt.code || 2 ^ g.hlog < 8 * u.owBase + v.1 + cnt
  if u.drain.isSome || (start.isSome && 256 ≤ v.1) || (n = 0 && ext ≤ v.1) || 256 < v.1 + cnt || (u.owEn && misfit) then .bad 9
  else if (u.bank u.acSel).poison then .poison u.acSel
  else
    let d : Drain := ⟨u.acSel, v.1, cnt, u.drFmt, u.drScale, u.drRound, u.ppOp, if u.ppK = 0 then 128 else u.ppK, u.ppPasses,
      if u.ppNcol = 0 then 128 else u.ppNcol, if u.owEn then u.outTile else none, u.owBase, u.cyc + 1⟩
    .ok (v.2.setMu x.m { u with drain := some d, drRow := v.1 + cnt }) .on

/-- OW.OPEN (R242). -/
def moveOpen (x : MIssue) (ring : Nat) (s : State) : MRes :=
  let u := s.mu x.m
  let cl := x.m / 2
  let g := s.ring cl ring
  let i := g.openPtr
  let t := g.slot i
  if !g.en || g.kind ≠ 2 || t.st ≠ .empty || u.outTile.isSome then .bad 10
  else
    let t := t.opening 0 0 none
    let s := s.setRing cl ring { g with openPtr := (i + 1) % (g.nslot + 1), slots := tput g.slots i t }
    .ok (s.setMu x.m { u with outTile := some ⟨ring, i, t.gen⟩ }) .on

/-- An out tile becomes SEALED. -/
def sealOut (s : State) (m : Nat) (o : OutTile) : State :=
  let t := s.tslot (m / 2) o.ring o.slot
  s.setTslot (m / 2) o.ring o.slot { t with st := .sealed }

/-- OW.SEALOUT (R242): sealed in the cycle of R223. -/
def moveSealout (x : MIssue) (s : State) : MRes :=
  let u := s.mu x.m
  match u.outTile with
  | none => .bad 10
  | some o =>
    let d := (u.pipe.filter fun p => p.out = some o && p.rd < u.cyc).foldl (fun d p => max d (p.writeAt + 1))
      (if u.wrote.contains o then u.cyc + 1 else u.cyc)
    let u := { u with outTile := none, nOut := u.nOut + 1,
                      firstOut := if u.nOut = 0 then tileHandle o.ring o.slot o.gen else u.firstOut }
    if d = u.cyc then .ok (sealOut (s.setMu x.m u) x.m o) .on
    else .ok (s.setMu x.m { u with sealOuts := u.sealOuts ++ [⟨d, o⟩] }) .on

/-- A setting move (R224): it acts before every trigger of its issue. -/
def setting (u : Mu) (i : Instr) : Option Mu :=
  match i with
  | .afBase _ n => some { u with afBase := n.toNat }
  | .afFrom _ f => some { u with afFrom := f }
  | .arMode _ md => some { u with arMode := md }
  | .arPal _ o => some (palWrite u o)
  | .arDest _ b => some { u with arDest := b.toNat }
  | .arAccum _ v => some { u with arAccum := v }
  | .acSel _ b => some { u with acSel := b.toNat, drRow := 0 }
  | .drFmt _ f => some { u with drFmt := f }
  | .drScale _ n => some { u with drScale := n.toNat }
  | .drRound _ r => some { u with drRound := r }
  | .ppOp _ o => some { u with ppOp := o }
  | .ppK _ n => some { u with ppK := n.toNat }
  | .ppPasses _ n => some { u with ppPasses := n.toNat }
  | .ppNcol _ n => some { u with ppNcol := n.toNat }
  | .owWrite _ en b => some { u with owEn := en, owBase := b.toNat }
  | _ => none

/-- Is the move one of SEQ.JUMP, SEQ.ENDL and SEQ.DONE, the last triggers of an issue (R224)? -/
def lastTrigger (i : Instr) : Bool :=
  match i with
  | .seqJump _ _ | .seqEndl _ | .seqDone _ _ => true
  | _ => false

/-- What one move does (R227 to R242). LOOPN and ENDL with H = 1 are reserved (R229). -/
def muMove (x : MIssue) (i : Instr) (s : State) : MRes :=
  match i with
  | .seqTake _ => moveTake x s
  | .seqJump _ t => moveJump x t s
  | .seqLoopn h n => if h then .bad 1 else moveLoopn x n s
  | .seqEndl h => if h then .bad 1 else moveEndl x s
  | .seqDone _ c => moveDone x c s
  | .seqIdle _ => .ok s .on
  | .afFeed _ st n => moveFeed x st n s
  | .blLoad _ => moveLoad x s
  | .blSwap _ => moveSwap x s
  | .blHad _ h => moveHad x h s
  | .blPop _ => movePop x s
  | .acClear _ b => let u := s.mu x.m; .ok (s.setMu x.m { u with clears := u.clears ++ [(u.cyc + 1, b.toNat)] }) .on
  | .acPclr _ b => let u := s.mu x.m; .ok (s.setMu x.m (u.setBank b.toNat { u.bank b.toNat with poison := false })) .on
  | .drDrain _ st n => moveDrain x st n s
  | .owOpen _ r => moveOpen x r.toNat s
  | .owSealout _ => moveSealout x s
  | i =>
    match setting (s.mu x.m) i with
    | some u => .ok (s.setMu x.m u) .on
    | none => .bad 1

/-! ### Halting (R243, R342) -/

/-- The fault record of a matrix unit: every field but these is 0, STAMP among them (R243, R342). -/
def muRecord (s : State) (m code addr prog : Nat) : Nat :=
  code + (128 * (m / 2)) * 2 ^ 16 + (s.mu m).bpc * 2 ^ 64 + addr * 2 ^ 128 + prog % 2 ^ 32 * 2 ^ 320

/-- The unit halts at its issue: record at cl.farea, upcall to the control context of core 0. -/
def muHalt (s : State) (m code reason addr prog : Nat) : State :=
  let u := s.mu m
  let cl := m / 2
  let r := muRecord s m code addr prog
  let s := s.setMu m { u with st := .halted, reason := reason, code := code, lastBpc := u.bpc }
  postUpcall (putRecord s (bits (s.cluster cl).farea.toNat 7 41 * 128 + 64 * (m % 2)) r) (8 * cl) 0 0 0

/-- A FEED into, or a DRAIN of, a poisoned bank halts the unit (R244). -/
def haltPoison (s : State) (m b : Nat) : State :=
  let u := s.mu m
  let k := u.bank b
  muHalt (s.setMu m { u with frow := k.frow, fb := k.fb }) m cMuPoison 0x10 k.faddr k.frow

/-! ### The issue of a bundle -/

/-- Moves acting one after another; the later of two control decisions stands. -/
def runMoves (x : MIssue) : List Instr → State → Ctl → MRes
  | [], s, c => .ok s c
  | i :: r, s, c =>
    match muMove x i s with
    | .ok s c' => runMoves x r s (if c' = .on then c else c')
    | e => e

/-- The slots of an issue in the order in which they act (R224): settings, then triggers in engine order, the last triggers of SEQ
behind them. -/
def moveOrder (l : List Instr) : List Instr :=
  l.filter (fun i => (setting {} i).isSome) ++ l.filter (fun i => (setting {} i).isNone && !lastTrigger i) ++ l.filter lastTrigger

/-- H of a slot (R43). -/
def holds (i : Instr) : Bool :=
  match i with
  | .seqTake h | .seqJump h _ | .seqLoopn h _ | .seqEndl h | .seqDone h _ | .seqIdle h => h
  | .afFeed h _ _ | .afBase h _ | .afFrom h _ => h
  | .blLoad h | .blSwap h | .blHad h _ | .blPop h => h
  | .arMode h _ | .arPal h _ | .arDest h _ | .arAccum h _ => h
  | .acClear h _ | .acSel h _ | .acPclr h _ => h
  | .drDrain h _ _ | .drFmt h _ | .drScale h _ | .drRound h _ => h
  | .ppOp h _ | .ppK h _ | .ppPasses h _ | .ppNcol h _ => h
  | .owOpen h _ | .owWrite h _ _ | .owSealout h => h
  | _ => false

/-- The slots performed at an issue, by engine: a present slot, else the held one (R45). -/
def slotsOf (present held : List (Nat × Instr)) : List (Nat × Instr) :=
  (List.range 8).filterMap fun e => ((tget present e).orElse fun _ => tget held e).map fun i => (e, i)

/-- Held slots behind an issue (R45). -/
def holdNext (slots : List (Nat × Instr)) : List (Nat × Instr) := slots.filter fun p => holds p.2

/-- One bundle issue of unit `m` (R42 to R46, R223, R224): nothing of it is committed unless every check passes. -/
def issueBundle (s : State) (m : Nat) (b : Bundle) : State :=
  let u := s.mu m
  let sl := slotsOf b.moves u.held
  let nxt := u.bpc + b.size
  let last := u.rep == b.rep
  match runMoves ⟨m, u, nxt, u.rep == 0, last⟩ (moveOrder (sl.map Prod.snd)) s .on with
  | .wait => s
  | .bad r => muHalt s m cMuBundle r 0 0
  | .poison k => haltPoison s m k
  | .ok s c =>
    let v := s.mu m
    let v := { v with lastBpc := u.bpc, held := holdNext sl }
    if !last then s.setMu m { v with rep := u.rep + 1 }
    else
      match c with
      | .on => s.setMu m { v with rep := 0, bpc := nxt, fell := b.last }
      | .jump t => s.setMu m { v with rep := 0, bpc := t, fell := false }
      | .rest => s.setMu m { v with rep := 0, bpc := nxt, fell := false, st := .resting, held := [], loops := [], feeds := [] }

/-- The bundle at offset `off` of routine memory. -/
def bundleAt (s : State) (m off : Nat) : Except DecodeError Bundle :=
  if 65536 ≤ off then .error .muBeyond else decodeBundle (memBytes s.mem (locRm m off) (min 28 (65536 - off)))

/-- Reason of a bundle that cannot be read (R237). -/
def muReason (e : DecodeError) : Nat := if e = .muBeyond then 2 else 1

/-- The issue of a RUNNING unit (R223). -/
def muIssue (s : State) (m : Nat) : State :=
  let u := s.mu m
  if u.st ≠ .running then s
  else if u.fell then muHalt s m cMuBundle 2 0 0
  else
    match bundleAt s m u.bpc with
    | .error e => muHalt s m cMuBundle (muReason e) 0 0
    | .ok b => issueBundle s m b

/-- Engine of a move (R42). -/
def engineOf (i : Instr) : Nat := ((encodeMove i).getD 0) / 2 ^ 20 % 8

/-- One move as an issue of its own on unit `curMu`: a bundle of this slot alone. -/
def muExec (i : Instr) (s : State) : Ans := .next (issueBundle s s.curMu ⟨(s.mu s.curMu).rep, false, [(engineOf i, i)], 8⟩)

def execSeqTake (hold : Bool) (s : State) : Ans := muExec (.seqTake hold) s
def execSeqJump (hold : Bool) (t : JumpSrc) (s : State) : Ans := muExec (.seqJump hold t) s
def execSeqLoopn (hold : Bool) (n : LoopSrc) (s : State) : Ans := muExec (.seqLoopn hold n) s
def execSeqEndl (hold : Bool) (s : State) : Ans := muExec (.seqEndl hold) s
def execSeqDone (hold : Bool) (cont : Bool) (s : State) : Ans := muExec (.seqDone hold cont) s
def execSeqIdle (hold : Bool) (s : State) : Ans := muExec (.seqIdle hold) s
def execAfFeed (hold : Bool) (start : Option OutPort) (n : BitVec 7) (s : State) : Ans := muExec (.afFeed hold start n) s
def execAfBase (hold : Bool) (n : BitVec 7) (s : State) : Ans := muExec (.afBase hold n) s
def execAfFrom (hold : Bool) (f : FeedSrc) (s : State) : Ans := muExec (.afFrom hold f) s
def execBlLoad (hold : Bool) (s : State) : Ans := muExec (.blLoad hold) s
def execBlSwap (hold : Bool) (s : State) : Ans := muExec (.blSwap hold) s
def execBlHad (hold : Bool) (half : Bool) (s : State) : Ans := muExec (.blHad hold half) s
def execBlPop (hold : Bool) (s : State) : Ans := muExec (.blPop hold) s
def execArMode (hold : Bool) (m : ArMode) (s : State) : Ans := muExec (.arMode hold m) s
def execArPal (hold : Bool) (op : PalOp) (s : State) : Ans := muExec (.arPal hold op) s
def execArDest (hold : Bool) (b : BitVec 2) (s : State) : Ans := muExec (.arDest hold b) s
def execArAccum (hold : Bool) (v : Accum) (s : State) : Ans := muExec (.arAccum hold v) s
def execAcClear (hold : Bool) (b : BitVec 2) (s : State) : Ans := muExec (.acClear hold b) s
def execAcSel (hold : Bool) (b : BitVec 2) (s : State) : Ans := muExec (.acSel hold b) s
def execAcPclr (hold : Bool) (b : BitVec 2) (s : State) : Ans := muExec (.acPclr hold b) s
def execDrDrain (hold : Bool) (start : Option OutPort) (n : BitVec 7) (s : State) : Ans := muExec (.drDrain hold start n) s
def execDrFmt (hold : Bool) (f : OFmt) (s : State) : Ans := muExec (.drFmt hold f) s
def execDrScale (hold : Bool) (n : BitVec 7) (s : State) : Ans := muExec (.drScale hold n) s
def execDrRound (hold : Bool) (rm : Rm) (s : State) : Ans := muExec (.drRound hold rm) s
def execPpOp (hold : Bool) (op : PpOp) (s : State) : Ans := muExec (.ppOp hold op) s
def execPpK (hold : Bool) (n : BitVec 7) (s : State) : Ans := muExec (.ppK hold n) s
def execPpPasses (hold : Bool) (n : BitVec 6) (s : State) : Ans := muExec (.ppPasses hold n) s
def execPpNcol (hold : Bool) (n : BitVec 7) (s : State) : Ans := muExec (.ppNcol hold n) s
def execOwOpen (hold : Bool) (ring : BitVec 4) (s : State) : Ans := muExec (.owOpen hold ring) s
def execOwWrite (hold : Bool) (en : Bool) (base : BitVec 5) (s : State) : Ans := muExec (.owWrite hold en base) s
def execOwSealout (hold : Bool) (s : State) : Ans := muExec (.owSealout hold) s

end Sys2Proof.Machine
end

