-- ==== Sys2Proof/Machine/MuDev.lean ====
section
/-! DEFINITION. What happens inside a matrix unit beside its issues (R220, R223, R224): the dispatch take, rows entering and landing,
the canvas, drains, out writes, completions, poison (R244), RESUME and REST (R245), and mu.stat (R246). -/

namespace Sys2Proof.Machine

/-- The start of a matrix-island cycle: the counter, what the cycle's issue sees of its start, a palette completed in the cycle before (R235), and the CLEARs that take effect
(R224). -/
def muTick (s : State) (m : Nat) : State :=
  let u := s.mu m
  let u := { u with cyc := u.cyc + 1, count0 := u.ppCount, wrote := [] }
  let u := match u.palNew with
    | some p => { u with palette := some p, palNew := none }
    | none => u
  let u := (u.clears.filter (·.1 ≤ u.cyc)).foldl (fun u c => u.setBank c.2 { u.bank c.2 with rows := [] }) u
  finishLoads (s.setMu m { u with clears := u.clears.filter fun c => u.cyc < c.1 }) m

/-- DISPATCH_TAKE (R220, R221). -/
def execDispatchTake (mu : Nat) (s : State) : Ans :=
  let u := s.mu mu
  if u.st ≠ .resting then .next s
  else
    match takeable s mu with
    | none => .next s
    | some e =>
      if e.kind = 1 then .next (if u.bHold.isNone then s.setMu mu (takeEntry u e) else s)
      else .next (s.setMu mu { takeEntry u e with st := .running, bpc := 256 * e.tag, rep := 0, fell := false, held := [], loops := [] })

/-- Does a row of tile `t` hold uncorrectable data (R244)? -/
def rowBad (s : State) (m : Nat) (t : Tile) (r : Nat) : Bool :=
  let g := tileRing s m t
  s.eccAt (locSp (m / 2) (g.rowOff t.slot r)) g.rowb

/-- Do the column scales behind the rows of an L6 tile hold uncorrectable data (R236, R244)? -/
def scalesBad (s : State) (m : Nat) (t : Tile) : Bool :=
  let g := tileRing s m t
  g.fmt == 3 && s.eccAt (locSp (m / 2) (g.rowOff t.slot 0 + g.rowb * 2 ^ t.hlog)) 512

/-- The unit is poisoned by data at offset `o` of the scratchpad, row `r`: target bank `b` (R244). -/
def poison (s : State) (m o r b : Nat) (fb : Bool) : State :=
  let a := 0xFF00000000 + o
  let u := s.mu m
  let u := { u with frow := r, fb := fb }
  muHalt (s.setMu m (u.setBank b { u.bank b with poison := true, frow := r, faddr := a, fb := fb })) m cMuPoison 0x10 a r

/-- Poisoned by row `r` of tile `t`. -/
def poisonRow (s : State) (m : Nat) (t : Tile) (r b : Nat) (fb : Bool) : State :=
  poison s m ((tileRing s m t).rowOff t.slot r) r b fb

/-- MU_POISON (R244): an A row at its entry, or row `k` of a B load at its read; a `k` beyond the tile's rows stands for its column scales,
whose row number is a free value. -/
def execMuPoison (mu : Nat) (brow : Option Nat) (s : State) : Ans :=
  let u := s.mu mu
  match brow with
  | none =>
    match u.feeds with
    | f :: _ =>
      match f.tile with
      | some t => if rowBad s mu t f.row then .next (poisonRow (s.setMu mu { u with feeds := [] }) mu t f.row f.dest false) else .next s
      | none => .next s
    | [] => .next s
  | some k =>
    match u.fill, u.bHold with
    | some (d, h), some t =>
      let g := tileRing s mu t
      if 2 ^ t.hlog ≤ k then
        if scalesBad s mu t then
          let r := s.choose 256
          .next (poison (r.2.setMu mu { u with fill := some (d, { h with scales := u.back.scales }) }) mu
            (g.rowOff t.slot 0 + g.rowb * 2 ^ t.hlog) r.1 u.arDest true)
        else .next s
      else if rowBad s mu t k then
        let h := { h with rows := h.rows.filter (·.1 < k) ++ u.back.rows.filter (k ≤ ·.1) }
        .next (poisonRow (s.setMu mu { u with fill := some (d, h) }) mu t k u.arDest true)
      else .next s
    | _, _ => .next s

/-- The canvas rows a row-cycle reads, 128 columns each (R232). -/
def canRows (h : Half) (k0 n : Nat) : List (List Nat) := (List.range n).map fun j => (tget h.rows (k0 % 256 + j)).getD []

/-- Column scale `j` of the front canvas (R236). -/
def colScale (h : Half) (j : Nat) : Nat := (h.scales[j]?).getD 0x3F800000

/-- The 128 cells of row `r` of bank `b` as R67 converts them. -/
def bankRow (u : Mu) (b r : Nat) : List Nat :=
  (List.range 128).map fun j => cellValue b ((u.bank b).row r) ((u.bank (b + 1)).row r) (colScale u.front j) j

/-- FEED_ROW_ENTRY (R223, R232): the head feed's next row enters the array and reads the front canvas. -/
def execFeedRowEntry (mu : Nat) (s : State) : Ans :=
  let u := s.mu mu
  match u.feeds with
  | [] => .next s
  | f :: rest =>
    if u.st = .halted || u.cyc < f.at_ then .next s
    else
      match f.tile with
      | some t =>
        if rowBad s mu t f.row then execMuPoison mu none s
        else .next (s.setMu mu (enter u f rest (bit t.mask f.row) (tileRow s mu t f.row) (rscale s t f.row)))
      | none =>
        match f.src with
        | .bank b => .next (s.setMu mu (enter u f rest ((u.bank b.toNat).row f.row).valid (bankRow u b.toNat f.row) 0x3F800000))
        | .tile => .next s
where
  rscale (s : State) (t : Tile) (r : Nat) : Nat :=
    let g := tileRing s mu t
    memRead s.mem (locSp (mu / 2) (g.rowOff t.slot r + g.rowb - 4)) 4
  enter (u : Mu) (f : Feed) (rest : List Feed) (valid : Bool) (elems : List Nat) (rs : Nat) : Mu :=
    let n := modeK f.mode
    let x : InArr := ⟨u.cyc + 72, f.row, valid, f.mode, f.pal, f.dest, f.acc, elemsFrom elems f.k0 n, canRows u.front f.k0 n, rs⟩
    { u with arr := u.arr ++ [x],
             feeds := if f.left ≤ 1 then rest else { f with row := f.row + 1, left := f.left - 1 } :: rest }

/-- ROW_LANDING (R223, R234). -/
def execRowLanding (mu : Nat) (s : State) : Ans :=
  let u := s.mu mu
  match u.arr with
  | [] => .next s
  | x :: rest =>
    if u.cyc < x.due then .next s
    else
      let lo := u.bank x.dest
      let hi := u.bank (x.dest + 1)
      let r := landRow x (lo.row x.row) (hi.row x.row)
      let u := { u with arr := rest }
      let u := u.setBank x.dest (lo.setRow x.row r.1)
      .next (s.setMu mu (if modePair x.mode then u.setBank (x.dest + 1) (hi.setRow x.row r.2) else u))

/-- CANVAS_LOAD_COMPLETE (R223, R236). -/
def execCanvasLoadComplete (mu : Nat) (s : State) : Ans :=
  let u := s.mu mu
  match u.fill with
  | none => .next s
  | some (d, h) => .next (if u.cyc < d then s else s.setMu mu { u with back := h, fill := none, bLoaded := true })

/-- DRAIN_ROW_READ (R223, R238): an invalid row passes without effect. -/
def execDrainRowRead (mu : Nat) (s : State) : Ans :=
  let u := s.mu mu
  match u.drain with
  | none => .next s
  | some d =>
    if u.st = .halted || u.cyc < d.at_ then .next s
    else
      let u' := { u with drain := if d.left ≤ 1 then none else some { d with row := d.row + 1, left := d.left - 1 } }
      if !((u.bank d.bank).row d.row).valid then .next (s.setMu mu u')
      else
        let vals := (bankRow u d.bank d.row).map fun v => muMul v (drainScale d.scale)
        let p : InPipe := ⟨u.cyc, d.row, true, vals, none, false, d.fmt, d.rm, d.op, d.k, d.passes, d.ncol, d.out, d.base⟩
        .next (s.setMu mu { u' with pipe := u'.pipe ++ [p] })

/-- Row `p` leaves PP when its cycle has come (R240): V and the survivor count change. -/
def ppExit (u : Mu) (p : InPipe) : Mu × InPipe :=
  if p.done || u.cyc < p.rd + 10 + ppDelay p.op p.passes then (u, p)
  else
    let r := ppRow p.op p.ncol p.k p.passes (p.v.getD 0) p.vals
    ({ u with v := match r.2.1 with
                | some v => tput u.v p.row v
                | none => u.v,
              ppCount := r.2.2.getD u.ppCount }, { p with vals := r.1, done := true })

/-- Row `p` enters PP when its cycle has come, and reads V (R240). -/
def ppEnter (u : Mu) (p : InPipe) : InPipe :=
  if p.v.isNone && p.rd + 6 ≤ u.cyc then { p with v := some ((tget u.v p.row).getD 0) } else p

/-- A row written into its out tile (R239). -/
def writeOut (s : State) (m : Nat) (p : InPipe) : State :=
  match p.out with
  | none => s
  | some o =>
    let cl := m / 2
    let g := s.ring cl o.ring
    let t := g.slot o.slot
    let r := 8 * p.base + p.row
    let s := s.setMem (memPut s.mem (locSp cl (g.rowOff o.slot r)) ((outBytes p.fmt p.rm p.vals).take g.rowb))
    s.setTslot cl o.ring o.slot (if bit t.mask r then t else
      { t with claimed := t.claimed + 1, marked := t.marked + 1, valid := t.valid + 1, mask := t.mask + 2 ^ r, rows := t.rows + 2 ^ r })

def ppExits : List InPipe → Mu → Mu × List InPipe
  | [], u => (u, [])
  | p :: t, u =>
    let r := ppExit u p
    let q := ppExits t r.1
    (q.1, r.2 :: q.2)

/-- OUT_ROW_WRITE (R223, R239 to R241): the rows in PP and OW move on by a cycle. -/
def execOutRowWrite (mu : Nat) (s : State) : Ans :=
  let r := ppExits (s.mu mu).pipe (s.mu mu)
  let u := r.1
  let ps := r.2.map (ppEnter u)
  let s := s.setMu mu { u with pipe := ps.filter (fun p => u.cyc < p.writeAt), wrote := (ps.filter (·.writeAt ≤ u.cyc)).filterMap (·.out) }
  .next ((ps.filter fun p => p.writeAt ≤ u.cyc).foldl (fun s p => writeOut s mu p) s)

/-- SEALOUT_COMPLETE (R223, R242). -/
def execSealoutComplete (mu : Nat) (s : State) : Ans :=
  let u := s.mu mu
  let s := s.setMu mu { u with sealOuts := u.sealOuts.filter fun o => u.cyc < o.due }
  .next ((u.sealOuts.filter fun o => o.due ≤ u.cyc).foldl (fun s o => sealOut s mu o.out) s)

/-- A run's status given to the token entries of its tile, and recorded by the slot (R214, R230). -/
def closeRun (s : State) (m : Nat) (k : RunTok) : State :=
  let cl := m / 2
  let t := s.tslot cl k.ring k.slot
  let s := if t.gen = k.gen then s.setTslot cl k.ring k.slot { t with rcd := k.rcd } else s
  k.closers.foldl (fun s i =>
    if k.rcd.st = .faulted then tokFault s cl (2 + m % 2) i { code := k.rcd.code } k.rcd.count
    else giveStatus s cl (2 + m % 2) i k.rcd) s

/-- RUN_TOKEN_COMPLETE (R223, R230). -/
def execRunTokenComplete (mu : Nat) (s : State) : Ans :=
  let u := s.mu mu
  let s := s.setMu mu { u with runTok := u.runTok.filter fun k => u.cyc < k.due }
  .next ((u.runTok.filter fun k => k.due ≤ u.cyc).foldl (fun s k => closeRun s mu k) s)

/-- Is the matrix island of a cluster frozen, by a gang stop (R344), a save (R351) or a change of its step (R358)? -/
def muFrozen (s : State) (cl : Nat) : Bool :=
  let c := s.cluster cl
  c.gang || c.saving.isSome || c.mstop != 0

/-- MU_RESUME (R243, R245): the halted bundle issues again in this cycle, of a frozen unit in its next; rows that waited go on from the cycle
behind it. -/
def execMuResume (m : Bool) (s : State) : Ans :=
  let k := muOf s.myCl m.toNat
  let u := s.mu k
  if u.st ≠ .halted then .next s
  else
    let ice := muFrozen s s.myCl
    let r := if ice then u.cyc + 1 else u.cyc
    let s := s.setMu k { u with st := .running, feeds := u.feeds.map fun f => { f with at_ := max f.at_ (r + 1) },
                                drain := u.drain.map fun d => { d with at_ := max d.at_ (r + 1) } }
    .next (if ice then s else muIssue s k)

/-- MU_REST (R245): the run is abandoned. -/
def execMuRest (m : Bool) (s : State) : Ans :=
  let k := muOf s.myCl m.toNat
  let u := s.mu k
  if u.st ≠ .halted then .next s
  else
    let u' := { u with st := .resting, curA := none, feeds := [], drain := none, loops := [], rep := 0, held := [], fell := false }
    match u.curA with
    | none => .next (s.setMu k u')
    | some a =>
      let r := popSlot s k a
      .next (closeRun (r.2.setMu k u') k ⟨0, a.ring, a.slot, a.gen, ⟨.faulted, u.code, 0⟩, r.1⟩)

/-- mu.stat (R246). -/
def muStat (u : Mu) : Nat :=
  (match u.st with
    | .resting => 0
    | .running => 1
    | .halted => 2) +
  u.curA.isSome.toNat * 2 ^ 6 + u.bHold.isSome.toNat * 2 ^ 7 + u.easel.length * 2 ^ 8 + u.lastBpc % 2 ^ 16 * 2 ^ 16 +
  u.loops.length * 2 ^ 32 + ((List.range 4).map fun b => (u.bank b).poison.toNat * 2 ^ (36 + b)).sum + u.reason * 2 ^ 40 +
  u.fb.toNat * 2 ^ 55 + u.frow % 256 * 2 ^ 56

/-- The first bad row of the B load in progress, if this is the cycle in which it is read: rows are read eight a cycle over the 32
cycles of a LOAD, from the cycle after its issue, and the column scales behind the last row, in the last cycle but one. -/
def badLoadRow (s : State) (m : Nat) : Option Nat :=
  let u := s.mu m
  match u.fill, u.bHold with
  | some _, some t =>
    if u.bLoaded then none
    else
      match ((List.range (2 ^ t.hlog)).filter (bit t.mask ·)).find? (rowBad s m t) with
      | some k => if u.fillStart + 1 + k / 8 = u.cyc then some k else none
      | none => if scalesBad s m t && u.fillStart + 31 = u.cyc then some (2 ^ t.hlog) else none
  | _, _ => none

/-- The steps of unit `m` in the cycle that has begun, in the order of R224; a bad row read in the last cycle of a B load comes ahead of the
load's completion (R244). -/
def muTurns (s : State) (m : Nat) : List Turn :=
  let u := s.mu m
  let on (b : Bool) (i : Instr) : List Turn := if b then [.ev i] else []
  on (u.arr.any fun x => x.due ≤ u.cyc) (.rowLanding m) ++
  (match badLoadRow s m with
    | some k => [.ev (.muPoison m (some k))]
    | none => []) ++
  on (u.fill.any fun f => f.1 ≤ u.cyc) (.canvasLoadComplete m) ++
  on (u.st != .halted && u.drain.any fun d => d.at_ ≤ u.cyc) (.drainRowRead m) ++
  on (u.st != .halted && u.feeds.head?.any fun f => f.at_ ≤ u.cyc) (.feedRowEntry m) ++
  on (!u.pipe.isEmpty) (.outRowWrite m) ++
  on (u.sealOuts.any fun o => o.due ≤ u.cyc) (.sealoutComplete m) ++
  on (u.runTok.any fun k => k.due ≤ u.cyc) (.runTokenComplete m) ++
  (match u.st with
    | .running => [.mu m]
    | .resting => on (takeable s m).isSome (.dispatchTake m)
    | .halted => [])

end Sys2Proof.Machine
end

