-- ==== Sys2Proof/Machine/Sched.lean ====
section
/-! DEFINITION. The task scheduler of a die (R83 to R106, R109 to R111): its table, LAUNCH, TENQ, TDEC, TPOLL, placement, dispatch,
completion records, aging, handler tasks, and its accesses to memory (R374). -/

namespace Sys2Proof.Machine

/-! ### The task table -/

/-- The `k`-th number that is not in a rising list of numbers. -/
def nthFree : List Nat → Nat → Nat
  | [], k => k
  | u :: t, k => if u ≤ k then nthFree t (k + 1) else k

/-- Indices of the entries that are not FREE, in rising order. -/
def Die.used (d : Die) : List Nat := (d.tasks.filter fun t => t.2.st != .free).map Prod.fst

/-- Generation of an entry's next allocation (R72). -/
def nextTaskGen (g : Nat) : Nat := if 8191 ≤ g then 1 else g + 1

/-- A FREE entry of a die taken, any one of them (R6, R83). -/
def allocTask (s : State) (die : Nat) : Option (Nat × State) :=
  let used := (s.die die).used
  if 65536 ≤ used.length then none
  else
    let c := s.choose (65536 - used.length)
    some (nthFree used c.1, c.2)

/-- An entry filled; its handle. -/
def putTask (s : State) (die i : Nat) (t : Task) : Nat × State :=
  let g := nextTaskGen ((s.die die).task i).gen
  (mkHandle die i g, s.setTask die i { t with gen := g, since := s.now })

/-! ### LAUNCH (R73, R74, R102) -/

/-- The checks of the block alone (R73, R74). -/
def launchLegal (ws : List Nat) : Bool :=
  let g (i : Nat) : Nat := (ws[i]?).getD 0
  let sh := g 1
  let rs := g 7
  let hpc := bits sh 32 4
  g 0 % 8 = 0 && bits sh 47 17 = 0 && bits sh 0 32 ≤ 2 ^ 24 && 1 ≤ hpc && hpc ≤ 10 && g 3 ≠ 0 && g 3 % 64 = 0 && g 4 % 32 = 0 &&
    g 5 % 4 = 0 && bits rs 33 31 = 0 && !(g 4 = 0 && bits rs 0 16 ≠ 0) &&
    (if g 5 = 0 then bits rs 16 17 = 0 else 4 ≤ bits rs 16 17 && bits rs 16 17 ≤ 65536 && bits rs 16 17 % 4 = 0)

/-- The rings named in RMASK, lowest first. -/
def maskRings (m : Nat) : List Nat := (List.range 16).filter (bit m ·)

/-- The ring descriptors of the rings named, read one after another as blocking 32-byte loads (R74). -/
def readDescs (s : State) (va : Nat) : List Nat → Acc (List (Nat × Nat))
  | [] => .ok [] s
  | r :: t =>
    match readWords s va 4 with
    | .flt f s => .flt f s
    | .miss a k s => .miss a k s
    | .ok ws s =>
      match readDescs s ((va + 32) % 2 ^ 64) t with
      | .flt f s => .flt f s
      | .miss a k s => .miss a k s
      | .ok l s => .ok ((r, ws.foldr (fun w acc => w + 2 ^ 64 * acc) 0) :: l) s

/-- The checks of the completion ring descriptor (R74). -/
def cringLegal (ws : List Nat) : Bool :=
  let b := (ws[0]?).getD 0
  let l := (ws[1]?).getD 0
  b ≠ 0 && b % 64 = 0 && 4 ≤ l && l ≤ 16

/-- The launch's entry (R83, R93, R95). -/
def launchTask (s : State) (va : Nat) (ws : List Nat) (descs : List (Nat × Nat)) (cr : List Nat) : Task :=
  let g (i : Nat) : Nat := (ws[i]?).getD 0
  let sh := g 1
  let n := bits sh 0 32
  { st := if n = 0 then .draining else .ready, qid := bits sh 41 6, prio := bits sh 39 2, prec := bit sh 38, entry := g 0,
    launch := some ⟨va, g 2, g 3, (cr[0]?).getD 0, (cr[1]?).getD 0, g 4, descs, g 5, bits (g 7) 16 17, g 6, n, bits sh 36 2,
      bits sh 32 4, 0, 0, [], s.cur, s.me.sys, none, none, none, none⟩ }

/-- LAUNCH (R102): a block address that is not aligned faults LAUNCH_RANGE, not ALIGN (R69), at the place of ALIGN among a load's faults
(R160). -/
def execLaunch (h : Hdr) (d a : Reg) (p : Pred) (s : State) : Ans :=
  issue { h := h, srcs := [a], dst := some d, mem := true } (fun s v =>
    let va := (v 0).toNat
    let range : Flt := { code := cLaunchRange, addr := va }
    if va % 8 ≠ 0 then .fault (if va / 2 ^ 57 = 0 then range else { code := cProt, addr := va })
    else (readWords s va 8).bind fun ws s =>
      if va % 64 ≠ 0 || !launchLegal ws then .fault range
      else (readDescs s ((ws[4]?).getD 0) (maskRings (bits ((ws[7]?).getD 0) 0 16))).bind fun ds s =>
        if ds.any fun q => !descLegal q.2 then .fault range
        else (readWords s ((ws[3]?).getD 0) 4).bind fun cr s =>
          if !cringLegal cr then .fault range
          else
            match allocTask s (ctxDie s.cur) with
            | none => parkAnswer s [a] va (ctxDie s.cur) [(d.toNat, 0)] (some (p, false)) .schedulerAnswer
            | some (i, s) =>
              let t := putTask s (ctxDie s.cur) i (launchTask s va ws ds cr)
              parkAnswer t.2 [a] va (ctxDie s.cur) [(d.toNat, BitVec.ofNat 64 t.1)] (some (p, true)) .schedulerAnswer) s

/-! ### TENQ (R70, R71, R103) -/

def pktLen (w : Nat) : Nat := bits w 0 8
def pktNsuc (w : Nat) : Nat := bits w 8 3

/-- The header's own checks (R103). -/
def headerLegal (w : Nat) : Bool :=
  bits w 48 16 = 0 && bits w 14 2 = 0 && 4 ≤ pktLen w && pktLen w ≤ 32 && 3 + pktNsuc w ≤ pktLen w && bits w 40 8 ≤ 63

/-- The remaining checks of a packet (R71). -/
def packetLegal (ws : List Nat) : Bool :=
  let g (i : Nat) : Nat := (ws[i]?).getD 0
  g 1 % 8 = 0 && bits (g 2) 16 48 = 0 && bits (g 2) 2 6 = 0 && bits (g 2) 0 2 ≠ 3 &&
    ((ws.drop 3).take (pktNsuc (g 0))).all (· < 2 ^ 32)

/-- The task's entry (R83, R103). -/
def packetTask (ws : List Nat) : Task :=
  let g (i : Nat) : Nat := (ws[i]?).getD 0
  let w := g 0
  { st := if bits w 16 16 = 0 then .ready else .waiting, ctr := bits w 16 16, qid := bits w 40 8, prio := bits w 12 2, hnd := bits w 32 8,
    prec := bit w 11, entry := g 1, kind := bits (g 2) 0 2, clu := bits (g 2) 11 5, succ := (ws.drop 3).take (pktNsuc w),
    payload := (ws.drop (3 + pktNsuc w)).map (BitVec.ofNat 64 ·) }

/-- The die that owns a packet's task (R84). -/
def packetDie (s : State) (ws : List Nat) : Nat :=
  let w := (ws[2]?).getD 0
  if bits w 0 2 = 0 then ctxDie s.cur else bits w 8 3

/-- TENQ (R103): the header is read and checked first, then the words behind it. -/
def execTenq (h : Hdr) (d a : Reg) (p : Pred) (s : State) : Ans :=
  issue { h := h, srcs := [a], dst := some d, mem := true } (fun s v =>
    let va := (v 0).toNat
    let bad : Flt := { code := cIllegalEnc, addr := va }
    (readWords s va 1).bind fun hd s =>
      let w := (hd[0]?).getD 0
      if !headerLegal w then .fault bad
      else (readWords s ((va + 8) % 2 ^ 64) (pktLen w - 1)).bind fun rest s =>
        let ws := w :: rest
        if !packetLegal ws then .fault bad
        else
          let die := packetDie s ws
          if s.dieGone die then .fault { code := cDieLost, addr := va }
          else
            match allocTask s die with
            | none => parkAnswer s [a] va die [(d.toNat, 0)] (some (p, false)) .schedulerAnswer
            | some (i, s) =>
              let t := putTask s die i (packetTask ws)
              parkAnswer t.2 [a] va die [(d.toNat, BitVec.ofNat 64 t.1)] (some (p, true)) .schedulerAnswer) s

/-! ### TDEC, TPOLL -/

/-- TDEC (R104): it does not wait. -/
def execTdec (h : Hdr) (a : Reg) (s : State) : Ans :=
  issue { h := h, srcs := [a], mem := true } (fun s v =>
    .next (sendDec (s.countSent s.cur) (v 0).toNat (decSrc s s.cur))) s

def TaskSt.code : TaskSt → Nat
  | .free => 0
  | .waiting => 1
  | .ready => 2
  | .running => 3
  | .faulted => 4
  | .draining => 5

/-- Status word of TPOLL (R106). -/
def pollWord (s : State) (h : Nat) : Nat :=
  match taskAt s h with
  | none => 0
  | some t =>
    match t.launch with
    | some l => t.st.code + l.recs * 2 ^ 24
    | none => t.st.code + t.ctr * 2 ^ 8

/-- TPOLL (R106). -/
def execTpoll (h : Hdr) (d a : Reg) (s : State) : Ans :=
  issue { h := h, srcs := [a], dst := some d, mem := true } (fun s v =>
    let q := (v 0).toNat
    if q ≠ 0 && q < 2 ^ 32 && s.dieGone (hDie q) then .fault { code := cDieLost, addr := q }
    else parkAnswer s [a] q (hDie q) [(d.toNat, BitVec.ofNat 64 (pollWord s q))] none .schedulerAnswer) s

/-- SCHEDULER_ANSWER (R102, R103, R106). -/
def execSchedulerAnswer (ctx tag : Nat) (s : State) : Ans := .next (answer s ctx tag none)

/-- DECREMENT_ARRIVAL (R89): one that names a die lost on its way is discarded at the source's die. -/
def execDecrementArrival (die handle : Nat) (src : DecSrc) (s : State) : Ans :=
  if s.dieGone die then .next (decUnder s (ctxDie src.ctx) handle src) else
  match taskAt s handle with
  | none => .next (decUnder s die handle src)
  | some t =>
    if t.st ≠ .waiting then .next (decUnder s die handle src)
    else if 1 < t.ctr then .next (s.setTask die (hIdx handle) { t with ctr := t.ctr - 1 })
    else .next (s.setTask die (hIdx handle) { t with ctr := 0, st := .ready, since := s.now })

/-! ### Placement (R109 to R111) -/

/-- May the scheduler place work on a cluster: ready, and no save of it in progress. -/
def clusterOpen (s : State) (cl : Nat) : Bool := (s.cluster cl).ready && (s.cluster cl).saving.isNone

/-- The clusters of a die in scan order (R109). -/
def scanOrder (s : State) (die : Nat) : List Nat :=
  (List.range 32).map fun i => die * 32 + ((s.die die).prevCl + 1 + i) % 32

/-- The core of a cluster that a task takes: most free slots, lower number first (R111). -/
def taskCore (s : State) (cl : Nat) : Option Nat :=
  ((List.range 8).map (8 * cl + ·)).foldl (fun best k =>
    let n := if (s.core k).lsplit = 0 then 0 else (freeSlots s k).length
    match best with
    | none => if n = 0 then none else some k
    | some b => if (freeSlots s b).length < n then some k else best) none

/-- The context a task is placed on (R111). -/
def placeTask (s : State) (die : Nat) (t : Task) : Option Nat :=
  let cls := if t.kind = 2 then [die * 32 + t.clu] else scanOrder s die
  match (cls.filter (clusterOpen s ·)).findSome? (taskCore s ·) with
  | none => none
  | some k => (freeSlots s k).head?.map (16 * k + ·)

/-- The lowest eligible core block of a cluster (R109): its first core. -/
def groupBlock (s : State) (cl n hpc : Nat) : Option Nat :=
  ((List.range (8 / n)).find? fun b => (List.range n).all fun j => hpc ≤ (freeSlots s (8 * cl + b * n + j)).length).map (· * n)

/-- Do the rings of a launch fit a cluster, each loaded before the next is checked (R96)? -/
def ringsFit (s : State) (cl : Nat) : List (Nat × Nat) → Bool
  | [] => true
  | (r, d) :: t => descFits s cl r d && ringsFit (loadRing s cl r d) cl t

/-- Must a cluster be loaded for the next group of launch `h` (R96)? Not where the launch's previous group went and nothing has replaced
what that loaded. -/
def needLoad (s : State) (h : Nat) (l : Launch) (cl : Nat) : Bool := !(l.lastCl == some cl && (s.cluster cl).loadedBy == some h)

/-- The scheduler as the maker of a launch's accesses (R374): those of its records, and those of its routine image. -/
def schedWho (l : Launch) (h : Nat) (img : Bool) : Who := engine (ctxCore l.who) l.sys (5 + 8 * (2 * h + img.toNat))

/-- Has the maker of an access a request at its walker? -/
def Who.waits (w : Who) (s : State) : Bool :=
  ((s.core w.core).mbox ++ (s.core w.core).engWait).any fun m => m.req == 15 && m.agent == w.agent

/-- Does the routine image of launch `h` wait, for a translation or to be tried again (R96, R374)? -/
def imageHeld (s : State) (h : Nat) (l : Launch) : Bool := l.rout != 0 && (l.imgAt.isSome || (schedWho l h true).waits s)

/-- The cluster and the first core of the block that the next group of launch `h` is placed on (R109). -/
def placeGroup (s : State) (die h : Nat) (l : Launch) : Option (Nat × Nat) :=
  if 256 ≤ (s.die die).window || l.recs + 256 ≤ l.nextGid then none
  else
    (((scanOrder s die).filter fun cl => clusterOpen s cl && (!needLoad s h l cl || ringsFit s cl l.descs)).findSome? fun cl =>
      (groupBlock s cl (2 ^ l.cpg) l.hpc).map fun b => (cl, b)).filter fun q => !(needLoad s h l q.1 && imageHeld s h l)

/-! ### The choice of a unit (R86, R87) -/

/-- The head entry of a queue level (R85). -/
def headOf (d : Die) (level q : Nat) : Option (Nat × Task) :=
  (d.tasks.filter fun t => t.2.st == .ready && t.2.prio == level && t.2.qid == q).foldl (fun best t =>
    match best with
    | none => some t
    | some b => if t.2.since < b.2.since then some t else best) none

/-- Can the unit of entry `i` be placed now? -/
def placeable (s : State) (die i : Nat) (t : Task) : Bool :=
  match t.launch with
  | none => (placeTask s die t).isSome
  | some l => (placeGroup s die (mkHandle die i t.gen) l).isSome

/-- The queue and the entry that a level serves next, or none. -/
def serveLevel (s : State) (die level : Nat) : Option (Nat × Nat × Task) :=
  let d := s.die die
  let last := if h : level < 4 then d.lastQ[level] else 63
  ((List.range 64).map fun i => (last + 1 + i) % 64).findSome? fun q =>
    match headOf d level q with
    | some (i, t) => if placeable s die i t then some (q, i, t) else none
    | none => none

/-- The unit that is dispatched next: level, queue, index, entry. -/
def nextUnit (s : State) (die : Nat) : Option (Nat × Nat × Nat × Task) :=
  [3, 2, 1, 0].findSome? fun lv => (serveLevel s die lv).map fun u => (lv, u)

/-- A unit has been placed on a cluster from a queue level (R86, R109). -/
def served (s : State) (die lv q cl : Nat) : State :=
  let d := s.die die
  s.setDie die { d with prevCl := cl % 32, lastQ := if h : lv < 4 then d.lastQ.set lv q else d.lastQ }

/-- DISPATCH_TASK (R111, R112). -/
def execDispatchTask (die : Nat) (s : State) : Ans :=
  match nextUnit s die with
  | none => .next s
  | some (lv, q, i, t) =>
    if t.launch.isSome then .next s
    else
      match placeTask s die t with
      | none => .next s
      | some c =>
        let n := ctxSlot c
        let off := 256 * (n - 1)
        let s := s.setMem (memPut s.mem (locLs (ctxCore c) off) (t.payload.flatMap fun w => leBytes 8 w.toNat))
        let hd := mkHandle die i t.gen
        let x2 := if t.payload = [] then 0 else 0xFE00000000 + off
        let s := startCtx s c (freshCtx (BitVec.ofNat 64 t.entry) (BitVec.ofNat 64 hd) (BitVec.ofNat 64 x2) 0 false t.prec (.task hd))
        .next (served (s.setTask die i { t with st := .running, ctx := c }) die lv q (ctxCl c))

/-- Has a unit of cluster `cl` a load of launch `h` that is not written yet (R96)? -/
def loadsOf (s : State) (cl h : Nat) : Bool :=
  [0, 1].any fun m => (s.mu (muOf cl m)).loads.any fun l => l.ctx.isNone && l.launch == h

/-- The helpers of a group started, core by core (R110, R112); they wait for the load of their own launch (R96). -/
def startGroup (s : State) (hd : Nat) (t : Task) (l : Launch) (cl b : Nat) : State :=
  let w := l.hpc + l.cpg * 2 ^ 4 + b * 2 ^ 6
  let wait := loadsOf s cl hd
  let cs := (List.range (2 ^ l.cpg)).flatMap fun j =>
    let k := 8 * cl + b + j
    (freeSlots s k).take l.hpc |>.map (16 * k + ·)
  cs.zipIdx.foldl (fun s c =>
    let x := freshCtx (BitVec.ofNat 64 t.entry) (BitVec.ofNat 64 l.nextGid) (BitVec.ofNat 64 l.arg) (BitVec.ofNat 64 c.2) false t.prec
      (.group hd l.nextGid w)
    startCtx s c.1 (if wait then { x with st := .parked .image } else x)) s

/-- A late fault of a scheduler's access (R374): told to the launching core; tried again after 2^20 cycles. -/
def schedFault (s : State) (die i : Nat) (l : Launch) (img : Bool) (f : Flt) : State :=
  let t := (s.die die).task i
  let hd := mkHandle die i t.gen
  let r := f.code + 2 ^ 8 + l.who * 2 ^ 16 + f.addr % 2 ^ 64 * 2 ^ 128 + hd * 2 ^ 384 + s.now % 2 ^ 64 * 2 ^ 448
  let s := clearAnswers s (schedWho l hd img) f.addr
  let due := some (s.now + 2 ^ 20)
  let s := s.setTask die i { t with launch := some (if img then { l with imgAt := due } else { l with retryAt := due }) }
  lateFault s l.who r 0

/-- The rings and the routine image of launch `h` loaded into a cluster (R96). A launch that has neither replaces nothing there. -/
def loadCluster (s : State) (cl h : Nat) (l : Launch) (img : List Byte) : State :=
  let s := l.descs.foldl (fun s q => loadRing s cl q.1 q.2) s
  let s := if l.descs.isEmpty && l.rout = 0 then s else s.setCluster cl { s.cluster cl with loadedBy := some h }
  if l.rout = 0 then s
  else
    [0, 1].foldl (fun s m =>
      let k := muOf cl m
      let u := s.mu k
      s.setMu k { u with loads := u.loads ++ [⟨none, 0, img, u.posted, h⟩] }) s

/-- DISPATCH_GROUP (R93, R96, R109, R110). -/
def execDispatchGroup (die : Nat) (s : State) : Ans :=
  match nextUnit s die with
  | none => .next s
  | some (lv, q, i, t) =>
    match t.launch with
    | none => .next s
    | some l =>
      let hd := mkHandle die i t.gen
      match placeGroup s die hd l with
      | none => .next s
      | some (cl, b) =>
        let w := schedWho l hd true
        let go (s : State) : State :=
          let n := 2 ^ l.cpg * l.hpc
          let s := startGroup (dropEngine s w.core w.agent) hd t l cl b
          let l' := { l with nextGid := l.nextGid + 1, lastCl := some cl, groups := l.groups ++ [⟨l.nextGid, n, 0, 0⟩] }
          let s := s.setTask die i { t with st := if l'.nextGid = l.gcount then .draining else t.st, launch := some l' }
          let d := s.die die
          served (s.setDie die { d with window := d.window + 1 }) die lv q cl
        if !needLoad s hd l cl then .next (go s)
        else if l.rout = 0 then .next (go (loadCluster s cl hd l []))
        else
          match engRead s w l.rout l.rsize with
          | .miss a k s => .next (postMiss s w a k)
          | .flt f s => .next (schedFault s die i l true f)
          | .ok img s => .next (go (loadCluster s cl hd l img))

/-- Can a unit's pending dispatch load be written now (R96, R218)? -/
def imageReady (s : State) (m : Nat) : Bool :=
  let u := s.mu m
  !s.gated (m / 2) && (s.cluster (m / 2)).mstop == 0 && u.loads.any fun l => l.ctx.isNone && u.drained l.order && u.st != .running

/-- Does context `x` of cluster `cl` wait for no load any more (R96)? -/
def imageHere (s : State) (cl : Nat) (x : Ctx) : Bool :=
  x.st == .parked .image && (match x.unit with
    | .group h _ _ => !loadsOf s cl h
    | _ => true)

/-- ROUTINE_IMAGE_LOAD (R96): the loads that can be done are written; when both units of a cluster are loaded, the helpers that wait for it
go on. -/
def execRoutineImageLoad (die : Nat) (s : State) : Ans :=
  let s := ((List.range 64).map (64 * die + ·)).foldl (fun s m =>
    let u := s.mu m
    (u.loads.filter fun l => l.ctx.isNone && u.drained l.order && u.st != .running && imageReady s m).foldl (fun s l =>
      let s := writeRoutine s m l.off l.data
      let u := s.mu m
      s.setMu m { u with loads := u.loads.filter (· != l) }) s) s
  .next { s with slots := s.slots.map fun (c, sl) =>
    (c, if ctxDie c = die && imageHere s (ctxCl c) sl.ctx then { sl with ctx := { sl.ctx with st := .live } } else sl) }

/-! ### Completion records (R75, R76, R94, R95) -/

/-- What writing the launch's next record gives. -/
inductive RecRes where
  | ok (s : State)
  | full (s : State)
  | flt (f : Flt) (s : State)
  | miss (va kind : Nat) (s : State)

/-- One completion record written at WIDX, and WIDX advanced behind it (R75). -/
def putRec (s : State) (w : Who) (l : Launch) (low : Nat) : RecRes :=
  match engRead s w (l.cring + 0x10) 16 with
  | .flt f s => .flt f s
  | .miss a k s => .miss a k s
  | .ok bs s =>
    let widx := leNat (bs.take 8)
    let ridx := leNat (bs.drop 8)
    if (widx + 2 ^ 64 - ridx) % 2 ^ 64 = 2 ^ l.log2n then .full s
    else
      let ph := 1 - widx / 2 ^ l.log2n % 2
      match pieceLocs s w true (pieces 9 (l.cring + 0x10) 8) with
      | .flt f s => .flt f s
      | .miss a k s => .miss a k s
      | .ok wl s =>
        match engWrite s w ((l.base + 16 * (widx % 2 ^ l.log2n)) % 2 ^ 64) (leBytes 8 (low + ph * 2 ^ 63) ++ leBytes 8 l.lblk) with
        | .flt f s => .flt f s
        | .miss a k s => .miss a k s
        | .ok _ s =>
          match scatterBytes s (leBytes 8 (widx + 1)) wl with
          | .flt f s => .flt f s
          | .miss a k s => .miss a k s
          | .ok _ s => .ok s

/-- A record's outcome entered: written, waiting for RIDX, waiting for a translation, or reported (R75, R374). -/
def recDone (die i : Nat) (w : Who) (l : Launch) (r : RecRes) (k : State → State) : State :=
  match r with
  | .ok s => k s
  | .miss a q s => postMiss s w a q
  | .flt f s => schedFault s die i l false f
  | .full s =>
    let c := s.choose 4096
    let s := c.2
    s.setTask die i { (s.die die).task i with launch := some { l with pollAt := some (s.now + 1 + c.1) } }

/-- The group whose record is next, if it is done (R94). -/
def doneGroup (l : Launch) : Option Group := l.groups.find? fun g => g.gid == l.recs && g.alive == 0

/-- Are the launch's records free to be written: none waits for RIDX, or to be tried again? -/
def Launch.recsFree (l : Launch) : Bool := l.retryAt.isNone && l.pollAt.isNone

/-- The record of the launch's next group written, if it is done (R94). -/
def groupRecord (s : State) (die idx : Nat) : State :=
  let t := (s.die die).task idx
  match t.launch with
  | none => s
  | some l =>
    match doneGroup l with
    | none => s
    | some g =>
      if !l.recsFree then s
      else
        let w := schedWho l (mkHandle die idx t.gen) false
        let low := g.gid % 2 ^ 25 + 1 * 2 ^ 40 + g.fcode * 2 ^ 48
        recDone die idx w l (putRec s w l low) fun s =>
          let t := (s.die die).task idx
          let s := s.setTask die idx { t with launch := some { l with recs := l.recs + 1, groups := l.groups.filter (·.gid != g.gid) } }
          let d := s.die die
          s.setDie die { d with window := d.window - 1 }

/-- GROUP_RECORD_WRITE (R94). -/
def execGroupRecordWrite (die idx : Nat) (s : State) : Ans := .next (groupRecord s die idx)

/-- The launch-done record of a launch with every group recorded (R95). -/
def launchRecord (s : State) (die idx : Nat) : State :=
  let t := (s.die die).task idx
  match t.launch with
  | none => s
  | some l =>
    if t.st ≠ .draining || l.recs ≠ l.gcount || !l.recsFree then s
    else
      let w := schedWho l (mkHandle die idx t.gen) false
      recDone die idx w l (putRec s w l (l.gcount % 2 ^ 25 + 2 * 2 ^ 40)) fun s => s.setTask die idx { gen := t.gen }

/-- LAUNCH_DONE_RECORD (R95). -/
def execLaunchDoneRecord (die idx : Nat) (s : State) : Ans := .next (launchRecord s die idx)

/-- RIDX_POLL (R75): RIDX is read again, and the record that waits on it is written if there is room. -/
def execRidxPoll (die idx : Nat) (s : State) : Ans :=
  let t := (s.die die).task idx
  match t.launch with
  | some l => .next (match l.pollAt with
    | some p =>
      if s.now < p then s
      else
        let s := s.setTask die idx { t with launch := some { l with pollAt := none } }
        if (doneGroup l).isSome then groupRecord s die idx else launchRecord s die idx
    | none => s)
  | none => .next s

/-- SCHED_ACCESS_RETRY (R374). -/
def execSchedAccessRetry (die idx : Nat) (s : State) : Ans :=
  let t := (s.die die).task idx
  match t.launch with
  | some l =>
    let on (q : Option Nat) : Option Nat := q.filter (s.now < ·)
    .next (s.setTask die idx { t with launch := some { l with retryAt := on l.retryAt, imgAt := on l.imgAt } })
  | none => .next s

/-! ### Aging, handlers, registers -/

/-- Is an entry due to be promoted (R88)? -/
def ages (s : State) (t : Task) : Bool := t.st == .ready && t.prio < 3 && t.since + 2 ^ 20 < s.now

/-- AGING_PROMOTION (R88). -/
def execAgingPromotion (die idx : Nat) (s : State) : Ans :=
  let t := (s.die die).task idx
  .next (if ages s t then s.setTask die idx { t with prio := t.prio + 1, since := s.now } else s)

/-- Address of the fault record of a handler task's entry (R335). -/
def frecAddr (s : State) (die i : Nat) : Nat := bits (s.die die).frec.toNat 22 26 * 2 ^ 22 + 64 * i

/-- A handler task in entry `i` (R98, R99). -/
def handlerTask (s : State) (die i : Nat) (q : Spawn) (succ : List Nat) : State :=
  let a := frecAddr s die i
  let t : Task := { st := .ready, qid := q.qid, prio := q.prio, prec := q.prec, entry := q.entry, kind := q.kind, clu := q.clu, succ := succ,
                    payload := [BitVec.ofNat 64 q.srcHandle, BitVec.ofNat 64 a], handler := true }
  putRecord (putTask s die i t).2 a q.rcd

/-- The oldest handler asked for that can take its entry: one in the faulted task's own entry needs no FREE one. -/
def nextSpawn (s : State) (die : Nat) : Option Spawn :=
  (s.die die).spawns.find? fun q => q.same.isSome || (s.die die).used.length < 65536

/-- HANDLER_SPAWN (R98, R99): the oldest handler that can take its entry takes it; while the table is full the others wait. -/
def execHandlerSpawn (die : Nat) (s : State) : Ans :=
  match nextSpawn s die with
  | none => .next s
  | some q =>
    let d := s.die die
    let s' := s.setDie die { d with spawns := d.spawns.erase q }
    match q.same with
    | some i =>
      .next (match taskAt s q.srcHandle with
        | some t => if t.st = .faulted then handlerTask s' die i q t.succ else s'
        | none => s')
    | none =>
      match allocTask s' die with
      | none => .next s
      | some (i, s') => .next (handlerTask s' die i q [])

/-- SCHED_UNDER_CLEAR (R100). -/
def execSchedUnderClear (s : State) : Ans :=
  let d := s.die (ctxDie s.cur)
  .next (s.setDie (ctxDie s.cur) { d with under := 0 })

/-- A write of sched.fclr (R335): a FAULTED entry is freed; any other handle has no effect. -/
def fclrSet (s : State) (v : Word) : State :=
  let h := v.toNat % 2 ^ 32
  match taskAt s h with
  | some t => if t.st = .faulted then s.setTask (hDie h) (hIdx h) { gen := t.gen } else s
  | none => s

/-- SCHED_FCLR (R335). -/
def execSchedFclr (v : Word) (s : State) : Ans := .next (fclrSet s v)

end Sys2Proof.Machine
end

