-- ==== Sys2Proof/Machine/Sha3.lean ====
section
/-! DEFINITION. SHA3-512, the digest of firmware images and of attestation reports (R19, R366, R367), over lists of bytes. -/

namespace Sys2Proof.Machine

/-- Lane (x, y) of a Keccak state: 25 lanes, x + 5y. -/
def lane (a : List Word) (x y : Nat) : Word := a.getD (x % 5 + 5 * (y % 5)) 0

/-- A state lane by lane. -/
def lanes (f : Nat → Nat → Word) : List Word := (List.range 25).map fun i => f (i % 5) (i / 5)

/-- Rotation offset of each lane, x + 5y. -/
def rhoOffsets : List Nat := [0, 1, 62, 28, 27, 36, 44, 6, 55, 20, 3, 10, 43, 25, 39, 41, 45, 15, 21, 8, 18, 2, 61, 56, 14]

/-- Round constants. -/
def roundConstants : List Word :=
  [0x0000000000000001, 0x0000000000008082, 0x800000000000808A, 0x8000000080008000, 0x000000000000808B, 0x0000000080000001,
   0x8000000080008081, 0x8000000000008009, 0x000000000000008A, 0x0000000000000088, 0x0000000080008009, 0x000000008000000A] ++
  [0x000000008000808B, 0x800000000000008B, 0x8000000000008089, 0x8000000000008003, 0x8000000000008002, 0x8000000000000080,
   0x000000000000800A, 0x800000008000000A, 0x8000000080008081, 0x8000000000008080, 0x0000000080000001, 0x8000000080008008]

/-- Parity of a column. -/
def columnParity (a : List Word) (x : Nat) : Word := lane a x 0 ^^^ lane a x 1 ^^^ lane a x 2 ^^^ lane a x 3 ^^^ lane a x 4

def theta (a : List Word) : List Word :=
  let c := (List.range 5).map (columnParity a)
  let cl (x : Nat) : Word := c.getD (x % 5) 0
  lanes fun x y => lane a x y ^^^ cl (x + 4) ^^^ (cl (x + 1)).rotateLeft 1

/-- The steps rho and pi: lane (x, y) comes from (x + 3y, x). -/
def rhoPi (a : List Word) : List Word :=
  let r := (a.zip rhoOffsets).map fun p => p.1.rotateLeft p.2
  lanes fun x y => lane r (x + 3 * y) x

def chi (a : List Word) : List Word := lanes fun x y => lane a x y ^^^ (~~~lane a (x + 1) y &&& lane a (x + 2) y)

/-- One round with its constant. -/
def keccakRound (a : List Word) (rc : Word) : List Word :=
  match chi (rhoPi (theta a)) with
  | [] => []
  | l :: t => (l ^^^ rc) :: t

def keccakF (a : List Word) : List Word := roundConstants.foldl keccakRound a

/-- The nine lanes of a block of 72 bytes taken into a state. -/
def absorbBlock (a : List Word) (b : List Byte) : List Word :=
  keccakF (a.zipIdx.map fun l => if l.2 < 9 then l.1 ^^^ BitVec.ofNat 64 (leNat ((b.drop (8 * l.2)).take 8)) else l.1)

/-- Blocks of 72 bytes taken in, at most `n` of them. -/
def absorb : Nat → List Word → List Byte → List Word
  | 0, a, _ => a
  | n + 1, a, bs => if bs.isEmpty then a else absorb n (absorbBlock a (bs.take 72)) (bs.drop 72)

/-- A message padded to whole blocks. -/
def sha3Pad (bs : List Byte) : List Byte :=
  let n := 72 - bs.length % 72
  bs ++ (if n = 1 then [0x86] else 0x06 :: List.replicate (n - 2) 0 ++ [0x80])

/-- SHA3-512 of a message: 64 bytes. -/
def sha3 (bs : List Byte) : List Byte :=
  ((absorb (bs.length / 72 + 1) (List.replicate 25 0) (sha3Pad bs)).take 8).flatMap fun w => leBytes 8 w.toNat

end Sys2Proof.Machine
end

