-- ==== Sys2Proof/Machine/Sync.lean ====
section
/-! DEFINITION. Barriers (R302, R303) and channels (R304 to R318). -/

namespace Sys2Proof.Machine

/-! ### Barriers -/

/-- Scope code and instance of the barrier scopes (R14, R302), for context `c`. -/
def scopeKey (sco : Scope) (c : Nat) : Nat :=
  match sco with
  | .cor => ctxCore c
  | .cl => 2 ^ 16 + ctxCl c
  | .die => 2 * 2 ^ 16 + ctxDie c
  | .pkg => 3 * 2 ^ 16
  | .sys => 4 * 2 ^ 16

/-- Barrier `b` of a scope instance, as one number. -/
def barKey (sco : Scope) (c b : Nat) : Nat := scopeKey sco c * 16 + b

/-- Largest count (R302). -/
def scopeMax (sco : Scope) : Nat :=
  match sco with
  | .cor => 16
  | .cl => 128
  | .die => 4096
  | .pkg => 32768
  | .sys => 134217728

def State.barrier (s : State) (key : Nat) : Barrier := (tget s.barriers key).getD ⟨0, [], [], []⟩
def State.setBarrier (s : State) (key : Nat) (b : Barrier) : State := { s with barriers := tput s.barriers key b }

/-- Has a generation begun whose count is not `c` (R303)? -/
def Barrier.differs (b : Barrier) (c : Nat) : Bool := (!b.arr.isEmpty || !b.remote.isEmpty) && b.count != c

/-- Is the barrier's counting point on another module (R302)? -/
def barAway (key : Nat) : Bool := key / 16 = 4 * 2 ^ 16 && fabDev != 0

/-- One arrival, from device `dev`, takes its rank at the counting point; the last one releases the generation (R302). -/
def barArrive (s : State) (key count dev : Nat) (who : BarArr) : State :=
  let b := s.barrier key
  let rank := b.arr.length + b.remote.length
  let b := { b with count := count,
                    arr := if dev = fabDev then b.arr ++ [{ who with rank := rank }] else b.arr,
                    remote := if dev = fabDev then b.remote else b.remote ++ [(dev, who.ctx, rank)] }
  if rank + 1 < count then s.setBarrier key b
  else
    let s := s.setBarrier key ⟨0, [], [], b.rel ++ b.arr⟩
    b.remote.foldl (fun s r => s.emit (.release r.1 key r.2.1 r.2.2)) s

/-- An arrival on its way to its counting point: context, register and number in one. -/
def barWord (c : Nat) (d : Reg) (tag : Nat) : Nat := c + 2 ^ 15 * d.toNat + 2 ^ 21 * tag
def barFrom (w : Nat) : BarArr := ⟨w % 2 ^ 15, BitVec.ofNat 6 (w / 2 ^ 15), 0, w / 2 ^ 21⟩

/-- BAR (R303): the context arrives and parks until the release. Away from the core its arrival takes time to reach the counting
point; the count of a generation is held against it where it is counted. At system scope it first waits, as a release, for its posted requests
(R294). -/
def execBar (h : Hdr) (sco : Scope) (b : BitVec 4) (d a : Reg) (s : State) : Ans :=
  issue { h := h, srcs := [a], dst := some d, mem := true } (fun s v =>
    let c := (v 0).toNat
    let key := barKey sco s.cur b.toNat
    if c = 0 || scopeMax sco < c || (!barAway key && (s.barrier key).differs c) then .fault { code := cIllegalEnc }
    else if sco = .sys && s.me.posts then .hold
    else
      let tg := s.tag
      let s := commitSrcs tg.2 [a]
      let s := s.setMe { s.me with st := .parked .barrier, barTag := tg.1 }
      if barAway key then
        let s := s.countSent s.cur
        let q := s.barrier key
        .stay ((s.setBarrier key { q with arr := q.arr ++ [⟨s.cur, d, c, tg.1⟩] }).emit (.barrier key c s.cur))
      else
        .stay (if sco = .cor then barArrive s key c fabDev ⟨s.cur, d, 0, tg.1⟩
          else (s.countSent s.cur).later (.barrierArrival key c (barWord s.cur d tg.1) fabDev))) s

/-- Does the context of an arrival wait there: it is not saved, and no later one of its slot? -/
def atBarrier (s : State) (r : BarArr) : Bool := (s.ctx r.ctx).st == .parked .barrier && (s.ctx r.ctx).barTag == r.tag

/-- Context `c` leaves the barrier at which it waits with a fault of its BAR. -/
def barFault (s : State) (c code : Nat) : State :=
  let cur := s.cur
  let s := { s with cur := c }
  { takeFault (s.setMe { s.me with st := .live }) { code := code } with cur := cur }

/-- In place of a rank: the arrival has been refused by its counting point (R303), or its generation ended with a die (R343). -/
def refusedRank : Nat := 2 ^ 40
def lostRank : Nat := 2 ^ 41

/-- BARRIER_ARRIVAL (R302): a context saved on the way counts as arrived; `ctx` carries an own context with its register and number. An
arrival whose count is not its generation's is refused (R303), one of another module by a release that says so. -/
def execBarrierArrival (key count ctx : Nat) (dev : Nat) (s : State) : Ans :=
  let who := barFrom ctx
  if noPort s (.glob dev 0) || (dev = fabDev && s.lost (ctxDie who.ctx)) then .next s
  else if (s.barrier key).differs count then
    .next (if dev != fabDev then s.emit (.release dev key who.ctx refusedRank)
      else if atBarrier s who then barFault s who.ctx cIllegalEnc
      else let b := s.barrier key; s.setBarrier key { b with rel := b.rel ++ [{ who with rank := refusedRank }] })
  else .next (barArrive s key count dev who)

/-- A released context returns behind its BAR with its rank in x[D] (R302, R303), or leaves it with a fault. -/
def barReturn (s : State) (r : BarArr) : State :=
  if r.rank = refusedRank then barFault s r.ctx cIllegalEnc
  else if r.rank = lostRank then barFault s r.ctx cDieLost
  else
    let cur := s.cur
    let s := { s with cur := r.ctx }
    let s := s.setMe { s.me with st := .live }
    if pushNow s r.ctx [r.d.toNat] = .broken then { takeFault s { code := cChanBroken } with cur := cur }
    else
      let s := putReg (logItem s r.ctx 5 0 [r.rank]) r.d (BitVec.ofNat 64 r.rank)
      { retire s (s.me.pc + 8) with cur := cur }

/-- Does the release find the context at its barrier, its queue ready for the rank (R310)? A saved one is reached when it runs again, one of
a replaying core by its log alone (R346). -/
def barHere (s : State) (r : BarArr) : Bool :=
  let k := s.core (ctxCore r.ctx)
  atBarrier s r && pushNow s r.ctx [r.d.toNat] != .wait && !(k.replaying && k.mlogStart.isSome)

/-- The first rank from `r` on that is not taken. -/
def freeRank (taken : List Nat) (count : Nat) : Nat → Nat → Nat
  | 0, r => r
  | n + 1, r => if taken.contains r then freeRank taken count n ((r + 1) % count) else r

/-- Arrivals of contexts that the counting point of another module has released, one or more of those that wait with one count, with the ranks
it gave: free values below the count, no two alike. It may have refused one for a count that is not its generation's (R303). -/
def awayRelease (s : State) (key : Nat) : State :=
  let b := s.barrier key
  let m := s.free
  let first := (b.arr[(m.2.choose b.arr.length).1]?).toList
  let s := (m.2.choose b.arr.length).2
  let mates := b.arr.filter fun r => first.any fun q => q.tag != r.tag && q.rank == r.rank
  let out := first ++ (mates.zipIdx.filter fun p => bit m.1 p.2).map Prod.fst
  let no := s.choose 2
  let rel : List BarArr × State :=
    if no.1 = 1 then (first.map fun r => { r with rank := refusedRank }, no.2)
    else (out.take ((first.map (·.rank)).headD 0)).foldl (fun q r =>
      let f := q.2.choose r.rank
      (q.1 ++ [{ r with rank := freeRank (q.1.map (·.rank)) r.rank (q.1.length + 1) f.1 }], f.2)) ([], no.2)
  let gone := rel.1.map (·.tag)
  rel.2.setBarrier key { b with arr := b.arr.filter fun r => !gone.contains r.tag, rel := b.rel ++ rel.1 }

/-- BARRIER_RELEASE (R302): it reaches the contexts of a released generation. Where the counting point is another module, the release is
that module's. -/
def execBarrierRelease (key : Nat) (s : State) : Ans :=
  let s := if barAway key && s.boot.links != 0 && !((s.barrier key).rel.any (barHere s)) then awayRelease s key else s
  let b := s.barrier key
  let s' := s.setBarrier key { b with rel := b.rel.filter fun r => !barHere s r }
  .next ((b.rel.filter (barHere s)).foldl barReturn s')

/-! ### Channels: handles and the local store -/

/-- The open endpoint a handle names (R304): its number. -/
def rxHandle (s : State) (v : Word) : Option Nat :=
  let n := v.toNat
  let e := s.myCore.rxEp (bits n 0 6)
  if n < 2 ^ 16 && !bit n 7 && !bit n 6 && e.isOpen && e.gen = bits n 8 8 then some (bits n 0 6) else none

def txHandle (s : State) (v : Word) : Option Nat :=
  let n := v.toNat
  let e := s.myCore.txEp (bits n 0 6)
  if n < 2 ^ 16 && bit n 7 && !bit n 6 && e.isOpen && e.gen = bits n 8 8 then some (bits n 0 6) else none

/-- Is a receive endpoint of a core bound to x60 by some context, a parked one in a lent slot among them (R310, R199)? -/
def boundUp (s : State) (k ep : Nat) : Bool :=
  (List.range 16).any fun n =>
    (s.ctx (16 * k + n)).upq == some ep || (s.slot (16 * k + n)).park.any (·.upq == some ep)

/-- Do `n` bytes from address `va` lie inside the valid extent of the local store (R313)? -/
def lsInside (s : State) (va n : Nat) : Bool :=
  va / 2 ^ 32 = 0xFE && (if n = 0 then va % 2 ^ 32 < s.myCore.lsplit * 2 ^ 15 else va % 2 ^ 32 + n ≤ s.myCore.lsplit * 2 ^ 15)

/-! ### Opening and closing -/

/-- A descriptor of CHOPEN (R305), or none where it is refused. -/
structure ChDesc where
  send : Bool
  num : Nat
  auto : Bool
  slotw : Nat
  nslot : Nat
  base : Nat
  peer : Nat
  init : Nat

def chDesc (lsBytes : Nat) (ws : List Nat) : Option ChDesc :=
  let ctl := (ws[0]?).getD 0
  let q : ChDesc := ⟨bit ctl 0, bits ctl 8 6, bit ctl 1, bits ctl 24 8, bits ctl 16 8 + 1, (ws[1]?).getD 0, (ws[2]?).getD 0, (ws[3]?).getD 0⟩
  if bits ctl 32 32 ≠ 0 || bits ctl 14 2 ≠ 0 || bits ctl 2 6 ≠ 0 || 2 ^ 29 ≤ q.peer then none
  else if q.send then
    if q.slotw ≠ 0 || q.nslot ≠ 1 || q.auto || q.base ≠ 0 || q.init ≠ 0 || 47 < epNum q.peer then none else some q
  else if 47 < q.num || q.slotw < 2 || 33 < q.slotw || q.base % 8 ≠ 0 || 256 < q.init || (q.init ≠ 0 && q.peer = 0) ||
      lsBytes < q.base + q.nslot * q.slotw * 8 then none
  else some q

/-- CHOPEN (R312). -/
def execChopen (h : Hdr) (d a : Reg) (p : Pred) (s : State) : Ans :=
  issue { h := h, srcs := [a], dst := some d, mem := true } (fun s v =>
    let va := (v 0).toNat
    (readWords s va 4).bind fun ws s =>
      let k := ctxCore s.cur
      match chDesc (s.myCore.lsplit * 2 ^ 15) ws with
      | none => .fault { code := cIllegalEnc, addr := va }
      | some q =>
        if q.send then
          let e := s.myCore.txEp q.num
          if e.isOpen then .next (putPred s p false)
          else
            let g := (e.gen + 1) % 256
            let s := s.setMyCore (s.myCore.setTx q.num { isOpen := true, gen := g, peer := q.peer })
            .next (putPred (putReg s d (BitVec.ofNat 64 (g * 2 ^ 8 + 2 ^ 7 + q.num))) p true)
        else
          let e := s.myCore.rxEp q.num
          if e.isOpen then .next (putPred s p false)
          else
            let g := (e.gen + 1) % 256
            let s := s.setMyCore (s.myCore.setRx q.num
              { isOpen := true, gen := g, base := q.base, slotw := q.slotw, nslot := q.nslot, auto := q.auto, peer := q.peer })
            let s := if q.init = 0 then s else (grantTo (s.countSent s.cur) k q.num q.peer q.init).2
            .next (putPred (putReg s d (BitVec.ofNat 64 (g * 2 ^ 8 + q.num))) p true)) s

/-- CHCLOSE (R317). -/
def execChclose (h : Hdr) (d a : Reg) (s : State) : Ans :=
  issue { h := h, srcs := [a], dst := some d, mem := true } (fun s v =>
    match rxHandle s (v 0), txHandle s (v 0) with
    | some n, _ =>
      let e := s.myCore.rxEp n
      let s := s.setMyCore (s.myCore.setRx n { gen := e.gen })
      let s := (List.range 16).foldl (fun s i =>
        let c := 16 * ctxCore s.cur + i
        let sl := s.slot c
        let un (x : Ctx) : Ctx := if x.upq = some n then { x with upq := none } else x
        if sl.ctx.upq = some n || sl.park.any (·.upq == some n) then s.setSlot c { sl with ctx := un sl.ctx, park := sl.park.map un } else s) s
      .next (putReg s d (BitVec.ofNat 64 e.occ))
    | none, some n =>
      let e := s.myCore.txEp n
      if e.buf ≠ 0 && !e.broken then .hold
      else .next (putReg (s.setMyCore (s.myCore.setTx n { gen := e.gen })) d (BitVec.ofNat 64 e.buf))
    | none, none => .fault { code := cIllegalEnc }) s

/-! ### Sending and receiving -/

/-- The checks of R313 on a send, in their order: the endpoint, or the fault. -/
def sendCheck (s : State) (hv src len : Word) : Except Flt Nat :=
  match txHandle s hv with
  | none => .error { code := cIllegalEnc }
  | some n =>
    if (s.myCore.txEp n).broken then .error { code := cChanBroken }
    else if 256 < len.toNat then .error { code := cIllegalEnc }
    else if !lsInside s src.toNat len.toNat then .error { code := cProt, addr := src.toNat }
    else if src.toNat % 8 ≠ 0 then .error { code := cAlign, addr := src.toNat }
    else .ok n

/-- The message sent, when the allowance and the buffer permit (R313). -/
def sendNow (s : State) (n : Nat) (src len : Word) : Option State :=
  let e := s.myCore.txEp n
  if e.limit < len.toNat then none
  else
    let body := memBytes s.mem (locLs (ctxCore s.cur) (src.toNat % 2 ^ 32)) len.toNat
    some (sendMsg (s.countSent s.cur) (ctxCore s.cur) n body)

/-- CHSEND (R313). -/
def execChsend (h : Hdr) (a t1 t2 : Reg) (s : State) : Ans :=
  issue { h := h, srcs := [a, t1, t2], mem := true } (fun s v =>
    match sendCheck s (v 0) (v 1) (v 2) with
    | .error f => .fault f
    | .ok n =>
      if saveHoldsLs s then .hold
      else if !(s.myCore.txEp n).ready || postsTo s (s.myCore.txEp n).peer then .park s
      else
        match sendNow s n (v 1) (v 2) with
        | none => .fault { code := cIllegalEnc }
        | some s => .next s) s

/-- CHTRY (R313). -/
def execChtry (h : Hdr) (a t1 t2 : Reg) (p : Pred) (s : State) : Ans :=
  issue { h := h, srcs := [a, t1, t2], mem := true } (fun s v =>
    match sendCheck s (v 0) (v 1) (v 2) with
    | .error f => .fault f
    | .ok n =>
      if saveHoldsLs s || postsTo s (s.myCore.txEp n).peer then .hold
      else if !(s.myCore.txEp n).ready then .next (putPred s p false)
      else
        match sendNow s n (v 1) (v 2) with
        | none => .fault { code := cIllegalEnc }
        | some s => .next (putPred s p true)) s

/-- The contexts parked in CHRECV on an endpoint, in the order in which they issued (R307). -/
def liveWaiters (s : State) (e : RecvEp) : List Nat := e.waiters.filter fun c => c == s.cur || (s.ctx c).st == .parked .retry

/-- CHRECV (R314). -/
def execChrecv (h : Hdr) (d a t1 : Reg) (s : State) : Ans :=
  issue { h := h, srcs := [a, t1], dst := some d, mem := true } (fun s v =>
    match rxHandle s (v 0) with
    | none => .fault { code := cIllegalEnc }
    | some n =>
      let k := ctxCore s.cur
      let e := s.myCore.rxEp n
      let va := (v 1).toNat
      if boundUp s k n then .fault { code := cIllegalEnc }
      else if !lsInside s va (e.slotw * 8 - 8) then .fault { code := cProt, addr := va }
      else if va % 8 ≠ 0 then .fault { code := cAlign, addr := va }
      else
        if saveHoldsLs s then .hold else
        let ws := liveWaiters s e
        let ws' := if ws.contains s.cur then ws else ws ++ [s.cur]
        if e.occ = 0 || ws'.head? ≠ some s.cur then .park (s.setMyCore (s.myCore.setRx n { e with waiters := ws' }))
        else
          let m := headMsg s k e
          if postsTo s (bits m.1 0 32) then .hold else
          let s := s.setMem (memPut s.mem (locLs k (va % 2 ^ 32)) m.2)
          let s := s.setMyCore (s.myCore.setRx n { e with waiters := ws'.tail })
          let s := freeHead s k n
          let s := if e.auto then (grantTo (s.countSent s.cur) k n (bits m.1 0 32) 1).2 else s
          .next (putReg s d (BitVec.ofNat 64 m.1))) s

/-- CHGRANT (R315). -/
def execChgrant (h : Hdr) (d a t1 t2 : Reg) (s : State) : Ans :=
  issue { h := h, srcs := [a, t1, t2], dst := some d, mem := true } (fun s v =>
    match rxHandle s (v 0) with
    | none => .fault { code := cIllegalEnc }
    | some n =>
      if 256 < (v 2).toNat || 2 ^ 29 ≤ (v 1).toNat || boundUp s (ctxCore s.cur) n then .fault { code := cIllegalEnc }
      else if postsTo s (v 1).toNat then .hold
      else
        let g := grantTo (s.countSent s.cur) (ctxCore s.cur) n (v 1).toNat (v 2).toNat
        .next (putReg g.2 d (BitVec.ofNat 64 g.1))) s

/-- The first ready index from WIN + 1 on (R309). -/
def altWinner (s : State) (l win : Nat) : Option Nat :=
  ((List.range 8).map fun i => (win + 1 + i) % 8).find? fun i =>
    let n := bits l (8 * i) 8
    n != 0xFF && (s.myCore.rxEp n).occ != 0

/-- ALT (R316). -/
def execAlt (h : Hdr) (d a : Reg) (s : State) : Ans :=
  issue { h := h, srcs := [a], dst := some d, mem := true } (fun s v =>
    let l := (v 0).toNat
    let ns := (List.range 8).map fun i => bits l (8 * i) 8
    if ns.all (· == 0xFF) ||
        ns.any (fun n => n != 0xFF && (47 < n || !(s.myCore.rxEp n).isOpen || boundUp s (ctxCore s.cur) n)) then
      .fault { code := cIllegalEnc }
    else
      match altWinner s l s.me.win.toNat with
      | none => .park s
      | some i => .next (putReg (s.setMe { s.me with win := BitVec.ofNat 3 i }) d (BitVec.ofNat 64 i))) s

/-! ### Register queues (R310, R318) -/

/-- QBIND up: `a` = x0 unbinds. -/
def execQbindUp (h : Hdr) (a : Reg) (s : State) : Ans :=
  issue { h := h, srcs := [a], mem := true } (fun s v =>
    if (s.slot s.cur).fibre then .fault { code := cIllegalEnc }
    else if a = 0 then .next (s.setMe { s.me with upq := none })
    else
      match rxHandle s (v 0) with
      | none => .fault { code := cIllegalEnc }
      | some n =>
        let e := s.myCore.rxEp n
        if e.nslot < 16 || e.peer = 0 || e.auto || s.me.upq.isSome then .fault { code := cIllegalEnc }
        else .next (queueGrant (s.setMe { s.me with upq := some n }) (ctxCore s.cur) n)) s

/-- QBIND down: `a` = x0 unbinds. -/
def execQbindDown (h : Hdr) (a : Reg) (s : State) : Ans :=
  issue { h := h, srcs := [a], mem := true } (fun s v =>
    if (s.slot s.cur).fibre then .fault { code := cIllegalEnc }
    else if a = 0 then .next (s.setMe { s.me with downq := none })
    else
      match txHandle s (v 0) with
      | none => .fault { code := cIllegalEnc }
      | some n =>
        if s.me.downq.isSome then .fault { code := cIllegalEnc }
        else .next (s.setMe { s.me with downq := some n })) s

/-! ### Arrivals -/

/-- An acknowledgement, or a refusal, returns to a message's sender (R307, R308). -/
def sendAck (s : State) (src gen : Nat) (refused : Bool) : State :=
  if epDev src = fabDev then s.later (.messageAckArrival src gen refused) else s.emit (.ack src gen refused)

/-- MESSAGE_ARRIVAL (R307, R308). -/
def execMessageArrival (m : ChanMsg) (s : State) : Ans :=
  let k := epCore m.dst
  let n := epNum m.dst
  let e := (s.core k).rxEp n
  if epDev m.src != fabDev && s.boot.links = 0 then .next s
  else if !e.isOpen || e.gen ≠ m.gen then .next (sendAck s m.src m.gen true)
  else
    let a := locLs k (e.base + e.tailIx * e.slotw * 8)
    let s := s.setMem (memWrite s.mem a 8 (m.src % 2 ^ 32 + m.body.length * 2 ^ 32))
    let s := s.setMem (memPut s.mem (a + 8) m.body)
    let c := s.core k
    let s := s.setCore k (c.setRx n { e with occ := e.occ + 1, granted := e.granted - 1, tailIx := (e.tailIx + 1) % e.nslot })
    let s := logItem s (16 * k) 2 m.src (toWords ((m.body.length + 7) / 8) m.body)
    .next (sendAck (classArrival s k n) m.src m.gen false)

/-- The send endpoint of core `k` becomes BROKEN (R306, R308). -/
def breakSend (s : State) (k n : Nat) : State :=
  let c := s.core k
  classArrival (s.setCore k (c.setTx n { c.txEp n with broken := true })) k 49

/-- GRANT_ARRIVAL (R306); from another module none arrives while no Kevel port is ready (R362). -/
def execGrantArrival (g : GrantMsg) (s : State) : Ans :=
  let k := epCore g.dst
  let n := epNum g.dst
  let e := (s.core k).txEp n
  if !e.isOpen || noPort s (.glob (epDev e.peer) 0) then .next s
  else
    let s := logItem s (16 * k) 3 g.dst [g.amount, g.gen, g.limit]
    if e.rgen.getD g.gen ≠ g.gen then .next (breakSend s k n)
    else
      .next (s.setCore k ((s.core k).setTx n { e with rgen := some g.gen, allow := e.allow + g.amount, limit := g.limit }))

/-- MESSAGE_ACK_ARRIVAL (R307, R308): a refused message stays counted in BUF. -/
def execMessageAckArrival (dst gen : Nat) (refused : Bool) (s : State) : Ans :=
  let k := epCore dst
  let n := epNum dst
  let e := (s.core k).txEp n
  if !e.isOpen || e.rgen ≠ some gen || noPort s (.glob (epDev e.peer) 0) then .next s
  else
    let s := logItem s (16 * k) 3 dst [refused.toNat]
    if refused then .next (breakSend s k n)
    else .next (s.setCore k ((s.core k).setTx n { e with buf := e.buf - 1 }))

end Sys2Proof.Machine
end

