-- ==== Sys2Proof/Machine/Power.lean ====
section
/-! DEFINITION. Islands and power (R357 to R361), bring-up (R362 to R366), attestation (R367), and the loss of a die (R343). -/

namespace Sys2Proof.Machine

/-- What a write of a system register gives: done, held until a condition, or refused with a code. -/
inductive RegRes where
  | ok (s : State)
  | wait (s : State)
  | fault (code : Nat)

/-! ### Islands (R358 to R361) -/

/-- Cluster of an island, and whether it is the swarm island (R18). -/
def islCl (i : Nat) : Nat := i / 64 * 32 + i % 64 / 2
def islSwarm (i : Nat) : Bool := i % 2 == 0

def islStep (s : State) (i : Nat) : Nat := let c := s.cluster (islCl i); if islSwarm i then c.sstep else c.mstep
def islAsk (s : State) (i : Nat) : Nat := let c := s.cluster (islCl i); if islSwarm i then c.swAsk else c.maAsk
def islStop (s : State) (i : Nat) : Nat := let c := s.cluster (islCl i); if islSwarm i then c.sstop else c.mstop

/-- Step asked for, running step and end of the stop of an island set. -/
def setIsl (s : State) (i ask step stop : Nat) : State :=
  let c := s.cluster (islCl i)
  s.setCluster (islCl i) (if islSwarm i then { c with swAsk := ask, sstep := step, sstop := stop }
    else { c with maAsk := ask, mstep := step, mstop := stop })

/-- May the matrix island of a cluster be gated (R359)? -/
def gateable (s : State) (cl : Nat) : Bool :=
  [0, 1].all fun m =>
    let u := s.mu (muOf cl m)
    u.st == .resting && u.easel.isEmpty && u.bHold.isNone && u.outTile.isNone

/-- The issuing context's write of pwr.ctl has been accepted before, for this island (R358). -/
def pwrTaken (s : State) (i : Nat) : Bool := s.pwrWait.contains (s.cur, i, s.me.icount)
def pwrDrop (s : State) : State := { s with pwrWait := s.pwrWait.filter (·.1 != s.cur) }

/-- A write of pwr.ctl (R358, R359): the island's clock stops for at most 2,048 cycles, and the write holds until it runs at the new
step. -/
def pwrCtlSet (s : State) (v : Word) : RegRes :=
  let i := bits v.toNat 16 9
  let st := bits v.toNat 0 5
  if 19 < st || (st = 0 && islSwarm i) then .fault cIllegalEnc
  else
    let s' := { s with pwrIsl := i, pwrStep := st }
    if pwrTaken s i then (if islStop s i = 0 || islAsk s i ≠ st then .ok (pwrDrop s) else .wait s)
    else if islStop s i = 0 && islStep s i = st then .ok (setIsl s' i st st 0)
    else if islStop s i ≠ 0 then .wait s
    else if st = 0 && !gateable s (islCl i) then .fault cIllegalEnc
    else
      let r := { s' with pwrWait := (s.cur, i, s.me.icount) :: s.pwrWait.filter (·.1 != s.cur) }.choose 2048
      .wait ((setIsl r.2 i st (islStep s i) (s.now + 1 + r.1)).after r.1 (.islandStepChange i))

/-- A write of a register taken for the current context; one that waits holds the context at its instruction. -/
def applyReg (s : State) (r : RegRes) : Ans :=
  .next (match r with
    | .ok s => s
    | .wait s => s.setMe { s.me with st := .parked .retry }
    | .fault c => takeFault s { code := c })

/-- PWR_CTL_WRITE (R358). -/
def execPwrCtlWrite (v : Word) (s : State) : Ans := applyReg s (pwrCtlSet s v)

/-- ISLAND_STEP_CHANGE (R358). -/
def execIslandStepChange (isl : Nat) (s : State) : Ans :=
  .next (if islStop s isl = 0 || s.now < islStop s isl then s else setIsl s isl (islAsk s isl) (islAsk s isl) 0)

/-- Islands of the clusters that run, and that no change has stopped. -/
def islands (s : State) : List Nat :=
  (s.clusters.filter (·.2.ready)).flatMap fun c =>
    ([0, 1].map fun k => c.1 / 32 * 64 + c.1 % 32 * 2 + k).filter fun i => islStop s i == 0

/-- An island lowered by one step: a throttle event (R360). -/
def throttle (s : State) (i : Nat) : State :=
  let s := setIsl s i (islAsk s i) (islStep s i - 1) 0
  { s with pwrThrot := (s.pwrThrot + 1) % 2 ^ 32 }

/-- POWER_WINDOW (R360): the average of 1 ms, 1,900,000 cycles, lowers any one or more islands, or raises one. -/
def execPowerWindow (watts : Nat) (s : State) : Ans :=
  let s := { s with pwrWatts := watts % 2 ^ 16 }
  let s := s.free.2.after 1899999 (.powerWindow s.free.1)
  if s.pwrLimit < s.pwrWatts then
    let low := (islands s).filter fun i => 1 < islStep s i
    match low with
    | [] => .next s
    | i :: _ =>
      let m := s.free
      let some := (low.zipIdx.filter fun p => bit m.1 p.2).map Prod.fst
      .next ((if some = [] then [i] else some).foldl throttle m.2)
  else if 100 * s.pwrWatts < 95 * s.pwrLimit then
    let up := (islands s).filter fun i => islStep s i != 0 && islStep s i < islAsk s i
    let r := s.choose up.length
    match up[r.1]? with
    | none => .next s
    | some i => .next (setIsl r.2 i (islAsk s i) (islStep s i + 1) 0)
  else .next s

/-! ### Bring-up (R362 to R366) -/

/-- boot.status (R365). -/
def bootStatus (b : Boot) : Nat := b.minimal.toNat + b.conf.toNat * 2 + b.fails * 2 ^ 16 + b.reason * 2 ^ 24 + b.svn % 256 * 2 ^ 32

/-- Security version of an image: byte 8 of its header (R366). -/
def svnOf (img : List Byte) : Nat := (img.getD 8 0).toNat

/-- Is an image signed (R366): its signature is over the SHA3-512 digest of header and body? -/
def signedImage (img sig : List Byte) : Bool := Config.vendorSigned (sha3 img) sig

/-- Does an image verify (R366)? -/
def verifies (img sig : List Byte) : Bool := signedImage img sig && Config.fusedSvn ≤ svnOf img

/-- Does a stored image verify? -/
def imageVerifies (i : Nat) : Bool := verifies (Config.imageBytes i) (Config.imageSignature i)
def imageSvn (i : Nat) : Nat := svnOf (Config.imageBytes i)

/-- The stored image that starts (R366). -/
def storedImage : Option Nat :=
  match imageVerifies 0, imageVerifies 1 with
  | true, true => some (if imageSvn 0 < imageSvn 1 then 1 else 0)
  | true, false => some 0
  | false, true => some 1
  | false, false => none

/-- A failed start is counted, up to 3, with its reason (R364). -/
def failStart (b : Boot) (reason : Nat) : Boot := { b with failed := true, count := min (b.count + 1) 3, lastReason := reason }

/-- Is a start under way, neither confirmed nor failed? -/
def Boot.open (b : Boot) : Bool := b.started && !b.conf && !b.failed

/-- Dies and clusters that a start brings up (R362, R364); their ready bits rise in no fixed order. -/
def bringUp (s : State) : State :=
  let dies := if s.boot.minimal then [0] else List.range 8
  let cls := if s.boot.minimal then List.range 4 else List.range 256
  let s := dies.foldl (fun s d => s.later (.dieReady d)) s
  let s := cls.foldl (fun s c => s.later (.clusterReady c)) s
  if s.boot.minimal then s else (List.range 16).foldl (fun s p => s.later (.linkReady p)) s

/-- The state a reset leaves: every register at its reset value; memory keeps its bytes, and the count of failed starts stands. -/
def resetModule (s : State) : State :=
  let b := if s.boot.open then failStart s.boot 0x04 else s.boot
  { State.reset with
    todo := [], mem := s.mem, ecc := s.ecc, oracle := s.oracle, freeCtr := s.freeCtr, tagCtr := s.tagCtr, outbox := s.outbox, snapshots := s.snapshots
    boot := { count := b.count, lastReason := b.lastReason, fails := b.count, reason := if b.count = 0 then 0 else b.lastReason,
              minimal := b.count == 3, started := true } }

/-- Image number `n`, with this header and body, started: its entries, its security version, its digest (R362, R366, R367). -/
def startImage (s : State) (n : Nat) (img : List Byte) : State :=
  bringUp { s with boot := { s.boot with waiting := false, image := some n, svn := svnOf img, control := Config.imageControl img,
                                         walker := Config.imageWalker img, digest := sha3 img } }

/-- MODULE_RESET (R362, R364, R366). -/
def execModuleReset (s : State) : Ans :=
  let s := resetModule s
  let s := s.after (2 ^ 32) .bootDeadlineExpiry
  let s := s.free.2.after 1899999 (.powerWindow s.free.1)
  match storedImage with
  | some i => .next (startImage s i (Config.imageBytes i))
  | none =>
    if s.boot.minimal then .next { s with boot := { s.boot with waiting := true } }
    else
      let signed := [0, 1].any fun i => signedImage (Config.imageBytes i) (Config.imageSignature i)
      .next { s with boot := failStart s.boot (if signed then 0x02 else 0x01) }

/-- Header and body of the image that the host has placed at address 0 (R364, R366), within the window's 1 GiB. -/
def hostImage (s : State) : List Byte := memBytes s.mem 0 (256 + Config.bodyLength (memBytes s.mem 0 256) % 2 ^ 30)

/-- The signature behind it. -/
def hostSignature (s : State) : List Byte := memBytes s.mem (hostImage s).length 4627

/-- The boot ROM verifies the image the host placed at address 0, and starts it (R364). -/
def verifyHostImage (s : State) : State :=
  if verifies (hostImage s) (hostSignature s) then startImage s 2 (hostImage s) else s

/-- HOST_DOORBELL (R332, R364): one for this module may also come over the fabric, from the bridge the host writes at. -/
def execHostDoorbell (v : Nat) (s : State) : Ans :=
  .next (if pcieOn s && s.boot.waiting then verifyHostImage s
    else if pcieOn s || (s.boot.links != 0 && v % 2 ^ 12 == fabDev) then ringDoorbell s v else s)

/-- DIE_READY (R362). -/
def execDieReady (die : Nat) (s : State) : Ans :=
  .next (if s.lost die then s else s.setDie die { s.die die with ready := true })

/-- CLUSTER_READY (R362): slots 0 and 15 of its cores start at the firmware's entries; the phase counters of its cores stand anywhere
(R122). -/
def execClusterReady (cl : Nat) (s : State) : Ans :=
  if s.lost (clDie cl) || (s.cluster cl).ready then .next s
  else
    let s := s.setCluster cl { s.cluster cl with ready := true }
    .next (((List.range 8).map (8 * cl + ·)).foldl (fun s k =>
      let p := s.choose 16
      let s := p.2.setCore k { p.2.core k with phase := p.1 }
      let s := startCtx s (16 * k) (freshCtx (BitVec.ofNat 64 s.boot.control) 0 0 0 true false .none)
      startCtx s (16 * k + 15) (freshCtx (BitVec.ofNat 64 s.boot.walker) 0 0 0 true false .none)) s)

/-- LINK_READY (R363) of one of the module's 16 ports (R11); packets that waited for a port leave (R324, R362). -/
def execLinkReady (port : Nat) (s : State) : Ans :=
  if 16 ≤ port || s.boot.minimal || bit s.boot.links port then .next s
  else .next { s with boot := { s.boot with links := s.boot.links + 2 ^ port }, outbox := s.outbox ++ s.nic, nic := [] }

/-- boot.rdy as read on a die (R363). -/
def bootRdy (s : State) (die : Nat) : Nat :=
  ((List.range 32).map fun c => (s.cluster (32 * die + c)).ready.toNat * 2 ^ c).sum +
    ((List.range 8).map fun d => (s.die d).ready.toNat * 2 ^ (32 + d)).sum + s.boot.links * 2 ^ 48

/-- BOOT_DEADLINE_EXPIRY (R364). -/
def execBootDeadlineExpiry (s : State) : Ans :=
  .next (if s.boot.open && s.boot.start + 2 ^ 32 < s.now then { s with boot := failStart s.boot 0x03 } else s)

/-- POWER_STAGE_FAULT (R365). -/
def execPowerStageFault (s : State) : Ans :=
  .next (if s.boot.open then { s with boot := failStart s.boot 0x05 } else s)

/-- A write of boot.ok (R364, R365). -/
def bootOkSet (s : State) (v : Word) : State :=
  if bits v.toNat 0 16 = 0x600D && s.boot.open && s.now ≤ s.boot.start + 2 ^ 32 then
    { s with boot := { s.boot with conf := true, count := 0 } }
  else s

/-- BOOT_OK (R365). -/
def execBootOk (v : Word) (s : State) : Ans := .next (bootOkSet s v)

/-! ### Attestation (R367) -/

/-- Bytes 0x000 to 0x0FF of a report. -/
def reportHead (s : State) (nonce : List Byte) (n : Nat) : List Byte :=
  leBytes 8 0x545250414C455A4F ++ nonce ++ s.boot.digest ++
    leBytes 8 (bootStatus s.boot) ++ leBytes 8 fabId ++ (List.range 16).map Config.serial ++ leBytes 8 n ++ List.replicate 80 0

/-- The buffer address of attest.ctl. -/
def attestBase (v : Word) : Nat := bits v.toNat 13 35 * 2 ^ 13

/-- The report written (R367). -/
def attestReport (s : State) (v : Word) : State :=
  let a := attestBase v
  let n := s.boot.reports + 1
  let hd := reportHead s (memBytes s.mem (a + 8) 64) n
  { s with boot := { s.boot with reports := n }, mem := memPut s.mem a (hd ++ (List.range 4627).map (Config.signature (sha3 hd))) }

/-- The identity public key written (R367). -/
def attestKey (s : State) (v : Word) : State :=
  s.setMem (memPut s.mem (attestBase v) ((List.range 2592).map Config.identityKey))

/-- A write of attest.ctl. -/
def attestSet (s : State) (v : Word) : RegRes :=
  if physReserved (attestBase v) then .fault cIllegalEnc
  else if !bit v.toNat 0 then .ok s
  else if s.dieGone (homeDie (attestBase v)) then .fault cDieLost
  else .ok (if bit v.toNat 1 then attestKey s v else attestReport s v)

/-- ATTEST_REPORT (R367): a write of attest.ctl with KIND 0. -/
def execAttestReport (v : Word) (s : State) : Ans := applyReg s (attestSet s (v &&& ~~~2#64))
/-- ATTEST_IDENTITY_KEY (R367): a write of attest.ctl with KIND 1. -/
def execAttestIdentityKey (v : Word) (s : State) : Ans := applyReg s (attestSet s (v ||| 2#64))

/-! ### The loss of a die (R343) -/

/-- Contexts that wait for an answer of the die: each faults DIE_LOST at once. -/
def lostParked (s : State) (d : Nat) : State :=
  s.slots.foldl (fun s sl =>
    match (s.ctx sl.1).st with
    | .parked (.reply tag) =>
      match (s.ctx sl.1).outst.find? fun o => o.tag == tag && o.die == some d with
      | some o => if ctxDie sl.1 = d then s else answer s sl.1 tag (some { code := cDieLost, addr := o.addr })
      | none => s
    | _ => s) s

/-- The die of a full/empty word's location (R9). -/
def locDie (w : Nat) : Nat :=
  if w < 2 ^ 48 then homeDie w
  else if w < locLs 0 0 then (w - locSp 0 0) / 2 ^ 28
  else (w - locLs 0 0) / 2 ^ 26

/-- Waiters of full/empty words on the die: those of other dies fault DIE_LOST at once, the lists go. -/
def lostWaiters (s : State) (d : Nat) : State :=
  let gone := s.feWait.filter fun w => locDie w.1 == d
  let s := { s with feWait := s.feWait.filter fun w => locDie w.1 != d }
  (gone.flatMap fun w => w.2.fl ++ w.2.el).foldl (fun s q => if q.ctx.any (ctxDie · == d) then s else feFault s q cDieLost) s

/-- Posted requests to the die that are not acknowledged: a delayed DIE_LOST each (R340). -/
def lostPosted (s : State) (d : Nat) : State :=
  s.slots.foldl (fun s sl =>
    let x := s.slot sl.1
    let os := x.ctx.outst ++ (x.park.map (·.outst)).getD [] ++ x.late
    if ctxDie sl.1 = d then s
    else (os.filter fun o => o.posted.isSome && o.die == some d).foldl (fun s o =>
      { s with events := s.events ++ [(s.now, .delayedFaultArrival sl.1 o.tag ⟨cDieLost, clearAuth⟩)] }) s) s

/-- Endpoints whose other side is on the die (R308, R343). -/
def lostEndpoints (s : State) (d : Nat) : State :=
  let onDie (a : Nat) : Bool := epDev a == fabDev && epCore a / 256 == d
  s.cores.foldl (fun s kc =>
    if kc.1 / 256 = d then
      -- senders on the die: what they may still send, grants on their way among it, is taken off their receivers' grants
      kc.2.tx.foldl (fun s t =>
        let e := t.2
        let k := epCore e.peer
        if !e.isOpen || epDev e.peer ≠ fabDev || k / 256 = d then s
        else
          let c := s.core k
          let r := c.rxEp (epNum e.peer)
          let due := s.events.foldl (fun n ev => match ev.2 with
            | .grantArrival g => if g.dst = epAddr kc.1 t.1 then n + g.amount else n
            | _ => n) 0
          s.setCore k (c.setRx (epNum e.peer) { r with granted := r.granted - e.allow - due })) s
    else
      kc.2.tx.foldl (fun s t => if t.2.isOpen && !t.2.broken && onDie t.2.peer then breakSend s kc.1 t.1 else s) s) s

/-- Barrier generations with a participant on the die: the others fault, and a new generation begins (R343). One that is saved, and counts
as arrived, faults when it runs again; those of other modules are told. -/
def lostBarriers (s : State) (d : Nat) : State :=
  s.barriers.foldl (fun s kb =>
    let b := s.barrier kb.1
    if !b.arr.any fun r => ctxDie r.ctx == d then s
    else
      let others := b.arr.filter fun r => ctxDie r.ctx != d
      let away := (others.filter (!atBarrier s ·)).map fun r => { r with rank := lostRank }
      let s := b.remote.foldl (fun s r => s.emit (.release r.1 kb.1 r.2.1 lostRank)) (s.setBarrier kb.1 ⟨0, [], [], b.rel ++ away⟩)
      (others.filter (atBarrier s ·)).foldl (fun s r => barFault s r.ctx cDieLost) s) s

/-- The ready bits of a die's clusters cleared (R362). -/
def darken (s : State) (die : Nat) : State :=
  { s with clusters := s.clusters.map fun kc => (kc.1, if clDie kc.1 = die then { kc.2 with ready := false } else kc.2) }

/-- DIE_LOSS (R343, R362), in the order of R343's table. -/
def execDieLoss (die : Nat) (s : State) : Ans :=
  if s.lost die then .next s
  else
    let s := { s with pkgLost := s.pkgLost + 2 ^ die }
    let s := s.setDie die { s.die die with ready := false }
    let s := darken s die
    let live := (List.range 2048).filter fun k => !s.dieGone (k / 256)
    let s := live.foldl (fun s k => classArrival s k 48) s
    .next (lostBarriers (lostEndpoints (lostPosted (lostWaiters (lostParked s die) die) die) die) die)

end Sys2Proof.Machine
end

