-- ==== Sys2Proof/Machine/Pred.lean ====
section
/-! DEFINITION. The compares and the predicate instructions (R143 to R145). -/

namespace Sys2Proof.Machine

/-- ICMP (R143). -/
def execIcmp (h : Hdr) (cc : Icc) (ty : IntTy) (pt pf : Pred) (a : Reg) (b : CmpSrc) (cm : Bool) (s : State) : Ans :=
  match b with
  | .reg b => issuePred h [a, b] pt pf cm (fun _ v => icmpCond cc ty (v 0) (v 1)) s
  | .imm k => issuePred h [a] pt pf cm (fun _ v => icmpCond cc ty (v 0) (cmpImm k)) s

/-- FCMP (R143). -/
def execFcmp (h : Hdr) (cc : Fcc) (ty : FloatTy) (pt pf : Pred) (a b : Reg) (cm : Bool) (s : State) : Ans :=
  issuePred h [a, b] pt pf cm (fun _ v => fcmpCond cc ty (v 0) (v 1)) s

/-- PLOG (R35, R144): both sources are read before either destination is written. -/
def execPlog (h : Hdr) (cc : BitVec 4) (pt pf pa pb : Pred) (cm : Bool) (s : State) : Ans :=
  issuePred h [] pt pf cm (fun x _ => plogVal cc (x.pred pa) (x.pred pb)) s

/-- PXFER.get (R145): one half of the predicates into a register. -/
def execPxferGet (h : Hdr) (d : Reg) (half : Bool) (s : State) : Ans :=
  issue { h := h, dst := some d } (fun s _ =>
    .next (putReg s d (((s.me.p ||| 1#128) >>> (64 * half.toNat)).setWidth 64))) s

/-- PXFER.put (R145): a register into one half of the predicates; the write to p0 is discarded. -/
def execPxferPut (h : Hdr) (a : Reg) (half : Bool) (s : State) : Ans :=
  issue { h := h, srcs := [a] } (fun s v =>
    let x := s.me
    let p : BitVec 128 := if half then v 0 ++ (x.p.setWidth 64 : BitVec 64) else ((x.p >>> 64).setWidth 64 : BitVec 64) ++ v 0
    .next (s.setMe { x with p := p ||| 1#128 })) s

end Sys2Proof.Machine
end

