-- ==== Sys2Proof/Machine/Preempt.lean ====
section
/-! DEFINITION. Pre-emption: the gang stop (R344), context records and the slot forms of CTXSAVE and CTXLOAD (R347 to R349), cluster
images (R350 to R354), and what starts a log or a replay (R346). -/

namespace Sys2Proof.Machine

/-! ### GSTOP (R344) -/

/-- The clusters that a 32-byte mask names, but for those of lost dies. -/
def maskClusters (s : State) (ws : List Nat) : List Nat :=
  (List.range 256).filter fun i => bit ((ws[i / 64]?).getD 0) (i % 64) && !s.lost (i / 32)

/-- Is a save of the cluster in progress: it counts as stopped (R344)? -/
def Cluster.beingSaved (k : Cluster) : Bool := k.saving.isSome && !k.loading

/-- A stop entry for each slot of a core that logs (R344, R345). -/
def stopEntries (s : State) (k : Nat) : State :=
  if bit (s.core k).mlog.toNat 0 then
    (List.range 16).foldl (fun s n =>
      let x := s.ctx (16 * k + n)
      logItem s (16 * k + n) 8 0 [x.icount.toNat, x.sent.toNat + 2 ^ 32 * x.recv.toNat]) s
  else s

/-- A context that waits on a full/empty list or at the walker taken from there: it is at its instruction again (R193, R298, R349). A
module that holds the list is told, and an answer on its way is discarded. -/
def unwait (s : State) (c : Nat) : State :=
  let x := s.ctx c
  match x.st with
  | .parked (.fe _) => (feRemove s c).setCtx c { x with st := .live }
  | .parked (.reply n) =>
    match x.outst.find? fun o => o.tag == n && o.fe.isSome with
    | some o =>
      let s := s.setCtx c { x.without o with st := .live }
      match o.fe with
      | some (dev, off) => (sendGlobal s dev off n { op := 9, size := 8 }).getD s
      | none => s
    | none => s
  | .parked .miss =>
    let k := s.core (ctxCore c)
    (s.setCore (ctxCore c) { k with mbox := k.mbox.filter (·.req != ctxSlot c) }).setCtx c { x with st := .live }
  | _ => s

/-- The clusters stopped: every context but the issuer's, the engines, the copy unit between rows, and the timers. A cluster that stood already writes no stop entry
again, but a context of it that still ran, having issued its halt, stops too. A context that waits on a full/empty list or at the walker is
taken from there, and issues its instruction again when it runs again (R193, R298). -/
def gangHalt (s : State) (cls : List Nat) : State :=
  let new := cls.filter fun cl => !(s.cluster cl).gang
  let s := new.foldl copySettle s
  let s := new.foldl (fun s cl => s.setCluster cl { s.cluster cl with gang := true }) s
  let s : State := { s with slots := s.slots.map fun (q : Nat × Slot) => (q.1, if cls.contains (ctxCl q.1) && q.1 != s.cur then { q.2 with gang := true } else q.2) }
  let s := (s.slots.filter fun (q : Nat × Slot) => cls.contains (ctxCl q.1) && q.1 != s.cur).foldl (fun s (q : Nat × Slot) => unwait s q.1) s
  new.foldl (fun s cl => (List.range 8).foldl (fun s i => stopEntries s (8 * cl + i)) s) s

/-- The clusters started again. -/
def gangGo (s : State) (cls : List Nat) : State :=
  let s := cls.foldl (fun s cl => s.setCluster cl { s.cluster cl with gang := false }) s
  { s with slots := s.slots.map fun q => (q.1, if cls.contains (ctxCl q.1) then { q.2 with gang := false } else q.2) }

/-- GSTOP.halt: the stop is complete within the issue, inside the bound of R344; a cluster that is being saved counts as stopped already. -/
def execGstopHalt (h : Hdr) (a : Reg) (s : State) : Ans :=
  issue { h := h, srcs := [a], sysOnly := true } (fun s v =>
    (readWords s (v 0).toNat 4).bind fun ws s => .next (gangHalt s ((maskClusters s ws).filter fun cl => !(s.cluster cl).beingSaved))) s

/-- GSTOP.go: a cluster that is being saved leaves its gang stop too, so that the save can complete (R344). -/
def execGstopGo (h : Hdr) (a : Reg) (s : State) : Ans :=
  issue { h := h, srcs := [a], sysOnly := true } (fun s v =>
    (readWords s (v 0).toNat 4).bind fun ws s => .next (gangGo s (maskClusters s ws))) s

/-! ### Context records (R347) -/

/-- tcr of a context (R149). -/
def tcrWord (c : Nat) (x : Ctx) : Nat :=
  ctxSlot c + x.sys.toNat * 2 ^ 5 + slotRole (ctxSlot c) * 2 ^ 6 + x.prec.toNat * 2 ^ 8

/-- The 128 words of a context's record. -/
def recordWords (s : State) (c : Nat) (x : Ctx) (state : Nat) : List Nat :=
  ((List.range 64).map fun i => if i = 0 || i = 60 || i = 61 then 0 else ((x.x.toList[i]?).getD 0).toNat) ++
  [x.p.toNat % 2 ^ 64, x.p.toNat / 2 ^ 64, x.pc.toNat, tcrWord c x, x.icount.toNat, x.sent.toNat + 2 ^ 32 * x.recv.toNat,
    state + x.win.toNat * 16, x.epc.toNat, x.estat.toNat, x.scratch.toNat,
    match x.st with
    | .sleeping due _ => due - (s.cluster (ctxCl c)).tcyc
    | _ => 0] ++ List.replicate 53 0

/-- STATE of a slot's context or of its fibre (R347); one that sleeps in HJOIN is recorded as live (R118). -/
def stateCode (gang : Bool) (x : Ctx) : Nat :=
  match x.st with
  | .empty => 0
  | .halted => 5
  | .live | .joining _ => if gang then 4 else 1
  | .sleeping _ _ => 3
  | .parked _ => 2

/-- The registers a record holds, put into a context. -/
def recordCtx (x : Ctx) (ws : List Nat) : Ctx :=
  let g (i : Nat) : Nat := (ws[i]?).getD 0
  { x with x := Vector.ofFn fun (i : Fin 64) => if i.val = 0 || i.val = 60 || i.val = 61 then 0 else BitVec.ofNat 64 (g i.val),
           p := BitVec.ofNat 128 (g 64 + 2 ^ 64 * g 65) ||| 1, pc := BitVec.ofNat 64 (g 66), prec := bit (g 67) 8, sys := bit (g 67) 5,
           icount := BitVec.ofNat 64 (g 68), sent := BitVec.ofNat 32 (g 69), recv := BitVec.ofNat 32 (g 69 / 2 ^ 32),
           win := BitVec.ofNat 3 (g 70 / 16), epc := BitVec.ofNat 64 (g 71), estat := BitVec.ofNat 64 (g 72),
           scratch := BitVec.ofNat 64 (g 73) }

/-! ### Stores of a saving context -/

/-- One word stored at a place as a blocking store stores it; with the code of a refusal. -/
def writePlace (s : State) (l : Loc) (v : Nat) : Option Nat × State :=
  match l with
  | .ls c o => (none, storeLoc s (.ls c o) 8 v)
  | .glob dev off =>
    let s := s.countSent s.cur
    if dev = fabDev then
      match ownRequest s off 8 false .write with
      | (.ok l, s) => (none, storeLoc s l 8 v)
      | (.error c, s) => (some c, s)
    else engRemote s dev off { op := 1, size := 8, v1 := v } true
  | l => (none, storeLoc (s.countSent s.cur) l 8 v)

/-- Words stored from `va` on, as stores would; those before one that cannot be stored have been. -/
def writeWords (s : State) (va : Nat) : List Nat → Acc Unit
  | [] => .ok () s
  | w :: t =>
    match resolveCtx s va 8 false .write with
    | (.miss k, s) => .miss va k s
    | (.flt c, s) => .flt { code := c, addr := va } s
    | (.ok l, s) =>
      if noPort s l then .miss va holdKind s
      else
      match writePlace s l w with
      | (some c, s) => .flt { code := c, addr := va } s
      | (none, s) => writeWords s ((va + 8) % 2 ^ 64) t

/-! ### The slot forms (R349) -/

/-- Are the operands of a slot form out of range? -/
def slotOpsBad (n area : Nat) : Bool := n = 0 || 14 < n || area % 1024 ≠ 0

/-- Does the fibre wait for something on its way to it (R349 step 1)? -/
def fibreBusy (x : Ctx) : Bool :=
  x.counted || (match x.st with
    | .parked (.reply n) => x.outst.all fun o => o.tag != n || o.fe.isNone
    | .parked .barrier => true
    | _ => false)

/-- The end of a saved context that was halted under R336: as one that the fault has ended (R349, R335), with the record of its halt. -/
def endHalted (s : State) (c : Nat) : State := endWith s c (s.ctx c).hcode (s.ctx c).hrec

/-- A saved context or fibre waits at no lantern, for no frame and for no message any more. -/
def leaveWaits (s : State) (c : Nat) : State :=
  let k := s.core (ctxCore c)
  { s.setCore (ctxCore c) { k with rx := k.rx.map fun e => (e.1, { e.2 with waiters := e.2.waiters.filter (· != c) }) } with
    kvWait := s.kvWait.filter (·.ctx != c), kvReqs := s.kvReqs.filter (·.ctx != c), pwrWait := s.pwrWait.filter (·.1 != c),
    invWait := s.invWait.filter (·.ctx != c) }

/-- CTXSAVE.slot. -/
def execCtxsaveSlot (h : Hdr) (a t1 : Reg) (s : State) : Ans :=
  issue { h := h, srcs := [a, t1], sysOnly := true } (fun s v =>
    let n := (v 0).toNat
    let c := 16 * ctxCore s.cur + n
    let sl := s.slot c
    if slotOpsBad n (v 1).toNat then .fault { code := cIllegalEnc }
    else if sl.fibre then
      if fibreBusy sl.ctx then .hold
      else (writeWords s (v 1).toNat (recordWords s c sl.ctx 1)).bind fun _ s => .next (endFibre (leaveWaits (unwait s c) c) c)
    else if sl.ctx.st = .halted then
      (writeWords s (v 1).toNat (recordWords s c sl.ctx 5)).bind fun _ s => .next (endHalted s c)
    else .fault { code := cIllegalEnc }) s

/-- May the record start a fibre: STATE 1 and zero reserved bytes? -/
def recordLegal (ws : List Nat) : Bool :=
  let g (i : Nat) : Nat := (ws[i]?).getD 0
  g 70 % 16 = 1 && g 70 / 2 ^ 7 = 0 && (ws.drop 75).all (· == 0)

/-- CTXLOAD.slot: the fibre starts in user mode. -/
def execCtxloadSlot (h : Hdr) (a t1 : Reg) (s : State) : Ans :=
  issue { h := h, srcs := [a, t1], sysOnly := true } (fun s v =>
    let n := (v 0).toNat
    let c := 16 * ctxCore s.cur + n
    let sl := s.slot c
    if slotOpsBad n (v 1).toNat || sl.fibre || !(sl.ctx.st == .empty || sl.park.isSome) then .fault { code := cIllegalEnc }
    else (readWords s (v 1).toNat 128).bind fun ws s =>
      if !recordLegal ws then .fault { code := cIllegalEnc }
      else
        let x : Ctx := { recordCtx {} ws with st := .live, sys := false }
        .next (s.setSlot c { s.slot c with ctx := x, fibre := true, gang := (s.cluster (ctxCl c)).gang })) s

/-! ### Cluster images (R350): the content of a page -/

/-- The size of an image. -/
def imgSize : Nat := 0xCC0000

/-- The bytes of memory at locations `a` to `a + n - 1`, by offset. -/
def cellsAt (m : List Host.Cell) (a n : Nat) : List Host.Cell :=
  (m.filter fun q => a ≤ q.1 && q.1 < a + n).map fun q => (q.1 - a, q.2)

/-- The words of records, as page bytes. -/
def wordCells (ws : List Nat) : List Host.Cell := memPut [] 0 (ws.flatMap (leBytes 8))

/-- Record `i` (16c + s) of the slots, or of the fibres: a slot with a fibre holds its park record underneath. -/
def slotRecord (s : State) (snap : Snapshot) (cl i : Nat) (fib : Bool) : List Nat :=
  let c := 128 * cl + i
  let sl := (tget snap.slots c).getD {}
  let zero := List.replicate 128 0
  if fib then (if sl.fibre then recordWords s c sl.ctx (stateCode sl.gang sl.ctx) else zero)
  else if sl.fibre then
    match sl.park with
    | some x => recordWords s c x (stateCode sl.gang x)
    | none => zero
  else if sl.ctx.st = .empty then zero
  else recordWords s c sl.ctx (stateCode sl.gang sl.ctx)

/-- The full/empty bits of `n` words from location `a`, bit i for word i. -/
def feCells (s : State) (a n : Nat) : List Host.Cell :=
  (s.full.filter fun w => a ≤ w && w < a + 8 * n).foldl (fun m w =>
    let i := (w - a) / 8
    memSet m (i / 8) (memGet m (i / 8) ||| BitVec.ofNat 8 (2 ^ (i % 8)))) []

/-- The memory location whose page stands at offset `off` of the image, if one does: of a routine memory, with which a matrix unit's region
begins, of a local store, or of the scratchpad. -/
def imgLoc (s : State) (cl off : Nat) : Option Nat :=
  if off < 0xC0000 then none
  else if off < 0x2C0000 then
    let o := (off - 0xC0000) % 2 ^ 20
    if o < 2 ^ 16 then some (locRm (muOf cl ((off - 0xC0000) / 2 ^ 20)) o) else none
  else if off < 0x4C0000 then
    let k := 8 * cl + (off - 0x2C0000) / 2 ^ 18
    let o := (off - 0x2C0000) % 2 ^ 18
    if o < (s.core k).lsplit * 2 ^ 15 then some (locLs k o) else none
  else some (locSp cl (off - 0x4C0000))

/-- The page at offset `off` of the image of cluster `cl`. -/
def imgPage (s : State) (cl id : Nat) (snap : Snapshot) (off : Nat) : List Host.Cell :=
  if off < 0x40000 then (if off = 0x1000 then wordCells [id] else [])
  else if off < 0x60000 then wordCells ((List.range 4).flatMap fun i => slotRecord s snap cl ((off - 0x40000) / 1024 + i) false)
  else if off < 0x80000 then wordCells ((List.range 4).flatMap fun i => slotRecord s snap cl ((off - 0x60000) / 1024 + i) true)
  else if off < 0xA0000 then feCells s (locSp cl ((off - 0x80000) * 64)) 32768
  else if off < 0xA8000 then feCells s (locLs (8 * cl + (off - 0xA0000) / 4096) 0) 32768
  else
    match imgLoc s cl off with
    | some a => cellsAt s.mem a 4096
    | none => []

/-- The first uncorrectable word of a page, by offset. -/
def pageEcc (s : State) (a : Nat) : Option Nat := ((List.range 512).map (8 * ·)).find? fun o => s.eccAt (a + o) 8

/-- `n` bytes of a page written at location `a`. -/
def putPage (s : State) (a n : Nat) (cs : List Host.Cell) : State :=
  s.setMem ((cs.filter (·.1 < n)).foldl (fun m q => memSet m (a + q.1) q.2) (memZero s.mem a n))

/-- A page written at `va`; `src`: the location it is read from. The write faults at the first word that is uncorrectable there or where it is
written (R352). -/
def pageWrite (s : State) (va : Nat) (cs : List Host.Cell) (src : Option Nat) : Acc Unit :=
  match resolveCtx s va 8 false .write with
  | (.miss k, s) => .miss va k s
  | (.flt c, s) => .flt { code := c, addr := va } s
  | (.ok (.phys a), s) =>
    match ((pageEcc s a).toList ++ (src.bind (pageEcc s)).toList).min? with
    | some o => .flt { code := cEcc, addr := va + o } (putPage s a o cs)
    | none => .ok () (putPage s a 4096 cs)
  | (.ok _, _) =>
    match src.bind (pageEcc s) with
    | some o =>
      match writeWords s va ((List.range (o / 8)).map fun i => memRead cs (8 * i) 8) with
      | .ok _ s => .flt { code := cEcc, addr := va + o } s
      | e => e
    | none => writeWords s va ((List.range 512).map fun i => memRead cs (8 * i) 8)

/-- The bytes of a page read at `va`. -/
def pageRead (s : State) (va : Nat) : Acc (List Host.Cell) :=
  match resolveCtx s va 8 false .read with
  | (.miss k, s) => .miss va k s
  | (.flt c, s) => .flt { code := c, addr := va } s
  | (.ok (.phys a), s) =>
    match pageEcc s a with
    | some o => .flt { code := cEcc, addr := va + o } s
    | none => .ok (cellsAt s.mem a 4096) s
  | (.ok _, s) =>
    match readWords s va 512 with
    | .ok ws s => .ok (wordCells ws) s
    | .flt f s => .flt f s
    | .miss a k s => .miss a k s

/-- How a run over the pages of an image ends. -/
inductive PagesEnd where | all | miss (va kind : Nat) | flt (f : Flt)

/-! ### The order of saves and loads (R351 step 2) -/

/-- The queue of a cluster without contexts that no longer wait. -/
def saveWaiters (s : State) (cl : Nat) : List Nat :=
  (s.cluster cl).saveQ.filter fun c => c == s.cur || (s.ctx c).st == .parked .retry || (s.ctx c).st == .parked .miss

/-- The cluster taken for the issuing context's save or load, or none while another is before it. -/
def takeCluster (s : State) (cl : Nat) : Bool × State :=
  let q := saveWaiters s cl
  let q := if q.contains s.cur then q else q ++ [s.cur]
  let k := s.cluster cl
  if k.saving = some s.cur then (true, s)
  else if k.saving.isNone && q.head? = some s.cur then (true, s.setCluster cl { k with saveQ := q })
  else (false, s.setCluster cl { k with saveQ := q })

/-- The save or load is over. -/
def releaseCluster (s : State) (cl : Nat) : State :=
  s.setCluster cl { s.cluster cl with saving := none, loading := false, savePos := 0, img := [], saveQ := (saveWaiters s cl).filter (· != s.cur) }

/-- The context waits at its instruction for a translation, or is held there, and what it has done so far stays. -/
def missStay (s : State) (va kind : Nat) : Res :=
  if kind = holdKind then .stay s
  else
    let s := postMiss s s.who va kind
    .stay (s.setMe { s.me with st := .parked .miss, missAns := none })

/-! ### CTXSAVE.cl (R351, R352) -/

/-- The contexts of slots 1 to 14 of a cluster. -/
def savedSlots (cl : Nat) : List Nat := ((List.range 128).map (128 * cl + ·)).filter fun c => 1 ≤ ctxSlot c && ctxSlot c ≤ 14

/-- The cluster stops for a save (R351 step 3): its full/empty waiters are removed, and its requests at the walker (R193). -/
def saveStop (s : State) (cl : Nat) : State :=
  let s := copySettle s cl
  let s := s.setCluster cl { s.cluster cl with saving := some s.cur, loading := false, savePos := 0 }
  (savedSlots cl).foldl unwait s

/-- Is a matrix unit as a save can take it (R351 step 3): halted, or waiting at a take with nothing in flight? -/
def muTakes (s : State) (m : Nat) : Bool :=
  let u := s.mu m
  let quiet := u.feeds.isEmpty && u.arr.isEmpty && u.drain.isNone && u.pipe.isEmpty && u.fill.isNone && u.sealOuts.isEmpty && u.runTok.isEmpty
  match u.st with
  | .halted => true
  | .resting => quiet && (match takeable s m with
    | none => true
    | some e => e.kind == 1 && u.bHold.isSome)
  | .running => quiet && !u.fell && (takeable s m).isNone && (match bundleAt s m u.bpc with
    | .ok b => (slotsOf b.moves u.held).any fun q => match q.2 with
      | .seqTake _ => true
      | _ => false
    | .error _ => false)

/-- Have the closes in progress posted? -/
def tilesQuiet (s : State) (cl : Nat) : Bool :=
  (s.cluster cl).rings.all fun q => q.2.slots.all fun t => postNow s cl q.1 t.1 == .no

/-- Has all that the save waits for happened (R351 step 3)? -/
def saveReady (s : State) (cl : Nat) : Bool :=
  ((List.range 8).all fun i => (s.core (8 * cl + i)).outst == 0 && (s.core (8 * cl + i)).lsChange.isNone) &&
  ((savedSlots cl).all fun c => c == s.cur || ((s.ctx c).outst.isEmpty && (s.slot c).park.all (·.outst.isEmpty))) &&
  (s.cluster cl).copyQ.all (fun q => !(q.running && q.rowsOver)) && tilesQuiet s cl &&
  muTakes s (muOf cl 0) && muTakes s (muOf cl 1)

/-- What a save holds behind the engine region (assumption 9). -/
def snapshotOf (s : State) (cl : Nat) : Snapshot :=
  ⟨s.cluster cl, s.cores.filter fun q => coreCl q.1 == cl, s.slots.filter fun q => ctxCl q.1 == cl, s.mus.filter fun q => q.1 / 2 == cl⟩

/-- The pages from offset `off` on written, at most `n`; the image's snapshot is taken with its first page. -/
def savePages (cl img : Nat) : Nat → State → Nat → State × Nat × PagesEnd
  | 0, s, off => (s, off, .all)
  | n + 1, s, off =>
    if imgSize ≤ off then (s, off, .all)
    else
      let id := if off = 0x1000 then s.snapshots.length + 1 else (memRead (s.cluster cl).img 0 8)
      let snap := if off = 0x1000 then snapshotOf s cl else (tget s.snapshots id).getD ⟨{}, [], [], []⟩
      match pageWrite s ((img + off) % 2 ^ 64) (imgPage s cl id snap off) (imgLoc s cl off) with
      | .miss a k t => (t, off, .miss a k)
      | .flt f t => (t, off, .flt f)
      | .ok _ t =>
        let t := if off = 0x1000 then
          { t with snapshots := tput t.snapshots id snap }.setCluster cl { t.cluster cl with img := memWrite [] 0 8 id } else t
        savePages cl img n t (off + 4096)

/-- Header word 0, with V set (R350). -/
def headerWord (cl : Nat) : Nat := 2 ^ 63 + 2 ^ 32 + clDie cl * 2 ^ 24 + cl % 32 * 2 ^ 19

/-- The words of the header page behind word 0: the cycle, the size, zeros (R350). -/
def headerRest (s : State) : List Nat := [s.now % 2 ^ 64, imgSize] ++ List.replicate 509 0

/-- The header page written at `img`: word 0 last (R351 step 4), so that an aborted save leaves V unset (R352). -/
def headerWrite (s : State) (cl img : Nat) : Acc Unit :=
  match resolveCtx s img 8 false .write with
  | (.miss k, s) => .miss img k s
  | (.flt c, s) => .flt { code := c, addr := img } s
  | (.ok (.phys a), s) =>
    let page := cellsAt s.mem a 8 ++ (wordCells (0 :: headerRest s)).filter (8 ≤ ·.1)
    match pageEcc s a with
    | some o => .flt { code := cEcc, addr := img + o } (putPage s a o page)
    | none => .ok () (physWrite (putPage s a 4096 page) a 8 (headerWord cl))
  | (.ok _, _) =>
    match writeWords s ((img + 8) % 2 ^ 64) (headerRest s) with
    | .ok _ t => writeWords t img [headerWord cl]
    | e => e

/-- A slot emptied by a save. -/
def clearedSlot (sl : Slot) : Slot := { gen := sl.gen, gang := sl.gang }

/-- A matrix unit left by a save (R351 step 5). -/
def clearedMu (u : Mu) : Mu :=
  { u with st := .resting, easel := [], curA := none, bHold := none, bLoaded := true, outTile := none, feeds := [], arr := [], drain := none,
           pipe := [], loops := [], held := [], rep := 0, fell := false, sealOuts := [], runTok := [], loads := [], fill := none }

/-- A core left by a save: upcalls and misses of its slots dropped, endpoints closed. -/
def clearedCore (q : Core) : Core :=
  { q with upcalls := q.upcalls.filter fun u => u.slot == 0 || u.slot == 15, mbox := q.mbox.filter (·.req == 0), engWait := [], engAns := [],
           rx := q.rx.map fun e => (e.1, { gen := e.2.gen }), tx := q.tx.map fun e => (e.1, { gen := e.2.gen }) }

/-- The cluster emptied (R351 step 5). -/
def emptyCluster (s : State) (cl : Nat) : State :=
  let k := s.cluster cl
  let k := { k with rings := [], copyQ := [], lanQ := [], copyHeld := [], lanHeld := [], loadedBy := none,
                    toks := k.toks.map fun q => (q.1, { q.2 with ent := q.2.ent.map fun e => (e.1, { gen := e.2.gen }) }) }
  let s := s.setCluster cl k
  { s with slots := s.slots.map (fun q => (q.1, if ctxCl q.1 == cl && 1 ≤ ctxSlot q.1 && ctxSlot q.1 ≤ 14 then clearedSlot q.2 else q.2)),
           cores := s.cores.map (fun q => (q.1, if coreCl q.1 == cl then clearedCore q.2 else q.2)),
           mus := s.mus.map (fun q => (q.1, if q.1 / 2 == cl then clearedMu q.2 else q.2)),
           kvWait := s.kvWait.filter (fun o => !(savedSlots cl).contains o.ctx),
           kvReqs := s.kvReqs.filter (fun r => !(savedSlots cl).contains r.ctx),
           pwrWait := s.pwrWait.filter (fun w => !(savedSlots cl).contains w.1),
           invWait := s.invWait.filter (fun w => !(savedSlots cl).contains w.ctx) }

/-- A save or load is aborted (R352, R353): SAVE_FAULT with the address and the bytes moved. -/
def saveFault (s : State) (cl addr prog : Nat) : Res :=
  .stay (takeFault (releaseCluster s cl) { code := cSaveFault, addr := addr, prog := prog })

/-- The save goes on from where it stands. -/
def saveGo (s : State) (cl img : Nat) (d : Reg) : Res :=
  let pos := (s.cluster cl).savePos
  let r := savePages cl img 4096 s (if pos = 0 then 0x1000 else pos)
  let s := r.1.setCluster cl { r.1.cluster cl with savePos := r.2.1 }
  match r.2.2 with
  | .miss a k => missStay s a k
  | .flt f => saveFault { s with snapshots := tdel s.snapshots (memRead (s.cluster cl).img 0 8) } cl f.addr (f.addr - img - 0x1000)
  | .all =>
    match headerWrite s cl img with
    | .miss a k s => missStay s a k
    | .flt f s => saveFault { s with snapshots := tdel s.snapshots (memRead (s.cluster cl).img 0 8) } cl f.addr (imgSize - 0x1000 + (f.addr - img - 8))
    | .ok _ s =>
      let own := (savedSlots cl).contains s.cur
      let s := emptyCluster (releaseCluster s cl) cl
      if own then .ended s else .next (putReg s d (BitVec.ofNat 64 imgSize))

/-- CTXSAVE.cl. -/
def execCtxsaveCl (h : Hdr) (d a t1 t2 : Reg) (s : State) : Ans :=
  issue { h := h, srcs := [a, t1, t2], dst := some d, sysOnly := true } (fun s v =>
    let img := (v 1).toNat
    if 31 < (v 0).toNat || img % 2 ^ 16 ≠ 0 then .fault { code := cIllegalEnc }
    else if (v 2).toNat < 2 ^ 24 then .fault { code := cSaveFault, addr := img }
    else
      let cl := ctxDie s.cur * 32 + (v 0).toNat
      let r := takeCluster s cl
      let s := r.2
      if !r.1 then .park s
      else
        let s := if (s.cluster cl).saving = some s.cur then s else saveStop s cl
        if (s.cluster cl).savePos = 0 && !saveReady s cl then .park s else saveGo s cl img d) s

/-! ### CTXLOAD.cl (R353, R354) -/

/-- Is a cluster empty as a save leaves it (R353)? -/
def clusterEmpty (s : State) (cl : Nat) : Bool :=
  let k := s.cluster cl
  (savedSlots cl).all (fun c => ((s.ctx c).st == .empty && (s.slot c).park.isNone)) &&
  (k.rings.all fun q => q.2.slots.all fun t => t.2.st == .empty) && k.copyQ.isEmpty && k.lanQ.isEmpty && k.copyHeld.isEmpty &&
  k.lanHeld.isEmpty && (k.toks.all fun q => q.2.ent.all fun e => e.2.st != .pending) &&
  ((List.range 8).all fun i =>
    let q := s.core (8 * cl + i)
    q.rx.all (fun e => !e.2.isOpen) && q.tx.all (fun e => !e.2.isOpen) && q.upcalls.all fun u => u.slot == 0 || u.slot == 15) &&
  ([0, 1].all fun m =>
    let u := s.mu (muOf cl m)
    u.st == .resting && u.easel.isEmpty && u.curA.isNone && u.bHold.isNone && u.outTile.isNone && u.loads.isEmpty)

/-- The page at offset `off` put where it belongs: routine memories, local stores and the scratchpad at once, the rest with the cluster
until the end. -/
def loadPage (s : State) (cl off : Nat) (cs : List Host.Cell) : State :=
  let put (a : Nat) : State := s.setMem (cs.foldl (fun m q => memSet m (a + q.1) q.2) (memZero s.mem a 4096))
  if 0x4C0000 ≤ off then put (locSp cl (off - 0x4C0000))
  else if 0x2C0000 ≤ off then
    let k := 8 * cl + (off - 0x2C0000) / 2 ^ 18
    let o := (off - 0x2C0000) % 2 ^ 18
    if o < (s.core k).lsplit * 2 ^ 15 then put (locLs k o) else s
  else if 0xC0000 ≤ off then
    let o := (off - 0xC0000) % 2 ^ 20
    if o < 2 ^ 16 then put (locRm (muOf cl ((off - 0xC0000) / 2 ^ 20)) o) else s
  else
    let q := s.cluster cl
    s.setCluster cl { q with img := cs.foldl (fun m b => memSet m (off + b.1) b.2) q.img }

def loadPages (cl img : Nat) : Nat → State → Nat → State × Nat × PagesEnd
  | 0, s, off => (s, off, .all)
  | n + 1, s, off =>
    if imgSize ≤ off then (s, off, .all)
    else
      match pageRead s ((img + off) % 2 ^ 64) with
      | .miss a k t => (t, off, .miss a k)
      | .flt f t => (t, off, .flt f)
      | .ok cs t => loadPages cl img n (loadPage t cl off cs) (off + 4096)

/-- A timer of the image's time taken over into the cluster's time. -/
def shiftTime (old new due : Nat) : Nat := due + new - old

/-- The state a record's STATE gives a context whose saved form is `x`; with whether it was halted by a gang stop. -/
def loadedState (x : Ctx) (state due : Nat) : CState × Bool :=
  match state with
  | 0 => (.empty, false)
  | 1 => (.live, false)
  | 2 => (match x.st with
    | .parked p => .parked p
    | _ => .parked .retry, false)
  | 3 => (match x.st with
    | .sleeping _ d => .sleeping due d
    | _ => .sleeping due 0, false)
  | 4 => (.live, true)
  | _ => (.halted, false)

/-- A context restored from its record and its saved form. -/
def loadedCtx (x : Ctx) (ws : List Nat) (now : Nat) : Ctx × Bool :=
  let st := loadedState x ((ws[70]?).getD 0 % 8) (now + (ws[74]?).getD 0)
  ({ recordCtx x ws with st := st.1, outst := [] }, st.2)

/-- The slot of number `i` (16c + s) restored. -/
def loadedSlot (s : State) (cl i : Nat) (snap : Snapshot) (m : List Host.Cell) : Slot :=
  let c := 128 * cl + i
  let sl := (tget snap.slots c).getD {}
  let ws (b : Nat) : List Nat := (List.range 128).map fun j => memRead m (b + 1024 * i + 8 * j) 8
  let now := (s.cluster cl).tcyc
  let main := ws 0x40000
  let fib := ws 0x60000
  if (fib[70]?).getD 0 % 8 ≠ 0 then
    let f := loadedCtx sl.ctx fib now
    let p := loadedCtx (sl.park.getD {}) main now
    { sl with ctx := f.1, gang := f.2, fibre := true, park := if p.1.st = .empty then none else some p.1, late := [] }
  else if (main[70]?).getD 0 % 8 = 0 then { sl with ctx := { sl.ctx with st := .empty }, park := none, fibre := false, gang := false, late := [] }
  else
    let f := loadedCtx sl.ctx main now
    { sl with ctx := f.1, gang := f.2, fibre := false, park := if f.1.st = .parked .record then some f.1 else none, late := [] }

/-- The full/empty bits of `n` words from location `a` restored from image bytes at `off`. -/
def loadFull (s : State) (m : List Host.Cell) (a n off : Nat) : State :=
  let kept := s.full.filter fun w => !(a ≤ w && w < a + 8 * n)
  let bytes := m.filter fun q => off ≤ q.1 && q.1 < off + n / 8
  { s with full := bytes.foldl (fun l q => (List.range 8).foldl (fun l j =>
      if q.2.getLsbD j then sput l (a + 8 * (8 * (q.1 - off) + j)) else l) l) kept }

/-- Logging, or replay, of core `k` begins with the cycle after the load (R346). A replay starts at the phase and the request sequence number
at which the logged run started, so that its cycles and its sequence numbers agree with that run's. -/
def startLog (s : State) (k : Nat) : State :=
  let q := s.core k
  let first := (s.cluster (coreCl k)).scyc + 1
  let q := { q with mlog := q.mlog &&& ~~~0x80#64, mlogStart := some first, mlogPos := 0, mlogUsed := [], replaying := bit q.mlog.toNat 1 }
  if q.replaying then s.setCore k { q with phase := (q.mlogPhase + 16 - first % 16) % 16, nseq := q.mlogSeq }
  else
    let s := physWrite { s with tagCtr := s.tagCtr + 1 } (logBase q) 16 0
    s.setCore k { q with mlogRun := s.tagCtr, mlogPhase := (first + q.phase) % 16, mlogSeq := q.nseq }

/-- A core's endpoints, pending bits and upcalls restored: a sender broken meanwhile stays broken (R354). -/
def loadedCore (q saved : Core) : Core :=
  { q with rx := saved.rx, tx := saved.tx, pending := q.pending ||| saved.pending,
           upcalls := q.upcalls ++ saved.upcalls.filter fun u => 1 ≤ u.slot && u.slot ≤ 14 }

/-- The cluster restored from what was read (R353), the image `m`; `rp`: the one core of a .rp load. -/
def restoreCluster (s : State) (cl : Nat) (rp : Option Nat) (m : List Host.Cell) : State :=
  let k := s.cluster cl
  let snap := (tget s.snapshots (memRead m 0x1000 8)).getD ⟨{}, [], [], []⟩
  let sh := shiftTime snap.cl.tcyc k.tcyc
  let rings := snap.cl.rings.map fun q => (q.1, { q.2 with slots := q.2.slots.map fun t => (t.1, { t.2 with timer := t.2.timer.map sh }) })
  let s := s.setCluster cl { k with rings := rings, toks := snap.cl.toks, copyQ := snap.cl.copyQ, lanQ := snap.cl.lanQ,
                                    copyHeld := snap.cl.copyHeld, lanHeld := snap.cl.lanHeld }
  let s := loadFull s m (locSp cl 0) (2 ^ 20) 0x80000
  let cores := (List.range 8).map (8 * cl + ·)
  let s := cores.foldl (fun s q =>
    let s := loadFull s m (locLs q 0) 32768 (0xA0000 + 4096 * (q % 8))
    s.setCore q (loadedCore (s.core q) ((tget snap.cores q).getD {}))) s
  let s := [muOf cl 0, muOf cl 1].foldl (fun s u => s.setMu u ((tget snap.mus u).getD {})) s
  let is := (List.range 128).filter fun i =>
    match rp with
    | some q => i / 16 = q
    | none => 1 ≤ i % 16 && i % 16 ≤ 14
  let s := is.foldl (fun s i => s.setSlot (128 * cl + i) (loadedSlot s cl i snap m)) s
  (cores.filter fun q => bit (s.core q).mlog.toNat 0 && (rp.isNone || rp = some (q % 8))).foldl startLog s

/-- The load goes on from where it stands. The slots of a replayed core are restored even where the issuing context is one of them. -/
def loadGo (s : State) (cl img : Nat) (rp : Option Nat) : Res :=
  let r := loadPages cl img 4096 s (s.cluster cl).savePos
  let s := r.1.setCluster cl { r.1.cluster cl with savePos := r.2.1 }
  match r.2.2 with
  | .miss a k => missStay s a k
  | .flt f => saveFault s cl f.addr (f.addr - img)
  | .all =>
    let t := restoreCluster (releaseCluster s cl) cl rp (s.cluster cl).img
    if ctxCl s.cur = cl && rp = some (ctxCore s.cur % 8) then .stay t else .next t

/-- CTXLOAD.cl and CTXLOAD.cl.rp: the checks of R353 in order, then the image. -/
def ctxload (s : State) (n img : Nat) (rp : Option Nat) : Res :=
  if 31 < n || img % 2 ^ 16 ≠ 0 || rp.any (7 < ·) then .fault { code := cIllegalEnc }
  else
    let cl := ctxDie s.cur * 32 + n
    let r := takeCluster s cl
    let s := r.2
    if !r.1 then .park s
    else if (s.cluster cl).saving = some s.cur then loadGo s cl img rp
    else
      let refuse : Res := .stay (takeFault (releaseCluster s cl) { code := cIllegalEnc })
      match readWords s img 1 with
      | .miss a k s => missStay s a k
      | .flt f s => saveFault s cl f.addr 0
      | .ok ws s =>
        let w := (ws[0]?).getD 0
        if !bit w 63 || bits w 32 8 ≠ 1 || bits w 24 3 ≠ clDie cl || bits w 19 5 ≠ n || !clusterEmpty s cl then refuse
        else if rp.any fun q => bits (s.core (8 * cl + q)).mlog.toNat 0 2 != 3 then refuse
        else loadGo (s.setCluster cl { s.cluster cl with saving := some s.cur, loading := true, savePos := 0x1000, img := [] }) cl img rp

def execCtxloadCl (h : Hdr) (a t1 : Reg) (s : State) : Ans :=
  issue { h := h, srcs := [a, t1], sysOnly := true } (fun s v => ctxload s (v 0).toNat (v 1).toNat none) s

def execCtxloadClRp (h : Hdr) (a t1 t2 : Reg) (s : State) : Ans :=
  issue { h := h, srcs := [a, t1, t2], sysOnly := true } (fun s v => ctxload s (v 0).toNat (v 1).toNat (some (v 2).toNat)) s

/-! ### Replay (R346) -/

/-- What an instruction of a replaying core changes beyond the core is discarded: requests that would leave it, and its stores to
the scratchpad. Full/empty words of its local store keep their lists, and its own barriers their arrivals (R346). -/
def confine (s t : State) (k : Nat) : State :=
  let own (a : Nat) : Bool := locLs k 0 ≤ a && a < locLs k 0 + 2 ^ 18
  let t' := { t with mem := (s.mem.filter fun q => !own q.1), full := s.full.filter (fun a => !own a) }
  { t' with mem := (t.mem.filter fun q => own q.1).foldl (fun m q => memSet m q.1 q.2) t'.mem,
            full := (t.full.filter own).foldl sput t'.full,
            feWait := s.feWait.filter (·.1 < locLs k 0) ++ t.feWait.filter (fun w => own w.1) ++
              s.feWait.filter (locLs k 0 + 2 ^ 18 ≤ ·.1),
            events := s.events ++ (t.events.drop s.events.length).filter (·.2 == .lsplitChangeDone k), outbox := s.outbox, nic := s.nic, wakes := s.wakes, keys := s.keys, dies := s.dies, mus := s.mus,
            kvReqs := s.kvReqs, kvWait := s.kvWait, moves := s.moves, childCnt := s.childCnt,
            barriers := (t.barriers.filter (·.1 / 16 == k)).foldl (fun m b => tput m b.1 b.2) s.barriers }

/-- The answer `e` of the log to access `o` of a replaying context applied. -/
def replayAnswered (s : State) (c : Nat) (o : Outst) (e : LogEnt) : State :=
  let x := s.ctx c
  let parked := x.st == .parked (.reply o.tag)
  let go (a : Ans) : State := match a with
    | .next t => t
    | _ => s
  if e.kind = 1 then
    let v := logValue (if o.pred.isSome then e.data.dropLast else e.data)
    let o' := { o with writes := replyWrites o v, pred := o.pred.map fun q => (q.1, (e.data.getLast?).getD 0 != 0) }
    let s' := s.setCtx c { x with outst := x.outst.map fun q => if q.tag = o.tag then o' else q }
    if parked then answer s' c o.tag none else (match execCountedAccessComplete c o.tag s' with
      | .next t => t
      | _ => s')
  else if o.posted.isSome then go (if e.code = 0 then execPostedAck c ⟨o.tag, clearAuth⟩ s else execDelayedFaultArrival c o.tag ⟨e.code, clearAuth⟩ s)
  else if parked then endReply s c o (.error e.code)
  else
    let s' := s.setCtx c { x with outst := x.outst.map fun q => if q.tag = o.tag then { q with flt := if e.code = 0 then none else some e.code } else q }
    match execCountedAccessComplete c o.tag s' with
    | .next t => t
    | _ => s'

/-- The accesses of a replaying context whose logged answers are due: faults ahead of the cycle's issues, completions (`done`) behind
them. The core halts when the log has no answer for what a context awaits. -/
def replayCtx (s : State) (c : Nat) (done : Bool) : State :=
  (s.ctx c).outst.foldl (fun s o =>
    if (s.ctx c).st = .halted then s
    else
      match replayAnswer s c o with
      | none => if o.load || logOver s (ctxCore c) then replayHalt s (ctxCore c) else s
      | some (p, e) =>
        if logCycle s (ctxCore c) < e.cyc || done == (e.code != 0) then s
        else
          let s := replayAnswered (replayTake s c p) c o e
          -- the item is counted once
          s.setCtx c { s.ctx c with recv := (s.ctx c).recv - 1 }) s

/-- The register that the BAR at which a context of a replaying core waits names for its rank. -/
def barTarget (s : State) (c : Nat) : Reg :=
  let s := { s with cur := c }
  match resolveCtx s s.me.pc.toNat 8 false .fetch with
  | (.ok l, s) =>
    match readPlace s l 8 false with
    | (.ok w, _) => (match decodeNat w with
      | .ok (.bar _ _ _ d _) => d
      | _ => 0)
    | _ => 0
  | _ => 0

/-- A context whose release the log brings has left its core's own barriers. -/
def barLeave (s : State) (k c : Nat) : State :=
  { s with barriers := s.barriers.map fun b =>
      if b.1 / 16 = k then (b.1, { b.2 with arr := b.2.arr.filter (·.ctx != c), rel := b.2.rel.filter (·.ctx != c) }) else b }

/-- An item of the log that no context asks for applied to the core: a message, a grant or an acknowledgement, a class arrival or a
relight, a barrier release, an engine's write into the local store. -/
def replayApply (s : State) (k : Nat) (e : LogEnt) : State :=
  let q := s.core k
  let c := 16 * k + e.slot
  let s := if e.kind = 5 then s else s.setCtx c { s.ctx c with recv := (s.ctx c).recv + 1 }
  if e.kind = 2 then
    match (q.rx.find? fun r => r.2.isOpen && r.2.peer == e.addr).orElse fun _ => q.rx.find? fun r => r.2.isOpen && r.2.granted != 0 with
    | none => s
    | some (n, r) =>
      let a := locLs k (r.base + r.tailIx * r.slotw * 8)
      let body := e.data.flatMap (leBytes 8)
      let s := s.setMem (memWrite s.mem a 8 (e.addr % 2 ^ 32 + body.length * 2 ^ 32))
      (s.setMem (memPut s.mem (a + 8) body)).setCore k (q.setRx n
        { r with occ := r.occ + 1, granted := r.granted - 1, tailIx := (r.tailIx + 1) % r.nslot })
  else if e.kind = 3 then
    let n := epNum e.addr
    let t := q.txEp n
    match e.data with
    | [amount, gen, limit] =>
      s.setCore k (q.setTx n (if t.rgen.getD gen ≠ gen then { t with broken := true }
        else { t with rgen := some gen, allow := t.allow + amount, limit := limit }))
    | [refused] => s.setCore k (q.setTx n (if refused = 0 then { t with buf := t.buf - 1 } else { t with broken := true }))
    | _ => s
  else if e.kind = 4 then
    if e.addr < 64 then s.setCore k { q with pending := q.pending ||| (1 <<< e.addr) }
    else postUpcall (s.setSlot c { s.slot c with relit := true }) k e.slot 1 0
  else if e.kind = 5 then
    if (s.ctx c).st = .parked .barrier then barReturn (barLeave s k c) ⟨c, barTarget s c, logValue e.data, (s.ctx c).barTag⟩ else s
  else if e.kind = 7 then s.setMem (memWrite s.mem (locLs k e.addr) 8 (logValue e.data))
  else s

/-- The items of core `k`'s log that are due applied, from `mlogPos` on (R346). -/
def replayItems (k : Nat) : Nat → State → State
  | 0, s => s
  | n + 1, s =>
    let q := s.core k
    match logAt s k q.mlogPos with
    | none => s
    | some e =>
      let on (s : State) : State := s.setCore k { s.core k with mlogPos := q.mlogPos + 16 + 8 * e.data.length }
      if e.kind = 1 || e.kind = 6 || e.kind = 8 || (e.kind = 3 && e.data.length = 2) then replayItems k n (on s)
      else if logCycle s k < e.cyc then s
      else replayItems k n (on (replayApply s k e))

/-- A cycle of a replaying core: what its log brings from outside, and behind the issues (`done`) the completions. -/
def replayTick (s : State) (k : Nat) (done : Bool) : State :=
  let s := if done then s else replayItems k (logSize (s.core k) / 16) s
  (List.range 16).foldl (fun s n => replayCtx s (16 * k + n) done) s

end Sys2Proof.Machine
end

