-- ==== Sys2Proof/Machine/Walker.lean ====
section
/-! DEFINITION. Translation from the walker's side (R185 to R194), page faults and relights (R195 to R199), upcalls (R198), traps and
the return from one (R337, R338), and the faults of fetch and decode (R40, R146). -/

namespace Sys2Proof.Machine

/-! ### Mailbox and upcalls -/

/-- wk.miss read by a context of core `k` (R191): the oldest untaken entry is taken. -/
def wkMissPop (s : State) (k : Nat) : Nat × State :=
  let c := s.core k
  match c.mbox.find? (!·.taken) with
  | none => (0, s)
  | some m =>
    (m.vpn * 2 ^ 20 + 2 ^ 7 + m.usr.toNat * 2 ^ 6 + m.kind * 2 ^ 4 + m.req,
      s.setCore k { c with mbox := c.mbox.map fun e => if e.req = m.req then { e with taken := true } else e })

/-- core.upcall read by a context of core `k` (R198): the oldest upcall is popped. -/
def upcallPop (s : State) (k : Nat) : Nat × State :=
  let c := s.core k
  match c.upcalls with
  | [] => (0, s)
  | u :: r => (u.lrseq * 2 ^ 16 + u.more * 2 ^ 8 + 2 ^ 7 + u.kind * 2 ^ 4 + u.slot, s.setCore k { c with upcalls := r })

/-- WK_MISS_POP (R191). -/
def execWkMissPop (d : Reg) (s : State) : Ans :=
  let r := wkMissPop s (ctxCore s.cur)
  .next (putReg r.2 d (BitVec.ofNat 64 r.1))

/-- UPCALL_POP (R198). -/
def execUpcallPop (d : Reg) (s : State) : Ans :=
  let r := upcallPop s (ctxCore s.cur)
  .next (putReg r.2 d (BitVec.ofNat 64 r.1))

/-! ### WKDONE (R193) -/

/-- Base-2 logarithm of the page size of a size code at a level (R188). -/
def pageLg (lvl szc : Nat) : Option Nat :=
  match lvl, szc with
  | 1, 0 => some 12
  | 1, 1 => some 14
  | 1, 2 => some 16
  | 2, 0 => some 21
  | 2, 1 => some 23
  | 2, 2 => some 25
  | 3, 0 => some 30
  | 3, 1 => some 32
  | _, _ => none

/-- A leaf as a TLB entry for an address (R187, R189), if WKDONE accepts it (R193). -/
def leafEntry (leaf lvl asid va : Nat) : Option TlbEntry :=
  match pageLg lvl (bits leaf 9 3) with
  | none => none
  | some lg =>
    let frame := bits leaf 12 36 * 4096
    if !bit leaf 0 || bits leaf 1 3 = 0 || bits leaf 52 12 ≠ 0 || frame % 2 ^ lg ≠ 0 then none
    else some ⟨asid, bit leaf 5, va / 2 ^ lg * 2 ^ lg, lg, frame, bit leaf 1, bit leaf 2, bit leaf 3, bit leaf 4, bit leaf 7, bit leaf 8⟩

/-- Would a TLBINV have removed the entry (R194)? -/
def InvRec.hits (i : InvRec) (e : TlbEntry) : Bool :=
  if i.kind = 0 then (e.gl || e.asid == i.asid) && i.va / 2 ^ e.lg == e.page / 2 ^ e.lg
  else if i.kind = 1 then !e.gl && e.asid == i.asid
  else true

/-- Set of an entry in the second-level TLB (R11, R189): its page number mod 512 (assumption 70). -/
def TlbEntry.set (e : TlbEntry) : Nat := e.page / 2 ^ e.lg % 512

/-- An entry added to a TLB: it replaces one of the same page, and, where `cap` entries stand in its set (`same`), any one of them
(R189). -/
def tlbAdd (s : State) (cap : Nat) (same : TlbEntry → Bool) (l : List TlbEntry) (e : TlbEntry) : List TlbEntry × State :=
  let l := l.filter fun o => !(o.asid == e.asid && o.gl == e.gl && o.page == e.page && o.lg == e.lg)
  let set := l.filter same
  if set.length < cap then (l ++ [e], s)
  else
    let r := s.choose set.length
    (l.filter (fun o => set[r.1]? != some o) ++ [e], r.2)

/-- A leaf installed for a request of core `k` (R193). -/
def tlbInstall (s : State) (k : Nat) (m : MissReq) (e : TlbEntry) : State :=
  let cl := coreCl k
  let r := tlbAdd s 8 (fun o => o.set == e.set) (s.cluster cl).l2tlb e
  let s := r.2.setCluster cl { r.2.cluster cl with l2tlb := r.1 }
  if m.req = 15 then s
  else if m.kind = 2 then
    let r := tlbAdd s 32 (fun _ => true) (s.core k).itlb e
    r.2.setCore k { r.2.core k with itlb := r.1 }
  else
    let r := tlbAdd s 64 (fun _ => true) (s.core k).dtlb e
    r.2.setCore k { r.2.core k with dtlb := r.1 }

/-- A request ended with the walker's answer (R193): its context tries again, or an engine's next waiting miss enters the mailbox. -/
def endMiss (s : State) (k : Nat) (m : MissReq) (res : Nat) : State :=
  let c := s.core k
  let mbox := c.mbox.filter (·.req != m.req)
  if m.req = 15 then
    let ans := if res = 0 then c.engAns else c.engAns ++ [⟨m.agent, m.vpn, m.kind, res⟩]
    match c.engWait with
    | [] => s.setCore k { c with mbox := mbox, engAns := ans }
    | e :: r => s.setCore k { c with mbox := mbox ++ [e], engWait := r, engAns := ans }
  else
    let s := s.setCore k { c with mbox := mbox }
    let i := 16 * k + m.req
    let x := s.ctx i
    if x.st = .parked .miss then s.setCtx i { x with st := .live, missAns := if res = 0 then none else some (m.vpn, m.kind, res) } else s

/-- The pending request a mailbox word names (R193). -/
def missNamed (s : State) (k e : Nat) : Option MissReq :=
  if bit e 7 then (s.core k).mbox.find? fun m => m.req == bits e 0 4 && m.vpn == bits e 20 44 && m.kind == bits e 4 2 else none

/-- WKDONE.ok (R193). -/
def execWkdoneOk (h : Hdr) (lvl : BitVec 2) (a t1 : Reg) (s : State) : Ans :=
  issue { h := h, srcs := [a, t1], sysOnly := true } (fun s v =>
    let k := ctxCore s.cur
    match missNamed s k (v 1).toNat with
    | none => .next s
    | some m =>
      match leafEntry (v 0).toNat lvl.toNat m.asid (m.vpn * 4096) with
      | none => .fault { code := cIllegalEnc }
      | some e =>
        let s := if m.invs.any (·.hits e) then s else tlbInstall s k m e
        .next (endMiss s k m 0)) s

/-- WKDONE with an answer that installs nothing: 1 np, 2 prot (R193). -/
def wkdoneNo (h : Hdr) (t1 : Reg) (res : Nat) (s : State) : Ans :=
  issue { h := h, srcs := [t1], sysOnly := true } (fun s v =>
    let k := ctxCore s.cur
    match missNamed s k (v 0).toNat with
    | none => .next s
    | some m => .next (endMiss s k m res)) s

def execWkdoneNp (h : Hdr) (t1 : Reg) (s : State) : Ans := wkdoneNo h t1 1 s
def execWkdoneProt (h : Hdr) (t1 : Reg) (s : State) : Ans := wkdoneNo h t1 2 s

/-! ### TLBINV (R194) -/

/-- Is core `k` in the scope of a TLBINV that core `me` executes? -/
def inScope (sco : InvScope) (me k : Nat) : Bool :=
  match sco with
  | .cl => coreCl k == coreCl me
  | .die => coreCl k / 32 == coreCl me / 32
  | .pkg => true

/-- The entries an invalidation removes, removed throughout its scope, and every pending request told of it (R194). -/
def tlbInvalidate (s : State) (sco : InvScope) (i : InvRec) : State :=
  let me := ctxCore s.cur
  let keep (l : List TlbEntry) : List TlbEntry := l.filter fun e => !i.hits e
  let tell (l : List MissReq) : List MissReq := l.map fun m => { m with invs := m.invs ++ [i] }
  { s with
    cores := s.cores.map fun (k, c) =>
      (k, if inScope sco me k then { c with itlb := keep c.itlb, dtlb := keep c.dtlb, mbox := tell c.mbox, engWait := tell c.engWait } else c)
    clusters := s.clusters.map fun (k, c) => (k, if inScope sco me (8 * k) then { c with l2tlb := keep c.l2tlb } else c) }

/-- The accesses of the scope that were translated through an entry an invalidation removes and have not performed: full/empty waits, for
any other access performs at its issue (R194 step 3, R297). -/
def invWaiters (s : State) (sco : InvScope) (i : InvRec) : List Nat :=
  let through (w : Nat) (q : FeWaiter) : Bool :=
    match q.ctx with
    | none => false
    | some c =>
      let k := s.core (ctxCore c)
      w < 2 ^ 48 && q.va / 2 ^ 56 = 0 && bit k.atp.toNat 0 && inScope sco (ctxCore s.cur) (ctxCore c) &&
        (k.dtlb ++ (s.cluster (ctxCl c)).l2tlb).any fun e => i.hits e && e.hits (bits k.atp.toNat 48 16) q.va
  s.feWait.flatMap fun w => ((w.2.fl ++ w.2.el).filter (through w.1)).map (·.tag)

/-- The TLBINV of the issuing context that has performed and waits (R194). -/
def State.invHeld (s : State) : Option InvHold := s.invWait.find? fun q => q.ctx == s.cur && q.icount == s.me.icount

/-- Is one of the full/empty waits still on its list? -/
def feWaits (s : State) (ts : List Nat) : Bool := s.feWait.any fun w => (w.2.fl ++ w.2.el).any fun q => ts.contains q.tag

/-- TLBINV (R194): a release at its scope, the removal, then the wait for the accesses translated through what it has removed. -/
def tlbinv (h : Hdr) (srcs : List Reg) (sco : InvScope) (i : (Nat → Word) → InvRec) (s : State) : Ans :=
  issue { h := h, srcs := srcs, sysOnly := true } (fun s v =>
    let rest := s.invWait.filter (·.ctx != s.cur)
    match s.invHeld with
    | some q => if feWaits s q.waits then .park s else .next { s with invWait := rest }
    | none =>
      if s.me.outst.any (·.posted.isNone) then .hold
      else
        let ws := invWaiters s sco (i v)
        let t := tlbInvalidate s sco (i v)
        if ws = [] then .next t else .park { t with invWait := ⟨s.cur, s.me.icount, ws⟩ :: rest }) s

def execTlbinvPage (h : Hdr) (sco : InvScope) (a t1 : Reg) (s : State) : Ans :=
  tlbinv h [a, t1] sco (fun v => ⟨0, (v 0).toNat, (v 1).toNat % 2 ^ 16⟩) s
def execTlbinvAsid (h : Hdr) (sco : InvScope) (t1 : Reg) (s : State) : Ans :=
  tlbinv h [t1] sco (fun v => ⟨1, 0, (v 0).toNat % 2 ^ 16⟩) s
def execTlbinvAll (h : Hdr) (sco : InvScope) (s : State) : Ans := tlbinv h [] sco (fun _ => ⟨2, 0, 0⟩) s

/-- TLB_ENTRY_DROP (R189): `level` 0 ITLB of core `place`, 1 its DTLB, 2 the second level of cluster `place`. -/
def execTlbEntryDrop (level place idx : Nat) (s : State) : Ans :=
  let c := s.core place
  let q := s.cluster place
  .next (if level = 0 then s.setCore place { c with itlb := c.itlb.eraseIdx idx }
    else if level = 1 then s.setCore place { c with dtlb := c.dtlb.eraseIdx idx }
    else s.setCluster place { q with l2tlb := q.l2tlb.eraseIdx idx })

/-! ### Relighting (R195, R196) -/

/-- UPRET (R195): the context goes back on the wheel at its saved pc. -/
def execUpret (h : Hdr) (a : Reg) (s : State) : Ans :=
  issue { h := h, srcs := [a], sysOnly := true } (fun s v =>
    let n := (v 0).toNat
    let c := 16 * ctxCore s.cur + n
    let sl := s.slot c
    if n = 0 || 14 < n || sl.fibre then .fault { code := cIllegalEnc }
    else
      match sl.park with
      | none => .fault { code := cIllegalEnc }
      | some x => .next (s.setSlot c { sl with ctx := { x with st := .live }, park := none, relit := false })) s

/-- WAKE (R196): it does not wait; its relight leaves behind the context's posted requests (R294). -/
def execWake (h : Hdr) (a t1 : Reg) (s : State) : Ans :=
  issue { h := h, srcs := [a, t1], sysOnly := true } (fun s v =>
    if (v 0).toNat / 2 ^ 15 ≠ 0 || (t1 ≠ 0 && (v 1).toNat / 2 ^ 12 ≠ 0) then .fault { code := cIllegalEnc }
    else
      let dev := if t1 = 0 then fabDev else (v 1).toNat
      let s := s.countSent s.cur
      let behind := (s.me.outst.filter (·.posted.isSome)).map (·.tag)
      .next (if behind.isEmpty then wakeGo s dev (v 0).toNat else { s with wakes := s.wakes ++ [⟨dev, (v 0).toNat, behind⟩] })) s

/-- RELIGHT_ARRIVAL (R196). -/
def execRelightArrival (ctx : Nat) (s : State) : Ans :=
  let sl := s.slot ctx
  if sl.park.isNone || sl.relit || s.dieGone (ctxDie ctx) then .next s
  else
    let s := s.setSlot ctx { sl with relit := true }
    .next (logItem (postUpcall s (ctxCore ctx) (ctxSlot ctx) 1 0) ctx 4 64 [])

/-! ### core.atp (R185) -/

/-- Has some context of core `k` an access that has not completed, at a full/empty word among them (R297)? -/
def coreBusy (s : State) (k : Nat) : Bool :=
  (List.range 16).any fun n =>
    let sl := s.slot (16 * k + n)
    (match sl.ctx.st with
      | .parked (.fe _) => true
      | _ => false) || !sl.ctx.outst.isEmpty || !sl.late.isEmpty || sl.park.any fun x => !x.outst.isEmpty

/-- A write of core.atp of core `k`; none while it holds. -/
def coreAtpSet (s : State) (k : Nat) (v : Word) : Option State :=
  if coreBusy s k then none else some (s.setCore k { s.core k with atp := v &&& 0xFFFFFFFFFFFFF001 })

/-- CORE_ATP_WRITE (R185). -/
def execCoreAtpWrite (v : Word) (s : State) : Ans := .next ((coreAtpSet s (ctxCore s.cur) v).getD s)

/-! ### Traps and faults of the fetch -/

/-- TRAP (R337). -/
def execTrap (h : Hdr) (n : BitVec 16) (s : State) : Ans :=
  issue { h := h } (fun _ _ => .fault { code := cTrapCall, addr := n.toNat }) s

/-- TRAP.brk (R337). -/
def execTrapBrk (h : Hdr) (n : BitVec 16) (s : State) : Ans :=
  issue { h := h } (fun _ _ => .fault { code := cBreak, addr := n.toNat }) s

/-- ERET (R338). -/
def execEret (h : Hdr) (s : State) : Ans :=
  issue { h := h, sysOnly := true } (fun s _ =>
    let x := s.me
    if !bit x.estat.toNat 9 || x.epc.toNat % 8 ≠ 0 then .fault { code := cIllegalEnc }
    else .jump (s.setMe (returnFromTrap x)) x.epc) s

/-- UNASSIGNED_OPCODE (R40, R41): whatever the guard, and without waiting; behind an instruction that PREC drains it does not issue
(R341, `issueTurn`). -/
def execUnassignedOpcode (_w : Word) (s : State) : Ans := .next (takeFault (wakeRetry s) { code := cIllegalOp })

/-- FETCH_FAULT (R146, R190): a fetch miss goes to the walker (`code` 0), any other failure faults with the target as PC. -/
def execFetchFault (va : Word) (code : Nat) (s : State) : Ans :=
  let s := wakeRetry s
  if code = 0 then
    let s := postMiss s s.who va.toNat 2
    .next (s.setMe { s.me with st := .parked .miss, missAns := none })
  else .next (takeFault s { code := code, addr := va.toNat })

end Sys2Proof.Machine
end

