-- ==== Sys2Proof/Machine/Regs.lean ====
section
/-! DEFINITION. The system registers: SRD, SWR and the access classes (R147 to R149, R355, R356), what each register reads and what a
write does, the change of the local-store split (R153). -/

namespace Sys2Proof.Machine

/-- How a register may be accessed (R355): read in both modes; read by all and written in system mode; system mode only: popped by a
read, read and written, or written. -/
inductive RegAcc where | ro | rw | pop | sysRw | sysWo
  deriving DecidableEq, Repr

/-- The access class of register number `n`, if it is one (R355, R357 to R367). -/
def regAcc (n : Nat) : Option RegAcc :=
  if [0x001, 0x102, 0x112, 0x113, 0x124, 0x141, 0x144, 0x145, 0x180, 0x190, 0x1C1, 0x1C3, 0x1D0, 0x1D1].contains n then some .ro
  else if [0x000, 0x002, 0x100, 0x101, 0x103, 0x110, 0x111, 0x120, 0x121, 0x122, 0x123, 0x130, 0x140, 0x143, 0x150, 0x151, 0x152,
      0x1C0, 0x1C2].contains n then some .rw
  else if n = 0x104 || n = 0x105 then some .pop
  else if [0x106, 0x107, 0x160, 0x161, 0x162, 0x163, 0x170].contains n then some .sysRw
  else if [0x142, 0x153, 0x1D2, 0x1E0].contains n then some .sysWo
  else none

/-- The checks of R147 on a read, in its order: the code of the trap. -/
def srdCheck (n : Nat) (sys : Bool) : Option Nat :=
  match regAcc n with
  | none => some cIllegalEnc
  | some .ro | some .rw => none
  | some _ => if sys then none else some cPriv

/-- The checks of R147 on a write, in its order. -/
def swrCheck (n : Nat) (sys : Bool) : Option Nat :=
  match regAcc n with
  | none => some cIllegalEnc
  | some .pop => some (if sys then cIllegalEnc else cPriv)
  | some .sysRw | some .sysWo => if sys then none else some cPriv
  | some .ro => some cIllegalEnc
  | some .rw => if sys then none else some cPriv

/-! ### core.vgroup (R154) -/

/-- MASK of core `k`; its reset value names the core alone. -/
def vmaskOf (s : State) (k : Nat) : Nat := (s.core k).vmask.getD (2 ^ (k % 8))

/-- Is core `k` in an active group of two or more cores? -/
def vgroupAct (s : State) (k : Nat) : Bool :=
  let m := vmaskOf s k
  let ms := (List.range 8).filter (bit m ·)
  (s.core k).vfrac != 0 && 2 ≤ ms.length && bit m (k % 8) &&
    ms.all fun j => vmaskOf s (k / 8 * 8 + j) == m && (s.core (k / 8 * 8 + j)).vfrac == (s.core k).vfrac

/-- core.vgroup as read. -/
def vgroupWord (s : State) (k : Nat) : Nat := vmaskOf s k + (s.core k).vfrac * 2 ^ 8 + (vgroupAct s k).toNat * 2 ^ 10

/-! ### core.lsplit (R153) -/

/-- Does an access at `va` use the local store or the L1 (R151)? -/
def usesSplit (va : Nat) : Bool := va / 2 ^ 56 == 0 && !inScratchpad va

/-- Has some context of core `k` an access to the local store or the L1 that has not completed (R153 step 1)? -/
def splitBusy (s : State) (k : Nat) : Bool :=
  (List.range 16).any fun n =>
    let sl := s.slot (16 * k + n)
    (sl.ctx.outst ++ (sl.park.map (·.outst)).getD [] ++ sl.late).any (fun o => (o.load || o.posted.isSome || o.ctr.isSome) && usesSplit o.addr) ||
      s.feWait.any fun w => (w.2.fl ++ w.2.el).any fun q => q.ctx == some (16 * k + n) && usesSplit q.va

/-- A write of core.lsplit of core `k` by context `c`: it holds until the core's accesses to the local store and the L1 have completed and
until the change is done. The copy unit comes to a stop between rows. -/
def lsplitSet (s : State) (c : Nat) (v : Word) : RegRes :=
  let k := ctxCore c
  let q := s.core k
  let ls := bits v.toNat 0 4
  if 9 ≤ ls then .fault cIllegalEnc
  else if q.lsDone.contains (c, (s.ctx c).icount) then .ok (s.setCore k { q with lsDone := q.lsDone.filter (·.1 != c) })
  else if q.lsChange.isSome || splitBusy s k then .wait s
  else if q.lsplit = ls then .ok s
  else
    let s := if (s.cluster (coreCl k)).copyQ.any fun o => o.part.isSome && o.core == k then copySettle s (coreCl k) else s
    .wait ((s.setCore k { s.core k with lsChange := some (c, ls) }).later (.lsplitChangeDone k))

/-- CORE_LSPLIT_WRITE. -/
def execCoreLsplitWrite (v : Word) (s : State) : Ans := applyReg s (lsplitSet s s.cur v)

/-- LSPLIT_CHANGE_DONE (R153 step 4): bytes newly in the local store read zero and empty, bytes that leave it are lost. -/
def execLsplitChangeDone (core : Nat) (s : State) : Ans :=
  let q := s.core core
  match q.lsChange with
  | none => .next s
  | some (c, ls) =>
    let lo := min q.lsplit ls * 2 ^ 15
    let n := max q.lsplit ls * 2 ^ 15 - lo
    let a := locLs core lo
    let s := { s with mem := memZero s.mem a n, full := s.full.filter fun w => !(a ≤ w && w < a + n) }
    .next (s.setCore core { q with lsplit := ls, lsChange := none, lsDone := (c, (s.ctx c).icount) :: q.lsDone.filter (·.1 != c) })

/-! ### The free counts: die.lcomp (R157) and fab.flits (R325) -/

/-- The counts of lines written to HBM4, which the caches advance by a free amount between reads. -/
def lcompRead (s : State) (die : Nat) : Nat × State :=
  let a := s.free
  let b := a.2.free
  let d := b.2.die die
  let d := { d with lcompC := (d.lcompC + a.1) % 2 ^ 32, lcompR := (d.lcompR + b.1) % 2 ^ 32 }
  (d.lcompR + 2 ^ 32 * d.lcompC, b.2.setDie die d)

/-- The counts of flits sent, which the ports advance by a free amount between reads; a port that is not ready sends none (R362). -/
def flitsRead (s : State) : Nat × State :=
  if s.boot.links = 0 then (s.fabFlits, s)
  else
    let a := s.free
    let b := a.2.free
    let v := (s.fabFlits + a.1) % 2 ^ 32 + 2 ^ 32 * ((s.fabFlits / 2 ^ 32 + b.1) % 2 ^ 32)
    (v, { b.2 with fabFlits := v })

/-! ### Reading -/

/-- Step of the cluster's islands (R361). -/
def islWord (s : State) (cl : Nat) : Nat := (s.cluster cl).sstep + (s.cluster cl).mstep * 2 ^ 8

/-- mu.stat of unit `m`, RESTING while the island is gated (R246, R359). -/
def muStatWord (s : State) (m : Nat) : Nat :=
  if s.gated (m / 2) then muStat { s.mu m with st := .resting } else muStat (s.mu m)

/-- The value of register `n` for the current context, with what reading it changes (R147). -/
def regGet (s : State) (n : Nat) : Nat × State :=
  let c := s.cur
  let x := s.me
  let k := ctxCore c
  let q := s.core k
  let cl := ctxCl c
  let d := ctxDie c
  match n with
  | 0x000 => (tcrWord c x, s)
  | 0x001 => (s.now % 2 ^ 64, s)
  | 0x002 => (x.icount.toNat, s)
  | 0x100 => (q.lsplit, s)
  | 0x101 => (vgroupWord s k, s)
  | 0x102 => (q.outst + q.nseq * 2 ^ 16, s)
  | 0x103 => (q.atp.toNat, s)
  | 0x104 => wkMissPop s k
  | 0x105 => upcallPop s k
  | 0x106 => (q.uparea.toNat, s)
  | 0x107 => (q.mlog.toNat, s)
  | 0x112 => (muStatWord s (muOf cl 0), s)
  | 0x113 => (muStatWord s (muOf cl 1), s)
  | 0x120 => (s.sqTable.toNat, s)
  | 0x121 => (s.kvTable.toNat, s)
  | 0x122 => (s.kvShape.toNat, s)
  | 0x123 => (s.kvCtl.toNat, s)
  | 0x124 => (min (freeTier0 s d) 0xFFFFFF + (s.die d).evicts % 2 ^ 32 * 2 ^ 32, s)
  | 0x130 => (q.feLimit, s)
  | 0x140 => (s.fabExport.toNat, s)
  | 0x141 => (fabId, s)
  | 0x143 => (s.fabResv + s.fabPool * 2 ^ 8, s)
  | 0x144 => (s.fabLastr + s.fabAuthf * 2 ^ 16 + s.fabRefc * 2 ^ 32, s)
  | 0x145 => flitsRead s
  | 0x150 => ((s.die d).htable.toNat, s)
  | 0x151 => ((s.die d).under, s)
  | 0x152 => ((s.die d).frec.toNat, s)
  | 0x160 => (q.tvec.toNat, s)
  | 0x161 => (x.epc.toNat, s)
  | 0x162 => (x.estat.toNat, s)
  | 0x163 => (x.scratch.toNat, s)
  | 0x170 => ((s.cluster cl).farea.toNat, s)
  | 0x180 => lcompRead s d
  | 0x190 => (s.pkgLost, s)
  | 0x1C0 => (s.pwrStep + s.pwrIsl * 2 ^ 16, s)
  | 0x1C1 => (s.pwrWatts * 2 ^ 16 + s.pwrThrot * 2 ^ 32, s)
  | 0x1C2 => (s.pwrLimit, s)
  | 0x1C3 => (islWord s cl, s)
  | 0x1D0 => (bootStatus s.boot, s)
  | 0x1D1 => (bootRdy s d, s)
  | _ => (0, s)

/-- SRD (R147). -/
def execSrd (h : Hdr) (d : Reg) (n : BitVec 12) (s : State) : Ans :=
  issue { h := h, dst := some d } (fun s _ =>
    match srdCheck n.toNat s.me.sys with
    | some code => .fault { code := code }
    | none => let r := regGet s n.toNat; .next (putReg r.2 d (BitVec.ofNat 64 r.1))) s

/-! ### Writing -/

/-- An option as the outcome of a write: what is not possible yet holds. -/
def orWait (s : State) (o : Option State) : RegRes :=
  match o with
  | some s => .ok s
  | none => .wait s

def orIllegal (o : Option State) : RegRes :=
  match o with
  | some s => .ok s
  | none => .fault cIllegalEnc

/-- The state a step of the machine gives; a step of these registers' own answers nothing else. -/
def afterStep (s : State) (a : Ans) : RegRes :=
  match a with
  | .next t => .ok t
  | _ => .ok s

/-- A write of mu.ctl (R245, R359); while the island's clock is stopped it waits (R358). -/
def muCtlSet (s : State) (m : Bool) (v : Word) : RegRes :=
  if bit v.toNat 0 && bit v.toNat 1 then .fault cIllegalEnc
  else if s.gated s.myCl then .ok s
  else if (s.cluster s.myCl).mstop != 0 then .wait s
  else if bit v.toNat 0 then afterStep s (execMuResume m s)
  else if bit v.toNat 1 then afterStep s (execMuRest m s)
  else .ok s

/-- A write of a KV-table register: only while EN = 0 (R248). -/
def kvTableSet (s : State) (ok : Bool) (t : State) : RegRes := if bit s.kvCtl.toNat 0 || !ok then .fault cIllegalEnc else .ok t

/-- A write of core.mlog (R356): FULL stays; without EN logging and replay end. -/
def mlogSet (q : Core) (v : Word) : Core :=
  let m := (v &&& 0xFFFFFFFFF07F) ||| (q.mlog &&& 0x80)
  if bit v.toNat 0 then { q with mlog := m } else { q with mlog := m, mlogStart := none, replaying := false }

/-- A write of register `n` for the current context, allowed by R147 (R355). -/
def regSet (s : State) (n : Nat) (v : Word) : RegRes :=
  let c := s.cur
  let x := s.me
  let k := ctxCore c
  let q := s.core k
  let cl := ctxCl c
  let d := ctxDie c
  match n with
  | 0x000 => .ok (s.setMe { x with prec := bit v.toNat 8 })
  | 0x002 => .ok (s.setMe { x with icount := v })
  | 0x100 => lsplitSet s c v
  | 0x101 =>
    if bits v.toNat 8 2 = 3 then .fault cIllegalEnc
    else .ok (s.setCore k { q with vmask := some (bits v.toNat 0 8), vfrac := bits v.toNat 8 2 })
  | 0x103 => orWait s (coreAtpSet s k v)
  | 0x106 => .ok (s.setCore k { q with uparea := v &&& 0xFFFFFFFFFC00 })
  | 0x107 => .ok (s.setCore k (mlogSet q v))
  | 0x110 => muCtlSet s false v
  | 0x111 => muCtlSet s true v
  | 0x120 => kvTableSet s (bits v.toNat 0 5 ≤ 24) { s with sqTable := v &&& 0xFFFFFFFFFC1F }
  | 0x121 => kvTableSet s (8 ≤ bits v.toNat 0 5 && bits v.toNat 0 5 ≤ 28) { s with kvTable := v &&& 0xFFFFFFFFF01F, kvUsed := true }
  | 0x122 => kvTableSet s true { s with kvShape := v &&& 0xFFFF }
  | 0x123 => orWait s (kvCtlSet s v)
  | 0x130 => .ok (s.setCore k { q with feLimit := bits v.toNat 0 40 })
  | 0x140 => orIllegal (fabExportSet s v)
  | 0x142 =>
    match fabKloadSet s v with
    | .ok s => .ok s
    | .error code => .fault code
  | 0x143 =>
    let pool := bits v.toNat 8 8
    let resv := bits v.toNat 0 5
    if pool = 0 || 16 < pool || resv < 2 || 16 < resv then .fault cIllegalEnc else .ok { s with fabPool := pool, fabResv := resv }
  | 0x150 => .ok (s.setDie d { s.die d with htable := v &&& 0xFFFFFFFFF001 })
  | 0x151 => .ok (if bits v.toNat 0 32 = 0 then s else s.setDie d { s.die d with under := 0 })
  | 0x152 => .ok (s.setDie d { s.die d with frec := v &&& 0xFFFFFFC00001 })
  | 0x153 => .ok (fclrSet s v)
  | 0x160 => .ok (s.setCore k { q with tvec := v &&& ~~~6#64 })
  | 0x161 => .ok (s.setMe { x with epc := v })
  | 0x162 => .ok (s.setMe { x with estat := v &&& 0x3FF })
  | 0x163 => .ok (s.setMe { x with scratch := v })
  | 0x170 => .ok (s.setCluster cl { s.cluster cl with farea := v &&& 0xFFFFFFFFFF80 })
  | 0x1C0 => pwrCtlSet s v
  | 0x1C2 => if bits v.toNat 0 12 < 1000 then .fault cIllegalEnc else .ok { s with pwrLimit := bits v.toNat 0 12 }
  | 0x1D2 => .ok (bootOkSet s v)
  | 0x1E0 => attestSet s v
  | _ => .ok s

/-- SWR (R147, R148): a write of icount leaves the written count behind the retirement (R150). -/
def execSwr (h : Hdr) (a : Reg) (n : BitVec 12) (s : State) : Ans :=
  issue { h := h, srcs := [a] } (fun s v =>
    match swrCheck n.toNat s.me.sys with
    | some code => .fault { code := code }
    | none =>
      match regSet s n.toNat (if n = 2 then v 0 - 1 else v 0) with
      | .ok s => .next s
      | .wait s => .park s
      | .fault code => .fault { code := code }) s

/-- REGISTER_WRITE (R147): the write of a register as a step of the current context. -/
def execRegisterWrite (n : BitVec 12) (v : Word) (s : State) : Ans :=
  match swrCheck n.toNat s.me.sys with
  | some code => .next (takeFault s { code := code })
  | none => applyReg s (regSet s n.toNat v)

end Sys2Proof.Machine
end

