-- ==== Sys2Proof/Machine/Dispatch.lean ====
section
/-! DEFINITION. One arm per instruction: the meaning it calls. -/

namespace Sys2Proof.Machine

def exec (i : Instr) (s : State) : Host.Outcome State Fault Refusal :=
  match i with
  | .add h ty d a b => Sys2Proof.Machine.execAdd h ty d a b s
  | .sub h ty d a b => Sys2Proof.Machine.execSub h ty d a b s
  | .mul h ty d a b => Sys2Proof.Machine.execMul h ty d a b s
  | .mulh h k ty d a b => Sys2Proof.Machine.execMulh h k ty d a b s
  | .div h u ty d a b => Sys2Proof.Machine.execDiv h u ty d a b s
  | .rem h u ty d a b => Sys2Proof.Machine.execRem h u ty d a b s
  | .and h ty d a b => Sys2Proof.Machine.execAnd h ty d a b s
  | .or h ty d a b => Sys2Proof.Machine.execOr h ty d a b s
  | .xor h ty d a b => Sys2Proof.Machine.execXor h ty d a b s
  | .andn h ty d a b => Sys2Proof.Machine.execAndn h ty d a b s
  | .shl h ty d a b => Sys2Proof.Machine.execShl h ty d a b s
  | .shr h ty d a b => Sys2Proof.Machine.execShr h ty d a b s
  | .sar h ty d a b => Sys2Proof.Machine.execSar h ty d a b s
  | .min h u ty d a b => Sys2Proof.Machine.execMin h u ty d a b s
  | .max h u ty d a b => Sys2Proof.Machine.execMax h u ty d a b s
  | .clz h ty d a => Sys2Proof.Machine.execClz h ty d a s
  | .ctz h ty d a => Sys2Proof.Machine.execCtz h ty d a s
  | .popc h ty d a => Sys2Proof.Machine.execPopc h ty d a s
  | .bfx h sg d a b => Sys2Proof.Machine.execBfx h sg d a b s
  | .bfi h d a b c => Sys2Proof.Machine.execBfi h d a b c s
  | .sel h d a b p => Sys2Proof.Machine.execSel h d a b p s
  | .hash h d a b => Sys2Proof.Machine.execHash h d a b s
  | .madd h ty d a b c => Sys2Proof.Machine.execMadd h ty d a b c s
  | .addi h d a imm => Sys2Proof.Machine.execAddi h d a imm s
  | .andi h d a imm => Sys2Proof.Machine.execAndi h d a imm s
  | .ori h d a imm => Sys2Proof.Machine.execOri h d a imm s
  | .xori h d a imm => Sys2Proof.Machine.execXori h d a imm s
  | .movi h d imm => Sys2Proof.Machine.execMovi h d imm s
  | .ldc h d a imm => Sys2Proof.Machine.execLdc h d a imm s
  | .shi h k d a n => Sys2Proof.Machine.execShi h k d a n s
  | .fadd h ty rm d a b => Sys2Proof.Machine.execFadd h ty rm d a b s
  | .fsub h ty rm d a b => Sys2Proof.Machine.execFsub h ty rm d a b s
  | .fmul h ty rm d a b => Sys2Proof.Machine.execFmul h ty rm d a b s
  | .ffma h ty rm d a b c => Sys2Proof.Machine.execFfma h ty rm d a b c s
  | .fmin h ty d a b => Sys2Proof.Machine.execFmin h ty d a b s
  | .fmax h ty d a b => Sys2Proof.Machine.execFmax h ty d a b s
  | .fdiv h ty rm d a b => Sys2Proof.Machine.execFdiv h ty rm d a b s
  | .fsqrt h ty rm d a => Sys2Proof.Machine.execFsqrt h ty rm d a s
  | .fcvt h dst src rm d a => Sys2Proof.Machine.execFcvt h dst src rm d a s
  | .fclass h ty d a => Sys2Proof.Machine.execFclass h ty d a s
  | .fexp2 h rm d a => Sys2Proof.Machine.execFexp2 h rm d a s
  | .icmp h cc ty pt pf a b cm => Sys2Proof.Machine.execIcmp h cc ty pt pf a b cm s
  | .fcmp h cc ty pt pf a b cm => Sys2Proof.Machine.execFcmp h cc ty pt pf a b cm s
  | .plog h cc pt pf pa pb cm => Sys2Proof.Machine.execPlog h cc pt pf pa pb cm s
  | .pxferGet h d half => Sys2Proof.Machine.execPxferGet h d half s
  | .pxferPut h a half => Sys2Proof.Machine.execPxferPut h a half s
  | .br h disp => Sys2Proof.Machine.execBr h disp s
  | .call h l disp => Sys2Proof.Machine.execCall h l disp s
  | .jmp h l a disp => Sys2Proof.Machine.execJmp h l a disp s
  | .ld h sz sx acq sco d m => Sys2Proof.Machine.execLd h sz sx acq sco d m s
  | .st h sz rel sco d m => Sys2Proof.Machine.execSt h sz rel sco d m s
  | .ldfe h d m => Sys2Proof.Machine.execLdfe h d m s
  | .ldff h d m => Sys2Proof.Machine.execLdff h d m s
  | .stef h d m => Sys2Proof.Machine.execStef h d m s
  | .stff h d m => Sys2Proof.Machine.execStff h d m s
  | .fezero h m => Sys2Proof.Machine.execFezero h m s
  | .amo h k ty ord sco cmb d a b => Sys2Proof.Machine.execAmo h k ty ord sco cmb d a b s
  | .cas h ty ord sco d a b c => Sys2Proof.Machine.execCas h ty ord sco d a b c s
  | .fence h ord sco => Sys2Proof.Machine.execFence h ord sco s
  | .pref h l2 m => Sys2Proof.Machine.execPref h l2 m s
  | .clean h mm m => Sys2Proof.Machine.execClean h mm m s
  | .inval h mm m => Sys2Proof.Machine.execInval h mm m s
  | .copy h d a t1 t2 t3 => Sys2Proof.Machine.execCopy h d a t1 t2 t3 s
  | .sbindIn h k esz sx d a t1 t2 t3 => Sys2Proof.Machine.execSbindIn h k esz sx d a t1 t2 t3 s
  | .sbindOut h k esz sx d a t1 t2 t3 => Sys2Proof.Machine.execSbindOut h k esz sx d a t1 t2 t3 s
  | .sclose h k d => Sys2Proof.Machine.execSclose h k d s
  | .tkwait h d a => Sys2Proof.Machine.execTkwait h d a s
  | .tktest h pt pf a cm => Sys2Proof.Machine.execTktest h pt pf a cm s
  | .topen h ring d a p => Sys2Proof.Machine.execTopen h ring d a p s
  | .trow h d a p => Sys2Proof.Machine.execTrow h d a p s
  | .tmark h a t1 => Sys2Proof.Machine.execTmark h a t1 s
  | .tmarkVoid h a t1 => Sys2Proof.Machine.execTmarkVoid h a t1 s
  | .seal h d a t1 t2 t3 => Sys2Proof.Machine.execSeal h d a t1 t2 t3 s
  | .tdrop h a => Sys2Proof.Machine.execTdrop h a s
  | .tstat h d a => Sys2Proof.Machine.execTstat h d a s
  | .muload h m a t1 => Sys2Proof.Machine.execMuload h m a t1 s
  | .mupost h n d a t1 t2 t3 => Sys2Proof.Machine.execMupost h n d a t1 t2 t3 s
  | .sqnew h a t1 p => Sys2Proof.Machine.execSqnew h a t1 p s
  | .sqres h d a t1 p => Sys2Proof.Machine.execSqres h d a t1 p s
  | .sqcmt h a t1 t2 => Sys2Proof.Machine.execSqcmt h a t1 t2 s
  | .sqlen h d a => Sys2Proof.Machine.execSqlen h d a s
  | .sqfork h a t1 t2 p => Sys2Proof.Machine.execSqfork h a t1 t2 p s
  | .sqdrop h a => Sys2Proof.Machine.execSqdrop h a s
  | .kvst h a => Sys2Proof.Machine.execKvst h a s
  | .kvgathK h d a t1 t2 t3 => Sys2Proof.Machine.execKvgathK h d a t1 t2 t3 s
  | .kvgathV h d a t1 t2 t3 => Sys2Proof.Machine.execKvgathV h d a t1 t2 t3 s
  | .kvsumB h d a t1 t2 t3 => Sys2Proof.Machine.execKvsumB h d a t1 t2 t3 s
  | .kvsumR h d a t1 t2 t3 => Sys2Proof.Machine.execKvsumR h d a t1 t2 t3 s
  | .kvpf h a t1 => Sys2Proof.Machine.execKvpf h a t1 s
  | .kvpfW h d a t1 => Sys2Proof.Machine.execKvpfW h d a t1 s
  | .kvpinOn h d a t1 => Sys2Proof.Machine.execKvpinOn h d a t1 s
  | .kvpinOff h d a t1 => Sys2Proof.Machine.execKvpinOff h d a t1 s
  | .kvqrel h a t1 => Sys2Proof.Machine.execKvqrel h a t1 s
  | .bar h sco b d a => Sys2Proof.Machine.execBar h sco b d a s
  | .chopen h d a p => Sys2Proof.Machine.execChopen h d a p s
  | .chsend h a t1 t2 => Sys2Proof.Machine.execChsend h a t1 t2 s
  | .chtry h a t1 t2 p => Sys2Proof.Machine.execChtry h a t1 t2 p s
  | .chrecv h d a t1 => Sys2Proof.Machine.execChrecv h d a t1 s
  | .chgrant h d a t1 t2 => Sys2Proof.Machine.execChgrant h d a t1 t2 s
  | .alt h d a => Sys2Proof.Machine.execAlt h d a s
  | .chclose h d a => Sys2Proof.Machine.execChclose h d a s
  | .qbindUp h a => Sys2Proof.Machine.execQbindUp h a s
  | .qbindDown h a => Sys2Proof.Machine.execQbindDown h a s
  | .launch h d a p => Sys2Proof.Machine.execLaunch h d a p s
  | .tenq h d a p => Sys2Proof.Machine.execTenq h d a p s
  | .tdec h a => Sys2Proof.Machine.execTdec h a s
  | .tdone h => Sys2Proof.Machine.execTdone h s
  | .tpoll h d a => Sys2Proof.Machine.execTpoll h d a s
  | .start h d a t1 p => Sys2Proof.Machine.execStart h d a t1 p s
  | .hexit h a => Sys2Proof.Machine.execHexit h a s
  | .hjoin h d a p => Sys2Proof.Machine.execHjoin h d a p s
  | .msgbind h m a t1 t2 => Sys2Proof.Machine.execMsgbind h m a t1 t2 s
  | .sleep h d a => Sys2Proof.Machine.execSleep h d a s
  | .getid h d k => Sys2Proof.Machine.execGetid h d k s
  | .trap h n => Sys2Proof.Machine.execTrap h n s
  | .trapBrk h n => Sys2Proof.Machine.execTrapBrk h n s
  | .eret h => Sys2Proof.Machine.execEret h s
  | .srd h d n => Sys2Proof.Machine.execSrd h d n s
  | .swr h a n => Sys2Proof.Machine.execSwr h a n s
  | .upret h a => Sys2Proof.Machine.execUpret h a s
  | .wake h a t1 => Sys2Proof.Machine.execWake h a t1 s
  | .wkdoneOk h lvl a t1 => Sys2Proof.Machine.execWkdoneOk h lvl a t1 s
  | .wkdoneNp h t1 => Sys2Proof.Machine.execWkdoneNp h t1 s
  | .wkdoneProt h t1 => Sys2Proof.Machine.execWkdoneProt h t1 s
  | .tlbinvPage h sco a t1 => Sys2Proof.Machine.execTlbinvPage h sco a t1 s
  | .tlbinvAsid h sco t1 => Sys2Proof.Machine.execTlbinvAsid h sco t1 s
  | .tlbinvAll h sco => Sys2Proof.Machine.execTlbinvAll h sco s
  | .gstopHalt h a => Sys2Proof.Machine.execGstopHalt h a s
  | .gstopGo h a => Sys2Proof.Machine.execGstopGo h a s
  | .ctxsaveSlot h a t1 => Sys2Proof.Machine.execCtxsaveSlot h a t1 s
  | .ctxloadSlot h a t1 => Sys2Proof.Machine.execCtxloadSlot h a t1 s
  | .ctxsaveCl h d a t1 t2 => Sys2Proof.Machine.execCtxsaveCl h d a t1 t2 s
  | .ctxloadCl h a t1 => Sys2Proof.Machine.execCtxloadCl h a t1 s
  | .ctxloadClRp h a t1 t2 => Sys2Proof.Machine.execCtxloadClRp h a t1 t2 s
  | .seqTake hold => Sys2Proof.Machine.execSeqTake hold s
  | .seqJump hold t => Sys2Proof.Machine.execSeqJump hold t s
  | .seqLoopn hold n => Sys2Proof.Machine.execSeqLoopn hold n s
  | .seqEndl hold => Sys2Proof.Machine.execSeqEndl hold s
  | .seqDone hold cont => Sys2Proof.Machine.execSeqDone hold cont s
  | .seqIdle hold => Sys2Proof.Machine.execSeqIdle hold s
  | .afFeed hold start n => Sys2Proof.Machine.execAfFeed hold start n s
  | .afBase hold n => Sys2Proof.Machine.execAfBase hold n s
  | .afFrom hold f => Sys2Proof.Machine.execAfFrom hold f s
  | .blLoad hold => Sys2Proof.Machine.execBlLoad hold s
  | .blSwap hold => Sys2Proof.Machine.execBlSwap hold s
  | .blHad hold half => Sys2Proof.Machine.execBlHad hold half s
  | .blPop hold => Sys2Proof.Machine.execBlPop hold s
  | .arMode hold m => Sys2Proof.Machine.execArMode hold m s
  | .arPal hold op => Sys2Proof.Machine.execArPal hold op s
  | .arDest hold b => Sys2Proof.Machine.execArDest hold b s
  | .arAccum hold v => Sys2Proof.Machine.execArAccum hold v s
  | .acClear hold b => Sys2Proof.Machine.execAcClear hold b s
  | .acSel hold b => Sys2Proof.Machine.execAcSel hold b s
  | .acPclr hold b => Sys2Proof.Machine.execAcPclr hold b s
  | .drDrain hold start n => Sys2Proof.Machine.execDrDrain hold start n s
  | .drFmt hold f => Sys2Proof.Machine.execDrFmt hold f s
  | .drScale hold n => Sys2Proof.Machine.execDrScale hold n s
  | .drRound hold rm => Sys2Proof.Machine.execDrRound hold rm s
  | .ppOp hold op => Sys2Proof.Machine.execPpOp hold op s
  | .ppK hold n => Sys2Proof.Machine.execPpK hold n s
  | .ppPasses hold n => Sys2Proof.Machine.execPpPasses hold n s
  | .ppNcol hold n => Sys2Proof.Machine.execPpNcol hold n s
  | .owOpen hold ring => Sys2Proof.Machine.execOwOpen hold ring s
  | .owWrite hold en base => Sys2Proof.Machine.execOwWrite hold en base s
  | .owSealout hold => Sys2Proof.Machine.execOwSealout hold s
  | .dispatchTake mu => Sys2Proof.Machine.execDispatchTake mu s
  | .feedRowEntry mu => Sys2Proof.Machine.execFeedRowEntry mu s
  | .rowLanding mu => Sys2Proof.Machine.execRowLanding mu s
  | .canvasLoadComplete mu => Sys2Proof.Machine.execCanvasLoadComplete mu s
  | .drainRowRead mu => Sys2Proof.Machine.execDrainRowRead mu s
  | .outRowWrite mu => Sys2Proof.Machine.execOutRowWrite mu s
  | .sealoutComplete mu => Sys2Proof.Machine.execSealoutComplete mu s
  | .runTokenComplete mu => Sys2Proof.Machine.execRunTokenComplete mu s
  | .muPoison mu brow => Sys2Proof.Machine.execMuPoison mu brow s
  | .muResume m => Sys2Proof.Machine.execMuResume m s
  | .muRest m => Sys2Proof.Machine.execMuRest m s
  | .tileTimerExpiry cl ring slot => Sys2Proof.Machine.execTileTimerExpiry cl ring slot s
  | .tilePost cl ring slot => Sys2Proof.Machine.execTilePost cl ring slot s
  | .copyCommandStart cl => Sys2Proof.Machine.execCopyCommandStart cl s
  | .copyCommandEnd cl => Sys2Proof.Machine.execCopyCommandEnd cl s
  | .streamFill ctx k => Sys2Proof.Machine.execStreamFill ctx k s
  | .countedAccessComplete ctx tag => Sys2Proof.Machine.execCountedAccessComplete ctx tag s
  | .remoteReply ctx tag code val auth => Sys2Proof.Machine.execRemoteReply ctx tag code val auth s
  | .postedAck ctx ack => Sys2Proof.Machine.execPostedAck ctx ack s
  | .delayedFaultArrival ctx tag code => Sys2Proof.Machine.execDelayedFaultArrival ctx tag code s
  | .remoteRequest r => Sys2Proof.Machine.execRemoteRequest r s
  | .feServe w => Sys2Proof.Machine.execFeServe w s
  | .feTimeout w tag => Sys2Proof.Machine.execFeTimeout w tag s
  | .barrierRelease key => Sys2Proof.Machine.execBarrierRelease key s
  | .messageArrival m => Sys2Proof.Machine.execMessageArrival m s
  | .grantArrival g => Sys2Proof.Machine.execGrantArrival g s
  | .messageAckArrival dst gen refused => Sys2Proof.Machine.execMessageAckArrival dst gen refused s
  | .messageContextStart ctx => Sys2Proof.Machine.execMessageContextStart ctx s
  | .sleepExpiry ctx => Sys2Proof.Machine.execSleepExpiry ctx s
  | .hjoinWake ctx => Sys2Proof.Machine.execHjoinWake ctx s
  | .relightArrival ctx => Sys2Proof.Machine.execRelightArrival ctx s
  | .tlbEntryDrop level place idx => Sys2Proof.Machine.execTlbEntryDrop level place idx s
  | .wkMissPop d => Sys2Proof.Machine.execWkMissPop d s
  | .upcallPop d => Sys2Proof.Machine.execUpcallPop d s
  | .dispatchTask die => Sys2Proof.Machine.execDispatchTask die s
  | .dispatchGroup die => Sys2Proof.Machine.execDispatchGroup die s
  | .routineImageLoad die => Sys2Proof.Machine.execRoutineImageLoad die s
  | .decrementArrival die handle src => Sys2Proof.Machine.execDecrementArrival die handle src s
  | .agingPromotion die idx => Sys2Proof.Machine.execAgingPromotion die idx s
  | .groupRecordWrite die idx => Sys2Proof.Machine.execGroupRecordWrite die idx s
  | .launchDoneRecord die idx => Sys2Proof.Machine.execLaunchDoneRecord die idx s
  | .ridxPoll die idx => Sys2Proof.Machine.execRidxPoll die idx s
  | .handlerSpawn die => Sys2Proof.Machine.execHandlerSpawn die s
  | .schedAccessRetry die idx => Sys2Proof.Machine.execSchedAccessRetry die idx s
  | .gatherRun cl => Sys2Proof.Machine.execGatherRun cl s
  | .summaryRun cl => Sys2Proof.Machine.execSummaryRun cl s
  | .frameAllocation ctx => Sys2Proof.Machine.execFrameAllocation ctx s
  | .evictionStart die => Sys2Proof.Machine.execEvictionStart die s
  | .evictionComplete n => Sys2Proof.Machine.execEvictionComplete n s
  | .promotionComplete n => Sys2Proof.Machine.execPromotionComplete n s
  | .coreLsplitWrite v => Sys2Proof.Machine.execCoreLsplitWrite v s
  | .coreAtpWrite v => Sys2Proof.Machine.execCoreAtpWrite v s
  | .kvCtlWrite v => Sys2Proof.Machine.execKvCtlWrite v s
  | .schedUnderClear => Sys2Proof.Machine.execSchedUnderClear s
  | .schedFclr v => Sys2Proof.Machine.execSchedFclr v s
  | .fabExportWrite v => Sys2Proof.Machine.execFabExportWrite v s
  | .fabKload v => Sys2Proof.Machine.execFabKload v s
  | .pwrCtlWrite v => Sys2Proof.Machine.execPwrCtlWrite v s
  | .islandStepChange isl => Sys2Proof.Machine.execIslandStepChange isl s
  | .powerWindow watts => Sys2Proof.Machine.execPowerWindow watts s
  | .bootOk v => Sys2Proof.Machine.execBootOk v s
  | .attestReport v => Sys2Proof.Machine.execAttestReport v s
  | .attestIdentityKey v => Sys2Proof.Machine.execAttestIdentityKey v s
  | .registerWrite n v => Sys2Proof.Machine.execRegisterWrite n v s
  | .moduleReset => Sys2Proof.Machine.execModuleReset s
  | .clusterReady cl => Sys2Proof.Machine.execClusterReady cl s
  | .dieReady die => Sys2Proof.Machine.execDieReady die s
  | .linkReady port => Sys2Proof.Machine.execLinkReady port s
  | .bootDeadlineExpiry => Sys2Proof.Machine.execBootDeadlineExpiry s
  | .powerStageFault => Sys2Proof.Machine.execPowerStageFault s
  | .dieLoss die => Sys2Proof.Machine.execDieLoss die s
  | .hostDoorbell v => Sys2Proof.Machine.execHostDoorbell v s
  | .hostWindowAccess a => Sys2Proof.Machine.execHostWindowAccess a s
  | .hostWindowRegisterWrite n v => Sys2Proof.Machine.execHostWindowRegisterWrite n v s
  | .unassignedOpcode w => Sys2Proof.Machine.execUnassignedOpcode w s
  | .fetchFault va code => Sys2Proof.Machine.execFetchFault va code s
  | .barrierArrival key count ctx dev => Sys2Proof.Machine.execBarrierArrival key count ctx dev s
  | .schedulerAnswer ctx tag => Sys2Proof.Machine.execSchedulerAnswer ctx tag s
  | .lanternAnswer ctx tag => Sys2Proof.Machine.execLanternAnswer ctx tag s
  | .lsplitChangeDone core => Sys2Proof.Machine.execLsplitChangeDone core s

end Sys2Proof.Machine
end

