-- ==== Sys2Proof/Machine/Clock.lean ====
section
/-! DEFINITION. The course of a package cycle (R3, R107, R122 to R126, R223, R358): the ticks of the islands, which turns a cycle has
and in what order, the issue of a context, and the loops of the supplied firmware (R186, R187, R375). -/

namespace Sys2Proof.Machine

/-! ### The supplied firmware -/

/-- Do the entries of the running image stand for the supplied firmware, whose routines act in one turn? An image from the host runs
as the code it is. -/
def fwSupplied (s : State) : Bool := s.boot.image == some 0 || s.boot.image == some 1

/-- Is the context at the supplied firmware's control or walker entry? -/
def atFirmware (s : State) (c : Nat) : Bool :=
  fwSupplied s && ((ctxSlot c == 0 && (s.ctx c).pc.toNat == s.boot.control) || (ctxSlot c == 15 && (s.ctx c).pc.toNat == s.boot.walker))

/-- What the firmware's walk of a page finds (R187): a leaf with its address and level, or the answer 1 np, 2 prot. -/
inductive Walk where
  | leaf (addr entry lvl : Nat)
  | no (res : Nat)
  | bad (f : Flt)

/-- What a leaf `e` read at `a` on level `lvl` comes to (R187). -/
def fwLeaf (a e lvl : Nat) : Walk :=
  if !bit e 0 then .no 1
  else if bits e 52 12 ≠ 0 || bits e 1 3 = 0 then .no 2
  else
    match pageLg lvl (bits e 9 3) with
    | none => .no 2
    | some lg => if bits e 12 36 * 4096 % 2 ^ lg ≠ 0 then .no 2 else .leaf a e lvl

/-- First entry, and number of entries, of the run of leaf `e` at `a` (R188). -/
def leafRun (a e : Nat) : Nat × Nat :=
  let n := 4 ^ min (bits e 9 3) 2
  (a / (8 * n) * (8 * n), n)

/-- The leaf of the run of `e` that a translation uses: any one, where they differ (R188). -/
def fwRun (s : State) (a e lvl : Nat) : Walk × State :=
  let r := leafRun a e
  let at_ (i : Nat) : Nat := memRead s.mem (r.1 + 8 * i) 8
  if (List.range r.2).all fun i => at_ i == e then (fwLeaf a e lvl, s)
  else let q := s.choose r.2; (fwLeaf (r.1 + 8 * q.1) (at_ q.1) lvl, q.2)

/-- The walk from the table at `table`, level `lvl` downwards (R186, R187). -/
def fwWalk (s : State) (va : Nat) : Nat → Nat → Walk × State
  | 0, _ => (.no 2, s)
  | lvl + 1, table =>
    let a := table + 8 * (va / 2 ^ (12 + 9 * lvl) % 512)
    if physReserved a then (.bad { code := cProt, addr := a }, s)
    else if s.dieGone (homeDie a) then (.bad { code := cDieLost, addr := a }, s)
    else if s.eccAt a 8 then (.bad { code := cEcc, addr := a }, s)
    else
      let e := memRead s.mem a 8
      if bit e 0 && bits e 52 12 = 0 && bits e 1 3 = 0 then
        if lvl = 0 || bits e 9 3 ≠ 0 then (.no 2, s) else fwWalk s va lvl (bits e 12 36 * 4096)
      else
        match fwLeaf a e (lvl + 1) with
        | .leaf _ _ _ => fwRun s a e (lvl + 1)
        | w => (w, s)

/-- D set in every entry of a leaf's run (R187, R188). -/
def fwDirty (s : State) (a e : Nat) : State :=
  let r := leafRun a e
  s.setMem ((List.range r.2).foldl (fun m i => memWrite m (r.1 + 8 * i) 8 (memRead m (r.1 + 8 * i) 8 ||| 0x80)) s.mem)

/-- A firmware loop that finds nothing queued sleeps for as long as SLEEP counts (R120, R375). -/
def fwSleep (s : State) : State :=
  s.setMe { s.me with st := .sleeping ((s.cluster (ctxCl s.cur)).tcyc + 2 ^ 40 - 1) 0 }

/-- The walker routine (R186, R187): the oldest untaken request of core `k` is taken, walked and answered. -/
def fwWalker (s : State) (k : Nat) : State :=
  match (s.core k).mbox.find? (!·.taken) with
  | none => fwSleep s
  | some m =>
    let s := (wkMissPop s k).2
    let va := m.vpn * 4096
    match fwWalk s va 5 (bits (s.core k).atp.toNat 12 36 * 4096) with
    | (.bad f, s) => takeFault s f
    | (.no res, s) => endMiss s k m res
    | (.leaf a e lvl, s) =>
      let dirty := m.kind = 3 && bit e 2 && !bit e 7 && !(m.usr && !bit e 4)
      let s := if dirty then fwDirty s a e else s
      let e := if dirty then e ||| 0x80 else e
      match leafEntry e lvl m.asid va with
      | none => endMiss s k m 2
      | some t => endMiss (if m.invs.any (·.hits t) then s else tlbInstall s k m t) k m 0

/-- A call of the general path with x41 = `w`, returning to the loop (R375). -/
def fwCall (s : State) (gp w : Nat) : State :=
  let x := s.me
  s.setMe { (x.setReg 63 (BitVec.ofNat 64 s.boot.control)).setReg 41 (BitVec.ofNat 64 w) with pc := BitVec.ofNat 64 gp }

/-- The upcall loop (R375), one turn of it: the first call of the general path, or one upcall popped and handled. -/
def fwControl (s : State) (k : Nat) : State :=
  let up := upBase s k
  let gp := memRead s.mem (up + 3072) 8
  let q := s.core k
  if gp ≠ 0 && !q.fwCalled then fwCall (s.setCore k { q with fwCalled := true }) gp 0
  else
    match q.upcalls with
    | [] => fwSleep s
    | u :: _ =>
      let r := upcallPop s k
      let c := 16 * k + u.slot
      let sl := r.2.slot c
      match u.kind, sl.park, sl.fibre with
      | 1, some x, false => r.2.setSlot c { sl with ctx := { x with st := .live }, park := none, relit := false }
      | _, _, _ => if gp ≠ 0 then fwCall r.2 gp r.1 else physWrite r.2 (up + 3080) 8 r.1

/-! ### The issue of a context -/

/-- Is a context kept off its phases by a gang stop (R344), a save (R351) or a change of split (R153)? -/
def ctxStopped (s : State) (c : Nat) : Bool :=
  let k := s.cluster (ctxCl c)
  (s.slot c).gang || (k.saving.isSome && !k.loading && k.saving != some c && 1 ≤ ctxSlot c && ctxSlot c ≤ 14) ||
    (s.core (ctxCore c)).lsChange.any fun w => w.1 != c

/-- Does the context issue at its phase (R123)? -/
def issuable (s : State) (c : Nat) : Bool :=
  ((s.ctx c).st == .live || (s.ctx c).st == .parked .retry) && !ctxStopped s c

/-- The delayed fault delivered next: the lowest sequence number (R340). -/
def firstDelayed : List Delayed → Option Delayed
  | [] => none
  | d :: t =>
    match firstDelayed t with
    | none => some d
    | some e => if e.rseq < d.rseq then some e else some d

/-- A delayed fault delivered in place of the instruction at pc (R340); OUTST counts the request itself. -/
def takeDelayed (s : State) (d : Delayed) : State :=
  let x := s.me
  let s := s.setMe { x with delayed := x.delayed.erase d }
  takeFault s { code := d.code, addr := d.addr, rseq := d.rseq, pc := d.pc,
                outst := if d.pc.isSome then none else some (s.myCore.outst + 1) }

/-- What the fetch of the instruction at pc gives (R146, R190). -/
inductive Fetch where
  | ok (w : Nat) (s : State)
  | miss (s : State)
  | hold (s : State)
  | flt (code : Nat) (s : State)

/-- The fetch of the issuing context; a save may hold it (R351), or the want of a port (R362). -/
def fetch (s : State) : Fetch :=
  match resolveCtx s s.me.pc.toNat 8 false .fetch with
  | (.miss k, s) => if k = holdKind then .hold s else .miss s
  | (.flt c, s) => .flt c s
  | (.ok l, s) =>
    if noPort s l then .hold s
    else
    match readPlace s l 8 false with
    | (.ok v, s) => .ok v s
    | (.error c, s) => .flt c s

/-- The instruction that a fetched word stands for executed (R41, R126). -/
def runWord (s : State) (w : Nat) : Ans :=
  match decodeNat w with
  | .ok i => exec i s
  | .error _ => .next (takeFault (wakeRetry s) { code := cIllegalEnc })

/-- The fetch and the execution of the instruction at pc. -/
def fetchRun (s : State) : Ans :=
  match fetch s with
  | .ok w s => runWord s w
  | .hold s => .next s
  | .miss s => exec (.fetchFault s.me.pc 0) s
  | .flt c s => exec (.fetchFault s.me.pc c) s

/-- The turn of context `c` at its phase: a delayed fault ahead of the instruction at pc, which waits while PREC drains the one before it
(R340, R341). -/
def issueTurn (s : State) (c : Nat) : Ans :=
  let s := { s with cur := c }
  if !issuable s c then .next s
  else if atFirmware s c then .next (if ctxSlot c = 0 then fwControl s (ctxCore c) else fwWalker s (ctxCore c))
  else
    match (if s.me.st = .live then firstDelayed s.me.delayed else none) with
    | some d => .next (takeDelayed s d)
    | none =>
      if s.me.drains then .next s
      else if s.myCore.replaying then
        match fetchRun s with
        | .next t => .next (confine s t (ctxCore c))
        | o => o
      else fetchRun s

/-- Is the instruction a step of the device, and no instruction of a program? -/
def deviceStep (i : Instr) : Bool := (encodeNat i).isNone && (encodeMove i).isNone

/-- One turn. -/
def runTurn (s : State) (t : Turn) : Ans :=
  match t with
  | .issue c => issueTurn s c
  | .mu m => .next (muIssue { s with curMu := m } m)
  | .replay core done => .next (replayTick s core done)
  | .ev i => if deviceStep i then exec i s else .fault .strayTurn

/-! ### The ticks of the islands (R358) -/

/-- Does the swarm island of a cluster advance in this package cycle? -/
def swarmTicks (k : Cluster) : Bool := k.ready && k.sstop == 0 && 19 ≤ k.sacc + k.sstep
def matrixTicks (k : Cluster) : Bool := k.ready && k.mstop == 0 && k.mstep != 0 && 19 ≤ k.macc + k.mstep

/-- Are the engines of a cluster stopped: by a gang stop, a save or load, or because a core of it replays alone? -/
def engStopped (s : State) (cl : Nat) : Bool :=
  let k := s.cluster cl
  k.gang || k.saving.isSome || (List.range 8).any fun i => (s.core (8 * cl + i)).replaying

/-- A cluster's counters in a new package cycle: each island advances STEP times in 19 cycles. Timers stand still in a gang stop; a
save keeps its tile timers where they are. -/
def tickCounters (k : Cluster) : Cluster :=
  let sw := swarmTicks k
  let ma := matrixTicks k
  { k with sacc := if !k.ready || k.sstop != 0 then k.sacc else if sw then k.sacc + k.sstep - 19 else k.sacc + k.sstep,
           macc := if !k.ready || k.mstop != 0 || k.mstep = 0 then k.macc else if ma then k.macc + k.mstep - 19 else k.macc + k.mstep,
           scyc := if sw then k.scyc + 1 else k.scyc,
           tcyc := if sw && !k.gang then k.tcyc + 1 else k.tcyc,
           rings := if sw && k.saving.isSome && !k.gang then
               k.rings.map fun q => (q.1, { q.2 with slots := q.2.slots.map fun t => (t.1, { t.2 with timer := t.2.timer.map (· + 1) }) })
             else k.rings }

/-- Full/empty time limits of contexts in stopped clusters do not run (R344). -/
def holdLimits (s : State) : State :=
  let bump (q : FeWaiter) : FeWaiter :=
    match q.ctx with
    | some c => if (s.cluster (ctxCl c)).gang then { q with due := q.due.map (· + 1) } else q
    | none => q
  { s with feWait := s.feWait.map fun w => (w.1, ⟨w.2.fl.map bump, w.2.el.map bump⟩) }

/-! ### The turns of a cycle -/

/-- Whether a step that may take place takes place in this cycle: a step of variable latency does so in any later cycle (R6). -/
def lag (s : State) (i : Instr) (ts : List Turn) : State × List Turn :=
  let r := s.choose 2
  (r.2, if r.1 = 0 then ts ++ [.ev i] else ts)

/-- The step added if it may take place now. -/
def may (ok : Bool) (i : Instr) (q : State × List Turn) : State × List Turn := if ok then lag q.1 i q.2 else q

/-- The steps of the copy unit, the streams and the lanterns of a cluster. -/
def engineTurns (cl : Nat) (q : State × List Turn) : State × List Turn :=
  let s := q.1
  let k := s.cluster cl
  if !k.ready || k.sstop ≠ 0 || k.gang then q
  else
    let q := may (k.copyQ.any fun c => c.running && c.rowsOver) (.copyCommandEnd cl) q
    if engStopped s cl then q
    else
      let run := k.copyQ.any (·.running)
      let q := may ((k.copyQ.any fun c => c.running && !c.rowsOver && !c.held s) ||
        (!run && k.copyQ.any fun c => !c.held s && deps s cl c.deps != .wait)) (.copyCommandStart cl) q
      let q := may (lanReady s cl false).isSome (.summaryRun cl) q
      (s.slots.filter fun c => ctxCl c.1 == cl).foldl (fun q c => (c.2.ctx.streams ++ c.2.closing).foldl (fun q t =>
        may (streamDue s cl t.2 && !streamHeld s c.1 t.1) (.streamFill c.1 t.1) q) q) q

/-- The gathers of a cluster: the lantern's claims of a cycle come behind those of the cores (R203). -/
def gatherTurns (cl : Nat) (q : State × List Turn) : State × List Turn :=
  let s := q.1
  let k := s.cluster cl
  if !k.ready || k.sstop ≠ 0 || k.gang || engStopped s cl then q else may (lanReady s cl true).isSome (.gatherRun cl) q

/-- The steps of a launch of die `die` in entry `i`. -/
def launchTurns (die : Nat) (s : State) (i : Nat) (t : Task) (q : State × List Turn) : State × List Turn :=
  let q := if ages s t then (q.1, q.2 ++ [.ev (.agingPromotion die i)]) else q
  match t.launch with
  | none => q
  | some l =>
    let q := if l.pollAt.any (· ≤ s.now) then (q.1, q.2 ++ [.ev (.ridxPoll die i)]) else q
    let q := if l.retryAt.any (· ≤ s.now) || l.imgAt.any (· ≤ s.now) then (q.1, q.2 ++ [.ev (.schedAccessRetry die i)]) else q
    let free := l.recsFree
    let q := may (free && (doneGroup l).isSome) (.groupRecordWrite die i) q
    may (free && t.st == .draining && l.recs == l.gcount) (.launchDoneRecord die i) q

/-- Does a group's routine image, or a helper that waits for one, wait for ROUTINE_IMAGE_LOAD? -/
def imageWaits (s : State) (die : Nat) : Bool :=
  (s.mus.any fun m => m.1 / 64 == die && imageReady s m.1 && !(s.cluster (m.1 / 2)).gang) ||
    s.slots.any fun c => ctxDie c.1 == die && imageHere s (ctxCl c.1) c.2.ctx

/-- The dispatch of a die's scheduler: a START of the cycle comes before it (R108). -/
def dispatchTurns (die : Nat) (q : State × List Turn) : State × List Turn :=
  if !(q.1.die die).ready then q
  else
    match nextUnit q.1 die with
    | none => q
    | some (_, _, _, t) => may true (if t.launch.isSome then .dispatchGroup die else .dispatchTask die) q

/-- The evictions that a die starts in this cycle: a free number of those it may (R259). -/
def evictTurns (die : Nat) (q : State × List Turn) : State × List Turn :=
  if !evictDue q.1 die then q
  else
    let n := q.1.choose (min (evictLack q.1 die) (evictable q.1 die).length + 1)
    (n.2, q.2 ++ List.replicate n.1 (.ev (.evictionStart die)))

/-- The steps of a die's scheduler and lanterns. -/
def dieTurns (die : Nat) (q : State × List Turn) : State × List Turn :=
  let s := q.1
  let d := s.die die
  if !d.ready then q
  else
    let q := may (imageWaits s die) (.routineImageLoad die) q
    let q := d.tasks.foldl (fun q t => launchTurns die s t.1 t.2 q) q
    let q := may (nextSpawn s die).isSome (.handlerSpawn die) q
    evictTurns die q

/-- Frames that KV operations ask for and barriers that release. -/
def packageTurns (q : State × List Turn) : State × List Turn :=
  let s := q.1
  let q := s.kvReqs.foldl (fun q r => may (serveReq s r).isSome (.frameAllocation r.ctx) q) q
  s.barriers.foldl (fun q b => may (!barAway b.1 && b.2.rel.any (atBarrier s ·)) (.barrierRelease b.1) q) q

/-- Every step of variable latency that may take place in this cycle, as far as the free choices let it. -/
def deviceTurns (s : State) : State × List Turn :=
  let q := s.clusters.foldl (fun q k => engineTurns k.1 q) (s, [])
  let q := s.dies.foldl (fun q d => dieTurns d.1 q) q
  packageTurns q

/-- Those of them that come behind the cycle's issues. -/
def lateTurns (s : State) : State × List Turn :=
  let q := s.clusters.foldl (fun q k => gatherTurns k.1 q) (s, [])
  s.dies.foldl (fun q d => dispatchTurns d.1 q) q

/-! ### Arrivals of one cycle -/

/-- A step put behind those of lower or equal key. -/
def keyInsert (key : Instr → Nat) (i : Instr) : List Instr → List Instr
  | [] => [i]
  | j :: t => if key i < key j then i :: j :: t else j :: keyInsert key i t

/-- The order in which arrivals of one kind are taken in a cycle: decrements by source die and context (R89), messages by sender address
(R307), barrier arrivals by device and context (R302); 0 for any other step. -/
def arrivalKey : Instr → Nat
  | .decrementArrival _ _ src => 1 + src.ctx
  | .messageArrival m => 1 + m.src
  | .barrierArrival _ _ ctx dev => 1 + dev * 2 ^ 15 + ctx % 2 ^ 15
  | _ => 0

/-- Does a step take effect behind the cycle's issues: an access completes, or a posted request is acknowledged (R128, R163)? -/
def completes : Instr → Bool
  | .countedAccessComplete _ _ | .postedAck _ _ => true
  | _ => false

/-- The steps that are due, in their order: those without one of their own first. -/
def inOrder (is : List Instr) : List Instr :=
  (is.filter fun i => arrivalKey i == 0) ++ (is.filter fun i => arrivalKey i != 0).foldl (fun l i => keyInsert arrivalKey i l) []

/-! ### The issues of one cycle -/

/-- What context `c` is about to execute, if its fetch and decoding succeed. -/
def peek (s : State) (c : Nat) : Option Instr :=
  let s := { s with cur := c }
  if !issuable s c || atFirmware s c then none
  else
    match fetch s with
    | .ok w _ => (decodeNat w).toOption
    | _ => none

/-- Is it an access whose order among those of its cycle is not fixed: any load, store, AMO or CAS, and a full/empty access to the
scratchpad, which goes by the bank's round-robin position (R298)? -/
def unordered (x : Ctx) (i : Instr) : Bool :=
  let at_ (m : MAddr) : Bool := inScratchpad (effAddr m 8 (x.reg m.a) (x.reg m.b))
  match i with
  | .ld .. | .st .. | .amo .. | .cas .. => true
  | .ldfe _ _ m | .ldff _ _ m | .stef _ _ m | .stff _ _ m | .fezero _ m => at_ m
  | _ => false

/-- An operation on sequences that a context is about to issue, and whether it settles frames. -/
structure SeqIssue where
  ctx : Nat
  seqs : List Nat
  settles : Bool

/-- The operation on sequences that an instruction is, if it is one (R249). -/
def seqIssue (s : State) (c : Nat) (i : Instr) : Option SeqIssue :=
  let v (r : Reg) : Nat := ((s.ctx c).reg r).toNat
  match i with
  | .sqres _ _ a _ _ => some ⟨c, [v a], true⟩
  | .sqnew _ a _ _ | .sqcmt _ a _ _ | .sqlen _ _ a | .sqdrop _ a => some ⟨c, [v a], false⟩
  | .sqfork _ a t1 _ _ => some ⟨c, [v a, v t1], false⟩
  | .kvpf _ a _ | .kvpfW _ _ a _ | .kvpinOn _ _ a _ | .kvpinOff _ _ a _ | .kvqrel _ a _ => some ⟨c, [coSeq (v a)], false⟩
  | .kvst _ a =>
    match readWords { s with cur := c } (v a) 1 with
    | .ok ws _ => some ⟨c, ws.map coSeq, false⟩
    | _ => some ⟨c, [], false⟩
  | _ => none

/-- Does `q` come before `o` of the same cycle: on one sequence by context (R249), of two settlements by sequence (R255)? -/
def SeqIssue.before (q o : SeqIssue) : Bool :=
  if q.seqs.any o.seqs.contains then q.ctx < o.ctx else q.settles && o.settles && decide (q.seqs.headD 0 < o.seqs.headD 0)

/-- Operations on sequences in the order of their lanterns. -/
def seqOrder : Nat → List SeqIssue → List Nat
  | 0, _ => []
  | n + 1, l =>
    match (l.find? fun o => l.all fun q => !q.before o).orElse fun _ => l.head? with
    | none => []
    | some o => o.ctx :: seqOrder n (l.filter (·.ctx != o.ctx))

/-- A list in a free order. -/
def shuffle : Nat → State → List Nat → State × List Nat
  | 0, s, l => (s, l)
  | n + 1, s, l =>
    if l.length < 2 then (s, l)
    else
      let r := s.choose l.length
      let q := shuffle n r.2 (l.eraseIdx r.1)
      (q.1, (l[r.1]?).toList ++ q.2)

/-- The contexts of a cycle in the order in which they issue: by core, but for accesses without an order, which go in a free one ahead of
the others or behind them, and operations on sequences, which go last and in their lanterns' order. `t`: the state behind the cycle's
starts and wakes. -/
def issueOrder (s t : State) (run : List Nat) : State × List Nat :=
  if run.length < 2 then (s, run)
  else
    let is := run.map fun c => (c, peek t c)
    let seqs := is.filterMap fun q => q.2.bind (seqIssue t q.1)
    let free := (is.filter fun q => q.2.any (unordered (t.ctx q.1))).map (·.1)
    let rest := run.filter fun c => !free.contains c && !seqs.any (·.ctx == c)
    let f := shuffle free.length s free
    let b := if free = [] || rest = [] then (0, f.1) else f.1.choose 2
    (b.2, (if b.1 = 0 then f.2 ++ rest else rest ++ f.2) ++ seqOrder seqs.length seqs)

/-- The start or wake that context `c` has at its phase, before it issues (R113, R118, R120). -/
def wakeTurn (s : State) (c : Nat) : List Turn :=
  if ctxStopped s c then []
  else
    match (s.ctx c).st with
    | .sleeping _ _ => if sleepOver s c then [.ev (.sleepExpiry c)] else []
    | .joining _ => if joinOver s c then [.ev (.hjoinWake c)] else []
    | .empty =>
      if slotRole (ctxSlot c) = 2 && slotFree s c && (s.slot c).bound != 0 && readyBits s c != 0 && !(s.cluster (ctxCl c)).gang then
        [.ev (.messageContextStart c)] else []
    | _ => []

/-- The contexts whose phase it is in the clusters `sw` (R122). -/
def phaseCtxs (s : State) (sw : List Nat) : List Nat :=
  (sw.flatMap fun cl => (List.range 8).map (8 * cl + ·)).map fun k => 16 * k + ((s.cluster (coreCl k)).scyc + (s.core k).phase) % 16

/-- The tile timers that expire in the clusters `sw` (R208). -/
def timerTurns (s : State) (sw : List Nat) : List Turn :=
  (sw.filter fun cl => !(s.cluster cl).gang && (s.cluster cl).saving.isNone).flatMap fun cl =>
    (s.cluster cl).rings.flatMap fun r => (r.2.slots.filter fun t => t.2.timer.any (· ≤ (s.cluster cl).tcyc)).map fun t =>
      .ev (.tileTimerExpiry cl r.1 t.1)

/-- The state behind device steps, for a look ahead. -/
def ahead (s : State) (ts : List Turn) : State :=
  ts.foldl (fun s t => match runTurn s t with
    | .next s => s
    | _ => s) s

/-- The next package cycle: counters, then starts and wakes (ahead of the arrivals of their cycle, R114), timers (R208), what the logs of
replaying cores bring, arrivals and other steps that are due, the engines, the matrix units and the contexts whose phase it is; behind
them dispatches and gathers (R108, R203), and accesses that complete (R128). -/
def nextCycle (s : State) : State :=
  let s := { s with now := s.now + 1 }
  let sw := (s.clusters.filter fun k => swarmTicks k.2).map (·.1)
  let ma := (s.clusters.filter fun k => matrixTicks k.2 && !k.2.gang).map (·.1)
  let s := holdLimits { s with clusters := s.clusters.map fun k => (k.1, tickCounters k.2) }
  let s := ma.foldl (fun s cl => muTick (muTick s (muOf cl 0)) (muOf cl 1)) s
  let replays := (s.cores.filter fun k => k.2.replaying && sw.contains (coreCl k.1)).map (·.1)
  let due := (s.events.filter fun e => e.1 ≤ s.now).map (·.2)
  let s := { s with events := s.events.filter fun e => s.now < e.1 }
  let cs := phaseCtxs s sw
  let starts := cs.flatMap (wakeTurn s)
  let q := deviceTurns s
  let s := q.1
  let mus := ma.flatMap fun cl => muTurns s (muOf cl 0) ++ muTurns s (muOf cl 1)
  let run := cs.filter fun c => issuable s c || !(wakeTurn s c).isEmpty
  let r := issueOrder s (ahead s starts) run
  let l := lateTurns r.1
  { l.1 with todo := starts ++ timerTurns s sw ++ replays.map (.replay · false) ++ (inOrder (due.filter (!completes ·))).map .ev ++ q.2 ++
      mus ++ r.2.map .issue ++ l.2 ++ (due.filter completes).map .ev ++ replays.map (.replay · true) }

/-- The tiles whose close is complete as `p` says. -/
def tileTurns (s : State) (p : PostNow → Bool) : List Turn :=
  (s.clusters.filter fun k => k.2.ready && !k.2.gang && k.2.sstop == 0).flatMap fun k => k.2.rings.flatMap fun r =>
    (r.2.slots.filter fun t => p (postNow s k.1 r.1 t.1)).map fun t => .ev (.tilePost k.1 r.1 t.1)

def PostNow.discards : PostNow → Bool
  | .discard _ => true
  | _ => false

/-- The steps that end a cycle: first tiles are discarded until no more are, then those whose close is complete post, by ring and slot (R205,
R206), and full/empty waits reach their limit behind the cycle's service (R299). -/
def endTurns (s : State) : List Turn :=
  match tileTurns s PostNow.discards with
  | t :: ts => t :: ts
  | [] => tileTurns s (· == .post) ++
  s.feWait.flatMap fun w => ((w.2.fl ++ w.2.el).filter fun q => q.due.any (· ≤ s.now)).map fun q => .ev (.feTimeout w.1 q.tag)

/-- With no turn left: what ends the cycle, then the next cycle. -/
def endOrNext (s : State) : State :=
  match endTurns s with
  | [] => nextCycle s
  | ts => { s with todo := ts }

end Sys2Proof.Machine
end

