-- ==== Sys2Proof/Machine/Step.lean ====
section
/-! DEFINITION. One step of the module: the next turn of the cycle, or the next cycle. -/

namespace Sys2Proof.Machine

/-- A step takes the first turn that is left; with none left the cycle ends and the next one begins. -/
def step (s : State) : Host.Outcome State Fault Refusal :=
  match s.todo with
  | [] => .next (endOrNext s)
  | t :: r => runTurn { s with todo := r } t

/-- The context whose turn is next, or context 0. -/
def fetchCtx (s : State) : Nat :=
  match s.todo with
  | .issue c :: _ => c
  | _ => 0

/-- The instruction `w` placed where `fetchCtx` fetches next, and that context's turn made the next one: the context is live in system
mode with translation off and nothing of its core or cluster keeps it from issuing (assumption 3). The pc stands. -/
def State.withFetchWord (s : State) (nbits w : Nat) : State :=
  let c := fetchCtx s
  let x := s.ctx c
  let sl := s.slot c
  let s := s.setSlot c { sl with ctx := { x with st := .live, sys := true, outst := [], delayed := [] }, gang := false }
  let k := s.core (ctxCore c)
  let s := s.setCore (ctxCore c) { k with atp := 0, lsChange := none, replaying := false }
  let q := s.cluster (ctxCl c)
  let s := s.setCluster (ctxCl c) { q with saving := none }
  let a := x.pc.toNat % 2 ^ 48
  let s := s.setDie (homeDie a) { s.die (homeDie a) with ready := true }
  { s with mem := memWrite s.mem a 8 (w % 2 ^ min nbits 64), todo := [.issue c] }

end Sys2Proof.Machine
end

