-- ==== Sys2Proof/Safety.lean ====
section
/-! DEFINITION. What counts as a safe run (the model never stops, since every exception of the machine is an effect of it), and
the terms in which the statements speak: a context that is free to issue, registers with nothing behind them, and the
state after an instruction that retires. -/

namespace Sys2Proof

/-- A step that goes on. -/
def Machine.State.goesOn (s : Machine.State) : Prop := ∃ t, Machine.step s = .next t

/-- The state after `n` steps, if every one of them goes on. -/
def runFor : Nat → Machine.State → Option Machine.State
  | 0, s => some s
  | n + 1, s =>
    match Machine.step s with
    | .next t => runFor n t
    | _ => none

/-- A run of `n` steps in which the model does not stop. -/
def SafeFor (n : Nat) (s : Machine.State) : Prop := (runFor n s).isSome

namespace Claims

open Sys2Proof.Machine

/-- A source field with no stream and no queue behind it: x0 to x55 and x61 to x63 (R31, R130). -/
def SrcPlain (r : Reg) : Prop := r.toNat < 56 ∨ 61 ≤ r.toNat

/-- A destination with no stream and no queue behind it: x0 to x55, x62, x63 (R31, R130). -/
def DstPlain (r : Reg) : Prop := r.toNat < 56 ∨ 62 ≤ r.toNat

/-- No outstanding access writes register `r` (R129). -/
def Quiet (x : Ctx) (r : Reg) : Prop := ∀ o ∈ x.outst, ∀ w ∈ o.writes, w.1 ≠ r.toNat

/-- A source whose value is its register's alone. -/
def Plain (s : State) (r : Reg) : Prop := SrcPlain r ∧ Quiet s.me r

/-- A destination whose write is a register write alone. -/
def Target (s : State) (r : Reg) : Prop := DstPlain r ∧ Quiet s.me r

/-- The issuing context is live and nothing of R126 keeps an instruction of header `h` from performing: no outstanding access issued with
PREC set (R341), no wait, a true guard, and room in the counter of SC. -/
structure Ready (s : State) (h : Hdr) : Prop where
  live : s.me.st = .live
  precise : ∀ o ∈ s.me.outst, o.prec = false
  waits : h.wm &&& s.me.dcMask = 0#4
  guard : s.me.guard h = true
  room : ∀ n, h.sc = some n → s.me.dc[n] ≠ 15#4

/-- As `Ready`, for a memory instruction: no acquire of the context is outstanding (R164). -/
structure ReadyMem (s : State) (h : Hdr) : Prop extends Ready s h where
  noAcq : ∀ o ∈ s.me.outst, o.acq = false

/-- The state after the issuing context has retired one instruction at the next pc, holding `x` otherwise (R126, R150). -/
def done (s : State) (x : Ctx) : State := s.setMe { x with pc := s.me.pc + 8, icount := s.me.icount + 1, missAns := none }

/-- The state after an instruction that jumps to `t`. -/
def went (s : State) (x : Ctx) (t : Word) : State := s.setMe { x with pc := t, icount := s.me.icount + 1, missAns := none }

/-- The header of a swarm instruction; none for a move of a matrix unit or a step of a device (R30). -/
def header : Instr → Option Hdr
  | .add h _ _ _ _ | .sub h _ _ _ _ | .mul h _ _ _ _ | .mulh h _ _ _ _ _ | .div h _ _ _ _ _ | .rem h _ _ _ _ _
  | .and h _ _ _ _ | .or h _ _ _ _ | .xor h _ _ _ _ | .andn h _ _ _ _ | .shl h _ _ _ _ | .shr h _ _ _ _ | .sar h _ _ _ _
  | .min h _ _ _ _ _ | .max h _ _ _ _ _ | .clz h _ _ _ | .ctz h _ _ _ | .popc h _ _ _ | .bfx h _ _ _ _ | .bfi h _ _ _ _
  | .sel h _ _ _ _ | .hash h _ _ _ | .madd h _ _ _ _ _ | .addi h _ _ _ | .andi h _ _ _ | .ori h _ _ _ | .xori h _ _ _
  | .movi h _ _ | .ldc h _ _ _ | .shi h _ _ _ _ | .fadd h _ _ _ _ _ | .fsub h _ _ _ _ _ | .fmul h _ _ _ _ _
  | .ffma h _ _ _ _ _ _ | .fmin h _ _ _ _ | .fmax h _ _ _ _ | .fdiv h _ _ _ _ _ | .fsqrt h _ _ _ _ | .fcvt h _ _ _ _ _
  | .fclass h _ _ _ | .fexp2 h _ _ _ | .icmp h _ _ _ _ _ _ _ | .fcmp h _ _ _ _ _ _ _ | .plog h _ _ _ _ _ _
  | .pxferGet h _ _ | .pxferPut h _ _ | .br h _ | .call h _ _ | .jmp h _ _ _ | .ld h _ _ _ _ _ _ | .st h _ _ _ _ _
  | .ldfe h _ _ | .ldff h _ _ | .stef h _ _ | .stff h _ _ | .fezero h _ | .amo h _ _ _ _ _ _ _ _ | .cas h _ _ _ _ _ _ _
  | .fence h _ _ | .pref h _ _ | .clean h _ _ | .inval h _ _ | .copy h _ _ _ _ _ | .sbindIn h _ _ _ _ _ _ _ _
  | .sbindOut h _ _ _ _ _ _ _ _ | .sclose h _ _ | .tkwait h _ _ | .tktest h _ _ _ _ | .topen h _ _ _ _ | .trow h _ _ _
  | .tmark h _ _ | .tmarkVoid h _ _ | .seal h _ _ _ _ _ | .tdrop h _ | .tstat h _ _ | .muload h _ _ _
  | .mupost h _ _ _ _ _ _ | .sqnew h _ _ _ | .sqres h _ _ _ _ | .sqcmt h _ _ _ | .sqlen h _ _ | .sqfork h _ _ _ _
  | .sqdrop h _ | .kvst h _ | .kvgathK h _ _ _ _ _ | .kvgathV h _ _ _ _ _ | .kvsumB h _ _ _ _ _ | .kvsumR h _ _ _ _ _
  | .kvpf h _ _ | .kvpfW h _ _ _ | .kvpinOn h _ _ _ | .kvpinOff h _ _ _ | .kvqrel h _ _ | .bar h _ _ _ _ | .chopen h _ _ _
  | .chsend h _ _ _ | .chtry h _ _ _ _ | .chrecv h _ _ _ | .chgrant h _ _ _ _ | .alt h _ _ | .chclose h _ _ | .qbindUp h _
  | .qbindDown h _ | .launch h _ _ _ | .tenq h _ _ _ | .tdec h _ | .tdone h | .tpoll h _ _ | .start h _ _ _ _ | .hexit h _
  | .hjoin h _ _ _ | .msgbind h _ _ _ _ | .sleep h _ _ | .getid h _ _ | .trap h _ | .trapBrk h _ | .eret h | .srd h _ _
  | .swr h _ _ | .upret h _ | .wake h _ _ | .wkdoneOk h _ _ _ | .wkdoneNp h _ | .wkdoneProt h _ | .tlbinvPage h _ _ _
  | .tlbinvAsid h _ _ | .tlbinvAll h _ | .gstopHalt h _ | .gstopGo h _ | .ctxsaveSlot h _ _ | .ctxloadSlot h _ _
  | .ctxsaveCl h _ _ _ _ | .ctxloadCl h _ _ | .ctxloadClRp h _ _ _ => some h
  | _ => none

/-- The instructions that R39 marks S. -/
def privileged : Instr → Bool
  | .eret _
  | .upret _ _
  | .wake _ _ _
  | .wkdoneOk _ _ _ _
  | .wkdoneNp _ _
  | .wkdoneProt _ _
  | .tlbinvPage _ _ _ _
  | .tlbinvAsid _ _ _
  | .tlbinvAll _ _
  | .gstopHalt _ _
  | .gstopGo _ _
  | .ctxsaveSlot _ _ _
  | .ctxloadSlot _ _ _
  | .ctxsaveCl _ _ _ _ _
  | .ctxloadCl _ _ _
  | .ctxloadClRp _ _ _ _ => true
  | _ => false

/-- The predicates that a C-form instruction with CM = 1 clears on a false guard (R34, R127). -/
def clears : Instr → Option (Pred × Pred)
  | .icmp _ _ _ pt pf _ _ cm | .fcmp _ _ _ pt pf _ _ cm | .plog _ _ pt pf _ _ cm | .tktest _ pt pf _ cm =>
    if cm then some (pt, pf) else none
  | _ => none

end Claims

end Sys2Proof
end

