-- ==== Sys2Proof/Certificates/Slice0/Obligations.lean ====
section
/-! DEFINITION. The statements for the provers, with the terms they speak in: what the instructions, the steps of the device and the machine as a whole do,
each from the rules its comment names. -/

namespace Sys2Proof.Claims

open Sys2Proof.Machine

/-! ### Registers and values in the manual's terms -/

/-- A register file with one register written; a write to x0 is discarded (R31). -/
def put (x : Ctx) (d : Reg) (v : Word) : Ctx := if d = 0 then x else { x with x := x.x.set d.toNat v d.isLt }

/-- The low 32 bits of a register, which an operand of TY = 1 is (R131). -/
def lo (v : Word) : BitVec 32 := v.setWidth 32

/-- A result of an integer type: 64 bits, or 32 bits sign-extended (R131). -/
def onTy (ty : IntTy) (r64 : Word) (r32 : BitVec 32) : Word :=
  match ty with
  | .i64 => r64
  | .i32 => r32.signExtend 64

/-- The high half of the exact product of two w-bit values (R132, MULH). -/
def mulHigh (k : MulhKind) {w : Nat} (a b : BitVec w) : BitVec w :=
  let x : BitVec (2 * w) := match k with
    | .uu => a.setWidth (2 * w)
    | .ss | .su => a.signExtend (2 * w)
  let y : BitVec (2 * w) := match k with
    | .ss => b.signExtend (2 * w)
    | .uu | .su => b.setWidth (2 * w)
  ((x * y) >>> w).setWidth w

/-- Bits that are 0 before the first 1, looked at in the order `f 0`, `f 1`, … of w places (R132, CLZ and CTZ). -/
def zerosBefore (w : Nat) (f : Nat → Bool) : Nat := ((List.range w).takeWhile fun i => !f i).length

/-- Bits that are 1 among w places (R132, POPC). -/
def ones (w : Nat) (f : Nat → Bool) : Nat := ((List.range w).filter f).length

/-- Quotient (R134): all ones for a divisor of 0, else truncated towards zero. -/
def quot (u : Bool) {w : Nat} (a b : BitVec w) : BitVec w :=
  if b = 0 then BitVec.allOnes w else if u then a.udiv b else a.sdiv b

/-- Remainder (R134): a for a divisor of 0, else with the sign of a. -/
def rest (u : Bool) {w : Nat} (a b : BitVec w) : BitVec w :=
  if b = 0 then a else if u then a.umod b else a.srem b

/-- The lesser and the greater of two values (R132). -/
def lesser (u : Bool) {w : Nat} (a b : BitVec w) : BitVec w := if (if u then a.ult b else a.slt b) then a else b
def greater (u : Bool) {w : Nat} (a b : BitVec w) : BitVec w := if (if u then b.ult a else b.slt a) then a else b

/-- Position, length and mask of a bit-field descriptor (R135). -/
def fieldPos (d : Word) : Nat := (d &&& 0x3F#64).toNat
def fieldLen (d : Word) : Nat := min (min ((d >>> 8) &&& 0x7F#64).toNat 64) (64 - fieldPos d)
def fieldMask (d : Word) : Word := BitVec.ofNat 64 (2 ^ fieldLen d - 1)

/-- The field of BFX (R135): shifted down, with zeros or copies of its top bit above. -/
def field (sg : Bool) (a d : Word) : Word :=
  if fieldLen d = 0 then 0
  else if sg then (a <<< (64 - fieldPos d - fieldLen d)).sshiftRight (64 - fieldLen d)
  else (a >>> fieldPos d) &&& fieldMask d

/-- The insertion of BFI (R135). -/
def insertField (a b d : Word) : Word := (a &&& ~~~(fieldMask d <<< fieldPos d)) ||| ((b &&& fieldMask d) <<< fieldPos d)

/-- HASH (R136), with the three constants of the manual. -/
def mix (a b : Word) : Word :=
  let z1 := a + b * 0x9E3779B97F4A7C15#64
  let z2 := (z1 ^^^ (z1 >>> 32)) * 0xB3A74E1D9C256F8B#64
  let z3 := (z2 ^^^ (z2 >>> 29)) * 0xE5D2193B47A6C0F1#64
  z3 ^^^ (z3 >>> 32)

/-- The two-operand integer instructions of R132 that combine their operands at either width, with what they write to x[D] from the values x and y of their sources. -/
def arith (h : Hdr) (ty : IntTy) (d a b : Reg) (x y : Word) : List (Instr × Word) :=
  [(.add h ty d a b, onTy ty (x + y) (lo x + lo y)),
   (.sub h ty d a b, onTy ty (x - y) (lo x - lo y)),
   (.mul h ty d a b, onTy ty (x * y) (lo x * lo y)),
   (.and h ty d a b, onTy ty (x &&& y) (lo x &&& lo y)),
   (.or h ty d a b, onTy ty (x ||| y) (lo x ||| lo y)),
   (.xor h ty d a b, onTy ty (x ^^^ y) (lo x ^^^ lo y)),
   (.andn h ty d a b, onTy ty (x &&& ~~~y) (lo x &&& ~~~(lo y)))] ++
  [MulhKind.ss, .uu, .su].map (fun k => (.mulh h k ty d a b, onTy ty (mulHigh k x y) (mulHigh k (lo x) (lo y)))) ++
  [false, true].flatMap (fun u =>
    [(.min h u ty d a b, onTy ty (lesser u x y) (lesser u (lo x) (lo y))),
     (.max h u ty d a b, onTy ty (greater u x y) (greater u (lo x) (lo y)))])

/-- SEL, MADD and the bit counts of R132. -/
def arith3 (s : State) (h : Hdr) (ty : IntTy) (d a b c : Reg) (p : Pred) : List (Instr × Word) :=
  let x := s.me.reg a
  let y := s.me.reg b
  let z := s.me.reg c
  let w := match ty with
    | .i64 => 64
    | .i32 => 32
  [(.madd h ty d a b c, onTy ty (x * y + z) (lo x * lo y + lo z)),
   (.sel h d a b p, if p = 0 ∨ s.me.p.getLsbD p.toNat then x else y),
   (.clz h ty d a, BitVec.ofNat 64 (zerosBefore w fun i => x.getLsbD (w - 1 - i))),
   (.ctz h ty d a, BitVec.ofNat 64 (zerosBefore w fun i => x.getLsbD i)),
   (.popc h ty d a, BitVec.ofNat 64 (ones w fun i => x.getLsbD i))]

end Sys2Proof.Claims

open Sys2Proof Sys2Proof.Machine Sys2Proof.Claims

/-- R132: on a context that is free to issue, ADD, SUB, MUL, AND, OR, XOR, ANDN, MULH, MIN and MAX write their result at the width of TY
to x[D], go on at pc + 8, count in icount and change nothing else of the module. -/
def Sys2Proof.Claims.IntegerResults : Prop :=
  ∀ (s : State) (h : Hdr) (ty : IntTy) (d a b : Reg), Ready s h → Target s d → Plain s a → Plain s b →
    ∀ iv ∈ arith h ty d a b (s.me.reg a) (s.me.reg b), exec iv.1 s = .next (done s (put s.me d iv.2))

/-- R132: the same of MADD, SEL, CLZ, CTZ and POPC. -/
def Sys2Proof.Claims.IntegerThree : Prop :=
  ∀ (s : State) (h : Hdr) (ty : IntTy) (d a b c : Reg) (p : Pred), Ready s h → Target s d → Plain s a → Plain s b → Plain s c →
    ∀ iv ∈ arith3 s h ty d a b c p, exec iv.1 s = .next (done s (put s.me d iv.2))

/-- R134: DIV and REM write the quotient truncated towards zero and the remainder with the sign of a; a divisor of 0 gives all ones and a,
and signed division of the least value by -1 gives that value and 0. Neither traps. -/
def Obligations.DivisionTruncatesAndNeverTraps : Prop :=
  ∀ (s : State) (h : Hdr) (u : Bool) (ty : IntTy) (d a b : Reg), Ready s h → Target s d → Plain s a → Plain s b →
    exec (.div h u ty d a b) s =
      .next (done s (put s.me d (onTy ty (quot u (s.me.reg a) (s.me.reg b)) (quot u (lo (s.me.reg a)) (lo (s.me.reg b)))))) ∧
    exec (.rem h u ty d a b) s =
      .next (done s (put s.me d (onTy ty (rest u (s.me.reg a) (s.me.reg b)) (rest u (lo (s.me.reg a)) (lo (s.me.reg b))))))

/-- R133, R138: the shifts by b mod 64 at either width, and SHI by its immediate. -/
def Sys2Proof.Claims.Shifts : Prop :=
  ∀ (s : State) (h : Hdr) (ty : IntTy) (d a b : Reg) (n : BitVec 6), Ready s h → Target s d → Plain s a → Plain s b →
    let x := s.me.reg a
    let m := (s.me.reg b).toNat % 64
    exec (.shl h ty d a b) s = .next (done s (put s.me d (onTy ty (x <<< m) (lo x <<< m)))) ∧
    exec (.shr h ty d a b) s = .next (done s (put s.me d (onTy ty (x >>> m) (lo x >>> m)))) ∧
    exec (.sar h ty d a b) s = .next (done s (put s.me d (onTy ty (x.sshiftRight m) ((lo x).sshiftRight m)))) ∧
    exec (.shi h .l d a n) s = .next (done s (put s.me d (x <<< n.toNat))) ∧
    exec (.shi h .r d a n) s = .next (done s (put s.me d (x >>> n.toNat))) ∧
    exec (.shi h .a d a n) s = .next (done s (put s.me d (x.sshiftRight n.toNat))) ∧
    exec (.shi h .ror d a n) s = .next (done s (put s.me d (x.rotateRight n.toNat)))

/-- R135, R136: the bit fields named by a descriptor register, and the mixer. -/
def Sys2Proof.Claims.FieldsAndHash : Prop :=
  ∀ (s : State) (h : Hdr) (sg : Bool) (d a b c : Reg), Ready s h → Target s d → Plain s a → Plain s b → Plain s c →
    exec (.bfx h sg d a b) s = .next (done s (put s.me d (field sg (s.me.reg a) (s.me.reg b)))) ∧
    exec (.bfi h d a b c) s = .next (done s (put s.me d (insertField (s.me.reg a) (s.me.reg b) (s.me.reg c)))) ∧
    exec (.hash h d a b) s = .next (done s (put s.me d (mix (s.me.reg a) (s.me.reg b))))

/-- R133, R135, R136, R138: the shifts, the bit fields and the mixer write their result and change nothing else. -/
def Obligations.ShiftsFieldsAndMixerWriteTheirResult : Prop := Claims.Shifts ∧ Claims.FieldsAndHash

/-- R137: the immediate instructions; the immediate is sign-extended but for LDC's. -/
def Sys2Proof.Claims.Immediates : Prop :=
  ∀ (s : State) (h : Hdr) (d a : Reg) (imm : BitVec 29), Ready s h → Target s d → Plain s a →
    let x := s.me.reg a
    let i : Word := imm.signExtend 64
    exec (.addi h d a imm) s = .next (done s (put s.me d (x + i))) ∧
    exec (.andi h d a imm) s = .next (done s (put s.me d (x &&& i))) ∧
    exec (.ori h d a imm) s = .next (done s (put s.me d (x ||| i))) ∧
    exec (.xori h d a imm) s = .next (done s (put s.me d (x ^^^ i))) ∧
    exec (.movi h d imm) s = .next (done s (put s.me d i)) ∧
    exec (.ldc h d a imm) s = .next (done s (put s.me d ((x <<< 29) ||| imm.setWidth 64)))

/-- R131, R132, R137: every integer instruction but the shifts, the fields and the divisions writes its result at the width of TY, and changes nothing else of the module. -/
def Obligations.IntegerOperationsWriteTheirResult : Prop := Claims.IntegerResults ∧ Claims.IntegerThree ∧ Claims.Immediates

namespace Sys2Proof.Claims

/-! ### Floats by their patterns -/

/-- Width of a float type, its patterns of infinity and of the canonical NaN (R47, R48). -/
def fw : FloatTy → Nat
  | .f32 => 32
  | .f16 | .bf16 => 16
def infPat : FloatTy → Nat
  | .f32 => 0x7F800000
  | .f16 => 0x7C00
  | .bf16 => 0x7F80
def nanPat : FloatTy → Nat
  | .f32 => 0x7FC00000
  | .f16 => 0x7E00
  | .bf16 => 0x7FC0

/-- Least normal magnitude, and the bit that a quiet NaN has set. -/
def leastNormal : FloatTy → Nat
  | .f32 => 0x800000
  | .f16 => 0x400
  | .bf16 => 0x80
def quietBit : FloatTy → Nat
  | .f32 => 22
  | .f16 => 9
  | .bf16 => 6

/-- The pattern a register holds in its low bits, its sign, and its magnitude bits (R131). -/
def pat (ty : FloatTy) (v : Word) : Nat := v.toNat % 2 ^ fw ty
def neg (ty : FloatTy) (v : Word) : Bool := v.getLsbD (fw ty - 1)
def mag (ty : FloatTy) (v : Word) : Nat := v.toNat % 2 ^ (fw ty - 1)
def isNaN (ty : FloatTy) (v : Word) : Bool := infPat ty < mag ty v
def isInf (ty : FloatTy) (v : Word) : Bool := mag ty v == infPat ty
def isZero (ty : FloatTy) (v : Word) : Bool := mag ty v == 0
def signBit (ty : FloatTy) (n : Bool) : Nat := if n then 2 ^ (fw ty - 1) else 0

/-- Place in the order of numbers: `strict` counts -0 as less than +0 (R140), else the two are equal (R143). -/
def place (strict : Bool) (ty : FloatTy) (v : Word) : Int :=
  if neg ty v then -(mag ty v : Int) - (if strict then 1 else 0) else mag ty v

/-- FMIN and FMAX (R140). -/
def extremum (mx : Bool) (ty : FloatTy) (a b : Word) : Nat :=
  match isNaN ty a, isNaN ty b with
  | true, true => nanPat ty
  | true, false => pat ty b
  | false, true => pat ty a
  | false, false =>
    if mx then (if place true ty b < place true ty a then pat ty a else pat ty b)
    else if place true ty a < place true ty b then pat ty a else pat ty b

/-- The class bit of FCLASS (R142). -/
def classBit (ty : FloatTy) (v : Word) : Nat :=
  if isNaN ty v then (if v.getLsbD (quietBit ty) then 9 else 8)
  else
    match neg ty v with
    | true => if isInf ty v then 0 else if isZero ty v then 3 else if mag ty v < leastNormal ty then 2 else 1
    | false => if isInf ty v then 7 else if isZero ty v then 4 else if mag ty v < leastNormal ty then 5 else 6

/-- The conditions of FCMP (R143). -/
def fcond (cc : Fcc) (ty : FloatTy) (a b : Word) : Bool :=
  let un := isNaN ty a || isNaN ty b
  let x := place false ty a
  let y := place false ty b
  match cc with
  | .eq => !un && x == y
  | .ne => un || x != y
  | .lt => !un && decide (x < y)
  | .ge => !un && decide (y ≤ x)
  | .le => !un && decide (x ≤ y)
  | .gt => !un && decide (y < x)
  | .ord => !un
  | .uno => un

/-- The conditions of ICMP at one width (R34, R143). -/
def icond (cc : Icc) {w : Nat} (a b : BitVec w) : Bool :=
  match cc with
  | .eq => a == b
  | .ne => a != b
  | .lt => a.slt b
  | .ge => b.sle a
  | .ltu => a.ult b
  | .geu => b.ule a
  | .le => a.sle b
  | .gt => b.slt a
  | .leu => a.ule b
  | .gtu => b.ult a
  | .tst => a &&& b != 0

/-- ICMP's condition at the width of TY. -/
def icondTy (cc : Icc) (ty : IntTy) (a b : Word) : Bool :=
  match ty with
  | .i64 => icond cc a b
  | .i32 => icond cc (lo a) (lo b)

/-- One predicate written; a write to p0 is discarded (R143). -/
def setP (p : BitVec 128) (n : Pred) (v : Bool) : BitVec 128 :=
  if n = 0 then p else (p &&& ~~~(1#128 <<< n.toNat)) ||| (if v then 1#128 <<< n.toNat else 0)

/-- A condition to PT and its negation to PF. -/
def setPair (x : Ctx) (pt pf : Pred) (v : Bool) : Ctx := { x with p := setP (setP x.p pt v) pf (!v) }

/-- A predicate's value; p0 is true (R21). -/
def predOf (x : Ctx) (n : Pred) : Bool := n == 0 || x.p.getLsbD n.toNat

/-- Target of a pc-relative branch (R37). -/
def branchTarget (s : State) (disp : BitVec 29) : Word := s.me.pc + 8 + 8 * disp.signExtend 64

/-! ### The numbers behind the patterns, and correct rounding -/

/-- Precision of a float type, and the exponent of its least subnormal (R47). -/
def precOf : FloatTy → Nat
  | .f32 => 24
  | .f16 => 11
  | .bf16 => 8
def tinyOf : FloatTy → Int
  | .f32 => -149
  | .f16 => -24
  | .bf16 => -133

/-- The number of magnitude pattern `m` (R47). Beyond the largest finite pattern the exponents go on as if they had no bound. -/
def magVal (ty : FloatTy) (m : Nat) : ℚ :=
  let e := m / 2 ^ (precOf ty - 1)
  let f := m % 2 ^ (precOf ty - 1)
  if e = 0 then f * 2 ^ tinyOf ty else (2 ^ (precOf ty - 1) + f : ℕ) * 2 ^ (tinyOf ty + e - 1)

/-- The number a register holds in a float type, where it is finite. -/
def ratOf (ty : FloatTy) (v : Word) : ℚ := if neg ty v then -magVal ty (mag ty v) else magVal ty (mag ty v)

/-- Is the value a finite number? -/
def isFin (ty : FloatTy) (v : Word) : Bool := mag ty v < infPat ty

/-- `m` is the magnitude pattern that the positive number with n-th power `q` rounds to once in direction `rm`, with exponents that have no
bound (R50): the pattern below it, or the next one. -/
def RoundsMag (ty : FloatTy) (rm : Rm) (ng : Bool) (n : Nat) (q : ℚ) (m : Nat) : Prop :=
  ∃ lo, magVal ty lo ^ n ≤ q ∧ q < magVal ty (lo + 1) ^ n ∧
    let mid := (magVal ty lo + magVal ty (lo + 1)) / 2
    m = if magVal ty lo ^ n = q then lo
      else
        match rm with
        | .rz => lo
        | .rd => if ng then lo + 1 else lo
        | .ru => if ng then lo else lo + 1
        | .rne => if q < mid ^ n ∨ (q = mid ^ n ∧ lo % 2 = 0) then lo else lo + 1

/-- A magnitude beyond the largest finite one in a direction (R50). -/
def bounded (ty : FloatTy) (rm : Rm) (ng : Bool) (m : Nat) : Nat :=
  if m < infPat ty then m
  else
    match rm with
    | .rne => infPat ty
    | .rz => infPat ty - 1
    | .rd => if ng then infPat ty else infPat ty - 1
    | .ru => if ng then infPat ty - 1 else infPat ty

/-- `r` is the pattern of the number of n-th power `q`, n being odd or `q` positive, rounded once (R50). -/
def Rounds (ty : FloatTy) (rm : Rm) (n : Nat) (q : ℚ) (r : Nat) : Prop :=
  ∃ m, RoundsMag ty rm (q < 0) n |q| m ∧ r = signBit ty (q < 0) + bounded ty rm (q < 0) m

/-- A number rounded to an integer in a direction (R51). -/
def toInt (rm : Rm) (q : ℚ) : Int :=
  match rm with
  | .rd => ⌊q⌋
  | .ru => ⌈q⌉
  | .rz => if q < 0 then ⌈q⌉ else ⌊q⌋
  | .rne => if q - ⌊q⌋ < 1 / 2 ∨ (q - ⌊q⌋ = 1 / 2 ∧ ⌊q⌋ % 2 = 0) then ⌊q⌋ else ⌊q⌋ + 1

/-- The float types of FCVT, and its integer types with their ranges (R141). -/
def cvtFloats : List (CvtTy × FloatTy) := [(.f32, .f32), (.f16, .f16), (.bf16, .bf16)]
def cvtInts : List (CvtTy × Int × Int) :=
  [(.i64, -2 ^ 63, 2 ^ 63 - 1), (.i32, -2 ^ 31, 2 ^ 31 - 1), (.u64, 0, 2 ^ 64 - 1), (.u32, 0, 2 ^ 32 - 1)]

/-- The integer a register holds in an integer type of FCVT. -/
def intIn (t : CvtTy) (v : Word) : Int :=
  match t with
  | .i64 => v.toInt
  | .i32 => (lo v).toInt
  | .u64 => v.toNat
  | _ => (lo v).toNat

end Sys2Proof.Claims

/-- R139, R141 (derived: the exact arithmetic and its one rounding are the functions `Fmt` of Num.lean): the float instructions write their
result, zero-extended but for integer results of FCVT, and change nothing else. -/
def Sys2Proof.Claims.FloatResults : Prop :=
  ∀ (s : State) (h : Hdr) (ty : FloatTy) (rm : Rm) (d a b c : Reg) (t1 t2 : CvtTy), Ready s h → Target s d → Plain s a → Plain s b → Plain s c →
    let x := (s.me.reg a).toNat
    let y := (s.me.reg b).toNat
    let z := (s.me.reg c).toNat
    exec (.fadd h ty rm d a b) s = .next (done s (put s.me d (BitVec.ofNat 64 (ty.fmt.add rm x y)))) ∧
    exec (.fsub h ty rm d a b) s = .next (done s (put s.me d (BitVec.ofNat 64 (ty.fmt.sub rm x y)))) ∧
    exec (.fmul h ty rm d a b) s = .next (done s (put s.me d (BitVec.ofNat 64 (ty.fmt.mul rm x y)))) ∧
    exec (.ffma h ty rm d a b c) s = .next (done s (put s.me d (BitVec.ofNat 64 (ty.fmt.fma rm x y z)))) ∧
    exec (.fdiv h ty rm d a b) s = .next (done s (put s.me d (BitVec.ofNat 64 (ty.fmt.div rm x y)))) ∧
    exec (.fsqrt h ty rm d a) s = .next (done s (put s.me d (BitVec.ofNat 64 (ty.fmt.sqrt rm x)))) ∧
    exec (.fexp2 h rm d a) s = .next (done s (put s.me d (BitVec.ofNat 64 (exp2 (x % 2 ^ 32))))) ∧
    exec (.fcvt h t1 t2 rm d a) s = .next (done s (put s.me d (fcvtRes t1 t2 rm (s.me.reg a))))

/-- R139: the invalid operations give the canonical NaN, the root of -0 is -0, and a number other than zero divided by a zero is an
infinity of the XOR of the signs. -/
def Sys2Proof.Claims.FloatInvalid : Prop :=
  ∀ (s : State) (h : Hdr) (ty : FloatTy) (rm : Rm) (d a b c : Reg), Ready s h → Target s d → Plain s a → Plain s b → Plain s c →
    let x := s.me.reg a
    let y := s.me.reg b
    let z := s.me.reg c
    let gives := fun (i : Instr) (v : Nat) => exec i s = .next (done s (put s.me d (BitVec.ofNat 64 v)))
    (isInf ty x → isInf ty y → neg ty x ≠ neg ty y → gives (.fadd h ty rm d a b) (nanPat ty)) ∧
    (isInf ty x → isInf ty y → neg ty x = neg ty y → gives (.fsub h ty rm d a b) (nanPat ty)) ∧
    ((isZero ty x ∧ isInf ty y) ∨ (isInf ty x ∧ isZero ty y) →
      gives (.fmul h ty rm d a b) (nanPat ty) ∧ gives (.ffma h ty rm d a b c) (nanPat ty)) ∧
    ((isInf ty x ∧ !isNaN ty y ∧ !isZero ty y) ∨ (isInf ty y ∧ !isNaN ty x ∧ !isZero ty x) → isInf ty z →
      (neg ty x != neg ty y) ≠ neg ty z → gives (.ffma h ty rm d a b c) (nanPat ty)) ∧
    ((isZero ty x ∧ isZero ty y) ∨ (isInf ty x ∧ isInf ty y) → gives (.fdiv h ty rm d a b) (nanPat ty)) ∧
    (neg ty x → !isZero ty x → gives (.fsqrt h ty rm d a) (nanPat ty)) ∧
    (neg ty x → isZero ty x → gives (.fsqrt h ty rm d a) (signBit ty true)) ∧
    (mag ty x < infPat ty → !isZero ty x → isZero ty y →
      gives (.fdiv h ty rm d a b) (signBit ty (neg ty x != neg ty y) + infPat ty))

/-- R48, R50, R139: on finite operands FADD, FSUB, FMUL, FFMA, FDIV and FSQRT write the exact number, a rational or the root of one, rounded
once to the format in the RM direction, with the zeros and the overflow results of R50. -/
def Sys2Proof.Claims.FloatRounding : Prop :=
  ∀ (s : State) (h : Hdr) (ty : FloatTy) (rm : Rm) (d a b c : Reg), Ready s h → Target s d → Plain s a → Plain s b → Plain s c →
    let x := s.me.reg a
    let y := s.me.reg b
    let z := s.me.reg c
    let gives := fun (i : Instr) (v : Nat) => exec i s = .next (done s (put s.me d (BitVec.ofNat 64 v)))
    let rounds := fun (i : Instr) (n : Nat) (q : ℚ) => ∃ r, Rounds ty rm n q r ∧ gives i r
    isFin ty x → isFin ty y → isFin ty z →
    let sum := ratOf ty x + ratOf ty y
    let dif := ratOf ty x - ratOf ty y
    let fma := ratOf ty x * ratOf ty y + ratOf ty z
    let sg := neg ty x != neg ty y
    (sum ≠ 0 → rounds (.fadd h ty rm d a b) 1 sum) ∧
    (sum = 0 → gives (.fadd h ty rm d a b) (signBit ty (if isZero ty x && isZero ty y && !sg then neg ty x else rm == .rd))) ∧
    (dif ≠ 0 → rounds (.fsub h ty rm d a b) 1 dif) ∧
    (dif = 0 → gives (.fsub h ty rm d a b) (signBit ty (if isZero ty x && isZero ty y && sg then neg ty x else rm == .rd))) ∧
    (!isZero ty x → !isZero ty y → rounds (.fmul h ty rm d a b) 1 (ratOf ty x * ratOf ty y) ∧
      rounds (.fdiv h ty rm d a b) 1 (ratOf ty x / ratOf ty y)) ∧
    (isZero ty x || isZero ty y → gives (.fmul h ty rm d a b) (signBit ty sg)) ∧
    (isZero ty x → !isZero ty y → gives (.fdiv h ty rm d a b) (signBit ty sg)) ∧
    (fma ≠ 0 → rounds (.ffma h ty rm d a b c) 1 fma) ∧
    (fma = 0 → gives (.ffma h ty rm d a b c)
      (signBit ty (if (isZero ty x || isZero ty y) && isZero ty z && sg == neg ty z then sg else rm == .rd))) ∧
    (!neg ty x → !isZero ty x → rounds (.fsqrt h ty rm d a) 2 (ratOf ty x)) ∧
    (isZero ty x → gives (.fsqrt h ty rm d a) (signBit ty (neg ty x)))

/-- R48, R50, R139: the same instructions on NaNs, which give the canonical NaN, and on infinities where no operation is invalid. -/
def Sys2Proof.Claims.FloatInfinities : Prop :=
  ∀ (s : State) (h : Hdr) (ty : FloatTy) (rm : Rm) (d a b c : Reg), Ready s h → Target s d → Plain s a → Plain s b → Plain s c →
    let x := s.me.reg a
    let y := s.me.reg b
    let z := s.me.reg c
    let gives := fun (i : Instr) (v : Nat) => exec i s = .next (done s (put s.me d (BitVec.ofNat 64 v)))
    let sg := neg ty x != neg ty y
    let infinity := fun (n : Bool) => signBit ty n + infPat ty
    (isNaN ty x || isNaN ty y → (∀ i ∈ [Instr.fadd h ty rm d a b, .fsub h ty rm d a b, .fmul h ty rm d a b, .fdiv h ty rm d a b,
      .ffma h ty rm d a b c], gives i (nanPat ty))) ∧
    (isNaN ty z → gives (.ffma h ty rm d a b c) (nanPat ty)) ∧
    (isNaN ty x → gives (.fsqrt h ty rm d a) (nanPat ty)) ∧
    (isInf ty x → isFin ty y || (isInf ty y && !sg) → gives (.fadd h ty rm d a b) (infinity (neg ty x))) ∧
    (isFin ty x → isInf ty y → gives (.fadd h ty rm d a b) (infinity (neg ty y)) ∧ gives (.fsub h ty rm d a b) (infinity (!neg ty y)) ∧
      gives (.fdiv h ty rm d a b) (signBit ty sg)) ∧
    (isInf ty x → isFin ty y || (isInf ty y && sg) → gives (.fsub h ty rm d a b) (infinity (neg ty x))) ∧
    (isInf ty x → isFin ty y → gives (.fdiv h ty rm d a b) (infinity sg)) ∧
    ((isInf ty x && !isNaN ty y && !isZero ty y) || (isInf ty y && !isNaN ty x && !isZero ty x) →
      gives (.fmul h ty rm d a b) (infinity sg) ∧
      (isFin ty z || (isInf ty z && sg == neg ty z) → gives (.ffma h ty rm d a b c) (infinity sg))) ∧
    (isFin ty x → isFin ty y → isInf ty z → gives (.ffma h ty rm d a b c) (infinity (neg ty z))) ∧
    (isInf ty x → !neg ty x → gives (.fsqrt h ty rm d a) (infPat ty))

/-- R51, R52, R141: FCVT. A finite number is rounded once to another float format, or to an integer, which keeps a zero's sign in the same format
and is saturated in an integer type; an integer is rounded to a float format. -/
def Sys2Proof.Claims.FloatConversions : Prop :=
  ∀ (s : State) (h : Hdr) (rm : Rm) (d a : Reg), Ready s h → Target s d → Plain s a →
    let v := s.me.reg a
    let gives := fun (t1 t2 : CvtTy) (r : Word) => exec (.fcvt h t1 t2 rm d a) s = .next (done s (put s.me d r))
    let rounds := fun (t1 t2 : CvtTy) (ty : FloatTy) (q : ℚ) => ∃ r, Rounds ty rm 1 q r ∧ gives t1 t2 (BitVec.ofNat 64 r)
    (∀ f ∈ cvtFloats, ∀ g ∈ cvtFloats,
      (isNaN f.2 v → gives g.1 f.1 (BitVec.ofNat 64 (nanPat g.2))) ∧
      (isInf f.2 v → gives g.1 f.1 (BitVec.ofNat 64 (signBit g.2 (neg f.2 v) + infPat g.2))) ∧
      (isFin f.2 v →
        let q := if f.1 = g.1 then (toInt rm (ratOf f.2 v) : ℚ) else ratOf f.2 v
        (q ≠ 0 → rounds g.1 f.1 g.2 q) ∧ (q = 0 → gives g.1 f.1 (BitVec.ofNat 64 (signBit g.2 (neg f.2 v)))))) ∧
    (∀ f ∈ cvtFloats, ∀ g ∈ cvtInts,
      (isNaN f.2 v → gives g.1 f.1 0) ∧
      (isInf f.2 v → gives g.1 f.1 (BitVec.ofInt 64 (if neg f.2 v then g.2.1 else g.2.2))) ∧
      (isFin f.2 v → gives g.1 f.1 (BitVec.ofInt 64 (max g.2.1 (min g.2.2 (toInt rm (ratOf f.2 v))))))) ∧
    (∀ f ∈ cvtInts, ∀ g ∈ cvtFloats,
      (intIn f.1 v ≠ 0 → rounds g.1 f.1 g.2 (intIn f.1 v)) ∧ (intIn f.1 v = 0 → gives g.1 f.1 0))

/-- R68: FEXP2 by the manual's steps, T and ln 2 being rounded to FP32, whatever RM says. -/
def Sys2Proof.Claims.FloatExp2 : Prop :=
  ∀ (s : State) (h : Hdr) (rm : Rm) (d a : Reg), Ready s h → Target s d → Plain s a →
    let v := s.me.reg a
    let gives := fun (r : Nat) => exec (.fexp2 h rm d a) s = .next (done s (put s.me d (BitVec.ofNat 64 r)))
    let x := ratOf .f32 v
    (isNaN .f32 v → gives 0x7FC00000) ∧
    (isInf .f32 v → gives (if neg .f32 v then 0 else 0x7F800000)) ∧
    (isFin .f32 v → x < -126 → gives 0) ∧
    (isFin .f32 v → 128 ≤ x → gives 0x7F800000) ∧
    (isFin .f32 v → -126 ≤ x → x < 128 →
      let n := ⌊x⌋
      let i := ⌊256 * (x - n)⌋
      let g := x - n - i / 256
      let num := fun (p : Nat) => ratOf .f32 (BitVec.ofNat 64 p)
      ∃ t u r y, Rounds .f32 .rne 256 (2 ^ i) t ∧ Rounds .f32 .rne 1 (num t * num 0x3F317218) u ∧ Rounds .f32 .rne 1 (num u * g + num t) r ∧
        (num r * 2 ^ n < 2 ^ 128 → y < 0x7F800000 ∧ num y = num r * 2 ^ n) ∧ (2 ^ 128 ≤ num r * 2 ^ n → y = 0x7F800000) ∧ gives y)

/-- R47 to R52, R68, R139, R141: the float instructions write the exact result rounded once, with the manual's results for zeros, infinities, NaNs and the invalid operations; FCVT and FEXP2. -/
def Obligations.FloatArithmeticRoundsOnceOrGivesNaN : Prop := Claims.FloatResults ∧ Claims.FloatInvalid ∧ Claims.FloatRounding ∧ Claims.FloatInfinities ∧ Claims.FloatConversions ∧ Claims.FloatExp2

/-- R140, R142: FMIN, FMAX and FCLASS by patterns. -/
def Obligations.FloatMinMaxAndClassByPatterns : Prop :=
  ∀ (s : State) (h : Hdr) (ty : FloatTy) (d a b : Reg), Ready s h → Target s d → Plain s a → Plain s b →
    let x := s.me.reg a
    let y := s.me.reg b
    exec (.fmin h ty d a b) s = .next (done s (put s.me d (BitVec.ofNat 64 (extremum false ty x y)))) ∧
    exec (.fmax h ty d a b) s = .next (done s (put s.me d (BitVec.ofNat 64 (extremum true ty x y)))) ∧
    exec (.fclass h ty d a) s = .next (done s (put s.me d (BitVec.ofNat 64 (2 ^ classBit ty x))))

/-- R143: ICMP and FCMP write their condition to PT and its negation to PF. -/
def Sys2Proof.Claims.Compares : Prop :=
  ∀ (s : State) (h : Hdr) (cc : Icc) (fc : Fcc) (ty : IntTy) (ft : FloatTy) (pt pf : Pred) (a b : Reg) (k : BitVec 12) (cm : Bool),
    Ready s h → Plain s a → Plain s b →
    let x := s.me.reg a
    let y := s.me.reg b
    exec (.icmp h cc ty pt pf a (.reg b) cm) s = .next (done s (setPair s.me pt pf (icondTy cc ty x y))) ∧
    exec (.icmp h cc ty pt pf a (.imm k) cm) s = .next (done s (setPair s.me pt pf (icondTy cc ty x (k.signExtend 64)))) ∧
    exec (.fcmp h fc ft pt pf a b cm) s = .next (done s (setPair s.me pt pf (fcond fc ft x y)))

/-- R35, R144, R145: PLOG takes bit 2·p[PA] + p[PB] of CC, both read before either is written; PXFER moves one half of the predicates,
p0 reading true and keeping its value. -/
def Sys2Proof.Claims.Predicates : Prop :=
  ∀ (s : State) (h : Hdr) (cc : BitVec 4) (pt pf pa pb : Pred) (d a : Reg) (half cm : Bool), Ready s h → Target s d → Plain s a →
    s.me.p.getLsbD 0 = true →
    let v := cc.getLsbD (2 * (predOf s.me pa).toNat + (predOf s.me pb).toNat)
    exec (.plog h cc pt pf pa pb cm) s = .next (done s (setPair s.me pt pf v)) ∧
    exec (.pxferGet h d half) s = .next (done s (put s.me d (s.me.p.extractLsb' (if half then 64 else 0) 64))) ∧
    (∃ p' : BitVec 128, exec (.pxferPut h a half) s = .next (done s { s.me with p := p' }) ∧ p'.getLsbD 0 = true ∧
      ∀ i : Nat, 0 < i → i < 128 →
        p'.getLsbD i = if decide (64 ≤ i) = half then (s.me.reg a).getLsbD (i % 64) else s.me.p.getLsbD i)

/-- R35, R143 to R145: the instructions that write predicates. -/
def Obligations.ComparesAndPredicateOpsWritePredicates : Prop := Claims.Compares ∧ Claims.Predicates

/-- R37, R146: the branches. A target whose bits 2:0 are 0 becomes the pc, and the link is pc + 8, the base read before it is written; any
other target faults ALIGN with neither pc nor link written. -/
def Obligations.BranchesReachAlignedTargets : Prop :=
  ∀ (s : State) (h : Hdr) (l a : Reg) (disp : BitVec 29), Ready s h → Target s l → Plain s a →
    let t := branchTarget s disp
    let u := s.me.reg a + 8 * disp.signExtend 64
    (t.toNat % 8 = 0 →
      exec (.br h disp) s = .next (went s s.me t) ∧
      exec (.call h l disp) s = .next (went s (put s.me l (s.me.pc + 8)) t)) ∧
    (t.toNat % 8 ≠ 0 →
      exec (.br h disp) s = .next (takeFault s { code := cAlign, addr := t.toNat }) ∧
      exec (.call h l disp) s = .next (takeFault s { code := cAlign, addr := t.toNat })) ∧
    (u.toNat % 8 = 0 → exec (.jmp h l a disp) s = .next (went s (put s.me l (s.me.pc + 8)) u)) ∧
    (u.toNat % 8 ≠ 0 → exec (.jmp h l a disp) s = .next (takeFault s { code := cAlign, addr := u.toNat }))

namespace Sys2Proof.Claims

/-! ### Stream and queue registers as operands -/

/-- x(56+k) (R130). -/
def streamReg (k : Nat) : Reg := BitVec.ofNat 6 (56 + k)

/-- The element at the head of an in-stream, zero- or sign-extended from its bytes (R180). -/
def extended (t : Stream) (v : Word) : Word :=
  if t.sx then (v <<< (64 - 8 * t.esz)).sshiftRight (64 - 8 * t.esz) else v

/-- A context that has taken one element of stream `k`. -/
def taken (x : Ctx) (k : Nat) (t : Stream) (rest : List Word) : Ctx :=
  { x with streams := tput x.streams k { t with fifo := rest, taken := t.taken + 1 } }

/-- The issuing context parked at its instruction, nothing performed (R130). -/
def parkedHere (s : State) : State := s.setMe { s.me with st := .parked .retry }

/-- The memory instructions of the M and R forms that an acquire of the context holds (R164). -/
def memoryInstr : Instr → Bool
  | .ld _ _ _ _ _ _ _ | .st _ _ _ _ _ _ | .amo _ _ _ _ _ _ _ _ _ | .cas _ _ _ _ _ _ _ _ | .fence _ _ _ | .pref _ _ _ |
    .clean _ _ _ | .inval _ _ _ | .ldfe _ _ _ | .ldff _ _ _ | .stef _ _ _ | .stff _ _ _ | .fezero _ _ => true
  | _ => false

end Sys2Proof.Claims

/-- R127: an instruction whose guard is false honours its wait first, and then performs nothing and goes on at pc + 8, whatever its counter holds; a
C-form instruction with CM = 1 clears its two predicates. It holds of every swarm instruction. -/
def Obligations.FalseGuardPerformsNothing : Prop :=
  ∀ (s : State) (i : Instr) (h : Hdr), header i = some h → s.me.st = .live → (privileged i → s.me.sys) →
    (∀ o ∈ s.me.outst, o.prec = false) → s.me.guard h = false →
    (h.wm &&& s.me.dcMask ≠ 0#4 → exec i s = .next s) ∧
    (h.wm &&& s.me.dcMask = 0#4 → exec i s = .next (done s (match clears i with
      | some (pt, pf) => { s.me with p := setP (setP s.me.p pt false) pf false }
      | none => s.me)))

/-- R126, R128: every swarm instruction is held, with nothing changed, while a counter its WM names is not zero, while its SC names a
counter that is 15, and while an access that was issued in precise mode is outstanding; a memory instruction, while an acquire is (R164, R341). -/
def Obligations.BusyCountersHoldTheIssue : Prop :=
  ∀ (s : State) (i : Instr) (h : Hdr), header i = some h → s.me.st = .live → (privileged i → s.me.sys) →
    (h.wm &&& s.me.dcMask ≠ 0#4 → exec i s = .next s) ∧
    (∀ n, h.sc = some n → s.me.dc[n] = 15#4 → s.me.guard h = true → exec i s = .next s) ∧
    ((∃ o ∈ s.me.outst, o.prec = true) → exec i s = .next s) ∧
    (memoryInstr i = true → s.me.guard h = true → (∃ o ∈ s.me.outst, o.acq = true) → exec i s = .next s)

/-- R38, R41: an instruction that R39 marks S raises PRIV in user mode, whatever its guard and without its wait. -/
def Obligations.PrivilegedRaisesPrivInUserMode : Prop :=
  ∀ (s : State) (i : Instr) (h : Hdr), header i = some h → privileged i = true → s.me.st = .live → s.me.sys = false →
    (∀ o ∈ s.me.outst, o.prec = false) → exec i s = .next (takeFault s { code := cPriv })

/-- R130, R180: a source that names a stream register bound in takes its next element, extended, and two sources of one register take two;
after its last element the stream reads 0; with no element the context parks and nothing has performed; the last element taken
completes the stream's token, unless its entry has gone to another command. Said of the integer instructions of `arith`. -/
def Sys2Proof.Claims.StreamSources : Prop :=
  ∀ (s : State) (h : Hdr) (ty : IntTy) (d b : Reg) (k : Nat) (t : Stream), Ready s h → Target s d → Plain s b → k < 4 →
    tget s.me.streams k = some t → t.out = false → t.fault = none → 1 ≤ t.esz → t.esz ≤ 8 →
    (∀ v r, t.fifo = v :: r → t.taken + 1 < t.total →
      ∀ iv ∈ arith h ty d (streamReg k) b (extended t v) (s.me.reg b),
        exec iv.1 s = .next (done s (taken (put s.me d iv.2) k t r))) ∧
    (∀ v w r, t.fifo = v :: w :: r → t.taken + 2 < t.total →
      ∀ iv ∈ arith h ty d (streamReg k) (streamReg k) (extended t v) (extended t w),
        exec iv.1 s = .next (done s (taken (put s.me d iv.2) k { t with taken := t.taken + 1 } r))) ∧
    (∀ v r, t.fifo = v :: r → t.taken + 1 = t.total → ((s.cluster (ctxCl s.cur)).tok 1 t.tok).gen = t.gen →
      ∀ iv ∈ arith h ty d (streamReg k) b (extended t v) (s.me.reg b), ∃ u, exec iv.1 s = .next u ∧
        u.me = { taken (put s.me d iv.2) k t r with pc := s.me.pc + 8, icount := s.me.icount + 1, missAns := none } ∧
        ((u.cluster (ctxCl s.cur)).tok 1 t.tok).st = .done ∧ ((u.cluster (ctxCl s.cur)).tok 1 t.tok).count = t.total) ∧
    (t.taken = t.total → ∀ iv ∈ arith h ty d (streamReg k) b 0 (s.me.reg b), exec iv.1 s = .next (done s (put s.me d iv.2))) ∧
    (t.taken < t.total → t.fifo = [] → ∀ iv ∈ arith h ty d (streamReg k) b 0 0, exec iv.1 s = .next (parkedHere s))

/-- R130, R180: a destination that names a stream register bound out pushes the low ESZ bytes of the result; past the last element the write
is discarded; while the FIFO is full the context parks. A stream register that is unbound, or bound the other way, raises
ILLEGAL_ENC as a source and as a destination. -/
def Sys2Proof.Claims.StreamDestinations : Prop :=
  ∀ (s : State) (h : Hdr) (ty : IntTy) (d a b : Reg) (k : Nat), Ready s h → Target s d → Plain s a → Plain s b → k < 4 →
    (∀ t, tget s.me.streams k = some t → t.fault = none → t.out = true →
      (t.taken < t.total → t.fifo.length < 16 → ∀ iv ∈ arith h ty (streamReg k) a b (s.me.reg a) (s.me.reg b),
        exec iv.1 s = .next (done s (taken s.me k t (t.fifo ++ [BitVec.ofNat 64 (iv.2.toNat % 2 ^ (8 * t.esz))])))) ∧
      (t.total ≤ t.taken → ∀ iv ∈ arith h ty (streamReg k) a b 0 0, exec iv.1 s = .next (done s s.me)) ∧
      (t.taken < t.total → 16 ≤ t.fifo.length → ∀ iv ∈ arith h ty (streamReg k) a b 0 0, exec iv.1 s = .next (parkedHere s)) ∧
      (∀ iv ∈ arith h ty d (streamReg k) b 0 0, exec iv.1 s = .next (takeFault s { code := cIllegalEnc }))) ∧
    (∀ t, tget s.me.streams k = some t → t.fault = none → t.out = false →
      ∀ iv ∈ arith h ty (streamReg k) a b 0 0, exec iv.1 s = .next (takeFault s { code := cIllegalEnc })) ∧
    (tget s.me.streams k = none →
      (∀ iv ∈ arith h ty (streamReg k) a b 0 0, exec iv.1 s = .next (takeFault s { code := cIllegalEnc })) ∧
      (∀ iv ∈ arith h ty d (streamReg k) b 0 0, exec iv.1 s = .next (takeFault s { code := cIllegalEnc })))

/-- R310: a source x60 pops the head message of the bound ring, its first 8 bytes the value, and frees its slot, with a
grant, counted in SENT (R347), where messages and allowance then fall short of 16; it parks while the ring is
empty and raises ILLEGAL_ENC unbound. A destination x61 sends the 8 bytes of the result, ALLOW falling and BUF rising by one;
it parks while ALLOW is 0 or BUF is 8, and raises ILLEGAL_ENC unbound. That with an endpoint of another module both park while a posted
request of the context is not acknowledged is assumption 75's reading of R294; R310 itself names only ALLOW and BUF. Said of the integer instructions of `arith`. -/
def Sys2Proof.Claims.QueueRegisters : Prop :=
  ∀ (s : State) (h : Hdr) (ty : IntTy) (d a b : Reg), Ready s h → Target s d → Plain s a → Plain s b →
    let posts := ∃ o ∈ s.me.outst, o.posted.isSome = true
    (s.me.upq = none → ∀ iv ∈ arith h ty d 60 b 0 0, exec iv.1 s = .next (takeFault s { code := cIllegalEnc })) ∧
    (s.me.downq = none → ∀ iv ∈ arith h ty 61 a b 0 0, exec iv.1 s = .next (takeFault s { code := cIllegalEnc })) ∧
    (∀ ep, s.me.upq = some ep → (s.myCore.rxEp ep).occ = 0 →
      ∀ iv ∈ arith h ty d 60 b 0 0, exec iv.1 s = .next (parkedHere s)) ∧
    (∀ ep, s.me.upq = some ep → epDev (s.myCore.rxEp ep).peer ≠ fabDev → posts →
      ∀ iv ∈ arith h ty d 60 b 0 0, exec iv.1 s = .next (parkedHere s)) ∧
    (∀ ep, s.me.upq = some ep → 0 < (s.myCore.rxEp ep).occ → epDev (s.myCore.rxEp ep).peer = fabDev ∨ ¬posts →
      (s.cluster (ctxCl s.cur)).saving = none →
      ∀ iv ∈ arith h ty d 60 b (BitVec.ofNat 64 (leNat ((headMsg s (ctxCore s.cur) (s.myCore.rxEp ep)).2.take 8))) (s.me.reg b),
        let grants := (s.myCore.rxEp ep).occ - 1 + (s.myCore.rxEp ep).granted < 16
        ∃ u, exec iv.1 s = .next u ∧ u.me = { put s.me d iv.2 with
              pc := s.me.pc + 8, icount := s.me.icount + 1, missAns := none, sent := s.me.sent + if grants then 1 else 0 } ∧
          (u.myCore.rxEp ep).occ = (s.myCore.rxEp ep).occ - 1 ∧
          (u.myCore.rxEp ep).headIx = ((s.myCore.rxEp ep).headIx + 1) % (s.myCore.rxEp ep).nslot ∧ u.mem = s.mem) ∧
    (∀ ep, s.me.downq = some ep → (s.myCore.txEp ep).isOpen = true → (s.myCore.txEp ep).broken = false →
      let away := epDev (s.myCore.txEp ep).peer ≠ fabDev ∧ posts
      ((s.myCore.txEp ep).allow = 0 ∨ 8 ≤ (s.myCore.txEp ep).buf ∨ away → ∀ iv ∈ arith h ty 61 a b 0 0, exec iv.1 s = .next (parkedHere s)) ∧
      (0 < (s.myCore.txEp ep).allow → (s.myCore.txEp ep).buf < 8 → ¬away → ∀ iv ∈ arith h ty 61 a b (s.me.reg a) (s.me.reg b),
        ∃ u, exec iv.1 s = .next u ∧
          (u.myCore.txEp ep).allow = (s.myCore.txEp ep).allow - 1 ∧ (u.myCore.txEp ep).buf = (s.myCore.txEp ep).buf + 1 ∧
          u.me = { s.me with pc := s.me.pc + 8, icount := s.me.icount + 1, missAns := none, sent := s.me.sent + 1 } ∧ u.mem = s.mem))

/-- R130, R180, R310: stream and queue registers as sources and as destinations (the waits for posted requests by assumption 75). -/
def Obligations.StreamAndQueueOperandsTakeAndPush : Prop := Claims.StreamSources ∧ Claims.StreamDestinations ∧ Claims.QueueRegisters

namespace Sys2Proof.Claims

/-! ### Memory accesses -/

/-- Effective address of the M form (R36). -/
def ea (s : State) (m : MAddr) (size : Nat) : Nat :=
  (s.me.reg m.a + s.me.reg m.b + BitVec.ofNat 64 size * m.off.signExtend 64).toNat

/-- Bytes of an access size (R36). -/
def bytes : MSize → Nat
  | .b1 => 1
  | .b2 => 2
  | .b4 => 4
  | .b8 => 8
  | .b16 => 16

/-- A loaded value of `n` bytes extended to a register (R164). -/
def widen (sx : Bool) (n v : Nat) : Word := if sx then (BitVec.ofNat (8 * n) v).signExtend 64 else BitVec.ofNat 64 v

/-- A plain place of the module: its bytes are bytes of `mem`, no window decodes them. -/
def PlainLoc : Loc → Prop
  | .phys _ | .ls _ _ => True
  | .sp _ w _ => w = 0
  | .glob _ _ | .host _ => False

/-- The issuing context works on undisturbed: nothing is being logged or replayed and no save is in progress. -/
structure Undisturbed (s : State) : Prop where
  noLog : s.myCore.mlogStart = none
  noReplay : s.myCore.replaying = false
  noSave : (s.cluster (ctxCl s.cur)).saving = none

/-- What a load leaves of the issuing context: the register, or the pair of a .b128 access, written. -/
def loaded (x : Ctx) (sz : MSize) (sx : Bool) (d : Reg) (v : Nat) : Ctx :=
  if sz = .b16 then put (put x d (BitVec.ofNat 64 v)) (d + 1) (BitVec.ofNat 64 (v / 2 ^ 64)) else put x d (widen sx (bytes sz) v)

/-- What an ST stores: the low bytes of x[D], or the pair. -/
def stored (s : State) (sz : MSize) (d : Reg) : Nat :=
  if sz = .b16 then (s.me.reg d).toNat + 2 ^ 64 * (s.me.reg (d + 1)).toNat else (s.me.reg d).toNat % 2 ^ (8 * bytes sz)

/-- A context that has made one request of the world outside its core, and one that has had an answer (R347). -/
def asked (x : Ctx) : Ctx := { x with sent := x.sent + 1 }
def answered (x : Ctx) : Ctx := { x with sent := x.sent + 1, recv := x.recv + 1 }

/-- A context that has a further access outstanding, its counter raised (R128). -/
def waiting (x : Ctx) (sc : Option (Fin 4)) (o : Outst) : Ctx :=
  { x with outst := x.outst ++ [o], dc := match sc with
    | some n => x.dc.set n (x.dc[n] + 1)
    | none => x.dc }

/-- Has the issuing context a posted request that is not acknowledged (R163)? A release at system scope waits for it (R290). -/
def Posting (s : State) : Prop := ∃ o ∈ s.me.outst, o.posted.isSome = true

/-- A context that has retired at the next pc. -/
def retired (x : Ctx) : Ctx := { x with pc := x.pc + 8, icount := x.icount + 1, missAns := none }

/-- The new value of an AMO (R165) at width w; FADD is FP32. -/
def amoValue (k : AmoKind) {w : Nat} (m b : BitVec w) : BitVec w :=
  match k with
  | .swap => b
  | .add => m + b
  | .and => m &&& b
  | .or => m ||| b
  | .xor => m ^^^ b
  | .min => if b.slt m then b else m
  | .max => if m.slt b then b else m
  | .minu => if b.ult m then b else m
  | .maxu => if m.ult b then b else m
  | .fadd => BitVec.ofNat w (fp32.add .rne m.toNat b.toNat)

/-- Width of an integer type, in bytes. -/
def tyBytes : IntTy → Nat
  | .i64 => 8
  | .i32 => 4

/-- The old value of an AMO or CAS as x[D] receives it (R165). -/
def oldValue (fadd : Bool) (ty : IntTy) (m : Nat) : Word :=
  match ty with
  | .i64 => BitVec.ofNat 64 m
  | .i32 => if fadd then BitVec.ofNat 64 m else (BitVec.ofNat 32 m).signExtend 64

/-- The new value at the width of TY, from the old value and the operand register. -/
def newValue (k : AmoKind) (ty : IntTy) (m : Nat) (b : Word) : Nat :=
  match ty with
  | .i64 => (amoValue k (BitVec.ofNat 64 m) b).toNat
  | .i32 => (amoValue k (BitVec.ofNat 32 m) (lo b)).toNat

/-- The low bits of a register at the width of TY. -/
def lowTy (ty : IntTy) (v : Word) : Nat := v.toNat % 2 ^ (8 * tyBytes ty)

/-! ### Translation -/

/-- A TLB entry matches an address under an address space (R189). -/
def Hits (e : TlbEntry) (asid va : Nat) : Bool := (e.gl || e.asid == asid) && va / 2 ^ e.lg == e.page / 2 ^ e.lg

/-- The entries of the issuing context's core, and of its cluster's second level, that match an access (R189). -/
def matching (s : State) (k : AKind) (va : Nat) : List TlbEntry :=
  let c := s.myCore
  ((if k = .fetch then c.itlb else c.dtlb) ++ (s.cluster (ctxCl s.cur)).l2tlb).filter fun e => Hits e (c.atp.toNat / 2 ^ 48) va

/-- Does the entry permit the access (R190)? -/
def permits (e : TlbEntry) (sys : Bool) (k : AKind) : Bool :=
  (sys || e.u) && match k with
    | .read => e.r
    | .write => e.w
    | .amo => e.r && e.w
    | .fetch => e.x

/-- Where a matching entry leads (R152, R190, R343). -/
def entryLeads (s : State) (e : TlbEntry) (k : AKind) (va : Nat) : Xl :=
  let pa := e.frame / 2 ^ e.lg * 2 ^ e.lg + va % 2 ^ e.lg
  if permits e s.me.sys k = false then .flt cProt
  else if (k = .write ∨ k = .amo) ∧ e.d = false then .miss 3
  else if ¬(pa < 2 ^ 39 ∨ 2 ^ 43 ≤ pa ∧ pa < 2 ^ 43 + 2 ^ 41) then .flt cProt
  else if s.dieGone (homeDie pa) then .flt cDieLost
  else .ok (.phys pa)

/-! ### Scratchpad windows 1 to 5 (R57 to R59) -/

/-- Storage bits of an element of a window or, with 6 for FP32, of a copy format (R170), and the bit of the scratchpad at which element `i` from offset `o` on begins (R56, R57). -/
def elemBits (w : Nat) : Nat := if w = 3 then 6 else if w = 4 then 8 else if w = 5 then 4 else if w = 6 then 32 else 16
def elemAt (w o i : Nat) : Nat := if w = 3 then 6 * (16 * (o / 12) + 4 * (o % 12) / 3 + i) else 8 * o + elemBits w * i

/-- Does offset `o` name the start of an element? -/
def startsElem (w o : Nat) : Bool := if w = 3 then o % 12 % 3 == 0 else if w ≤ 2 then o % 2 == 0 else true

/-- Bit `b` of the scratchpad of cluster `cl`, and the code of an element. -/
def spBit (m : List Host.Cell) (cl b : Nat) : Bool := (memGet m (locSp cl (b / 8))).getLsbD (b % 8)
def HasCode (m : List Host.Cell) (cl w o i c : Nat) : Prop :=
  c < 2 ^ elemBits w ∧ ∀ j, j < elemBits w → spBit m cl (elemAt w o i + j) = c.testBit j

/-- The float type of windows 1 and 2. -/
def winTy (w : Nat) : FloatTy := if w = 1 then .bf16 else .f16

/-- A pattern of type `ty` is the number `q`, or, with `q` zero, the zero of sign `n`. -/
def IsNum (ty : FloatTy) (r : Nat) (n : Bool) (q : ℚ) : Prop :=
  r < 2 ^ fw ty ∧ isFin ty (BitVec.ofNat 64 r) = true ∧ ratOf ty (BitVec.ofNat 64 r) = q ∧ neg ty (BitVec.ofNat 64 r) = n

/-- FP32 pattern `r` is what code `c` decodes to (R58, R53); FP32 is read unchanged (R171). -/
def Decodes (w c r : Nat) : Prop :=
  let v := BitVec.ofNat 64 c
  if w = 6 then r = c
  else if w ≤ 2 then
    (isNaN (winTy w) v = true → r = 0x7FC00000) ∧
    (isInf (winTy w) v = true → r = signBit .f32 (neg (winTy w) v) + 0x7F800000) ∧
    (isFin (winTy w) v = true → IsNum .f32 r (neg (winTy w) v) (ratOf (winTy w) v))
  else if w = 3 then
    if c % 32 = 0 then r = signBit .f32 (decide (32 ≤ c))
    else ∃ m, Rounds .f32 .rne 4 (2 ^ ((c % 32 : Nat) - 16 : Int)) m ∧ r = signBit .f32 (decide (32 ≤ c)) + m
  else
    let k := (BitVec.ofNat (elemBits w) c).toInt
    IsNum .f32 r (decide (k < 0)) k

/-- Code `c` is what FP32 pattern `x` encodes to, with RNE (R59, R52, R51, R54); FP32 is written unchanged (R171). -/
def Encodes (w x c : Nat) : Prop :=
  let v := BitVec.ofNat 64 x
  if w = 6 then c = x
  else if w ≤ 2 then
    (isNaN .f32 v = true → c = nanPat (winTy w)) ∧
    (isInf .f32 v = true → c = signBit (winTy w) (neg .f32 v) + infPat (winTy w)) ∧
    (isZero .f32 v = true → c = signBit (winTy w) (neg .f32 v)) ∧
    (isFin .f32 v = true → !isZero .f32 v → Rounds (winTy w) .rne 1 (ratOf .f32 v) c)
  else if w = 3 then
    (isNaN .f32 v = true → c = 0) ∧
    (isNaN .f32 v = false → ∃ (z : Nat) (mid : Nat → Nat), Rounds .f32 .rne 4 (2 ^ (-19 : Int)) z ∧
      (∀ j : Nat, 1 ≤ j → j ≤ 30 → Rounds .f32 .rne 8 (2 ^ (2 * ((j : Int) - 16) + 1)) (mid j)) ∧
      c = (if neg .f32 v then 32 else 0) +
        if mag .f32 v < z then 0 else 1 + ((List.range 31).filter fun j => decide (1 ≤ j) && decide (mid j ≤ mag .f32 v)).length)
  else
    let top : Int := 2 ^ (elemBits w - 1) - 1
    let k : Int := if isNaN .f32 v then 0 else if isInf .f32 v then (if neg .f32 v then -top - 1 else top)
      else max (-top - 1) (min top (toInt .rne (ratOf .f32 v)))
    c = (BitVec.ofInt (elemBits w) k).toNat

end Sys2Proof.Claims

/-- R15, R17, R152, R153, R156, R160, R185, R189, R190: where an address leads an access of size 1 to 16 of the issuing context: the
checks in their order, the local store, the scratchpad of the own cluster by its plain window, the die aperture, global addresses, and,
with translation off, physical memory, which system mode alone reaches. With translation on, an address outside these windows misses where
no entry of the core's TLB and of the second level matches, a read with kind 0, a write with 1, a fetch with 2; else one of the matching
entries is used: it lacks a permission and faults PAGE_PROT, or the page is not dirty and a write misses with kind 3, or it leads to its
frame. Said where no answer of the walker waits for a retry and no save of the cluster runs. -/
def Sys2Proof.Claims.PlainAddresses : Prop :=
  ∀ (s : State) (va size : Nat) (k : AKind), size ∈ [1, 2, 4, 8, 16] → ctxSlot s.cur ≠ 15 →
    s.me.missAns = none → (s.cluster (ctxCl s.cur)).saving = none →
    let is := fun (r : Xl) => resolveCtx s va size false k = (r, s)
    let o := va % 2 ^ 32
    (2 ^ 57 ≤ va → is (.flt cProt)) ∧
    (2 ^ 56 ≤ va → va < 2 ^ 57 → is (if va % size = 0 then .ok (.glob (va / 2 ^ 44 % 2 ^ 12) (va % 2 ^ 44)) else .flt cAlign)) ∧
    (va / 2 ^ 32 = 0xFE → is (if o % size ≠ 0 then .flt cAlign
      else if o + size ≤ s.myCore.lsplit * 2 ^ 15 then .ok (.ls (ctxCore s.cur) o) else .flt cProt)) ∧
    (va / 2 ^ 32 = 0xFF → o < 2 ^ 25 → is (if o % size ≠ 0 then .flt cAlign
      else if 2 ^ 23 < o + size then .flt cProt
      else if (k = .write ∨ k = .amo) ∧ sealedAt s (ctxCl s.cur) o size then .flt cTileState
      else .ok (.sp (ctxCl s.cur) 0 o))) ∧
    (0xC0 ≤ va / 2 ^ 32 → va / 2 ^ 32 ≤ 0xDF → o < 2 ^ 25 → o % size = 0 → o + size ≤ 2 ^ 23 →
      let t := ctxDie s.cur * 32 + (va / 2 ^ 32 - 0xC0)
      t ≠ ctxCl s.cur → (s.cluster t).ready = true → sealedAt s t o size = false → is (.ok (.sp t 0 o))) ∧
    (va < 2 ^ 56 → va / 2 ^ 32 ≠ 0xFE → va / 2 ^ 32 ≠ 0xFF → ¬(0xC0 ≤ va / 2 ^ 32 ∧ va / 2 ^ 32 ≤ 0xDF) →
      (bit s.myCore.atp.toNat 0 = true →
        (va % size ≠ 0 → is (.flt cAlign)) ∧
        (va % size = 0 → matching s k va = [] → is (.miss (if k = .fetch then 2 else if k = .read then 0 else 1))) ∧
        (va % size = 0 → ∀ e, matching s k va = [e] → is (entryLeads s e k va)) ∧
        (va % size = 0 → matching s k va ≠ [] → ∃ e ∈ matching s k va, ∃ t, resolveCtx s va size false k = (entryLeads s e k va, t) ∧
          t.me = s.me ∧ t.mem = s.mem ∧ t.cores = s.cores)) ∧
      (bit s.myCore.atp.toNat 0 = false → is (if va % size ≠ 0 then .flt cAlign
        else if s.me.sys = false then .flt cProt
        else if ¬(va % 2 ^ 48 < 2 ^ 39 ∨ (2 ^ 43 ≤ va % 2 ^ 48 ∧ va % 2 ^ 48 < 2 ^ 43 + 2 ^ 41)) then .flt cProt
        else if s.dieGone (homeDie (va % 2 ^ 48)) then .flt cDieLost
        else .ok (.phys (va % 2 ^ 48)))))

/-- R17, R57, R58, R59: the decoding windows of the own scratchpad. A load without sign extension of 4, 8 or 16 bytes from the start of an
element writes the FP32 patterns of the consecutive elements; a store writes their codes, rounded to nearest, and no other bit of memory.
Another size, a sign-extending load, or an offset within an element faults ALIGN, and an element beyond the first 8 MiB PAGE_PROT. -/
def Sys2Proof.Claims.Windows : Prop :=
  ∀ (s : State) (h : Hdr) (sz : MSize) (sx acq rel : Bool) (sco : Scope) (d : Reg) (m : MAddr) (w o : Nat),
    ReadyMem s h → Plain s m.a → Plain s m.b → Undisturbed s → ea s m (bytes sz) = 0xFF * 2 ^ 32 + w * 2 ^ 25 + o → 1 ≤ w → w ≤ 5 →
    o < 2 ^ 25 → s.ecc = [] → Memory.wf s.mem = true → (∀ i n, sealedAt s (ctxCl s.cur) i n = false) →
    let n := bytes sz / 4
    let cl := ctxCl s.cur
    let ld := Instr.ld h sz sx acq sco d m
    let st := Instr.st h sz rel sco d m
    let legal := n ≠ 0 ∧ startsElem w o = true
    let inside := (elemAt w o (n - 1) + elemBits w + 7) / 8 ≤ 2 ^ 23
    let faults := fun (i : Instr) (code : Nat) => exec i s = .next (takeFault s { code := code, addr := ea s m (bytes sz) })
    let field := fun (v i : Nat) => v / 2 ^ (32 * i) % 2 ^ 32
    (ld.wf = true → Target s d → (sz = .b16 → Target s (d + 1)) →
      (sx = true ∨ ¬legal → faults ld cAlign) ∧
      (sx = false → legal → ¬inside → faults ld cProt) ∧
      (sx = false → legal → inside → ∃ v, v < 2 ^ (32 * n) ∧ exec ld s = .next (done s (loaded (answered s.me) sz false d v)) ∧
        ∀ i c, i < n → HasCode s.mem cl w o i c → Decodes w c (field v i))) ∧
    (st.wf = true → Plain s d → (sz = .b16 → Plain s (d + 1)) → ¬(rel = true ∧ sco = .sys ∧ Posting s) →
      (¬legal → faults st cAlign) ∧
      (legal → ¬inside → faults st cProt) ∧
      (legal → inside → ∃ mem', exec st s = .next (done (s.setMem mem') (asked s.me)) ∧
        (∀ i, i < n → ∃ c, HasCode mem' cl w o i c ∧ Encodes w (field (stored s sz d) i) c) ∧
        (∀ a, a < locSp cl 0 ∨ locSp cl (2 ^ 23) ≤ a → memGet mem' a = memGet s.mem a) ∧
        (∀ b, b < 2 ^ 26 → b < elemAt w o 0 ∨ elemAt w o 0 + n * elemBits w ≤ b → spBit mem' cl b = spBit s.mem cl b)))

/-- R16, R17, R55 to R59, R152, R160, R185 to R190, R200: where an address leads, translated or not, and what the scratchpad's decoding windows read and write. -/
def Obligations.AddressesLeadWhereTheMapSays : Prop := Claims.PlainAddresses ∧ Claims.Windows

/-- R164: a load from the own local store writes its register, zero- or sign-extended, or the pair, and changes nothing else; a load on the
other paths that do not park, with no counter, does so too and counts one request and one answer. -/
def Sys2Proof.Claims.LoadAtOnce : Prop :=
  ∀ (s : State) (h : Hdr) (sz : MSize) (sx acq : Bool) (sco : Scope) (d : Reg) (m : MAddr) (l : Loc),
    ReadyMem s h → Target s d → (sz = .b16 → Target s (d + 1)) → (Instr.ld h sz sx acq sco d m).wf = true → Plain s m.a → Plain s m.b → Undisturbed s →
    resolveCtx s (ea s m (bytes sz)) (bytes sz) sx .read = (.ok l, s) → PlainLoc l → locEcc s l (bytes sz) = false →
    let v := memRead s.mem l.num (bytes sz)
    ((∃ q o, l = .ls q o) → exec (.ld h sz sx acq sco d m) s = .next (done s (loaded s.me sz sx d v))) ∧
    ((∀ q o, l ≠ .ls q o) → pathOf (ctxCore s.cur) l = .near ∨ (pathOf (ctxCore s.cur) l = .onDie ∧ h.sc = none) →
      exec (.ld h sz sx acq sco d m) s = .next (done s (loaded (answered s.me) sz sx d v)))

/-- R161, R163, R164: a counted load on a variable path of the die raises its counter and goes on; what it read is written when the step that
is due for it completes the access. A load homed on another die parks the context at the instruction until its reply, or hits in the L1 and
writes its register at once (R151, R163). -/
def Sys2Proof.Claims.LoadLater : Prop :=
  ∀ (s : State) (h : Hdr) (sz : MSize) (sx acq : Bool) (sco : Scope) (d : Reg) (m : MAddr) (l : Loc),
    ReadyMem s h → Target s d → sz ≠ .b16 → plainDst d = true → Plain s m.a → Plain s m.b → Undisturbed s →
    resolveCtx s (ea s m (bytes sz)) (bytes sz) sx .read = (.ok l, s) → PlainLoc l → locEcc s l (bytes sz) = false →
    let v := widen sx (bytes sz) (memRead s.mem l.num (bytes sz))
    (∀ n, h.sc = some n → pathOf (ctxCore s.cur) l = .onDie → ∃ (o : Outst) (due : Nat) (t : State),
      exec (.ld h sz sx acq sco d m) s = .next t ∧ t.me = retired (waiting (asked s.me) h.sc o) ∧ o.writes = [(d.toNat, v)] ∧
      o.ctr = some n ∧ o.acq = acq ∧ o.flt = none ∧ s.now < due ∧
      t.events = s.events ++ [(due, .countedAccessComplete s.cur o.tag)] ∧ t.mem = s.mem) ∧
    (pathOf (ctxCore s.cur) l = .offDie → ∃ t, exec (.ld h sz sx acq sco d m) s = .next t ∧ t.mem = s.mem ∧
      ((t.me = retired (put (answered s.me) d v) ∧ t.events = s.events) ∨
        ∃ (o : Outst) (due : Nat), t.me = { waiting (asked s.me) h.sc o with st := .parked (.reply o.tag) } ∧
          o.writes = [(d.toNat, v)] ∧ o.ctr = h.sc ∧ s.now < due ∧ t.events = s.events ++ [(due, .remoteReply s.cur o.tag 0 0 clearAuth)]))

/-- R162 to R164: loads, answered at once or later. -/
def Obligations.LoadsWriteTheirRegister : Prop := Claims.LoadAtOnce ∧ Claims.LoadLater

/-- R164, R163: a store writes the low bytes of x[D], or the pair, at its place: at once on the near paths and on the die; off the die as a
posted request that takes the core's next sequence number. Every byte outside the place keeps its value. That a release at system scope
is held at its issue while a posted request of the context is not acknowledged is assumption 75's reading of R290; R162 gives a store no such
hold. Said of the places of the module. -/
def Obligations.StoresWriteTheirBytesOnly : Prop :=
  ∀ (s : State) (h : Hdr) (sz : MSize) (rel : Bool) (sco : Scope) (d : Reg) (m : MAddr) (l : Loc),
    ReadyMem s h → (Instr.st h sz rel sco d m).wf = true → Plain s d → (sz = .b16 → Plain s (d + 1)) → Plain s m.a → Plain s m.b → Undisturbed s →
    resolveCtx s (ea s m (bytes sz)) (bytes sz) false .write = (.ok l, s) → PlainLoc l →
    let i := Instr.st h sz rel sco d m
    let mem' := memWrite s.mem l.num (bytes sz) (stored s sz d)
    let waits := rel = true ∧ sco = .sys ∧ Posting s
    (waits → exec i s = .next s) ∧
    (¬waits → (∃ q o, l = .ls q o) → exec i s = .next (done (s.setMem mem') s.me)) ∧
    (¬waits → (∀ q o, l ≠ .ls q o) → pathOf (ctxCore s.cur) l = .near ∨ (pathOf (ctxCore s.cur) l = .onDie ∧ h.sc = none) →
      exec i s = .next (done (s.setMem mem') (asked s.me))) ∧
    (∀ n, ¬waits → h.sc = some n → pathOf (ctxCore s.cur) l = .onDie → ∃ (o : Outst) (due : Nat) (t : State),
      exec i s = .next t ∧ t.mem = mem' ∧ t.me = retired (waiting (asked s.me) h.sc o) ∧
      o.writes = [] ∧ o.ctr = some n ∧ s.now < due ∧ t.events = s.events ++ [(due, .countedAccessComplete s.cur o.tag)]) ∧
    (¬waits → pathOf (ctxCore s.cur) l = .offDie → s.myCore.outst < 64 → ∃ (o : Outst) (due : Nat) (t : State),
      exec i s = .next t ∧ t.mem = mem' ∧ t.me = retired (waiting (asked s.me) h.sc o) ∧
      o.ctr = h.sc ∧ o.posted = some s.myCore.nseq ∧ s.now < due ∧
      t.myCore = { s.myCore with nseq := (s.myCore.nseq + 1) % 2 ^ 16, outst := s.myCore.outst + 1 } ∧
      t.events = s.events ++ [(due, .postedAck s.cur ⟨o.tag, clearAuth⟩)]) ∧
    (pathOf (ctxCore s.cur) l = .offDie → 64 ≤ s.myCore.outst → exec i s = .next s) ∧
    (∀ a, a < l.num ∨ l.num + bytes sz ≤ a → memGet mem' a = memGet s.mem a)

/-- R165, R166: AMO writes the new value of its kind and CAS the value of x[C] where the word equals x[B]; x[D] receives the old word, sign-extended
at 32 bits but for FADD. Said of the own local store and of the paths that do not park, with no counter. That a release at system scope is
held at its issue while a posted request of the context is not acknowledged is assumption 75's reading of R290. -/
def Obligations.AtomicsExchangeAndAnswerTheOldWord : Prop :=
  ∀ (s : State) (h : Hdr) (k : AmoKind) (ty : IntTy) (ord : MOrd) (sco : Scope) (cmb : Bool) (d a b c : Reg) (l : Loc),
    ReadyMem s h → Target s d → (Instr.amo h k ty ord sco cmb d a b).wf = true → Plain s a → Plain s b → Plain s c → Undisturbed s →
    resolveCtx s (s.me.reg a).toNat (tyBytes ty) false .amo = (.ok l, s) → PlainLoc l → locEcc s l (tyBytes ty) = false →
    let v := memRead s.mem l.num (tyBytes ty)
    let amoMem := memWrite s.mem l.num (tyBytes ty) (newValue k ty v (s.me.reg b))
    let casMem := if v = lowTy ty (s.me.reg b) then memWrite s.mem l.num (tyBytes ty) (lowTy ty (s.me.reg c)) else s.mem
    let waits := (ord = .rel ∨ ord = .ar) ∧ sco = .sys ∧ Posting s
    (waits → exec (.amo h k ty ord sco cmb d a b) s = .next s ∧ exec (.cas h ty ord sco d a b c) s = .next s) ∧
    (¬waits → (∃ q o, l = .ls q o) →
      exec (.amo h k ty ord sco cmb d a b) s = .next (done (s.setMem amoMem) (put s.me d (oldValue (k == .fadd) ty v))) ∧
      exec (.cas h ty ord sco d a b c) s = .next (done (s.setMem casMem) (put s.me d (oldValue false ty v)))) ∧
    (¬waits → (∀ q o, l ≠ .ls q o) → pathOf (ctxCore s.cur) l = .near ∨ (pathOf (ctxCore s.cur) l = .onDie ∧ h.sc = none) →
      exec (.amo h k ty ord sco cmb d a b) s = .next (done (s.setMem amoMem) (put (answered s.me) d (oldValue (k == .fadd) ty v))) ∧
      exec (.cas h ty ord sco d a b c) s = .next (done (s.setMem casMem) (put (answered s.me) d (oldValue false ty v))))

/-- R160, R190: an access whose address faults performs nothing and raises that fault with the address as ADDR; one that meets no translation
posts its miss to the walker and parks the context at the instruction, unless a save of the cluster holds it: then it is held (R351). Nothing but the
look at the translation stays. -/
def Obligations.FaultingAccessPerformsNothing : Prop :=
  ∀ (s s' : State) (h : Hdr) (sz : MSize) (sx acq rel cmb : Bool) (k : AmoKind) (ty : IntTy) (ord : MOrd) (sco : Scope) (d a b c : Reg) (m : MAddr),
    ReadyMem s h → Plain s a → Plain s b → Plain s c → Plain s m.a → Plain s m.b →
    let va := ea s m (bytes sz)
    let missed := fun (va kind : Nat) => let t := postMiss s' s'.who va kind
      (Host.Outcome.next (if kind = holdKind then s' else t.setMe { t.me with st := .parked .miss, missAns := none }) :
        Host.Outcome State Fault Refusal)
    (∀ e, resolveCtx s va (bytes sz) sx .read = (.flt e, s') → Target s d →
      exec (.ld h sz sx acq sco d m) s = .next (takeFault s' { code := e, addr := va })) ∧
    (∀ q, resolveCtx s va (bytes sz) sx .read = (.miss q, s') → Target s d → exec (.ld h sz sx acq sco d m) s = missed va q) ∧
    (∀ e, resolveCtx s va (bytes sz) false .write = (.flt e, s') → Plain s d → (sz = .b16 → Plain s (d + 1)) →
      exec (.st h sz rel sco d m) s = .next (takeFault s' { code := e, addr := va })) ∧
    (∀ q, resolveCtx s va (bytes sz) false .write = (.miss q, s') → Plain s d → (sz = .b16 → Plain s (d + 1)) →
      exec (.st h sz rel sco d m) s = missed va q) ∧
    (∀ e, resolveCtx s (s.me.reg a).toNat (tyBytes ty) false .amo = (.flt e, s') → Target s d →
      exec (.amo h k ty ord sco cmb d a b) s = .next (takeFault s' { code := e, addr := (s.me.reg a).toNat }) ∧
      exec (.cas h ty ord sco d a b c) s = .next (takeFault s' { code := e, addr := (s.me.reg a).toNat })) ∧
    (∀ q, resolveCtx s (s.me.reg a).toNat (tyBytes ty) false .amo = (.miss q, s') → Target s d →
      exec (.amo h k ty ord sco cmb d a b) s = missed (s.me.reg a).toNat q ∧
      exec (.cas h ty ord sco d a b c) s = missed (s.me.reg a).toNat q)

/-- R167, R168, R169: a FENCE holds while an earlier access of the kind its ORD names is outstanding, a posted request at system scope alone (a
posted store of the module has performed, assumption 17), and then only goes on; PREF only goes on, a counted one too, every prefetch being
dropped (assumption 23); CLEAN and INVAL of memory count as a request and go on, a counted one with its access outstanding until the step that
completes it, and of an aperture or a global address perform nothing. No byte of memory and no register changes: no cache holds a value of its
own (assumption 23). -/
def Obligations.FencesHoldAndLineHintsGoOn : Prop :=
  ∀ (s : State) (h : Hdr) (ord : MOrd) (sco : Scope) (mm : Bool) (m : MAddr), ReadyMem s h → Plain s m.a → Plain s m.b →
    let waits := sco ≠ .cor ∧ (((ord = .acq ∨ ord = .ar) ∧ ∃ o ∈ s.me.outst, o.load = true) ∨
      ((ord = .rel ∨ ord = .ar) ∧ ∃ o ∈ s.me.outst, o.posted = none ∨ sco = .sys))
    (h.sc = none → waits → exec (.fence h ord sco) s = .next s) ∧
    (h.sc = none → ¬waits → exec (.fence h ord sco) s = .next (done s s.me)) ∧
    exec (.pref h mm m) s = .next (done s s.me) ∧
    (∀ l, resolveCtx s (ea s m 1) 1 false .read = (.ok l, s) →
      ((∀ a, l ≠ .phys a) → exec (.clean h mm m) s = .next (done s s.me) ∧ exec (.inval h mm m) s = .next (done s s.me)) ∧
      (∀ a, l = .phys a → h.sc = none →
        exec (.clean h mm m) s = .next (done s (asked s.me)) ∧ exec (.inval h mm m) s = .next (done s (asked s.me))) ∧
      (∀ n a, h.sc = some n → l = .phys a → ∀ i ∈ [Instr.clean h mm m, Instr.inval h mm m], ∃ (o : Outst) (due : Nat) (t : State),
        exec i s = .next t ∧ t.mem = s.mem ∧ o.writes = [] ∧ o.ctr = some n ∧
        t.me = retired (waiting (asked s.me) h.sc o) ∧ s.now < due ∧ t.events = s.events ++ [(due, .countedAccessComplete s.cur o.tag)]))

namespace Sys2Proof.Claims

/-- The canonical form of memory, of the set of full words and of the table of wait lists. -/
structure Canonical (s : State) : Prop where
  mem : Memory.wf s.mem = true
  full : s.full.Pairwise (· < ·)
  lists : (s.feWait.map Prod.fst).Pairwise (· < ·)

/-- A waiter of word `w` at the head of its list that is a context parked there, not the issuing one. -/
structure Head (s : State) (q : FeWaiter) (c : Nat) : Prop where
  ctx : q.ctx = some c
  parked : (s.ctx c).st = .parked (.fe q.tag)
  plain : DstPlain q.d ∧ Quiet (s.ctx c) q.d
  noLog : (s.core (ctxCore c)).mlogStart = none

end Sys2Proof.Claims

/-- R297, R301: a full/empty instruction whose condition holds and behind which nobody waits performs at once: LDFE returns the value and leaves
the word empty, LDFF leaves it full, STEF writes an empty word and leaves it full, STFF writes whatever the word's state and
leaves it full, FEZERO writes 0 and leaves it empty. The other bytes of memory and the other words' bits keep their values. -/
def Sys2Proof.Claims.FullEmptyAtOnce : Prop :=
  ∀ (s : State) (h : Hdr) (d : Reg) (m : MAddr) (l : Loc), ReadyMem s h → Canonical s → Plain s m.a → Plain s m.b →
    Undisturbed s → PlainLoc l → pathOf (ctxCore s.cur) l ≠ .offDie → (s.fe l.num).fl = [] → (s.fe l.num).el = [] → h.sc = none → s.ecc = [] →
    let va := ea s m 8
    let w := l.num
    let v := memRead s.mem w 8
    let ok := fun (t : State) => t.me.pc = s.me.pc + 8 ∧ t.me.icount = s.me.icount + 1 ∧ t.me.st = .live ∧ t.me.p = s.me.p ∧
      (∀ a, a < w ∨ w + 8 ≤ a → memGet t.mem a = memGet s.mem a) ∧ (∀ u, u ≠ w → t.isFull u = s.isFull u)
    (feResolve s va .amo = (.ok l, s) → Target s d → s.isFull w = true → ∃ t, exec (.ldfe h d m) s = .next t ∧ ok t ∧
      t.me.x = (put s.me d (BitVec.ofNat 64 v)).x ∧ t.isFull w = false ∧ t.mem = s.mem) ∧
    (feResolve s va .read = (.ok l, s) → Target s d → s.isFull w = true → ∃ t, exec (.ldff h d m) s = .next t ∧ ok t ∧
      t.me.x = (put s.me d (BitVec.ofNat 64 v)).x ∧ t.isFull w = true ∧ t.mem = s.mem) ∧
    (feResolve s va .write = (.ok l, s) → Plain s d → s.isFull w = false → ∃ t, exec (.stef h d m) s = .next t ∧ ok t ∧
      t.me.x = s.me.x ∧ t.isFull w = true ∧ memRead t.mem w 8 = (s.me.reg d).toNat) ∧
    (feWindow va = false → resolveCtx s va 8 false .write = (.ok l, s) → feResolve s va .write = (.ok l, s) → Plain s d →
      ∃ t, exec (.stff h d m) s = .next t ∧ ok t ∧ t.me.x = s.me.x ∧ t.isFull w = true ∧ memRead t.mem w 8 = (s.me.reg d).toNat) ∧
    (feWindow va = false → resolveCtx s va 8 false .write = (.ok l, s) → feResolve s va .write = (.ok l, s) →
      ∃ t, exec (.fezero h m) s = .next t ∧ ok t ∧ t.me.x = s.me.x ∧ t.isFull w = false ∧ memRead t.mem w 8 = 0)

/-- R297, R298, R299: a full/empty access whose condition does not hold joins the tail of its list and parks the context at the instruction;
neither the word nor a register changes, and a request is counted but of the local store. Its limit counts from the cycle in which it joins, within 15 cycles of the swarm island behind the issue in the own cluster (R3, R125). -/
def Sys2Proof.Claims.FullEmptyWaits : Prop :=
  ∀ (s : State) (h : Hdr) (d : Reg) (m : MAddr) (l : Loc), ReadyMem s h → Plain s m.a → Plain s m.b → Undisturbed s → PlainLoc l →
    let va := ea s m 8
    let requests : Ctx := match l with
      | .ls _ _ => s.me
      | _ => asked s.me
    let waits := fun (i : Instr) (op : Nat) (data : Word) => ∃ (t : State) (q : FeWaiter), exec i s = .next t ∧
      t.me = { requests with st := .parked (.fe q.tag) } ∧ q.op = op ∧ q.data = data ∧ q.ctx = some s.cur ∧ q.va = va ∧
      (s.myCore.feLimit = 0 → q.due = none) ∧ (s.myCore.feLimit ≠ 0 → ∃ j, q.due = some (s.now + j + s.myCore.feLimit) ∧
        (pathOf (ctxCore s.cur) l = .near → j = 0 ∨ ((s.cluster (ctxCl s.cur)).sacc + j * (s.cluster (ctxCl s.cur)).sstep) / 19 ≤ 15)) ∧ t.mem = s.mem ∧ t.full = s.full ∧
      (if op = 2 then t.fe l.num = { s.fe l.num with el := (s.fe l.num).el ++ [q] }
       else t.fe l.num = { s.fe l.num with fl := (s.fe l.num).fl ++ [q] })
    (s.isFull l.num = false → (s.fe l.num).el = [] → Target s d →
      (feResolve s va .amo = (.ok l, s) → waits (.ldfe h d m) 0 0) ∧ (feResolve s va .read = (.ok l, s) → waits (.ldff h d m) 1 0)) ∧
    (s.isFull l.num = true → (s.fe l.num).fl = [] → Plain s d → feResolve s va .write = (.ok l, s) →
      waits (.stef h d m) 2 (s.me.reg d))

/-- R296 to R301: full/empty instructions, performed at once or waiting on their word. -/
def Obligations.FullEmptyPerformsOrWaits : Prop := Claims.FullEmptyAtOnce ∧ Claims.FullEmptyWaits

/-- R297, R298, R299: the service of a word's lists, first come first served. On a full word an LDFE at the head takes the value, leaves the word empty and
returns its context to the wheel behind its instruction, and an LDFF leaves it full; on an empty word a STEF at the head writes its data and
leaves it full; a value that is uncorrectable faults in the context instead, and the word stays as it is. Then the lists that are left are
served. So a run of LDFF waiters is served together, and the LDFE behind it takes the same value and stops the run there. A waiter whose limit
is up leaves its list and raises FE_TIMEOUT in its context; before that it stays. -/
def Obligations.FullEmptyServiceTakesTheHead : Prop :=
  (∀ (s : State) (w : Nat), (s.isFull w = true → (s.fe w).fl = [] → exec (.feServe w) s = .next s) ∧
    (s.isFull w = false → (s.fe w).el = [] → exec (.feServe w) s = .next s)) ∧
  (∀ (s : State) (w c : Nat) (q : FeWaiter) (rest : List FeWaiter), Canonical s → Head s q c →
    let word := memRead s.mem w 8
    let back := fun (t : State) (x : Vector Word 64) => (t.ctx c).st = .live ∧ (t.ctx c).pc = (s.ctx c).pc + 8 ∧ (t.ctx c).x = x ∧ t.cur = s.cur ∧
      (∀ c', c' ≠ c → t.ctx c' = s.ctx c') ∧ ∀ u, u ≠ w → t.fe u = s.fe u ∧ t.isFull u = s.isFull u
    let leaves := fun (u : State) => u.cur = c ∧ u.me = { s.ctx c with st := .live, recv := (s.ctx c).recv + if q.va / 2 ^ 32 = 0xFE then 0 else 1 } ∧
      u.mem = s.mem ∧ u.full = s.full
    (∀ el, s.fe w = ⟨q :: rest, el⟩ → s.isFull w = true → s.eccAt w 8 = true → ∃ u, leaves u ∧ u.fe w = ⟨rest, el⟩ ∧
      exec (.feServe w) s = exec (.feServe w) { takeFault u { code := cEcc, addr := q.va } with cur := s.cur }) ∧
    (∀ el, s.fe w = ⟨q :: rest, el⟩ → s.isFull w = true → s.eccAt w 8 = false → q.op ≤ 1 → ∃ t, exec (.feServe w) s = exec (.feServe w) t ∧
      t.mem = s.mem ∧ t.fe w = ⟨rest, el⟩ ∧ t.isFull w = decide (q.op = 1) ∧ back t (put (s.ctx c) q.d (BitVec.ofNat 64 word)).x) ∧
    (∀ fl, s.fe w = ⟨fl, q :: rest⟩ → s.isFull w = false → q.op = 2 → ∃ t, exec (.feServe w) s = exec (.feServe w) t ∧
      t.mem = memWrite s.mem w 8 q.data.toNat ∧ t.fe w = ⟨fl, rest⟩ ∧ t.isFull w = true ∧ back t (s.ctx c).x) ∧
    (s.fe w = ⟨[], q :: rest⟩ → s.isFull w = false → q.op = 2 → ∃ t, exec (.feServe w) s = .next t ∧
      t.mem = memWrite s.mem w 8 q.data.toNat ∧ t.fe w = ⟨[], rest⟩ ∧ t.isFull w = true ∧ back t (s.ctx c).x) ∧
    (∀ due pre, q.due = some due → s.fe w = ⟨pre ++ q :: rest, []⟩ ∨ s.fe w = ⟨[], pre ++ q :: rest⟩ → (∀ p ∈ pre ++ rest, p.tag ≠ q.tag) →
      (s.now < due → exec (.feTimeout w q.tag) s = .next s) ∧
      (due ≤ s.now → ∃ u, exec (.feTimeout w q.tag) s = .next { takeFault u { code := cFeTimeout, addr := q.va } with cur := s.cur } ∧ leaves u ∧
        (u.fe w).fl ++ (u.fe w).el = pre ++ rest))) ∧
  (∀ (s : State) (w : Nat) (ffs rest : List FeWaiter) (e : FeWaiter), Canonical s → s.fe w = ⟨ffs ++ e :: rest, []⟩ → s.isFull w = true →
    s.eccAt w 8 = false → (∀ q ∈ ffs, q.op = 1) → e.op = 0 → (∀ q ∈ ffs ++ [e], ∃ c, Head s q c) → ((ffs ++ [e]).map (·.ctx)).Nodup →
    ∃ t, exec (.feServe w) s = .next t ∧ t.mem = s.mem ∧ t.isFull w = false ∧ t.fe w = ⟨rest, []⟩ ∧
      (∀ q ∈ ffs ++ [e], ∀ c, q.ctx = some c → (t.ctx c).st = .live ∧ (t.ctx c).pc = (s.ctx c).pc + 8 ∧
        (t.ctx c).x = (put (s.ctx c) q.d (BitVec.ofNat 64 (memRead s.mem w 8))).x) ∧
      ∀ c, (∀ q ∈ ffs ++ [e], q.ctx ≠ some c) → t.ctx c = s.ctx c)

/-- R128, R129, R158, R161, R347: a counted access completes: its register is written and its counter falls by one, the answer is counted in RECV, and the
access is no longer outstanding; one that met uncorrectable data writes nothing and keeps its fault for the context's next own phase. No memory and no
other context changes. -/
def Sys2Proof.Claims.CountedCompletes : Prop :=
  ∀ (s : State) (c tag : Nat) (o : Outst) (n : Fin 4), s.findOutst c tag = some (.run, o) → o.raced = [] → o.ctr = some n →
    (s.core (ctxCore c)).mlogStart = none → (∀ f, (s.ctx c).st ≠ .parked (.drain f)) →
    let x := s.ctx c
    let less := fun (y : Ctx) => { y with recv := x.recv + 1, outst := x.outst.filter (·.tag != o.tag),
                                          dc := x.dc.set n (if x.dc[n] = 0 then 0 else x.dc[n] - 1) }
    (∀ r v, o.writes = [(r, v)] → 0 < r → (hr : r < 64) → o.flt = none → o.load = true → ∃ t,
      exec (.countedAccessComplete c tag) s = .next t ∧ t.ctx c = less { x with x := x.x.set r v hr } ∧
      t.mem = s.mem ∧ ∀ c', c' ≠ c → t.slot c' = s.slot c') ∧
    (o.writes = [] → o.flt = none → o.load = false → ∃ t, exec (.countedAccessComplete c tag) s = .next t ∧ t.ctx c = less x ∧
      t.mem = s.mem ∧ ∀ c', c' ≠ c → t.slot c' = s.slot c') ∧
    (∀ code, o.writes = [] → o.flt = some code → ∃ t, exec (.countedAccessComplete c tag) s = .next t ∧
      t.ctx c = { less x with delayed := x.delayed ++ [⟨code, o.addr, 0, some o.pc, false, o.pc⟩] } ∧
      t.mem = s.mem ∧ ∀ c', c' ≠ c → t.slot c' = s.slot c')

namespace Sys2Proof.Claims

/-- An answer to access `o` can arrive: it went to this module, or a Kevel port is ready (R362). -/
def Answerable (s : State) (o : Outst) : Prop := o.addr / 2 ^ 56 % 2 = 0 ∨ o.dev = fabDev ∨ s.boot.links ≠ 0

end Sys2Proof.Claims

/-- R163, R164, R322, R327, R329: the reply to a parked access, in clear or accepted by a key slot, writes the register and puts the context back on the
wheel behind its instruction, and an encrypted one enters the slot's replay window; a refusal raises its code at the instruction, with the
access's address; a reply that fails authentication raises CONF_AUTH and is counted. While no Kevel port is ready another module answers
nothing (R362; assumption 83). -/
def Sys2Proof.Claims.ReplyArrives : Prop :=
  ∀ (s : State) (c tag r : Nat) (v : Word) (o : Outst), s.findOutst c tag = some (.run, o) → (s.ctx c).st = .parked (.reply tag) →
    o.ctr = none → o.writes = [(r, v)] → 0 < r → r < 56 → o.raced = [] → o.addr / 2 ^ 32 ≠ 0xFE → (s.core (ctxCore c)).mlogStart = none →
    (∀ code val a, ¬Answerable s o → exec (.remoteReply c tag code val a) s = .next s) ∧ (Answerable s o →
    let x := s.ctx c
    let back := { x with st := .live, outst := x.outst.filter (·.tag != o.tag) }
    Quiet back (BitVec.ofNat 6 r) →
    let shown := fun (a : PktAuth) => a.enc = false ∨ ∃ i k, keyFor s o.dev = some (i, k) ∧ k.accepts a.epoch a.ctr a.tagOk = true
    (∀ a, shown a → ∃ t, exec (.remoteReply c tag 0 0 a) s = .next t ∧ t.cur = s.cur ∧ t.mem = s.mem ∧
      (a.enc = false → t.keys = s.keys) ∧ (∀ i k, a.enc = true → keyFor s o.dev = some (i, k) → t.keys = tput s.keys i (k.note a.ctr)) ∧
      t.ctx c = { put back (BitVec.ofNat 6 r) v with pc := x.pc + 8, icount := x.icount + 1, recv := x.recv + 1, missAns := none } ∧
      ∀ c', c' ≠ c → t.ctx c' = s.ctx c') ∧
    (∀ val, val ≠ 0 → o.size = 8 → o.sx = false → ∃ t, exec (.remoteReply c tag 0 val clearAuth) s = .next t ∧
      (t.ctx c).x = (put back (BitVec.ofNat 6 r) (BitVec.ofNat 64 val)).x ∧ (t.ctx c).st = .live ∧ (t.ctx c).pc = x.pc + 8) ∧
    (∀ code val, code ≠ 0 → ∃ t, exec (.remoteReply c tag code val clearAuth) s =
        .next { takeFault t { code := code, addr := o.addr } with cur := s.cur } ∧
      t.cur = c ∧ t.me = { back with recv := x.recv + 1 } ∧ t.mem = s.mem) ∧
    (∀ code val a, ¬shown a → ∃ t, exec (.remoteReply c tag code val a) s =
        .next { takeFault t { code := cConfAuth, addr := o.addr } with cur := s.cur } ∧
      t.cur = c ∧ t.me = { back with recv := x.recv + 1 } ∧ t.fabAuthf = min (s.fabAuthf + 1) 0xFFFF))

/-- R163, R340, R341: the acknowledgement of a posted request lowers the core's count; a refusal does so too and keeps its fault, with the request's
sequence number and, where the request was issued in precise mode, the pc of its instruction, for the context's next issue phase, or tells of it by a late-fault upcall when the context has ended. An acknowledgement or a refusal that fails authentication is the refusal CONF_AUTH (R329), and while no Kevel port is ready
another module answers nothing (R362; assumption 83). -/
def Sys2Proof.Claims.PostedEnds : Prop :=
  ∀ (s : State) (c tag code rs : Nat) (o : Outst), o.posted = some rs → o.ctr = none → tag ∉ s.hostOut.map (·.1) → s.wakes = [] → (s.core (ctxCore c)).mlogStart = none → (∀ f, (s.ctx c).st ≠ .parked (.drain f)) →
    (∀ w a, s.findOutst c tag = some (w, o) → ¬Answerable s o →
      exec (.postedAck c ⟨tag, a⟩) s = .next s ∧ exec (.delayedFaultArrival c tag ⟨code, a⟩) s = .next s) ∧ (Answerable s o →
    let k := ctxCore c
    let x := s.ctx c
    let left := x.outst.filter (·.tag != o.tag)
    (s.findOutst c tag = some (.run, o) →
      (∃ t, exec (.postedAck c ⟨tag, clearAuth⟩) s = .next t ∧ t.core k = { s.core k with outst := (s.core k).outst - 1 } ∧
        t.ctx c = { x with outst := left, recv := x.recv + 1 } ∧ t.mem = s.mem) ∧
      (∀ a, a.enc = true → (∀ k ∈ s.keys, k.2.v = false) → exec (.postedAck c ⟨tag, a⟩) s = exec (.delayedFaultArrival c tag ⟨cConfAuth, clearAuth⟩) s ∧
        ∃ t, exec (.delayedFaultArrival c tag ⟨code, a⟩) s = .next t ∧ t.fabAuthf = min (s.fabAuthf + 1) 0xFFFF ∧
          (t.ctx c).delayed = x.delayed ++ [⟨cConfAuth, o.addr, rs, if o.prec then some o.pc else none, true, o.pc⟩]) ∧
      (∃ t, exec (.delayedFaultArrival c tag ⟨code, clearAuth⟩) s = .next t ∧ t.core k = { s.core k with outst := (s.core k).outst - 1 } ∧
        t.ctx c = { x with outst := left, recv := x.recv + 1,
                           delayed := x.delayed ++ [⟨code, o.addr, rs, if o.prec then some o.pc else none, true, o.pc⟩] } ∧ t.mem = s.mem)) ∧
    (s.findOutst c tag = some (.late, o) → (s.core k).upcalls = [] →
      ∃ t, exec (.delayedFaultArrival c tag ⟨code, clearAuth⟩) s = .next t ∧ (t.core k).outst = (s.core k).outst - 1 ∧
        (t.core k).upcalls = [⟨ctxSlot c, 3, 0, rs⟩] ∧ (t.slot c).late = (s.slot c).late.filter (·.tag != o.tag)))

/-- R128, R129, R158, R163, R340: how accesses that were outstanding end. -/
def Obligations.OutstandingAccessesEnd : Prop := Claims.CountedCompletes ∧ Claims.ReplyArrives ∧ Claims.PostedEnds

/-- R322, R323: a request of another module whose checks pass is performed at its place and answered; a refused one performs nothing, is
counted in fab.refc with its reason in fab.lastr, and is answered with the refusal. The entry is looked up in the device's cache first (R320). While no
Kevel port is ready no request arrives (R362). Said of clear requests where no key slot is held. -/
def Obligations.RemoteRequestsPerformOrAreRefused : Prop :=
  ∀ (s₀ : State) (r : RemoteReq) (l : Loc), (s₀.boot.links = 0 → exec (.remoteRequest r) s₀ = .next s₀) ∧
    (s₀.boot.links ≠ 0 → r.enc = false → r.op ≤ 8 → (∀ k ∈ s₀.keys, k.2.v = false) → PlainLoc l → r.size ∈ [1, 2, 4, 8] →
    let s := exportLook s₀ r.off
    let n := r.size
    let v := memRead s.mem l.num n
    let answer := fun (t : State) (val : Nat) => t.emit (.reply r.src r.rid 0 val 0 false 0 0)
    (reqCheck s r = .ok l →
      (r.op = 0 → exec (.remoteRequest r) s₀ = .next (answer s v)) ∧
      (r.op = 1 → exec (.remoteRequest r) s₀ = .next (answer (s.setMem (memWrite s.mem l.num n (r.v1 % 2 ^ (8 * n)))) 0)) ∧
      (r.op = 2 → exec (.remoteRequest r) s₀ =
        .next (answer (s.setMem (memWrite s.mem l.num n (amoValue r.kind (BitVec.ofNat (8 * n) v) (BitVec.ofNat (8 * n) r.v1)).toNat)) v)) ∧
      (r.op = 3 → exec (.remoteRequest r) s₀ =
        .next (answer (if v = r.v1 % 2 ^ (8 * n) then s.setMem (memWrite s.mem l.num n (r.v2 % 2 ^ (8 * n))) else s) v))) ∧
    (∀ reason code, reqCheck s r = .error (reason, code) → reason ≠ 7 → ∃ t, exec (.remoteRequest r) s₀ = .next t ∧
      t.mem = s₀.mem ∧ t.slots = s₀.slots ∧ t.fabRefc = (s₀.fabRefc + 1) % 2 ^ 32 ∧ t.fabLastr = reason ∧ t.fabAuthf = s₀.fabAuthf ∧
      t.outbox = s₀.outbox ++ [.reply r.src r.rid code 0 reason false 0 0]))

/-- R40, R41, R146, R190: an unassigned opcode raises ILLEGAL_OP whatever its guard and without waiting; a fetch that misses posts its miss to
the walker and parks the context, and one that fails otherwise faults there. -/
def Obligations.IllegalWordsAndFetchesFault : Prop :=
  ∀ (s : State) (w va : Word) (code : Nat), s.me.st = .live →
    exec (.unassignedOpcode w) s = .next (takeFault s { code := cIllegalOp }) ∧
    (code ≠ 0 → exec (.fetchFault va code) s = .next (takeFault s { code := code, addr := va.toNat })) ∧
    (s.myCore.mbox = [] → ctxSlot s.cur ≠ 15 → ∃ t, exec (.fetchFault va 0) s = .next t ∧ t.me = { s.me with st := .parked .miss, missAns := none } ∧
      t.myCore.mbox = [⟨ctxSlot s.cur, bits va.toNat 12 44, 2, !s.me.sys, bits s.myCore.atp.toNat 48 16, false, [], 0, s.now⟩] ∧ t.mem = s.mem)

namespace Sys2Proof.Claims

/-! ### Exceptions -/

/-- Is the issuing context in a trap: fault.estat.INTRAP (R336)? -/
def inTrap (s : State) : Bool := s.me.estat.getLsbD 9

/-- Address of a record of the issuing context in the fault-record area, `off` 0 for its slot, 1,024 for a fibre (R334). -/
def recordAt (s : State) (off : Nat) : Nat :=
  s.myCore.uparea.toNat / 2 ^ 10 % 2 ^ 38 * 2 ^ 10 + off + 64 * ctxSlot s.cur

/-- A record of 64 bytes at `a` tells of fault `f` of the issuing context at delivery in `s` (R82), and no other byte of memory changed. -/
def Recorded (s t : State) (a : Nat) (f : Flt) : Prop :=
  let r := memRead t.mem a 64
  bits r 0 8 = f.code ∧ bits r 8 1 = (restartable f.code).toNat ∧ bits r 9 7 = 0 ∧ bits r 16 15 = s.cur ∧ bits r 31 33 = 0 ∧
  bits r 64 64 = s.me.pc.toNat ∧ bits r 128 64 = f.addr % 2 ^ 64 ∧ bits r 192 16 = 0 ∧ bits r 208 16 = s.myCore.outst ∧
  bits r 224 160 = 0 ∧ bits r 384 32 = taskOf s.me ∧ bits r 416 32 = 0 ∧ bits r 448 64 = s.now % 2 ^ 64 ∧
  (∀ b, b < a ∨ a + 64 ≤ b → memGet t.mem b = memGet s.mem b)

/-- An ordinary fault of the issuing context: a code and an address. -/
def plainFlt (code addr : Nat) : Flt := { code := code, addr := addr }

/-- Numbers of a state in their widths, as the fields of a record hold them. -/
structure Fits (s : State) (code : Nat) : Prop where
  mem : Memory.wf s.mem = true
  cur : s.cur < 2 ^ 15
  outst : s.myCore.outst < 2 ^ 16
  task : taskOf s.me < 2 ^ 32
  code : code < 2 ^ 8

/-- Does a fault of the issuing context enter the trap handler's rule (R334): of the control and the walker context any, of a helper or
message context TRAP_CALL and BREAK? -/
def trapRule (s : State) (code : Nat) : Prop :=
  (s.slot s.cur).fibre = false ∧ (ctxSlot s.cur = 0 ∨ ctxSlot s.cur = 15 ∨ code = 0x18 ∨ code = 0x19)

end Sys2Proof.Claims

/-- R82, R334, R336: trap entry. The record is written at core.uparea + 64 × slot, fault.epc saves the pc (the next pc for TRAP_CALL and
BREAK), fault.estat the code, the mode and INTRAP, system mode is entered and the pc is tvec's entry; registers, predicates and
counters stand. -/
def Obligations.TrapEntrySavesAndEnters : Prop :=
  ∀ (s : State) (code addr : Nat), Fits s code → trapRule s code → inTrap s = false → s.myCore.tvec.getLsbD 0 = true →
    let t := takeFault s (plainFlt code addr)
    Recorded s t (recordAt s 0) (plainFlt code addr) ∧
    t.me = { s.me with epc := if code = 0x18 ∨ code = 0x19 then s.me.pc + 8 else s.me.pc,
                       estat := BitVec.ofNat 64 (code + (if s.me.sys then 0x100 else 0) + 0x200),
                       sys := true, pc := s.myCore.tvec &&& ~~~7#64, missAns := none } ∧
    (∀ c, c ≠ s.cur → t.ctx c = s.ctx c) ∧ t.cores = s.cores

/-- R336: a fault inside a trap, or with tvec.EN = 0 where trap entry is called for, writes its record and halts the context; a slot of 1 to 14
is told of by an upcall of kind fault. -/
def Sys2Proof.Claims.TrapHalts : Prop :=
  ∀ (s : State) (code addr : Nat), Fits s code → (s.slot s.cur).fibre = false →
    inTrap s = true ∨ (trapRule s code ∧ s.myCore.tvec.getLsbD 0 = false) → s.myCore.upcalls = [] →
    let t := takeFault s (plainFlt code addr)
    Recorded s t (recordAt s 0) (plainFlt code addr) ∧
    t.me = { s.me with st := .halted, hcode := code, hrec := memRead t.mem (recordAt s 0) 64, missAns := none } ∧
    (∀ c, c ≠ s.cur → t.ctx c = s.ctx c) ∧
    t.myCore.upcalls = (if 1 ≤ ctxSlot s.cur ∧ ctxSlot s.cur ≤ 14 then [⟨ctxSlot s.cur, 0, 0, 0⟩] else [])

/-- R197, R334: a restartable fault of a helper or message context outside a trap, with no counted access outstanding, captures its whole
state in the park record of its slot, at the faulting pc, writes its record with RST = 1 and posts an upcall of kind fault. -/
def Sys2Proof.Claims.FaultParks : Prop :=
  ∀ (s : State) (code addr : Nat), Fits s code → (s.slot s.cur).fibre = false → inTrap s = false → 1 ≤ ctxSlot s.cur → ctxSlot s.cur ≤ 14 →
    restartable code = true → (∀ o ∈ s.me.outst, o.ctr = none) → s.myCore.upcalls = [] →
    let t := takeFault s (plainFlt code addr)
    Recorded s t (recordAt s 0) (plainFlt code addr) ∧
    (t.slot s.cur).park = some { s.me with st := .parked .record, missAns := none } ∧ (t.slot s.cur).relit = false ∧
    t.me.st = .parked .record ∧ t.myCore.upcalls = [⟨ctxSlot s.cur, 0, 0, 0⟩] ∧ (∀ c, c ≠ s.cur → t.ctx c = s.ctx c)

/-- R335, R334: any other fault ends a helper of no unit, or halts a fibre in place: the helper's exit word is 2^63 | code and its slot is
free, its record stands at core.uparea + 64 × slot and an upcall of kind fault is posted; the fibre's record stands 1,024 bytes above and
its upcall is of kind fibre fault. -/
def Sys2Proof.Claims.FaultEnds : Prop :=
  ∀ (s : State) (code addr : Nat), Fits s code → s.myCore.upcalls = [] →
    let t := takeFault s (plainFlt code addr)
    ((s.slot s.cur).fibre = false → inTrap s = false → 1 ≤ ctxSlot s.cur → ctxSlot s.cur ≤ 14 → restartable code = false →
      code ≠ 0x18 → code ≠ 0x19 → s.me.unit = .none → s.me.streams = [] → s.me.delayed = [] →
      Recorded s t (recordAt s 0) (plainFlt code addr) ∧ t.me.st = .empty ∧ (t.slot s.cur).ended = true ∧
      (t.slot s.cur).exitWord = BitVec.ofNat 64 (2 ^ 63 + code) ∧ t.me.upq = none ∧ t.me.downq = none ∧
      t.myCore.upcalls = [⟨ctxSlot s.cur, 0, 0, 0⟩]) ∧
    ((s.slot s.cur).fibre = true →
      Recorded s t (recordAt s 1024) (plainFlt code addr) ∧ t.me = { s.me with st := .halted, hcode := code, missAns := none } ∧
      t.myCore.upcalls = [⟨ctxSlot s.cur, 2, 0, 0⟩])

/-- R197, R334 to R336: where a fault goes that does not enter the trap handler. -/
def Obligations.OtherFaultsHaltParkOrEnd : Prop := Claims.TrapHalts ∧ Claims.FaultParks ∧ Claims.FaultEnds

/-- R337: TRAP and TRAP.brk raise TRAP_CALL and BREAK with their code as ADDR: in any slot, outside a trap and with tvec enabled, the context
goes on in system mode at tvec's entry, and fault.epc is the pc of the next instruction. -/
def Sys2Proof.Claims.TrapInstructions : Prop :=
  ∀ (s : State) (h : Hdr) (n : BitVec 16), Ready s h →
    exec (.trap h n) s = .next (takeFault s (plainFlt 0x18 n.toNat)) ∧
    exec (.trapBrk h n) s = .next (takeFault s (plainFlt 0x19 n.toNat)) ∧
    ((s.slot s.cur).fibre = false → inTrap s = false → s.myCore.tvec.getLsbD 0 = true → ∃ t t', exec (.trap h n) s = .next t ∧
      exec (.trapBrk h n) s = .next t' ∧ t.me.pc = s.myCore.tvec &&& ~~~7#64 ∧ t'.me.pc = s.myCore.tvec &&& ~~~7#64 ∧
      t.me.epc = s.me.pc + 8 ∧ t'.me.epc = s.me.pc + 8 ∧ t.me.sys = true ∧ t'.me.sys = true ∧
      t.me.estat = BitVec.ofNat 64 (0x218 + if s.me.sys then 0x100 else 0) ∧
      t'.me.estat = BitVec.ofNat 64 (0x219 + if s.me.sys then 0x100 else 0) ∧
      t.me.x = s.me.x ∧ t'.me.x = s.me.x ∧ t.me.p = s.me.p ∧ t'.me.p = s.me.p)

/-- R338: ERET goes back to fault.epc in the mode fault.estat saved and clears INTRAP; outside a trap, or with a misaligned fault.epc, it faults
ILLEGAL_ENC. -/
def Sys2Proof.Claims.Eret : Prop :=
  ∀ (s : State) (h : Hdr), Ready s h → s.me.sys = true →
    (inTrap s = true → s.me.epc.toNat % 8 = 0 → exec (.eret h) s =
      .next (went s { s.me with sys := s.me.estat.getLsbD 8, estat := s.me.estat &&& ~~~0x200#64 } s.me.epc)) ∧
    (inTrap s = false ∨ s.me.epc.toNat % 8 ≠ 0 → exec (.eret h) s = .next (takeFault s (plainFlt 2 0)))

/-- R337, R338: TRAP, TRAP.brk and ERET. -/
def Obligations.TrapsEnterAndEretReturns : Prop := Claims.TrapInstructions ∧ Claims.Eret

namespace Sys2Proof.Claims

/-! ### Copy blocks and tokens -/

/-- Bytes of an element that a row base and a stride of a format must be a multiple of (R171). -/
def elemAlign (f : Nat) : Nat := if f = 1 ∨ f = 2 then 2 else if f = 6 then 4 else 1

/-- The block of six words that R171 accepts for a block copy. -/
structure Accepted (ws : List Nat) (b : CopyBlk) : Prop where
  six : ws = [b.src, b.dst, b.rlen + 2 ^ 24 * b.nrows + 2 ^ 49 * b.sfmt + 2 ^ 52 * b.dfmt, b.sstr, b.dstr, b.prog]
  formats : b.sfmt < 7 ∧ b.dfmt < 7 ∧ (b.sfmt = 0 ↔ b.dfmt = 0)
  rows : 0 < b.nrows ∧ b.nrows < 2 ^ 24 ∧ 0 < b.rlen ∧ b.rlen < 2 ^ 24 ∧ b.prog < b.nrows
  ends : b.src ≠ 0 ∧ b.dst ≠ 0
  l6 : b.sfmt = 3 ∨ b.dfmt = 3 → b.rlen % 16 = 0
  int4 : b.sfmt = 5 ∨ b.dfmt = 5 → b.rlen % 2 = 0
  source : b.src % elemAlign b.sfmt = 0 ∧ b.sstr % elemAlign b.sfmt = 0
  dest : b.dst % elemAlign b.dfmt = 0 ∧ b.dstr % elemAlign b.dfmt = 0

/-- The token entry `i` of engine `eng` of the issuing context's cluster is the one R175 allocates next: the first usable entry from the
round-robin place. -/
def NextEntry (s : State) (eng i : Nat) : Prop :=
  i < 256 ∧ ((s.cluster (ctxCl s.cur)).tab eng).next < 256 ∧ ((s.cluster (ctxCl s.cur)).tok eng i).usable = true ∧
  ∀ j, j < 256 → (j + 256 - ((s.cluster (ctxCl s.cur)).tab eng).next) % 256 < (i + 256 - ((s.cluster (ctxCl s.cur)).tab eng).next) % 256 →
    ((s.cluster (ctxCl s.cur)).tok eng j).usable = false

/-- GEN of the token that entry `i` gives next (R175). -/
def nextGen (s : State) (eng i : Nat) : Nat := (((s.cluster (ctxCl s.cur)).tok eng i).gen + 1) % 2 ^ 16

/-- The token of that entry (R173). -/
def nextToken (s : State) (eng i : Nat) : Word :=
  BitVec.ofNat 64 (eng * 2 ^ 29 + ctxCl s.cur % 32 * 2 ^ 24 + nextGen s eng i * 2 ^ 8 + i)

/-- The consumed tokens of the fields T1 to T3 are 0 or well-formed (R173). -/
def TokensOk (s : State) (ts : List Reg) : Prop :=
  ∀ r ∈ ts, let v := (s.me.reg r).toNat
    v = 0 ∨ (v < 2 ^ 32 ∧ 1 ≤ v / 2 ^ 29 ∧ v / 2 ^ 29 ≤ 4 ∧ v / 2 ^ 24 % 32 = ctxCl s.cur % 32)

/-- `s1` is `s` after reads of the issuing context: of it, no more than its counts of requests and answers (R347) have changed, and nothing of
the tables an instruction uses. -/
structure OnlyRead (s s1 : State) : Prop where
  cur : s1.cur = s.cur
  me : s1.me = { s.me with sent := s1.me.sent, recv := s1.me.recv }
  others : ∀ c, c ≠ s.cur → s1.slot c = s.slot c
  slot : s1.slot s.cur = { s.slot s.cur with ctx := s1.me }
  cores : s1.cores = s.cores
  clusters : s1.clusters = s.clusters
  dies : s1.dies = s.dies
  mem : s1.mem = s.mem
  full : s1.full = s.full
  tables : s1.sqTable = s.sqTable ∧ s1.kvTable = s.kvTable ∧ s1.kvShape = s.kvShape ∧ s1.kvCtl = s.kvCtl ∧ s1.moves = s.moves ∧ s1.pkgLost = s.pkgLost

/-- Status word of TKWAIT (R182). -/
def status (state code count : Nat) : Word := BitVec.ofNat 64 (state + 2 ^ 16 * (code % 2 ^ 8) + 2 ^ 32 * (count % 2 ^ 32))

/-! ### Rows and elements that the copy unit moves -/

/-- Formats that R171 accepts: both raw, or neither. -/
def Formats (b : CopyBlk) : Prop := b.sfmt < 7 ∧ b.dfmt < 7 ∧ (b.sfmt = 0 ↔ b.dfmt = 0)

/-- Bytes of a row of a block on one side (R170, R171). -/
def rowLen (f n : Nat) : Nat := if f = 0 then n else (elemBits f * n + 7) / 8

/-- Code `j` of a row, the codes following one another from bit 0 of the first byte on (R56, R171). -/
def codeIn (f : Nat) (bs : List Byte) (j : Nat) : Nat := leNat bs / 2 ^ (elemBits f * j) % 2 ^ elemBits f

/-- The bytes `out` that a row of bytes `bs` is written as (R171): the same, or each element decoded to FP32 and encoded with RNE. -/
def RowAs (b : CopyBlk) (bs out : List Byte) : Prop :=
  if b.sfmt = 0 then out = bs
  else out.length = rowLen b.dfmt b.rlen ∧ leNat out < 2 ^ (elemBits b.dfmt * b.rlen) ∧
    ∀ j, j < b.rlen → ∃ r, Decodes b.sfmt (codeIn b.sfmt bs j) r ∧ Encodes b.dfmt r (codeIn b.dfmt out j)

/-- `n` rows from row `i` on are moved, one after the other, each read in full before a byte of it is written (R172). -/
def RowsMoved (w : Who) (b : CopyBlk) : Nat → State → Nat → State → Prop
  | 0, s, _, t => t = s
  | n + 1, s, i, t => ∃ bs out s1 s2, engRead s w ((b.src + i * b.sstr) % 2 ^ 64) (rowLen b.sfmt b.rlen) = .ok bs s1 ∧ RowAs b bs out ∧
      engWrite s1 w ((b.dst + i * b.dstr) % 2 ^ 64) out = .ok () s2 ∧ RowsMoved w b n s2 (i + 1) t

/-- The words that `n` bytes from `a` on lie in, each with its bytes' address and number (R172). -/
def rowPieces (a n : Nat) : List (Nat × Nat) := pieces (n + 1) a n

/-- The words of row PROG not read yet, each with its place in the row. -/
def unread (b : CopyBlk) (got : List (Nat × List Byte)) : List ((Nat × Nat) × Nat) :=
  (rowPieces ((b.src + b.prog * b.sstr) % 2 ^ 64) (rowLen b.sfmt b.rlen)).zipIdx.filter fun q => (tget got q.2).isNone

/-- Words with their bytes: row PROG as it is written from all the bytes read (R171). -/
def RowOut (b : CopyBlk) (got left : List (Nat × List Byte)) : Prop :=
  ∃ out, RowAs b (got.flatMap (·.2)) out ∧ left = splitPieces (rowPieces ((b.dst + b.prog * b.dstr) % 2 ^ 64) (rowLen b.dfmt b.rlen)) out

/-- Elements in a row of a stream, bits of an element in memory, and the format there (R179). -/
def inRow (t : Stream) : Nat := if t.blk.sfmt = 0 then t.blk.rlen / t.esz else t.blk.rlen
def sideFmt (t : Stream) : Nat := if t.out then t.blk.dfmt else t.blk.sfmt
def elemWidth (t : Stream) : Nat := if t.blk.sfmt = 0 then 8 * t.esz else elemBits (sideFmt t)

/-- Address of the first byte of element `i`, in row and element order, its bit there, and the bytes it touches. -/
def elemAddr (t : Stream) (i : Nat) : Nat :=
  let row := t.blk.prog + i / inRow t
  ((if t.out then t.blk.dst + row * t.blk.dstr else t.blk.src + row * t.blk.sstr) % 2 ^ 64 + elemWidth t * (i % inRow t) / 8) % 2 ^ 64
def elemShift (t : Stream) (i : Nat) : Nat := elemWidth t * (i % inRow t) % 8
def elemSpan (t : Stream) (i : Nat) : Nat := (elemShift t i + elemWidth t + 7) / 8

/-- The elements from number `i` on that memory gives an in-stream: `vs`, as FP32 where the block has a format (R179). -/
def Filled (w : Who) (t : Stream) : Nat → State → Nat → List Word → State → Prop
  | 0, s, _, vs, u => vs = [] ∧ u = s
  | n + 1, s, i, vs, u => ∃ bs v r s1, engRead s w (elemAddr t i) (elemSpan t i) = .ok bs s1 ∧
      (let c := leNat bs / 2 ^ elemShift t i % 2 ^ elemWidth t; if t.blk.sfmt = 0 then v = c else Decodes t.blk.sfmt c v) ∧
      vs = BitVec.ofNat 64 v :: r ∧ Filled w t n s1 (i + 1) r u

/-- Elements `vs` of an out-stream written from number `i` on: of memory, the bits of the element alone change (R179). -/
def Drained (w : Who) (t : Stream) : List Word → State → Nat → State → Prop
  | [], s, _, u => u = s
  | v :: r, s, i, u => ∃ c s1, (if t.blk.sfmt = 0 then c = v.toNat else Encodes t.blk.dfmt v.toNat c) ∧
      (engModify s w (elemAddr t i) (elemSpan t i) fun old =>
        old - old / 2 ^ elemShift t i % 2 ^ elemWidth t * 2 ^ elemShift t i + c % 2 ^ elemWidth t * 2 ^ elemShift t i) = .ok () s1 ∧
      Drained w t r s1 (i + 1) u

end Sys2Proof.Claims

/-- R173, R175, R178: COPY of a block that R171 accepts, with its tokens well-formed, fewer than 64 commands queued and a token entry free,
allocates that entry, PENDING under its next GEN, queues the captured block with its consumed tokens behind the others and writes the
token to x[D]; a block refused raises ILLEGAL_ENC with the block's address, an ill-formed token TOKEN_INVALID, and a full queue holds. -/
def Obligations.CopyQueuesUnderANewToken : Prop :=
  ∀ (s s1 : State) (h : Hdr) (d a t1 t2 t3 : Reg) (ws : List Nat), ReadyMem s h → Target s d → (∀ r ∈ [a, t1, t2, t3], Plain s r) →
    readWords s (s.me.reg a).toNat 6 = .ok ws s1 → OnlyRead s s1 →
    let i := Instr.copy h d a t1 t2 t3
    let cl := ctxCl s.cur
    (∀ b e, Accepted ws b → TokensOk s [t1, t2, t3] → (s.cluster cl).copyQ.length < 64 → NextEntry s 1 e → ∃ t, exec i s = .next t ∧
      t.me = retired (put s1.me d (nextToken s 1 e)) ∧ t.mem = s1.mem ∧
      (t.cluster cl).tok 1 e = { gen := nextGen s 1 e, st := .pending } ∧
      (t.cluster cl).copyQ = (s.cluster cl).copyQ ++ [CopyCmd.mk (blk := b) (blkAddr := (s.me.reg a).toNat)
        (tok := e) (deps := [(s.me.reg t1).toNat, (s.me.reg t2).toNat, (s.me.reg t3).toNat]) (core := ctxCore s.cur)
        (sys := s.me.sys) (running := false) (rowsOver := false) (fault := none) (part := none)]) ∧
    (ws.length = 6 → (∀ w ∈ ws, w < 2 ^ 64) → (∀ b, ¬Accepted ws b) →
      exec i s = .next (takeFault s (plainFlt 2 (s.me.reg a).toNat))) ∧
    (∀ b, Accepted ws b → ¬TokensOk s [t1, t2, t3] → exec i s = .next (takeFault s (plainFlt 0x1A 0))) ∧
    (∀ b, Accepted ws b → TokensOk s [t1, t2, t3] → 64 ≤ (s.cluster cl).copyQ.length → exec i s = .next s)

/-- R179, R181: SBIND binds the stream register to the captured block under a new token, with an empty FIFO; a register already bound raises
ILLEGAL_ENC. SCLOSE ends the binding with the count of elements taken or written and completes its token; an out-stream that still holds
elements its command can write holds the context; an unbound register raises ILLEGAL_ENC. -/
def Sys2Proof.Claims.StreamsBind : Prop :=
  ∀ (s s1 : State) (h : Hdr) (k e : BitVec 2) (sx : Bool) (d a t1 t2 t3 : Reg) (ws : List Nat) (b : CopyBlk) (n : Nat),
    ReadyMem s h → Target s d → (∀ r ∈ [a, t1, t2, t3], Plain s r) → (s.slot s.cur).fibre = false →
    let cl := ctxCl s.cur
    let bound := fun (out : Bool) (x : Bool) => Stream.mk (out := out) (esz := 2 ^ e.toNat) (sx := x) (blk := b) (tok := n) (gen := nextGen s 1 n)
      (deps := [(s.me.reg t1).toNat, (s.me.reg t2).toNat, (s.me.reg t3).toNat]) (sys := s.me.sys) (fifo := []) (moved := 0) (taken := 0)
      (fault := none) (told := false)
    (tget s.me.streams k.toNat = none → readWords s (s.me.reg a).toNat 6 = .ok ws s1 → OnlyRead s s1 → TokensOk s [t1, t2, t3] → NextEntry s 1 n →
      (streamBlock ws false (2 ^ e.toNat) sx = some b → ∃ t, exec (.sbindIn h k e sx d a t1 t2 t3) s = .next t ∧
        t.me = retired { put s1.me d (nextToken s 1 n) with streams := tput s.me.streams k.toNat (bound false sx) } ∧
        (t.cluster cl).tok 1 n = { gen := nextGen s 1 n, st := .pending }) ∧
      (streamBlock ws true (2 ^ e.toNat) false = some b → ∃ t, exec (.sbindOut h k e false d a t1 t2 t3) s = .next t ∧
        t.me = retired { put s1.me d (nextToken s 1 n) with streams := tput s.me.streams k.toNat (bound true false) } ∧
        (t.cluster cl).tok 1 n = { gen := nextGen s 1 n, st := .pending })) ∧
    (∀ st, tget s.me.streams k.toNat = some st →
      exec (.sbindIn h k e sx d a t1 t2 t3) s = .next (takeFault s (plainFlt 2 0)) ∧
      exec (.sbindOut h k e sx d a t1 t2 t3) s = .next (takeFault s (plainFlt 2 0)) ∧
      (st.fault = none → ((s.cluster cl).tok 1 st.tok).gen = st.gen → ((s.cluster cl).tok 1 st.tok).st = .pending →
        let moved := if st.out then st.moved else st.taken
        (st.out = false ∨ st.fifo = [] → ∃ t, exec (.sclose h k d) s = .next t ∧
          t.me = retired { put s.me d (BitVec.ofNat 64 moved) with streams := tdel s.me.streams k.toNat } ∧ t.mem = s.mem ∧
          ((t.cluster cl).tok 1 st.tok).st = .done ∧ ((t.cluster cl).tok 1 st.tok).count = moved) ∧
        (st.out = true → st.fifo ≠ [] → exec (.sclose h k d) s = .next s))) ∧
    (tget s.me.streams k.toNat = none → exec (.sclose h k d) s = .next (takeFault s (plainFlt 2 0)))

/-- R173, R182, R184: TKWAIT of 0 returns 0 at once; of a stale token STATE 3; of a DONE entry STATE 1 and its count; of a FAILED entry, and of
one whose non-restartable fault has been delivered, STATE 2, the code and the count; of a PENDING entry it parks. An undelivered fault is
delivered as the TKWAIT's own; one that is restartable and was delivered parks the context again, the command being queued again under the
same token when the context is the one it was delivered to or in system mode. TKTEST says whether the token is complete, and never parks. -/
def Obligations.TokenWaitsAnswerByState : Prop :=
  ∀ (s : State) (h : Hdr) (pt pf : Pred) (cm : Bool) (d a : Reg) (eng i : Nat) (e : Tok), ReadyMem s h → Target s d → Plain s a →
    Undisturbed s →
    let r := tokRef s (ctxCl s.cur) (s.me.reg a).toNat
    let wait := exec (.tkwait h d a) s
    let test := exec (.tktest h pt pf a cm) s
    let tests := fun (b : Bool) => test = .next (done s (setPair s.me pt pf b))
    let heard := { s.me with recv := s.me.recv + 1 }
    let ended := test = .next (done s (setPair heard pt pf true))
    (s.me.reg a = 0 → wait = .next (done s (put s.me d 0)) ∧ tests true) ∧
    (r = .invalid → wait = .next (takeFault s (plainFlt 0x1A 0)) ∧ test = .next (takeFault s (plainFlt 0x1A 0))) ∧
    (r = .stale → wait = .next (done s (put heard d (status 3 0 0))) ∧ ended) ∧
    (r = .entry eng i e →
      (e.st = .pending → wait = .next (parkedHere s) ∧ tests false) ∧
      (e.st = .done → wait = .next (done s (put heard d (status 1 0 e.count))) ∧ ended) ∧
      (e.st = .failed → wait = .next (done s (put heard d (status 2 e.code e.count))) ∧ ended) ∧
      (e.st = .faulted → restartable e.code = false → ended) ∧
      (e.st = .faulted → e.delivered = true → restartable e.code = false →
        wait = .next (done s (put heard d (status 2 e.code e.count)))) ∧
      (e.st = .faulted → restartable e.code = true → tests false) ∧
      (e.st = .faulted → e.delivered = true → restartable e.code = true → ∃ t, wait = .next t ∧ t.me.st = .parked .retry ∧ t.me.pc = s.me.pc ∧
        ((t.cluster (ctxCl s.cur)).tok eng i).st = if e.dctx = some s.cur ∨ s.me.sys = true then .pending else .faulted) ∧
      (∀ f, e.st = .faulted → e.delivered = false → e.flt = some f → ∃ t, wait = .next (takeFault t f) ∧ t.me = s.me ∧
        (t.cluster (ctxCl s.cur)).tok eng i = { e with delivered := true, dctx := some s.cur }))

/-- R171, R172, R174, R178, R183: among the commands whose consumed tokens are complete the copy unit takes the first, in order of acceptance, and
one that runs goes on; its rows move in order, raw or converted, and a command whose rows are all done ends: PROG is
written back to its block and its token is DONE with the rows as COUNT. A command one of whose tokens failed does not run and its token FAILS
with that code. A restartable fault leaves the token FAULTED and the command kept for its requeue. That a step moves a free number of whole
rows, or one word of a row, any of those left, so that another agent may see a part of a row done (R295), a row's every word being read before
one is written, and that the end is a step of its own, is assumption 28. -/
def Obligations.CopyUnitMovesRowsAndCompletes : Prop :=
  ∀ (s s1 : State) (cl : Nat) (q : CopyCmd) (pre post : List CopyCmd), (s.cluster cl).copyQ = pre ++ q :: post →
    (∀ p ∈ pre ++ post, p.running = false ∧ p.tok ≠ q.tok) → q.held s = false →
    (q.running = true ∨ ∀ p ∈ pre, p.held s = true ∨ deps s cl p.deps = .wait) →
    let w := engine q.core q.sys (1 + 8 * q.tok)
    let b := q.blk
    let whole := (s.choose 2).2
    let start := (whole.choose (b.nrows - b.prog)).2
    let goes := (q.running = true ∧ q.rowsOver = false) ∨ (q.running = false ∧ deps s cl q.deps = .ok)
    let left := fun (u : State) (p : Option RowPart) (i : Nat) => u.setCluster cl { u.cluster cl with copyQ := pre ++
      { q with blk := { b with prog := i }, running := true, rowsOver := p.isNone && i == b.nrows, fault := none, part := p } :: post }
    let tok := fun (t : State) => (t.cluster cl).tok 1 q.tok
    (Formats b → goes → b.prog < b.nrows → q.part = none → (s.choose 2).1 = 0 →
      (∀ n, 1 ≤ n → b.prog + n ≤ b.nrows → ∃ u, RowsMoved w b n start b.prog u ∧ (u.cluster cl).copyQ = (s.cluster cl).copyQ) →
      ∃ n u, 1 ≤ n ∧ b.prog + n ≤ b.nrows ∧ RowsMoved w b n start b.prog u ∧
        exec (.copyCommandStart cl) s = .next (left u none (b.prog + n))) ∧
    (∀ got s', Formats b → goes → b.prog < b.nrows → unread b got ≠ [] → got.Pairwise (·.1 < ·.1) →
      (∀ g ∈ got, g.1 < (rowPieces ((b.src + b.prog * b.sstr) % 2 ^ 64) (rowLen b.sfmt b.rlen)).length) →
      (q.part = some (.reading got) ∧ s' = s) ∨ (q.part = none ∧ (s.choose 2).1 = 1 ∧ got = [] ∧ s' = whole) →
      let from' := (s'.choose (unread b got).length).2
      (∀ p ∈ unread b got, ∃ bs u, engRead from' w p.1.1 p.1.2 = .ok bs u ∧ (u.cluster cl).copyQ = (s.cluster cl).copyQ) →
      ∃ p ∈ unread b got, ∃ bs u part, engRead from' w p.1.1 p.1.2 = .ok bs u ∧ exec (.copyCommandStart cl) s = .next (left u (some part) b.prog) ∧
        (unread b (tput got p.2 bs) ≠ [] → part = .reading (tput got p.2 bs)) ∧
        (unread b (tput got p.2 bs) = [] → ∃ ws, RowOut b (tput got p.2 bs) ws ∧ part = .writing ws)) ∧
    (∀ ws, q.part = some (.writing ws) → q.running = true → q.rowsOver = false → ws ≠ [] →
      let from' := (s.choose ws.length).2
      (∀ p ∈ ws, ∃ u, engWriteOf from' w ws p.1 p.2 = .ok () u ∧ (u.cluster cl).copyQ = (s.cluster cl).copyQ) →
      ∃ i, ∃ hi : i < ws.length, ∃ u, engWriteOf from' w ws ws[i].1 ws[i].2 = .ok () u ∧
        exec (.copyCommandStart cl) s = .next (if ws.length = 1 then left u none (b.prog + 1) else left u (some (.writing (ws.eraseIdx i))) b.prog)) ∧
    (q.running = false → deps s cl q.deps = .wait → (∀ p ∈ post, p.held s = true ∨ deps s cl p.deps = .wait) →
      exec (.copyCommandStart cl) s = .next s) ∧
    (∀ code, q.running = false → deps s cl q.deps = .bad code → ∃ t, exec (.copyCommandStart cl) s = .next t ∧ t.mem = s.mem ∧
      (t.cluster cl).copyQ = pre ++ post ∧ (tok t).st = .failed ∧ (tok t).code = code) ∧
    (q.running = true → q.rowsOver = true → engWrite s w ((q.blkAddr + 0x28) % 2 ^ 64) (leBytes 8 b.prog) = .ok () s1 →
      s1.clusters = s.clusters →
      (q.fault = none → ∃ t, exec (.copyCommandEnd cl) s = .next t ∧ t.mem = s1.mem ∧ (t.cluster cl).copyQ = pre ++ post ∧
        (tok t).st = .done ∧ (tok t).count = b.prog) ∧
      (∀ f, q.fault = some f → ∃ t, exec (.copyCommandEnd cl) s = .next t ∧ t.mem = s1.mem ∧ (t.cluster cl).copyQ = pre ++ post ∧
        (t.cluster cl).copyHeld = (s.cluster cl).copyHeld ++ (if restartable f.code then [q] else []) ∧ (tok t).st = .faulted ∧
        (tok t).flt = some f ∧ (tok t).count = b.prog))

/-- R174, R179, R180: the copy unit fills an in-stream's FIFO of 16 from memory, and drains an out-stream's to memory, in row and element
order; the last element written completes the token with the count. A stream whose tokens wait, or an in-stream whose FIFO is full, does
nothing, and one of whose tokens failed fails, whatever its FIFO holds. That a step moves a free number of elements, at most 16, is assumption
17. -/
def Sys2Proof.Claims.StreamFills : Prop :=
  ∀ (s : State) (c k : Nat) (t : Stream), k < 4 → tget (s.ctx c).streams k = some t → t.fault = none → t.fifo.length ≤ 16 →
    ((s.cluster (ctxCl c)).tok 1 t.tok).gen = t.gen → ((s.cluster (ctxCl c)).tok 1 t.tok).st = .pending →
    (s.ctx c).st ≠ .parked .record → (s.core (ctxCore c)).lsChange = none → t.moved ≤ t.total →
    let w := engine (ctxCore c) t.sys (1 + 8 * t.tok)
    let tok := fun (u : State) => (u.cluster (ctxCl c)).tok 1 t.tok
    let step := exec (.streamFill c k) s
    let start := (s.choose 16).2
    (Formats t.blk → t.out = false → t.fifo.length < 16 → t.moved < t.total → deps s (ctxCl c) t.deps = .ok →
      (∀ n, n ≤ min (16 - t.fifo.length) (t.total - t.moved) → ∃ vs u, Filled w t n start t.moved vs u) →
      ∃ n vs u v, 1 ≤ n ∧ n ≤ min (16 - t.fifo.length) (t.total - t.moved) ∧ Filled w t n start t.moved vs u ∧ step = .next v ∧ v.mem = u.mem ∧
        (v.ctx c).streams = tput (u.ctx c).streams k { t with fifo := t.fifo ++ vs, moved := t.moved + n, deps := [] } ∧ v.clusters = u.clusters) ∧
    (Formats t.blk → t.out = true → t.fifo ≠ [] → t.moved + t.fifo.length ≤ t.total → deps s (ctxCl c) t.deps = .ok →
      (∀ n, n ≤ t.fifo.length → ∃ u, Drained w t (t.fifo.take n) start t.moved u) →
      ∃ n u v, 1 ≤ n ∧ n ≤ t.fifo.length ∧ Drained w t (t.fifo.take n) start t.moved u ∧ step = .next v ∧ v.mem = u.mem ∧
        (v.ctx c).streams = tput (u.ctx c).streams k { t with fifo := t.fifo.drop n, moved := t.moved + n, deps := [] } ∧
        (t.moved + n = t.total → (tok v).st = .done ∧ (tok v).count = t.total) ∧ (t.moved + n ≠ t.total → v.clusters = u.clusters)) ∧
    (deps s (ctxCl c) t.deps = .wait → step = .next s) ∧
    (∀ code, deps s (ctxCl c) t.deps = .bad code →
      ∃ v, step = .next v ∧ v.mem = s.mem ∧ (tok v).st = .failed ∧ (tok v).code = code) ∧
    (t.out = false → 16 ≤ t.fifo.length → deps s (ctxCl c) t.deps = .ok → step = .next s)

/-- R179 to R181: streams bound, filled, written and closed (assumption 17). -/
def Obligations.StreamsBindFillAndClose : Prop := Claims.StreamsBind ∧ Claims.StreamFills

namespace Sys2Proof.Claims

/-! ### Tiles -/

/-- The slot that a handle names in the issuing context's cluster, and its parts (R201). -/
def ringOf (v : Word) : Nat := v.toNat / 2 ^ 12 % 2 ^ 4
def slotOf (v : Word) : Nat := v.toNat / 2 ^ 4 % 2 ^ 8
def tileOf (s : State) (v : Word) : TSlot := s.tslot (ctxCl s.cur) (ringOf v) (slotOf v)

/-- A handle that is well-formed and names an open generation of an enabled ring (R201). -/
structure Live (s : State) (v : Word) : Prop where
  wide : v.toNat < 2 ^ 16
  enabled : (s.ring (ctxCl s.cur) (ringOf v)).en = true
  inRing : slotOf v ≤ (s.ring (ctxCl s.cur) (ringOf v)).nslot
  gen : (tileOf s v).gen = v.toNat % 2 ^ 4

/-- The state with the slot of a handle changed. -/
def setTile (s : State) (v : Word) (t : TSlot) : State := s.setTslot (ctxCl s.cur) (ringOf v) (slotOf v) t

/-- A slot opened at GEN `k` with the unit, TAG and timer of operand `w` (R200, R211). -/
def opened (t : TSlot) (k w cyc : Nat) : TSlot :=
  { st := .opened, gen := k, mu := w / 2 ^ 40 % 2, tag := w / 2 ^ 32 % 2 ^ 8, rcd := t.rcd
    timer := if w % 2 ^ 24 = 0 then none else some (cyc + w % 2 ^ 24) }

/-- A context with a result and a predicate. -/
def withPred (x : Ctx) (p : Pred) (v : Bool) : Ctx := { x with p := setP x.p p v }

end Sys2Proof.Claims

/-- R211, R212: TOPEN of an enabled ring that is no out ring opens the slot at the open pointer when that slot is EMPTY: the next GEN, the target
unit, TAG and timer of x[A], the pointer one on; x[D] is the handle, x[D+1] the address of row 0, the predicate true. TROW of an OPEN
tile with a row left returns the next row and counts it. Either gives the predicate false, and nothing else, when it cannot. -/
def Sys2Proof.Claims.TileOpens : Prop :=
  ∀ (s : State) (h : Hdr) (ring : BitVec 4) (d e a : Reg) (p : Pred), ReadyMem s h → Plain s a → Target s e → 1 ≤ d.toNat → d.toNat ≤ 54 →
    Quiet s.me d → Quiet s.me (d + 1) →
    let v := s.me.reg a
    let w := v.toNat
    let cl := ctxCl s.cur
    let g := s.ring cl ring.toNat
    let t := g.slot g.openPtr
    let k := (t.gen + 1) % 16
    (w / 2 ^ 41 = 0 → w / 2 ^ 24 % 2 ^ 8 = 0 → g.en = true → g.kind ≠ 2 → t.st = .empty →
      exec (.topen h ring d a p) s = .next (done (s.setRing cl ring.toNat { g with
          openPtr := (g.openPtr + 1) % (g.nslot + 1)
          slots := tput g.slots g.openPtr (opened t k w (s.cluster cl).tcyc) })
        (withPred (put (put s.me d (BitVec.ofNat 64 (ring.toNat * 2 ^ 12 + g.openPtr * 2 ^ 4 + k))) (d + 1)
          (BitVec.ofNat 64 (0xFF00000000 + g.base + g.openPtr * g.slotb))) p true))) ∧
    (w / 2 ^ 41 = 0 → w / 2 ^ 24 % 2 ^ 8 = 0 → g.en = true → g.kind ≠ 2 → t.st ≠ .empty →
      exec (.topen h ring d a p) s = .next (done s (withPred s.me p false))) ∧
    (w / 2 ^ 41 = 0 → w / 2 ^ 24 % 2 ^ 8 = 0 → g.en = false ∨ g.kind = 2 →
      exec (.topen h ring d a p) s = .next (takeFault s (plainFlt 0x0A 0))) ∧
    (Live s v → (s.ring cl (ringOf v)).kind ≠ 2 → (tileOf s v).st = .opened →
      (tileOf s v).claimed < 2 ^ (s.ring cl (ringOf v)).hlog →
      exec (.trow h e a p) s = .next (done (setTile s v { tileOf s v with claimed := (tileOf s v).claimed + 1 })
        (withPred (put s.me e (BitVec.ofNat 64 (tileOf s v).claimed)) p true))) ∧
    (w < 2 ^ 16 → ¬Live s v ∨ (s.ring cl (ringOf v)).kind = 2 ∨ (tileOf s v).st ≠ .opened ∨
        (tileOf s v).claimed = 2 ^ (s.ring cl (ringOf v)).hlog →
      exec (.trow h e a p) s = .next (done s (withPred s.me p false)))

/-- R213, R216: TMARK of a claimed row not yet marked counts it, and as valid unless void; the mark that completes a DROPPING tile empties it.
TDROP of an OPEN tile whose claims are all marked, and of a SEALED out tile, empties the slot; of an OPEN tile with rows unmarked
leaves it DROPPING. What is out of place faults TILE_STATE. That TMARK goes on with posted requests of its context unacknowledged is assumption
17: they have performed. -/
def Sys2Proof.Claims.TileMarks : Prop :=
  ∀ (s : State) (h : Hdr) (a b : Reg), ReadyMem s h → Plain s a → Plain s b → (∀ o ∈ s.me.outst, o.posted ≠ none) →
    let v := s.me.reg a
    let t := tileOf s v
    let g := s.ring (ctxCl s.cur) (ringOf v)
    let row := (s.me.reg b).toNat
    let fault := (Host.Outcome.next (takeFault s (plainFlt 0x0A 0)) : Host.Outcome State Fault Refusal)
    let one := { t with marked := t.marked + 1, rows := t.rows + 2 ^ row }
    let void := { one with valid := t.valid, mask := t.mask }
    (Live s v → g.kind ≠ 2 → row < t.claimed → bit t.rows row = false →
      (t.st = .opened ∨ t.st = .closing →
        exec (.tmark h a b) s = .next (done (setTile s v { one with valid := t.valid + 1, mask := t.mask + 2 ^ row }) s.me) ∧
        exec (.tmarkVoid h a b) s = .next (done (setTile s v void) s.me)) ∧
      (t.st = .dropping → t.marked + 1 < t.claimed → exec (.tmarkVoid h a b) s = .next (done (setTile s v void) s.me)) ∧
      (t.st = .dropping → t.marked + 1 = t.claimed → t.closers = [] → ∃ t', exec (.tmark h a b) s = .next t' ∧
        t'.me = retired s.me ∧ (tileOf t' v).st = .empty)) ∧
    (v.toNat < 2 ^ 16 → ¬Live s v ∨ g.kind = 2 ∨ t.st = .empty ∨ t.st = .sealed ∨ t.claimed ≤ row ∨ bit t.rows row = true →
      exec (.tmark h a b) s = fault ∧ exec (.tmarkVoid h a b) s = fault) ∧
    (Live s v → g.kind ≠ 2 → t.st = .opened → t.marked = t.claimed → t.closers = [] → ∃ t', exec (.tdrop h a) s = .next t' ∧
      t'.me = retired s.me ∧ (tileOf t' v).st = .empty ∧ (tileOf t' v).timer = none) ∧
    (Live s v → g.kind ≠ 2 → t.st = .opened → t.marked ≠ t.claimed →
      exec (.tdrop h a) s = .next (done (setTile s v { t with st := .dropping, timer := none }) s.me)) ∧
    (Live s v → g.kind = 2 → t.st = .sealed → t.closers = [] → ∃ t', exec (.tdrop h a) s = .next t' ∧
      t'.me = retired s.me ∧ (tileOf t' v).st = .empty) ∧
    (v.toNat < 2 ^ 16 → ¬Live s v ∨ t.st = .empty ∨ t.st = .closing ∨ t.st = .dropping ∨ t.st = .sealed ∧ g.kind ≠ 2 ∨ t.st = .opened ∧ g.kind = 2 →
      exec (.tdrop h a) s = fault)

/-- R214, R215: SEAL of an OPEN tile closes it under a new token of its target unit, with the tokens it waits for; of a CLOSING or SEALED one it
adds a token to those that complete with the tile's run, and of an EMPTY one gives the token the last close's
status at once. MUPOST closes an unclaimed tile with its first n rows claimed, marked and valid. -/
def Obligations.SealsCloseTilesUnderTokens : Prop :=
  ∀ (s : State) (h : Hdr) (n : BitVec 8) (d a t1 t2 t3 : Reg) (e : Nat), ReadyMem s h → Target s d → (∀ r ∈ [a, t1, t2, t3], Plain s r) →
    let v := s.me.reg a
    let t := tileOf s v
    let g := s.ring (ctxCl s.cur) (ringOf v)
    let eng := 2 + t.mu
    let deps := [(s.me.reg t1).toNat, (s.me.reg t2).toNat, (s.me.reg t3).toNat]
    let m := n.toNat + 1
    let gives := fun (i : Instr) (t' : TSlot) => ∃ u, exec i s = .next u ∧ u.me = retired (put s.me d (nextToken s eng e)) ∧
      tileOf u v = t' ∧ (u.cluster (ctxCl s.cur)).tok eng e = { gen := nextGen s eng e, st := .pending } ∧ u.mem = s.mem
    Live s v → g.kind ≠ 2 → t.mu < 2 → TokensOk s [t1, t2, t3] → NextEntry s eng e →
    (t.st = .opened → gives (.seal h d a t1 t2 t3) { t with st := .closing, deps := deps, closers := [e] }) ∧
    (t.st = .closing ∨ t.st = .sealed → gives (.seal h d a t1 t2 t3) { t with closers := t.closers ++ [e] }) ∧
    (t.st = .empty → (s.mu (2 * ctxCl s.cur + t.mu)).runTok = [] → t.rcd.st = .done → ∃ u, exec (.seal h d a t1 t2 t3) s = .next u ∧
      u.me = retired (put s.me d (nextToken s eng e)) ∧ tileOf u v = t ∧
      (u.cluster (ctxCl s.cur)).tok eng e = { gen := nextGen s eng e, st := .done, count := t.rcd.count }) ∧
    (t.st = .dropping → exec (.seal h d a t1 t2 t3) s = .next (takeFault s (plainFlt 0x0A 0))) ∧
    (t.st = .opened → t.claimed = 0 → m ≤ 2 ^ g.hlog →
      gives (.mupost h n d a t1 t2 t3) { t with st := .closing, claimed := m, marked := m, valid := m, mask := 2 ^ m - 1, rows := 2 ^ m - 1,
                                                deps := deps, closers := [e] }) ∧
    (t.st ≠ .opened ∨ t.claimed ≠ 0 ∨ 2 ^ g.hlog < m → exec (.mupost h n d a t1 t2 t3) s = .next (takeFault s (plainFlt 0x0A 0)))

/-- R217: TSTAT returns the slot's state, counts and GEN; of a stale handle state 7, with the slot's GEN where the slot exists. -/
def Sys2Proof.Claims.TileStatus : Prop :=
  ∀ (s : State) (h : Hdr) (d a : Reg), ReadyMem s h → Target s d → Plain s a →
    let v := s.me.reg a
    let t := tileOf s v
    let g := s.ring (ctxCl s.cur) (ringOf v)
    let code := match t.st with
      | .empty => 0
      | .opened => 1
      | .closing => 2
      | .sealed => 3
      | .dropping => 4
    (Live s v → exec (.tstat h d a) s = .next (done s (put s.me d (BitVec.ofNat 64
      (code + 2 ^ 4 * t.claimed + 2 ^ 13 * t.marked + 2 ^ 22 * t.valid + (if t.fired then 2 ^ 31 else 0) + 2 ^ 32 * t.gen))))) ∧
    (v.toNat < 2 ^ 16 → ¬Live s v → exec (.tstat h d a) s = .next (done s (put s.me d (BitVec.ofNat 64
      (7 + if g.en = true ∧ slotOf v ≤ g.nslot then 2 ^ 32 * t.gen else 0))))) ∧
    (2 ^ 16 ≤ v.toNat → exec (.tstat h d a) s = .next (takeFault s (plainFlt 2 0)))

/-- R200 to R209, R214: tiles opened, rows claimed and marked, tiles dropped, status read (assumption 17). -/
def Obligations.TileInstructionsKeepTheSlots : Prop := Claims.TileOpens ∧ Claims.TileMarks ∧ Claims.TileStatus

/-- R205, R206, R208, R218: a CLOSING tile whose claims are all marked and whose tokens are complete is posted to the easel of its unit and is
SEALED; with no valid row its token completes and the slot is EMPTY; with a token failed it is discarded. A tile timer that has run out
closes an OPEN tile; on a slot no longer OPEN it closes nothing and sets TFIRED (assumption 31). MULOAD parks its context and, where the unit is not running and has nothing posted before, the image is in routine
memory and the context goes on. -/
def Obligations.TilesPostDiscardAndTimeOut : Prop :=
  ∀ (s : State) (cl r i : Nat),
    let t := s.tslot cl r i
    let g := s.ring cl r
    let m := 2 * cl + t.mu
    (t.st = .closing → t.marked = t.claimed → deps s cl t.deps = .ok → 0 < t.valid → (s.mu m).easel.length < 32 → s.gated cl = false →
      ∃ u, exec (.tilePost cl r i) s = .next u ∧ u.tslot cl r i = { t with st := .sealed, deps := [] } ∧
        (u.mu m).posted = (s.mu m).posted + 1 ∧ u.mem = s.mem ∧ u.slots = s.slots ∧
        (u.mu m).easel = (s.mu m).easel ++ [Tile.mk t.tag t.valid g.kind g.hlog t.timed r i t.gen t.mask s.now (s.mu m).posted]) ∧
    (t.st = .closing → t.marked = t.claimed → deps s cl t.deps = .ok → t.valid = 0 → t.closers = [] →
      ∃ u, exec (.tilePost cl r i) s = .next u ∧ (u.tslot cl r i).st = .empty ∧ (u.tslot cl r i).rcd = ⟨.done, 0, 0⟩ ∧ u.mus = s.mus) ∧
    (∀ code, t.st = .closing → t.marked = t.claimed → deps s cl t.deps = .bad code → t.closers = [] →
      ∃ u, exec (.tilePost cl r i) s = .next u ∧ (u.tslot cl r i).st = .empty ∧ (u.tslot cl r i).rcd = ⟨.failed, code, 0⟩ ∧ u.mus = s.mus) ∧
    (t.st ≠ .closing ∨ t.marked ≠ t.claimed ∨ deps s cl t.deps = .wait → exec (.tilePost cl r i) s = .next s) ∧
    (∀ due, t.timer = some due →
      ((s.cluster cl).tcyc < due → exec (.tileTimerExpiry cl r i) s = .next s) ∧
      (due ≤ (s.cluster cl).tcyc → t.st = .opened → exec (.tileTimerExpiry cl r i) s = .next (s.setTslot cl r i
        { t with st := .closing, timed := true, timer := none, fired := true, deps := [], closers := [] })) ∧
      (due ≤ (s.cluster cl).tcyc → t.st ≠ .opened →
        exec (.tileTimerExpiry cl r i) s = .next (s.setTslot cl r i { t with timer := none, fired := true }))) ∧
    (∀ (h : Hdr) (hi : Bool) (a b : Reg) (ws : List Nat) (s1 : State), ReadyMem s h → Plain s a → Plain s b →
      let w := (s.me.reg b).toNat
      let size := w % 2 ^ 17
      let off := w / 2 ^ 32
      let u := 2 * ctxCl s.cur + hi.toNat
      off < 2 ^ 16 → w / 2 ^ 17 % 2 ^ 15 = 0 → 4 ≤ size → size % 4 = 0 → off % 4 = 0 → off + size ≤ 65536 → (s.me.reg a).toNat % 4 = 0 →
      readSized s (s.me.reg a).toNat 4 (size / 4) = .ok ws s1 → OnlyRead s s1 → s1.mus = s.mus → (s.mu u).loads = [] → (s.mu u).easel = [] →
      (s.mu u).curA = none → (s.mu u).bHold = none → (s.mu u).st ≠ .running → s.gated (ctxCl s.cur) = false →
      (s.cluster (ctxCl s.cur)).mstop = 0 →
      ∃ t, exec (.muload h hi a b) s = .next t ∧ t.me = retired s1.me ∧ t.mem = memPut s1.mem (locRm u off) (ws.flatMap (leBytes 4)) ∧
        (t.mu u).loads = [])

namespace Sys2Proof.Claims

/-! ### Matrix units -/

/-- Unit `u` behind the last issue of a bundle whose one slot is move `i` of engine `e`, with what the move left, `v`: the next bundle is 8 bytes
on, and a slot with H = 1 is held (R44, R45, R223). -/
def moved (u : Mu) (e : Nat) (i : Instr) (hold : Bool) (v : Mu) : Mu :=
  { v with bpc := u.bpc + 8, rep := 0, fell := false, lastBpc := u.bpc, held := if hold then [(e, i)] else [] }

/-- Elements of a row of `n` bytes in the format of a ring (R232), and element `j` of it as the canvas holds it: the FP32 pattern of a float, the code of
an INT8 or L6 element, an INT4 element as an INT8 code (R236). -/
def rowElements (f n : Nat) : Nat := if f = 0 then n / 4 else if f ≤ 2 then n / 2 else if f = 3 then 16 * ((n - 4) / 12) else if f = 4 then n else 2 * n
def CanvasElem (f : Nat) (bs : List Byte) (j v : Nat) : Prop :=
  if rowElements f bs.length ≤ j then v = 0
  else if f = 0 then v = codeIn 6 bs j
  else if f ≤ 2 then Decodes f (codeIn f bs j) v
  else if f = 5 then v = ((BitVec.ofNat 4 (codeIn 5 bs j)).signExtend 8).toNat
  else v = codeIn f bs j

/-- The bank `b` of a unit. -/
def bankOf (u : Mu) (b : BitVec 2) : Bank := u.banks[b.toNat]'b.isLt

/-- The bank `b` of a unit replaced. -/
def withBank (u : Mu) (b : BitVec 2) (k : Bank) : Mu := { u with banks := u.banks.set b.toNat k b.isLt }

/-- The settings of R227, with their engine and the unit they leave. -/
def settings (u : Mu) (k : Bool) (b : BitVec 2) (b5 : BitVec 5) (en : Bool) (n6 : BitVec 6) (n : BitVec 7) (src : FeedSrc) (md : ArMode)
    (st : Accum) (fm : OFmt) (rm : Rm) (op : PpOp) : List (Nat × Instr × Mu) :=
  [(1, .afBase k n, { u with afBase := n.toNat }), (1, .afFrom k src, { u with afFrom := src }),
   (3, .arMode k md, { u with arMode := md }), (3, .arDest k b, { u with arDest := b.toNat }), (3, .arAccum k st, { u with arAccum := st }),
   (4, .acSel k b, { u with acSel := b.toNat, drRow := 0 }), (5, .drFmt k fm, { u with drFmt := fm }),
   (5, .drScale k n, { u with drScale := n.toNat }), (5, .drRound k rm, { u with drRound := rm }), (6, .ppOp k op, { u with ppOp := op }),
   (6, .ppK k n, { u with ppK := n.toNat }), (6, .ppPasses k n6, { u with ppPasses := n6.toNat }),
   (6, .ppNcol k n, { u with ppNcol := n.toNat }), (7, .owWrite k en b5, { u with owEn := en, owBase := b5.toNat }),
   (0, .seqIdle k, u), (4, .acClear k b, { u with clears := u.clears ++ [(u.cyc + 1, b.toNat)] }),
   (4, .acPclr k b, withBank u b { (bankOf u b) with poison := false })]

/-- A unit that is about to make a bundle's only issue, with no slot held from before. -/
structure AtIssue (s : State) : Prop where
  held : (s.mu s.curMu).held = []
  first : (s.mu s.curMu).rep = 0

/-- A check of the issue failed: the unit halts with MU_BUNDLE and this reason (R237, R243). -/
def refused (s : State) (reason : Nat) : Host.Outcome State Fault Refusal := .next (muHalt s s.curMu 0x0B reason 0 0)

/-- The move of engine `e` issued alone: the current unit becomes `v`, behind the issue. -/
def issued (s : State) (e : Nat) (i : Instr) (hold : Bool) (v : Mu) : Host.Outcome State Fault Refusal :=
  .next (s.setMu s.curMu (moved (s.mu s.curMu) e i hold v))

end Sys2Proof.Claims

/-- R223, R224, R227: every setting move, SEQ.IDLE, AC.CLEAR and AC.PCLR take effect on their unit and on nothing else: a setting on its register, a
CLEAR on its bank at the start of the next cycle, PCLR on the poison flag. -/
def Sys2Proof.Claims.MuSettings : Prop :=
  ∀ (s : State) (k : Bool) (b : BitVec 2) (b5 : BitVec 5) (en : Bool) (n6 : BitVec 6) (n : BitVec 7) (src : FeedSrc) (md : ArMode)
    (st : Accum) (fm : OFmt) (rm : Rm) (op : PpOp), AtIssue s →
    ∀ x ∈ settings (s.mu s.curMu) k b b5 en n6 n src md st fm rm op, exec x.2.1 s = issued s x.1 x.2.1 k x.2.2

/-- R235: AR.PAL adds its op to the palette being written; the fourth op, or END, completes it, for FEEDs of later cycles. -/
def Sys2Proof.Claims.MuPalette : Prop :=
  ∀ (s : State) (k : Bool) (o : PalOp), AtIssue s →
    let u := s.mu s.curMu
    let go := exec (.arPal k o) s
    let put := fun (v : Mu) => issued s 3 (.arPal k o) k v
    (o.opc = .fin → go = put { u with palNew := some u.palPart, palPart := [] }) ∧
    (o.opc ≠ .fin → u.palPart.length < 3 → go = put { u with palPart := u.palPart ++ [o] }) ∧
    (o.opc ≠ .fin → u.palPart.length = 3 → go = put { u with palNew := some (u.palPart ++ [o]), palPart := [] })

/-- R227, R230 to R243: the moves that set a matrix unit, and its palette. -/
def Obligations.MuMovesSetTheirUnit : Prop := Claims.MuSettings ∧ Claims.MuPalette

/-- R228, R229, R230: SEQ.TAKE takes the easel's head, posted in an earlier cycle, into the B hold or as the current A tile with both row
pointers at 0, and waits for one; a place already taken is a MU_BUNDLE fault. SEQ.JUMP goes to its bay, or to the bay of TAG. SEQ.LOOPN
pushes a loop of its count; SEQ.ENDL goes back to the loop's body or ends the loop; with H = 1 either is reserved. SEQ.DONE empties the A tile's slot, leaves its
token to complete, and rests the unit or goes on. -/
def Obligations.MuSequenceTakesJumpsAndLoops : Prop :=
  ∀ (s : State) (k : Bool), AtIssue s →
    let m := s.curMu
    let u := s.mu m
    (∀ (e : Tile) (l : List Tile), u.easel = e :: l → e.cyc < s.now → u.loads = [] →
      (e.kind = 1 → u.bHold = none →
        exec (.seqTake k) s = issued s 0 (.seqTake k) k { u with easel := l, bHold := some e, bLoaded := true }) ∧
      (e.kind ≠ 1 → u.curA = none → exec (.seqTake k) s = issued s 0 (.seqTake k) k
        { u with easel := l, curA := some e, afRow := 0, drRow := 0, firstOut := 0, nOut := 0 }) ∧
      (e.kind = 1 ∧ u.bHold ≠ none ∨ e.kind ≠ 1 ∧ u.curA ≠ none → exec (.seqTake k) s = refused s 6)) ∧
    (u.easel = [] → exec (.seqTake k) s = .next s) ∧
    (∀ b : BitVec 7, exec (.seqJump k (.bay b)) s =
      .next (s.setMu m { moved u 0 (.seqJump k (.bay b)) k u with bpc := 256 * b.toNat })) ∧
    (∀ a, u.curA = some a → exec (.seqJump k .htag) s = .next (s.setMu m { moved u 0 (.seqJump k .htag) k u with bpc := 256 * a.tag })) ∧
    (∀ c, k = true → exec (.seqLoopn k c) s = refused s 1) ∧
    (k = true → exec (.seqEndl k) s = refused s 1) ∧
    (∀ c : BitVec 7, k = false → u.loops.length < 4 → exec (.seqLoopn k (.imm c)) s =
      issued s 0 (.seqLoopn k (.imm c)) k { u with loops := ⟨u.bpc + 8, c.toNat + 1, 0⟩ :: u.loops }) ∧
    (∀ c : BitVec 7, k = false → 4 ≤ u.loops.length → exec (.seqLoopn k (.imm c)) s = refused s 7) ∧
    (∀ a, k = false → u.curA = some a → u.loops.length < 4 → a.hlog ≤ 8 → exec (.seqLoopn k (.out .hrows)) s =
      issued s 0 (.seqLoopn k (.out .hrows)) k { u with loops := ⟨u.bpc + 8, 2 ^ a.hlog, 0⟩ :: u.loops }) ∧
    (∀ (x : Loop) (l : List Loop), k = false → u.loops = x :: l → 1 < x.left → exec (.seqEndl k) s = .next (s.setMu m
      { moved u 0 (.seqEndl k) k { u with loops := { x with left := x.left - 1, index := x.index + 1 } :: l } with bpc := x.body })) ∧
    (∀ (x : Loop) (l : List Loop), k = false → u.loops = x :: l → x.left ≤ 1 →
      exec (.seqEndl k) s = issued s 0 (.seqEndl k) k { u with loops := l }) ∧
    (k = false → u.loops = [] → exec (.seqEndl k) s = refused s 7) ∧
    (u.curA = none → exec (.seqDone k false) s = refused s 8 ∧ exec (.seqDone k true) s = refused s 8) ∧
    (∀ a, u.curA = some a → u.feeds = [] → ∃ t t' due, exec (.seqDone k true) s = .next t ∧ exec (.seqDone k false) s = .next t' ∧
      u.cyc < due ∧ (u.pipe = [] → u.sealOuts = [] → due = u.cyc + 1) ∧
      (t.tslot (m / 2) a.ring a.slot).st = .empty ∧ (t'.tslot (m / 2) a.ring a.slot).st = .empty ∧
      (let r := u.runTok ++ [⟨due, a.ring, a.slot, a.gen, ⟨.done, 0, u.firstOut + u.nOut * 2 ^ 16⟩,
          (s.tslot (m / 2) a.ring a.slot).closers⟩];
        t.mu m = moved u 0 (.seqDone k true) k { u with curA := none, runTok := r } ∧
        t'.mu m = { u with curA := none, runTok := r, bpc := u.bpc + 8, rep := 0, fell := false, lastBpc := u.bpc, held := [],
                           st := .resting, loops := [] }) ∧
      t.mem = s.mem ∧ t'.mem = s.mem ∧ t.slots = s.slots ∧ t'.slots = s.slots)

namespace Sys2Proof.Claims

/-- K indices of a row-cycle of a mode (R64), and the modes whose rows take a bank pair (R234). -/
def kOf : ArMode → Nat
  | .bf16 | .fp16 => 64
  | .int8 => 128
  | .l6 => 256
  | .fp32 | .micro => 16
  | .fp32c => 8
def paired (m : ArMode) : Prop := m = .l6 ∨ m = .fp32c

/-- The table of R233 and the checks behind it: mode, source (a bank, or an A tile of format `f`), tag of the front canvas, DEST, ACCUM and palette. -/
def FeedFits (md : ArMode) (bank : Bool) (f : Nat) (tag : CanTag) (dest : Nat) (ac : Accum) (pal : Option (List PalOp)) : Prop :=
  (match md with
    | .bf16 => if bank then tag = .had else f = 1 ∧ (tag = .fmt 1 ∨ tag = .had)
    | .fp16 => if bank then tag = .had else f = 2 ∧ (tag = .fmt 2 ∨ tag = .had)
    | .int8 => bank = false ∧ (f = 4 ∨ f = 5) ∧ (tag = .fmt 4 ∨ tag = .fmt 5)
    | .l6 => bank = false ∧ f = 3 ∧ tag = .fmt 3
    | _ => (bank = true ∨ f ≤ 2) ∧ (tag = .had ∨ tag = .fmt 0 ∨ tag = .fmt 1 ∨ tag = .fmt 2)) ∧
  (paired md → dest % 2 = 0) ∧ (md = .int8 ∨ md = .l6 → ac ≠ .pinf ∧ ac ≠ .ninf) ∧ (md = .micro → pal ≠ none)

/-- The start row that a FEED or a DRAIN names: the row pointer, or the value of an output (R231, R238). -/
def StartsAt (s : State) (st : Option OutPort) (ptr row : Nat) : Prop :=
  (st = none ∧ row = ptr) ∨ ∃ p, st = some p ∧ outVal s (s.mu s.curMu) p = (row, s) ∧ row < 256

end Sys2Proof.Claims

/-- R231 to R233: AF.FEED of n rows, or of the rows to the end, from the row pointer or an output, of the current A tile or of a bank, in every mode: where
R233 admits it, it queues a feed that captures the settings and moves the pointer on, and else it is a MU_BUNDLE fault, as is a 17th feed. R238:
DR.DRAIN of n rows of the selected bank, with OW writes off or into the open out tile, captures the settings as the unit's drain and moves its
pointer on; an out tile that is missing, of another format or too short, rows beyond 256 and a second drain are MU_BUNDLE faults. A poisoned
bank is a MU_POISON fault that shows the bank's bad row in mu.stat. -/
def Sys2Proof.Claims.MuFeedsAndDrains : Prop :=
  ∀ (s : State) (k : Bool) (st : Option OutPort) (n : BitVec 7) (row : Nat), AtIssue s →
    let m := s.curMu
    let u := s.mu m
    let rows := fun (ext : Nat) => if n = 0 then ext - row else n.toNat
    let feed := exec (.afFeed k st n) s
    let drain := exec (.drDrain k st n) s
    let sound := fun (d : Nat) => d < 4 ∧ ∀ b : BitVec 2, b.toNat = d ∨ paired u.arMode ∧ b.toNat = d + 1 → (bankOf u b).poison = false
    let queued := fun (src : FeedSrc) (a : Option Tile) (cnt : Nat) => issued s 1 (.afFeed k st n) k
      { u with afRow := row + cnt,
               feeds := u.feeds ++ [⟨src, a, row, cnt, 8 * u.afBase, u.arMode, u.palette.getD [], u.arDest, u.arAccum, u.cyc + 1⟩] }
    let poisoned := fun (b : BitVec 2) => Host.Outcome.next (muHalt (s.setMu m { u with frow := (bankOf u b).frow, fb := (bankOf u b).fb }) m 0x0C 0x10
      (bankOf u b).faddr (bankOf u b).frow)
    (StartsAt s st u.afRow row → u.feeds.length < 16 →
      (∀ a, u.afFrom = .tile → u.curA = some a →
        let cnt := rows (2 ^ a.hlog)
        let legal := FeedFits u.arMode false (s.ring (m / 2) a.ring).fmt u.front.tag u.arDest u.arAccum u.palette ∧ 0 < cnt ∧ row + cnt ≤ 2 ^ a.hlog ∧
          8 * u.afBase % 256 + kOf u.arMode ≤ 256
        (legal → sound u.arDest → feed = queued .tile (some a) cnt) ∧ (¬legal → feed = refused s 4) ∧
        (∀ b : BitVec 2, legal → b.toNat = u.arDest → (bankOf u b).poison = true → feed = poisoned b)) ∧
      (∀ c, u.afFrom = .bank c →
        let cnt := rows 256
        let legal := FeedFits u.arMode true 0 u.front.tag u.arDest u.arAccum u.palette ∧ 0 < cnt ∧ row + cnt ≤ 256 ∧
          8 * u.afBase % 256 + kOf u.arMode ≤ 256
        (legal → sound u.arDest → feed = queued (.bank c) none cnt) ∧ (¬legal → feed = refused s 4)) ∧
      (u.afFrom = .tile → u.curA = none → feed = refused s 4)) ∧
    (16 ≤ u.feeds.length → (∃ p, st = some p ∧ outVal s u p = (row, s)) ∨ st = none → feed = refused s 3) ∧
    (StartsAt s st u.drRow row → u.drain = none → ∀ b : BitVec 2, u.acSel = b.toNat →
      let cnt := rows ((u.curA.map fun a => 2 ^ a.hlog).getD 0)
      let writes := u.owEn = false ∨ ∃ o, u.outTile = some o ∧ (s.ring (m / 2) o.ring).fmt = u.drFmt.code ∧
        8 * u.owBase + row + cnt ≤ 2 ^ (s.ring (m / 2) o.ring).hlog
      let legal := 0 < cnt ∧ row + cnt ≤ 256 ∧ writes
      (legal → (bankOf u b).poison = false → drain = issued s 5 (.drDrain k st n) k
        { u with drRow := row + cnt,
                 drain := some ⟨b.toNat, row, cnt, u.drFmt, u.drScale, u.drRound, u.ppOp, if u.ppK = 0 then 128 else u.ppK,
                   u.ppPasses, if u.ppNcol = 0 then 128 else u.ppNcol, if u.owEn then u.outTile else none, u.owBase, u.cyc + 1⟩ }) ∧
      (legal → (bankOf u b).poison = true → drain = poisoned b) ∧ (¬legal → drain = refused s 9)) ∧
    (u.drain ≠ none → (∃ p, st = some p ∧ outVal s u p = (row, s)) ∨ st = none → drain = refused s 9)

/-- R236: BL.LOAD, with a B tile held and the back free, fills the back canvas in 32 cycles with the tile's valid rows, decoded under the ring's
format, and for L6 with the column scales behind them; BL.HAD fills it with rows of
H128; BL.SWAP exchanges the halves; BL.POP, behind a complete load, gives the B tile's slot back. R242: OW.OPEN opens the ring's next slot as
the out tile, with the first GEN after its last; OW.SEALOUT seals it, at once when no row of it is under way, in
the next cycle when its last row has been written in this one. That BL.HAD may go with a B tile held, and the element count of a B row of L6, is
assumption 32, that the canvas holds INT4 elements as INT8 codes assumption 85, that a B tile's rows are read when BL.LOAD issues assumption 98. -/
def Sys2Proof.Claims.MuCanvasAndOut : Prop :=
  ∀ (s : State) (k half : Bool) (ring : BitVec 4), AtIssue s →
    let m := s.curMu
    let u := s.mu m
    let cl := m / 2
    (∀ t, u.bHold = some t → u.fill = none → (s.ring cl t.ring).fmt ≠ 3 → ∃ h, exec (.blLoad k) s = issued s 2 (.blLoad k) k
        { u with fill := some (u.cyc + 32, h), fillStart := u.cyc, bLoaded := false } ∧
      (let g := s.ring cl t.ring;
        h.tag = .fmt g.fmt ∧ (g.fmt ≠ 3 → h.scales = []) ∧
        (∀ r, bit t.mask r = false ∨ 2 ^ t.hlog ≤ r → tget h.rows r = none) ∧
        (g.fmt < 6 → ∀ r, bit t.mask r = true → r < 2 ^ t.hlog → ∃ row, tget h.rows r = some row ∧ ∀ j, j < 128 →
          CanvasElem g.fmt (memBytes s.mem (locSp cl (g.base + t.slot * g.slotb + r * g.rowb)) g.rowb) j ((row[j]?).getD 0)))) ∧
    (∀ t, u.bHold = some t → u.fill = none → (s.ring cl t.ring).fmt = 3 →
      let g := s.ring cl t.ring;
      (g.slotb < g.rowb * 2 ^ t.hlog + 512 → exec (.blLoad k) s = refused s 5) ∧
      (g.rowb * 2 ^ t.hlog + 512 ≤ g.slotb → ∃ h, exec (.blLoad k) s = issued s 2 (.blLoad k) k
          { u with fill := some (u.cyc + 32, h), fillStart := u.cyc, bLoaded := false } ∧ h.tag = .fmt 3 ∧
        (∀ r, bit t.mask r = false ∨ 2 ^ t.hlog ≤ r → tget h.rows r = none) ∧
        (∀ r, bit t.mask r = true → r < 2 ^ t.hlog → ∃ row, tget h.rows r = some row ∧ ∀ j, j < 128 →
          CanvasElem 3 (memBytes s.mem (locSp cl (g.base + t.slot * g.slotb + r * g.rowb)) g.rowb) j ((row[j]?).getD 0)) ∧
        ∀ j, j < 128 → (h.scales[j]?) =
          some (memRead s.mem (locSp cl (g.base + t.slot * g.slotb + g.rowb * 2 ^ t.hlog + 4 * j)) 4))) ∧
    (u.bHold = none ∨ u.fill ≠ none → exec (.blLoad k) s = refused s 5) ∧
    (u.fill = none → ∃ h, exec (.blHad k half) s = issued s 2 (.blHad k half) k { u with fill := some (u.cyc + 32, h), fillStart := u.cyc } ∧
      h.tag = .had ∧ ∀ r j, r < 64 → j < 128 →
        ((tget h.rows (r + if half then 64 else 0)).bind (·[j]?)) = some (if oddBits ((r + if half then 64 else 0) &&& j) then 0xBF800000 else 0x3F800000)) ∧
    (u.fill = none → exec (.blSwap k) s = issued s 2 (.blSwap k) k { u with front := u.back, back := u.front }) ∧
    (u.fill ≠ none → exec (.blSwap k) s = refused s 5 ∧ exec (.blHad k half) s = refused s 5) ∧
    (∀ t, u.bHold = some t → u.bLoaded = true → (s.tslot cl t.ring t.slot).closers = [] → ∃ x, exec (.blPop k) s = .next x ∧
      x.mu m = moved u 2 (.blPop k) k { u with bHold := none, bLoaded := true } ∧ (x.tslot cl t.ring t.slot).st = .empty ∧
      (x.tslot cl t.ring t.slot).rcd = ⟨.done, 0, 0⟩ ∧ x.mem = s.mem) ∧
    (u.bHold = none ∨ u.bLoaded = false → exec (.blPop k) s = refused s 5) ∧
    (let g := s.ring cl ring.toNat
      let t := g.slot g.openPtr
      (g.en = true → g.kind = 2 → t.st = .empty → u.outTile = none → ∃ x, exec (.owOpen k ring) s = .next x ∧
        x.mu m = moved u 7 (.owOpen k ring) k { u with outTile := some ⟨ring.toNat, g.openPtr, (t.gen + 1) % 16⟩ } ∧
        (x.tslot cl ring.toNat g.openPtr).st = .opened ∧ (x.tslot cl ring.toNat g.openPtr).gen = (t.gen + 1) % 16 ∧
        (x.ring cl ring.toNat).openPtr = (g.openPtr + 1) % (g.nslot + 1) ∧ x.mem = s.mem) ∧
      (g.en = false ∨ g.kind ≠ 2 ∨ t.st ≠ .empty ∨ u.outTile ≠ none → exec (.owOpen k ring) s = refused s 10)) ∧
    (∀ o, u.outTile = some o → u.pipe = [] → u.wrote = [] → ∃ x, exec (.owSealout k) s = .next x ∧
      x.mu m = moved u 7 (.owSealout k) k { u with outTile := none, nOut := u.nOut + 1, firstOut := if u.nOut = 0 then o.ring * 2 ^ 12 + o.slot * 2 ^ 4 + o.gen else u.firstOut } ∧
      (x.tslot cl o.ring o.slot).st = .sealed ∧ x.mem = s.mem) ∧
    (∀ o, u.outTile = some o → u.pipe = [] → u.wrote = [o] → exec (.owSealout k) s = issued s 7 (.owSealout k) k { u with
      outTile := none, nOut := u.nOut + 1, firstOut := if u.nOut = 0 then o.ring * 2 ^ 12 + o.slot * 2 ^ 4 + o.gen else u.firstOut,
      sealOuts := u.sealOuts ++ [⟨u.cyc + 1, o⟩] }) ∧
    (u.outTile = none → exec (.owSealout k) s = refused s 10)

/-- R225, R231 to R242: feeds, drains, the canvas and the out tile (assumptions 32, 85 and 98). -/
def Obligations.MuFeedsDrainsAndCanvasAreQueued : Prop := Claims.MuFeedsAndDrains ∧ Claims.MuCanvasAndOut

namespace Sys2Proof.Claims

/-- The entry at an easel's head, posted before this cycle, with no routine load before it (R218, R220). -/
structure Offered (s : State) (m : Nat) (e : Tile) (l : List Tile) : Prop where
  head : (s.mu m).easel = e :: l
  before : e.cyc < s.now
  noLoad : (s.mu m).loads = []

/-- Row `r` of a bank. -/
def rowOf (k : Bank) (r : Nat) : AccRow := (tget k.rows r).getD {}

/-- Exact dot product of two rows of INT8 codes (R65). -/
def dot8 (a b : List Nat) : Int := ((a.zip b).map fun p => sext p.1 8 * sext p.2 8).sum

/-- Column `j` of the canvas rows that a row in the array has read. -/
def columnOf (x : InArr) (j : Nat) : List Nat := x.can.map fun r => (r[j]?).getD 0

/-- The start value of cell `j`, and of the paired cell, for a landing row: `lo` and `hi` the accumulator row and the same row of the next bank (R234). -/
def startsFrom (x : InArr) (lo hi : AccRow) (j : Nat) : Nat × Nat :=
  match x.acc with
  | .acc => if lo.tag = some x.mode then ((lo.cells[j]?).getD 0, (hi.cells[j]?).getD 0) else (0, 0)
  | .zero => (0, 0)
  | .pinf => (0x7F800000, 0)
  | .ninf => (0xFF800000, 0)

/-- What the mode's rule of R64 makes of a cell that starts from `c` with the elements of column `b`: `lo`, and `hi` in the paired bank; the operations
of R63 are `muAdd` and `muMul`, the steps of R65 and R66 `twoSum` and `palStep`. -/
def CellAfter (x : InArr) (c : Nat × Nat) (b : List Nat) (lo hi : Nat) : Prop :=
  match x.mode with
  | .bf16 | .fp16 => lo = muAdd c.1 (tree 6 ((x.a.zip b).map fun p => muMul p.1 p.2))
  | .int8 => lo < 2 ^ 32 ∧ sext lo 32 = max (-2 ^ 31) (min (2 ^ 31 - 1) (sext c.1 32 + dot8 x.a b))
  | .l6 => lo < 2 ^ 32 ∧ hi < 2 ^ 32 ∧ sext (lo + 2 ^ 32 * hi) 64 =
      max (-2 ^ 55) (min (2 ^ 55 - 1) (sext (c.1 + 2 ^ 32 * c.2) 64 + ((x.a.zip b).map fun p => l6Mul p.1 p.2).sum))
  | .fp32 => lo = (x.a.zip b).foldl (fun t p => muAdd t (muMul p.1 p.2)) c.1
  | .fp32c => (lo, hi) = (x.a.zip b).foldl (fun t p => twoSum t (muMul p.1 p.2)) c
  | .micro => lo = (x.a.zip b).foldl (fun t p => palStep x.pal p.1 p.2 t 0) c.1

/-- An element is a NaN; the greatest and the least of some elements as ROWMAX and ROWMIN take them (R240). -/
def nan32 (v : Nat) : Bool := isNaN .f32 (BitVec.ofNat 64 v)
def place32 (v : Nat) : Int := place true .f32 (BitVec.ofNat 64 v)
def Greatest (l : List Nat) (v : Nat) : Prop :=
  if l.all nan32 then v = 0x7FC00000 else v ∈ l ∧ nan32 v = false ∧ ∀ y ∈ l, nan32 y = false → place32 y ≤ place32 v
def Least (l : List Nat) (v : Nat) : Prop :=
  if l.all nan32 then v = 0x7FC00000 else v ∈ l ∧ nan32 v = false ∧ ∀ y ∈ l, nan32 y = false → place32 v ≤ place32 y

/-- The elements that THR compares, NaNs as -infinity, and whether column `c` is one of S, the columns at or above the threshold (R241). -/
def thrElems (xs : List Nat) (ncol : Nat) : List Nat := (xs.take ncol).map fun x => if isNaN .f32 (BitVec.ofNat 64 x) then 0xFF800000 else x
def inS (ys : List Nat) (lo c : Nat) : Bool := (ys[c]?).any fun y => fcond .ge .f32 (BitVec.ofNat 64 y) (BitVec.ofNat 64 lo)

/-- What a THR of `k` columns and `n` passes leaves of a row (R241): the first `k` columns of S, `fill` elsewhere, the threshold and the size of S. -/
def Thresholds (xs : List Nat) (ncol k n fill : Nat) (row : List Nat) (lo cnt : Nat) : Prop :=
  let ys := thrElems xs ncol
  ∃ a b, Least ys a ∧ Greatest ys b ∧ lo = bisect ys k n a b ∧ cnt = ((List.range ys.length).filter (inS ys lo)).length ∧
    ∀ c, c < 128 → row[c]? = some (if inS ys lo c && decide (((List.range c).filter (inS ys lo)).length < k) then (xs[c]?).getD 0 else fill)

/-- What PP makes of row `p` that entered with V[r] = `v` (R240): the row that leaves, the new V[r] and survivor count, where they change. -/
def PpDoes (p : InPipe) (v : Nat) (row : List Nat) (nv cnt : Option Nat) : Prop :=
  let each := fun (f : Nat → Nat) => nv = none ∧ cnt = none ∧ ∀ c, c < 128 →
    row[c]? = some (if c < p.ncol then f ((p.vals[c]?).getD 0) else (p.vals[c]?).getD 0)
  let reduces := fun (r : Nat → Prop) => row = p.vals ∧ cnt = none ∧ ∃ w, nv = some w ∧ r w
  match p.op with
  | .none => row = p.vals ∧ nv = none ∧ cnt = none
  | .rowmax => reduces (Greatest (p.vals.take p.ncol))
  | .rowmin => reduces (Least (p.vals.take p.ncol))
  | .rowsum => reduces (· = tree 7 ((List.range 128).map fun c => if c < p.ncol then (p.vals[c]?).getD 0 else 0))
  | .exp2 => each fun x => exp2 (muSub x v)
  | .mulv => each fun x => muMul x v
  | .divv => each fun x => muDiv x v
  | .thrNeg => ∃ lo n, nv = some lo ∧ cnt = some n ∧ Thresholds p.vals p.ncol p.k p.passes 0xFF800000 row lo n
  | .thrZero => ∃ lo n, nv = some lo ∧ cnt = some n ∧ Thresholds p.vals p.ncol p.k p.passes 0 row lo n

/-- Cycles from a row's read to its exit from PP (R223). -/
def ppExitAt (p : InPipe) : Nat := p.rd + 10 + if p.op = .thrNeg ∨ p.op = .thrZero then p.passes else 0

/-- The unit `m` has halted at its issue with this fault (R243): its record stands at cl.farea + 64 for the odd unit, and no other byte of
memory has changed. -/
structure MuHalted (s t : State) (m code reason addr prog : Nat) : Prop where
  unit : t.mu m = { s.mu m with st := .halted, reason := reason, code := code, lastBpc := (s.mu m).bpc }
  units : ∀ k, k ≠ m → t.mu k = s.mu k
  record : let r := memRead t.mem ((s.cluster (m / 2)).farea.toNat / 2 ^ 7 % 2 ^ 41 * 2 ^ 7 + 64 * (m % 2)) 64
    r = code + 128 * (m / 2) * 2 ^ 16 + (s.mu m).bpc * 2 ^ 64 + addr * 2 ^ 128 + prog % 2 ^ 32 * 2 ^ 320
  memory : let a := (s.cluster (m / 2)).farea.toNat / 2 ^ 7 % 2 ^ 41 * 2 ^ 7 + 64 * (m % 2)
    ∀ b, b < a ∨ a + 64 ≤ b → memGet t.mem b = memGet s.mem b
  upcall : ∃ e ∈ (t.core (8 * (m / 2))).upcalls, e.slot = 0 ∧ e.kind = 0

end Sys2Proof.Claims

/-- R220 to R223, R236: a RESTING unit takes the easel's head: an A entry starts a run at the bay of its TAG with nothing held and no loop, a B
entry goes to a free B hold; no other unit takes. The canvas completes in its cycle. The next row of a feed enters the array, with the elements that its tile's row or its bank's row
holds from the feed's base on and the canvas rows that they meet, to land 72 cycles later (R232); the next row of a drain is read, its cells' values times the
drain scale (R67, R238), or passes when it is not valid. -/
def Sys2Proof.Claims.MuIntake : Prop :=
  ∀ (s : State) (m : Nat),
    let u := s.mu m
    (∀ e l, Offered s m e l → u.st = .resting →
      (e.kind ≠ 1 → exec (.dispatchTake m) s = .next (s.setMu m { u with
          st := .running, easel := l, curA := some e, afRow := 0, drRow := 0, firstOut := 0,
          nOut := 0, bpc := 256 * e.tag, rep := 0, fell := false, held := [], loops := [] })) ∧
      (e.kind = 1 → u.bHold = none →
        exec (.dispatchTake m) s = .next (s.setMu m { u with easel := l, bHold := some e, bLoaded := true }))) ∧
    (u.st ≠ .resting → exec (.dispatchTake m) s = .next s) ∧
    (∀ d h, u.fill = some (d, h) →
      (d ≤ u.cyc → exec (.canvasLoadComplete m) s = .next (s.setMu m { u with back := h, fill := none, bLoaded := true })) ∧
      (u.cyc < d → exec (.canvasLoadComplete m) s = .next s)) ∧
    (∀ f l, u.feeds = f :: l → u.st ≠ .halted → f.at_ ≤ u.cyc →
      let enters := fun (valid : Bool) (elems : List Nat) (rs : Nat) => s.setMu m { u with
        arr := u.arr ++ [⟨u.cyc + 72, f.row, valid, f.mode, f.pal, f.dest, f.acc, elemsFrom elems f.k0 (kOf f.mode), canRows u.front f.k0 (kOf f.mode), rs⟩],
        feeds := if f.left ≤ 1 then l else { f with row := f.row + 1, left := f.left - 1 } :: l }
      (∀ t, f.tile = some t → s.ecc = [] → exec (.feedRowEntry m) s = .next (enters (bit t.mask f.row) (tileRow s m t f.row)
        (memRead s.mem (locSp (m / 2) ((s.ring (m / 2) t.ring).rowOff t.slot f.row + (s.ring (m / 2) t.ring).rowb - 4)) 4))) ∧
      (∀ b : BitVec 2, f.tile = none → f.src = .bank b →
        exec (.feedRowEntry m) s = .next (enters (rowOf (bankOf u b) f.row).valid (bankRow u b.toNat f.row) 0x3F800000))) ∧
    (∀ d b, u.drain = some d → b.toNat = d.bank → u.st ≠ .halted → d.at_ ≤ u.cyc →
      let rest := if d.left ≤ 1 then none else some { d with row := d.row + 1, left := d.left - 1 }
      ((rowOf (bankOf u b) d.row).valid = false → exec (.drainRowRead m) s = .next (s.setMu m { u with drain := rest })) ∧
      ((rowOf (bankOf u b) d.row).valid = true → exec (.drainRowRead m) s = .next (s.setMu m { u with
          drain := rest,
          pipe := u.pipe ++ [⟨u.cyc, d.row, true, (bankRow u d.bank d.row).map fun v => muMul v (drainScale d.scale), none, false, d.fmt, d.rm,
            d.op, d.k, d.passes, d.ncol, d.out, d.base⟩] })))

/-- R64, R65, R66, R223, R234: a valid row lands in its cycle: each cell becomes what the rule of its mode gives from the start value that ACCUM names and the
products of the row and the column of the canvas; the row, in both banks of a pair, is valid with the mode's tag, an L6 row with its scale, and no
other row or bank changes. An invalid row leaves every cell and clears the valid bit. A row not yet due does nothing. That the tag of the even bank
alone says whether a pair accumulates is assumption 97. -/
def Sys2Proof.Claims.RowLanding : Prop :=
  ∀ (s : State) (m : Nat) (x : InArr) (l : List InArr) (b : BitVec 2), (s.mu m).arr = x :: l → b.toNat = x.dest → (paired x.mode → x.dest % 2 = 0) →
    let u := s.mu m
    let lo := rowOf (bankOf u b) x.row
    let hi := rowOf (bankOf u (b + 1)) x.row
    (u.cyc < x.due → exec (.rowLanding m) s = .next s) ∧
    (x.due ≤ u.cyc → x.valid = true → ∃ t, exec (.rowLanding m) s = .next t ∧ t.mem = s.mem ∧
      t.slots = s.slots ∧ (t.mu m).arr = l ∧
      let v := t.mu m
      let lo' := rowOf (bankOf v b) x.row
      let hi' := rowOf (bankOf v (b + 1)) x.row
      (∀ j, j < 128 → ∃ c d, lo'.cells[j]? = some c ∧ (paired x.mode → hi'.cells[j]? = some d) ∧
        CellAfter x (startsFrom x lo hi j) (columnOf x j) c d) ∧
      lo'.valid = true ∧ lo'.tag = some x.mode ∧ (paired x.mode → hi'.valid = true ∧ hi'.tag = some x.mode) ∧
      (lo'.scale = if x.mode = .l6 then x.rscale else lo.scale) ∧
      (∀ r, r ≠ x.row → rowOf (bankOf v b) r = rowOf (bankOf u b) r ∧ rowOf (bankOf v (b + 1)) r = rowOf (bankOf u (b + 1)) r) ∧
      (∀ k, k ≠ b → ¬(paired x.mode ∧ k = b + 1) → bankOf v k = bankOf u k)) ∧
    (x.due ≤ u.cyc → x.valid = false → ∃ t, exec (.rowLanding m) s = .next t ∧ (t.mu m).arr = l ∧ t.mem = s.mem ∧
      rowOf (bankOf (t.mu m) b) x.row = { lo with valid := false, tag := some x.mode } ∧
      (paired x.mode → rowOf (bankOf (t.mu m) (b + 1)) x.row = { hi with valid := false, tag := some x.mode }))

/-- R214, R223, R230, R239 to R242: a row in PP reads V[r] 6 cycles behind its read and leaves PP in its cycle as the captured operation makes it, with V[r] and the survivor count; a row that has
left PP is written into its slot of the out tile, packed in the out format, which counts it; a SEALOUT seals its tile in its
cycle; a run's token completes DONE with its COUNT in its cycle, and none of these sooner. -/
def Sys2Proof.Claims.MuOutput : Prop :=
  ∀ (s : State) (m : Nat),
    let u := s.mu m
    let cl := m / 2
    (∀ p, u.pipe = [p] → p.done = false → p.v = none → u.cyc < p.rd + 10 → ∃ x, exec (.outRowWrite m) s = .next x ∧ x.mem = s.mem ∧
      x.mu m = { u with pipe := [{ p with v := if p.rd + 6 ≤ u.cyc then some ((tget u.v p.row).getD 0) else none }], wrote := [] }) ∧
    (∀ p v, u.pipe = [p] → p.done = false → p.v = some v → p.vals.length = 128 → (∀ y ∈ p.vals, y < 2 ^ 32) → p.ncol ≤ 128 →
      (u.cyc < ppExitAt p → ∃ x, exec (.outRowWrite m) s = .next x ∧ (x.mu m).pipe = [p] ∧ (x.mu m).v = u.v ∧ x.mem = s.mem) ∧
      (ppExitAt p ≤ u.cyc → u.cyc < ppExitAt p + 2 → ∃ x row nv cnt, exec (.outRowWrite m) s = .next x ∧ PpDoes p v row nv cnt ∧
        x.mu m = { u with pipe := [{ p with vals := row, done := true }], wrote := [], v := (nv.map (tput u.v p.row)).getD u.v,
                          ppCount := cnt.getD u.ppCount } ∧ x.mem = s.mem ∧ x.clusters = s.clusters)) ∧
    (∀ p o, u.pipe = [p] → p.done = true → p.v ≠ none → p.out = some o → ppExitAt p + 2 ≤ u.cyc →
      let g := s.ring cl o.ring
      let t := g.slot o.slot
      let r := 8 * p.base + p.row
      bit t.mask r = false → ∃ x, exec (.outRowWrite m) s = .next x ∧ x.mu m = { u with pipe := [], wrote := [o] } ∧
        x.mem = memPut s.mem (locSp cl (g.rowOff o.slot r)) ((outBytes p.fmt p.rm p.vals).take g.rowb) ∧
        x.tslot cl o.ring o.slot = { t with claimed := t.claimed + 1, marked := t.marked + 1, valid := t.valid + 1, mask := t.mask + 2 ^ r,
                                            rows := t.rows + 2 ^ r }) ∧
    (∀ p, u.pipe = [p] → p.done = true → p.v ≠ none → u.cyc < ppExitAt p + 2 → ∃ x, exec (.outRowWrite m) s = .next x ∧
      x.mu m = { u with wrote := [] } ∧ x.mem = s.mem ∧ x.clusters = s.clusters) ∧
    (∀ o, u.sealOuts = [o] →
      (o.due ≤ u.cyc → ∃ x, exec (.sealoutComplete m) s = .next x ∧ x.mu m = { u with sealOuts := [] } ∧
        x.tslot cl o.out.ring o.out.slot = { s.tslot cl o.out.ring o.out.slot with st := .sealed } ∧ x.mem = s.mem) ∧
      (u.cyc < o.due → ∃ x, exec (.sealoutComplete m) s = .next x ∧ x.mu m = u ∧ x.clusters = s.clusters)) ∧
    (∀ k i, u.runTok = [k] → k.closers = [i] → k.rcd.st = .done →
      (k.due ≤ u.cyc → ∃ x, exec (.runTokenComplete m) s = .next x ∧ (x.mu m).runTok = [] ∧
        (x.cluster cl).tok (2 + m % 2) i = { (s.cluster cl).tok (2 + m % 2) i with st := .done, count := k.rcd.count }) ∧
      (u.cyc < k.due → ∃ x, exec (.runTokenComplete m) s = .next x ∧ x.mu m = u ∧ x.clusters = s.clusters))

/-- R206, R223, R230 to R242: what the matrix unit does on its own behind its moves (assumption 97). -/
def Obligations.MuRowsEnterLandAndLeave : Prop := Claims.MuIntake ∧ Claims.RowLanding ∧ Claims.MuOutput

/-- R243 to R245, R342: a fault of a unit halts it with its record, at the place and with the CTXID of R342 (assumption 32) and STAMP 0 (assumption 85),
and an upcall to the control context of core 0 of its cluster. A bad A row halts it with
MU_POISON at its entry: the row does not land, the feeds behind it are discarded, and the flag of its bank is set; a bad row of a B load does so at its
read, and the back canvas keeps its rows from there on. RESUME of a halted unit, a frozen one too (assumption 85),
issues its bundle again; REST empties the current tile's slot, makes its token FAULTED with the halting code, clears the feeds, the drain and
the loops and rests the unit; both do nothing to a unit that is not halted. -/
def Obligations.MuFaultsHaltAndRestart : Prop :=
  ∀ (s : State),
    (∀ m code reason addr prog, Memory.wf s.mem = true → code < 2 ^ 8 → m < 512 → (s.mu m).bpc < 2 ^ 64 → addr < 2 ^ 64 →
      MuHalted s (muHalt s m code reason addr prog) m code reason addr prog) ∧
    (∀ m f l t (b : BitVec 2), (s.mu m).feeds = f :: l → f.tile = some t → b.toNat = f.dest → Memory.wf s.mem = true → m < 512 →
      (s.mu m).bpc < 2 ^ 64 → rowBad s m t f.row = true → 0xFF00000000 + (s.ring (m / 2) t.ring).rowOff t.slot f.row < 2 ^ 64 →
      let u := s.mu m
      let a := 0xFF00000000 + (s.ring (m / 2) t.ring).rowOff t.slot f.row
      ∃ x, exec (.muPoison m none) s = .next x ∧ x.mu m = { withBank u b { (bankOf u b) with poison := true, frow := f.row, faddr := a, fb := false } with
        feeds := [], frow := f.row, fb := false, st := .halted, reason := 0x10, code := 0x0C, lastBpc := u.bpc } ∧
        ∃ e ∈ (x.core (8 * (m / 2))).upcalls, e.slot = 0 ∧ e.kind = 0) ∧
    (∀ m k d h t (b : BitVec 2), (s.mu m).fill = some (d, h) → (s.mu m).bHold = some t → b.toNat = (s.mu m).arDest → k < 2 ^ t.hlog →
      Memory.wf s.mem = true → m < 512 → (s.mu m).bpc < 2 ^ 64 → rowBad s m t k = true →
      0xFF00000000 + (s.ring (m / 2) t.ring).rowOff t.slot k < 2 ^ 64 →
      let u := s.mu m
      let a := 0xFF00000000 + (s.ring (m / 2) t.ring).rowOff t.slot k
      ∃ x, exec (.muPoison m (some k)) s = .next x ∧ x.mu m = { withBank u b { (bankOf u b) with poison := true, frow := k, faddr := a, fb := true } with
        fill := some (d, { h with rows := h.rows.filter (fun p => decide (p.1 < k)) ++ u.back.rows.filter (fun p => decide (k ≤ p.1)) }),
        frow := k, fb := true, st := .halted, reason := 0x10, code := 0x0C, lastBpc := u.bpc } ∧
        ∃ e ∈ (x.core (8 * (m / 2))).upcalls, e.slot = 0 ∧ e.kind = 0) ∧
    (∀ m k, (s.mu m).fill = none → exec (.muPoison m (some k)) s = .next s) ∧
    (∀ hi : Bool,
      let m := 2 * ctxCl s.cur + hi.toNat
      let u := s.mu m
      let rested := { u with st := .resting, curA := none, feeds := [], drain := none, loops := [], rep := 0, held := [], fell := false }
      (u.st ≠ .halted → exec (.muResume hi) s = .next s ∧ exec (.muRest hi) s = .next s) ∧
      (u.st = .halted → u.feeds = [] → u.drain = none → muFrozen s (m / 2) = false →
        exec (.muResume hi) s = .next (muIssue (s.setMu m { u with st := .running }) m)) ∧
      (u.st = .halted → u.feeds = [] → u.drain = none → muFrozen s (m / 2) = true →
        exec (.muResume hi) s = .next (s.setMu m { u with st := .running })) ∧
      (u.st = .halted → u.curA = none → exec (.muRest hi) s = .next (s.setMu m rested)) ∧
      (∀ a i, u.st = .halted → u.curA = some a → (s.tslot (m / 2) a.ring a.slot).closers = [i] → ∃ x, exec (.muRest hi) s = .next x ∧
        x.mu m = rested ∧ (x.tslot (m / 2) a.ring a.slot).st = .empty ∧
        ((x.cluster (m / 2)).tok (2 + m % 2) i).st = .faulted ∧ ((x.cluster (m / 2)).tok (2 + m % 2) i).code = u.code ∧ x.mem = s.mem))

namespace Sys2Proof.Claims

/-! ### Sequences and the KV space -/

/-- The issuing context, from `s`, waits for the answer of an operation that a lantern or a scheduler has performed: registers and a predicate to
be written at the answer, which is on its way as step `ev` (R102, R267). -/
def Answering (ev : Nat → Nat → Instr) (s t : State) (writes : List (Nat × Word)) (pred : Option (Pred × Bool)) : Prop :=
  ∃ o, t.me = { s.me with st := .parked (.reply o.tag), outst := s.me.outst ++ [o], sent := s.me.sent + 1 } ∧ o.writes = writes ∧
    o.pred = pred ∧ o.ctr = none ∧ o.posted = none ∧ o.flt = none ∧ o.raced = [] ∧
    ∃ e ∈ t.events, e.2 = ev s.cur o.tag ∧ s.now < e.1

/-- The state once the issuing context's operation waits at its lantern no longer. -/
def unwaiting (s : State) : State := { s with kvWait := s.kvWait.filter (·.ctx != s.cur) }

/-- A legal id whose sequence and home die can serve, with the lanterns enabled (R248, R249, R267), and no operation of another context that
waits on it. -/
structure SeqOk (s : State) (v : Word) : Prop where
  on : s.kvCtl.getLsbD 0 = true
  id : v.toNat < 2 ^ (s.sqTable.toNat % 32) ∧ v.toNat < 0xFFFFFF
  dies : s.dieGone (homeDie (cbAddr s v.toNat)) = false ∧ s.dieGone (readCb s v.toNat).home = false
  first : ∀ o ∈ s.kvWait, o.ctx = s.cur ∨ v.toNat ∉ o.seqs

/-- A sequence fault of R267: the id in SEQ, and an address. -/
def seqFlt (code seq addr : Nat) : Flt := { code := code, seq := seq, addr := addr }

/-- No byte outside the control block of sequence `i` has changed. -/
def OnlyCb (s t : State) (i : Nat) : Prop :=
  ∀ a, a < cbAddr s i ∨ cbAddr s i + 1024 ≤ a → memGet t.mem a = memGet s.mem a

/-- No legal id (R249, R267). -/
def BadId (s : State) (v : Word) : Prop := 2 ^ (s.sqTable.toNat % 32) ≤ v.toNat ∨ 0xFFFFFF ≤ v.toNat

/-- The position is committed once a run of `w` positions from `v` is. -/
def CommittedWith (s : State) (i v w p : Nat) : Prop := cmapBit s i p = true ∨ v ≤ p ∧ p < v + w

/-- Entry `j` is in the sharing set of the first `n` positions of a sequence (R253). -/
def Shares (s : State) (src n j : Nat) : Prop :=
  ∃ lb l h, 64 * lb < n ∧ l ≤ s.kvShape.toNat % 2 ^ 8 ∧ h ≤ s.kvShape.toNat / 2 ^ 8 % 2 ^ 8 ∧ readLookup s ⟨src, l, h, lb⟩ = some j

/-- Control blocks and entries of the inverted table lie clear of each other, and of some frames. -/
structure KvApart (s : State) (frames : List Nat) : Prop where
  tables : ∀ a j, a < 2 ^ (s.sqTable.toNat % 32) → j < kvN s → entAddr s j + 32 ≤ cbAddr s a ∨ cbAddr s a + 1024 ≤ entAddr s j
  entries : ∀ f ∈ frames, ∀ j, j < kvN s → entAddr s j + 32 ≤ f ∨ f + 16384 ≤ entAddr s j
  blocks : ∀ f ∈ frames, ∀ a, a < 2 ^ (s.sqTable.toNat % 32) → cbAddr s a + 1024 ≤ f ∨ f + 16384 ≤ cbAddr s a

/-- Bytes of a frame that belong to in-block position `q`, below the outliers (R78). -/
def ofPosition (q off : Nat) : Prop :=
  off < 0x1000 ∧ off / 64 = q ∨ 0x1000 ≤ off ∧ off < 0x3000 ∧ (off - 0x1000) / 128 = q ∨ 0x3100 ≤ off ∧ off < 0x3180 ∧ (off - 0x3100) / 2 = q

/-- The frame at `dst` is the copy of the one at `src` for an appender whose next in-block position is `f`, up to the summary rows (R254). -/
structure CopiedFor (s t : State) (src dst f : Nat) : Prop where
  kept : ∀ off, off < 0x3180 → (∀ q, f ≤ q → ¬ ofPosition q off) → memGet t.mem (dst + off) = memGet s.mem (src + off)
  cleared : ∀ off q, off < 0x3180 → f ≤ q → ofPosition q off → memGet t.mem (dst + off) = 0
  outliers : ∀ j, j < 16 → let e := memRead s.mem (src + 0x3180 + 8 * j) 8
    memRead t.mem (dst + 0x3180 + 8 * j) 8 = if e / 2 ^ 13 % 2 = 1 ∧ f ≤ e % 64 then 0 else e

/-- A coordinate word and block index that R267 accepts, of a sequence that is open and can be served. -/
structure BlockOk (s : State) (co lb : Word) : Prop where
  on : s.kvCtl.getLsbD 0 = true
  wide : co.toNat < 2 ^ 40 ∧ lb.toNat < 2 ^ 26
  shape : co.toNat / 2 ^ 24 % 2 ^ 8 ≤ s.kvShape.toNat % 2 ^ 8 ∧ co.toNat / 2 ^ 32 % 2 ^ 8 ≤ s.kvShape.toNat / 2 ^ 8 % 2 ^ 8
  id : seqLegal s (co.toNat % 2 ^ 24) = true
  opened : (readCb s (co.toNat % 2 ^ 24)).st = 1
  dies : s.dieGone (homeDie (cbAddr s (co.toNat % 2 ^ 24))) = false ∧ s.dieGone (readCb s (co.toNat % 2 ^ 24)).home = false
  first : ∀ o ∈ s.kvWait, o.ctx = s.cur ∨ co.toNat % 2 ^ 24 ∉ o.seqs

/-- Key of a coordinate word and a block. -/
def keyOf (co lb : Nat) : KvKey := ⟨co % 2 ^ 24, co / 2 ^ 24 % 2 ^ 8, co / 2 ^ 32 % 2 ^ 8, lb⟩

/-- The nibbles of the keys of in-block position `q` from channel `c` on, and the outlier entries then (R60): a key that is too large for its
channel's scale takes the first free entry, in the order of the channels (assumption 90). -/
def quantised (q : Nat) (scale : Nat → Nat) : Nat → List Nat → List Nat → List Nat × List Nat
  | _, [], ol => ([], ol)
  | c, k :: ks, ol =>
    let d := fp32.div .rne k (scale c)
    let free := if fp32.isNan d || 0x40F00000 < d % 2 ^ 31 then ol.findIdx? (fun e => e / 2 ^ 13 % 2 == 0) else none
    match free with
    | some j =>
      let r := quantised q scale (c + 1) ks (ol.set j (q + c * 2 ^ 6 + 2 ^ 13 + fp32.cvt fp16 .rne k * 2 ^ 16))
      (0 :: r.1, r.2)
    | none =>
      let r := quantised q scale (c + 1) ks ol
      ((toIntRange .rne (fp32.val d) (-8) 7 % 16).toNat :: r.1, r.2)

/-- The byte of a value under the position's scale (R61). -/
def valueByte (sp v : Nat) : Nat :=
  if sp % 2 ^ 15 = 0 then 0 else (toIntRange .rne (fp32.val (fp32.div .rne v (fp16.cvt fp32 .rne sp))) (-127) 127 % 256).toNat

/-- The block of a gather (R261), and of a summary, raw or bounds (R265). -/
def GatherBlock (s : State) (ws : List Nat) (co p0 n w2 p : Nat) : Prop :=
  ws = [co, p0 + 2 ^ 32 * n, w2, p] ∧ co < 2 ^ 40 ∧ p0 < 2 ^ 32 ∧ 0 < n ∧ n < 2 ^ 32 ∧ p0 + n ≤ 2 ^ 32 ∧ w2 < 2 ^ 16 ∧ p0 ≤ p ∧ p ≤ p0 + n ∧
  p < 2 ^ 32 ∧ co / 2 ^ 24 % 2 ^ 8 ≤ s.kvShape.toNat % 2 ^ 8 ∧ co / 2 ^ 32 % 2 ^ 8 ≤ s.kvShape.toNat / 2 ^ 8 % 2 ^ 8

def SummaryBlock (s : State) (raw : Bool) (ws : List Nat) (co b0 n q d p : Nat) : Prop :=
  ws = [co, b0 + 2 ^ 32 * n, q, d, p] ∧ co < 2 ^ 40 ∧ b0 < 2 ^ 26 ∧ 0 < n ∧ n ≤ 65536 ∧ (q = 0 ↔ raw = true) ∧ q % 4 = 0 ∧
  d % (if raw then 16 else 4) = 0 ∧ b0 ≤ p ∧ p ≤ b0 + n ∧
  co / 2 ^ 24 % 2 ^ 8 ≤ s.kvShape.toNat % 2 ^ 8 ∧ co / 2 ^ 32 % 2 ^ 8 ≤ s.kvShape.toNat / 2 ^ 8 % 2 ^ 8

/-- Memory with the bytes of a run's PROG written at its pieces. -/
def putPieces (m : List Host.Cell) (bs : List Byte) : List Piece → List Host.Cell
  | [] => m
  | x :: t => putPieces (memWrite m x.loc.num x.size (leNat (bs.take x.size))) (bs.drop x.size) t

/-- Plain places; a core whose local store holds one of them is not logging. -/
def QuietPieces (s : State) (locs : List Piece) : Prop :=
  ∀ x ∈ locs, PlainLoc x.loc ∧ ∀ k o, x.loc = .ls k o → (s.core k).mlogStart = none

/-- An entry of the inverted table lies clear of a frame, and of another entry. -/
def Clear (s : State) (i a : Nat) : Prop := entAddr s i + 32 ≤ a ∨ a + 16384 ≤ entAddr s i

end Sys2Proof.Claims

/-- R249, R252 to R254, R268 to R273: the instructions on sequences perform on the control block and answer. SQNEW writes a new empty block,
or answers false where the id is in use. SQLEN answers L. SQRES moves F on within the window of 4,096 and answers the old F, or answers
false; with F inside a block whose model has one layer and head it first settles the frame of the block: nothing where there is none,
where the appender owns it, or where another live sequence owns it unshared; a copy keyed under and owned by the appender where it is
shared; its ownership where it has no owner. SQCMT sets the commit bits of its positions and moves L on over the committed ones, or
faults at the first offender. SQFORK of P positions writes a new block with the source as parent (none for P = 0), and each frame of the
sharing set, a missing tail frame first allocated, gains one reference; where a count would pass 65,535 it answers false. SQDROP of a
forked sequence leaves it dropping with F = L and no commit bit. An illegal id, or a sequence that is not open, faults SEQ_RANGE.
LANTERN_ANSWER writes what the operation answers and puts the context behind its instruction. That an operation performs at its issue and
raises its fault there, the answer following, is assumption 40. -/
def Obligations.SequencesReserveCommitAndFork : Prop :=
  ∀ (s : State) (h : Hdr) (d a b c : Reg) (p : Pred), ReadyMem s h → Target s d → (∀ r ∈ [a, b, c], Plain s r) → Memory.wf s.mem = true →
    let i := (s.me.reg a).toNat
    let q := readCb s i
    let v := (s.me.reg b).toNat
    let w := (s.me.reg c).toNat
    (s.kvCtl.getLsbD 0 = true →
      (BadId s (s.me.reg a) → ∀ x ∈ [Instr.sqnew h a b p, .sqlen h d a, .sqres h d a b p, .sqcmt h a b c, .sqfork h a b c p, .sqdrop h a],
        exec x s = .next (takeFault (unwaiting s) (seqFlt 0x12 (i % 2 ^ 24) 0))) ∧
      (¬ BadId s (s.me.reg a) → BadId s (s.me.reg b) →
        exec (.sqfork h a b c p) s = .next (takeFault (unwaiting s) (seqFlt 0x12 (v % 2 ^ 24) 0)))) ∧
    (SeqOk s (s.me.reg a) →
    (v < 16 → s.dieGone (v / 2) = false →
      (q.st = 0 → ∃ t, exec (.sqnew h a b p) s = .next t ∧ Answering .lanternAnswer s t [] (some (p, true)) ∧ OnlyCb s t i ∧
        readCb t i = ⟨0, 0, 1, v / 2, bit v 0, 0xFFFFFF, 0⟩ ∧ t.children i = 0) ∧
      (q.st ≠ 0 → ∃ t, exec (.sqnew h a b p) s = .next t ∧ Answering .lanternAnswer s t [] (some (p, false)) ∧ t.mem = s.mem)) ∧
    (q.st = 1 → ∃ t, exec (.sqlen h d a) s = .next t ∧ Answering .lanternAnswer s t [(d.toNat, BitVec.ofNat 64 q.l)] none ∧ t.mem = s.mem) ∧
    (q.st = 1 → 0 < v → v ≤ 4096 → q.f + v < 2 ^ 32 →
      (4096 + q.l < q.f + v → ∃ t, exec (.sqres h d a b p) s = .next t ∧ Answering .lanternAnswer s t [] (some (p, false)) ∧ t.mem = s.mem) ∧
      (q.f + v ≤ 4096 + q.l → q.f % 64 = 0 → q.parent = 0xFFFFFF → ∃ t, exec (.sqres h d a b p) s = .next t ∧
        Answering .lanternAnswer s t [(d.toNat, BitVec.ofNat 64 q.f)] (some (p, true)) ∧ readCb t i = { q with f := q.f + v } ∧ OnlyCb s t i) ∧
      (q.f + v ≤ 4096 + q.l → q.f % 64 ≠ 0 → s.kvShape.toNat % 2 ^ 16 = 0 → (∀ o ∈ s.kvWait, o.ctx = s.cur ∨ o.settles = false) →
        (∀ x, x < 2 ^ (s.sqTable.toNat % 32) → (readCb s x).st = 2 → s.children x ≠ 0) → KvApart s [] →
        let k : KvKey := ⟨i, 0, 0, q.f / 64⟩
        let reserves := fun (t : State) => exec (.sqres h d a b p) s = .next t ∧
          Answering .lanternAnswer s t [(d.toNat, BitVec.ofNat 64 q.f)] (some (p, true)) ∧ readCb t i = { q with f := q.f + v }
        (readLookup s k = none → ∃ t, reserves t ∧ OnlyCb s t i) ∧
        (∀ j, readLookup s k = some j → (readEnt s j).st = 2 →
          let e := readEnt s j
          (e.owner = i ∨ e.owner ≠ 0xFFFFFF ∧ e.refc ≤ 1 → ∃ t, reserves t ∧ OnlyCb s t i) ∧
          (e.owner = 0xFFFFFF → e.refc = 1 → inWindow s k j = true → ∃ t, reserves t ∧ readEnt t j = { e with key := k, owner := i }) ∧
          (∀ n, e.owner ≠ i → 1 < e.refc → kvPick s k 0 (some q.home) = some (n, s) → inWindow s k n = true → n ≠ j →
            let f := readEnt s n
            f.frame ≠ e.frame → KvApart s [f.frame, e.frame] → ∃ t, reserves t ∧ readEnt t j = { e with refc := e.refc - 1 } ∧
              readEnt t n = { f with key := k, owner := i, st := 2, quar := false, pin := false, refc := 1 } ∧
              CopiedFor s t e.frame f.frame (q.f % 64))))) ∧
    (∀ l, q.st = 1 → 0 < w → w ≤ 4096 → q.l ≤ v → v + w ≤ q.f → q.f ≤ q.l + 4096 → (∀ k, v ≤ k → k < v + w → cmapBit s i k = false) →
      ownFrames s i v w = [] → q.l ≤ l → l ≤ q.f → (∀ k, q.l ≤ k → k < l → CommittedWith s i v w k) →
      (l < q.f → ¬ CommittedWith s i v w l) → ∃ t, exec (.sqcmt h a b c) s = .next t ∧ Answering .lanternAnswer s t [] none ∧ OnlyCb s t i ∧
        readCb t i = { q with l := l } ∧ ∀ k, q.l ≤ k → k < q.f → (cmapBit t i k = true ↔ l ≤ k ∧ CommittedWith s i v w k)) ∧
    (∀ n, q.st = 1 → n < w → w ≤ 4096 → v + w ≤ 2 ^ 32 → (∀ k, v ≤ k → k < v + n → q.l ≤ k ∧ k < q.f ∧ cmapBit s i k = false) →
      (v + n < q.l ∨ v + n < q.f ∧ cmapBit s i (v + n) = true →
        exec (.sqcmt h a b c) s = .next (takeFault (unwaiting s) (seqFlt 0x10 i (v + n)))) ∧
      (q.l ≤ v + n → q.f ≤ v + n → exec (.sqcmt h a b c) s = .next (takeFault (unwaiting s) (seqFlt 0x11 i (v + n))))) ∧
    (q.st = 1 → w = 0 ∨ 4096 < w ∨ 2 ^ 32 < v + w → exec (.sqcmt h a b c) s = .next (takeFault (unwaiting s) (seqFlt 0x12 i 0))) ∧
    (q.st = 1 → v = 0 ∨ 4096 < v ∨ 2 ^ 32 ≤ q.f + v → exec (.sqres h d a b p) s = .next (takeFault (unwaiting s) (seqFlt 0x12 i 0))) ∧
    (q.st = 0 → w = 0 → SeqOk s (s.me.reg b) → (readCb s v).st = 1 → ∃ t, exec (.sqfork h a b c p) s = .next t ∧
      Answering .lanternAnswer s t [] (some (p, true)) ∧ OnlyCb s t i ∧ t.children i = 0 ∧
      readCb t i = ⟨0, 0, 1, (readCb s v).home, (readCb s v).hdim, 0xFFFFFF, 0⟩) ∧
    (q.st ≠ 0 → w = 0 → SeqOk s (s.me.reg b) → (readCb s v).st = 1 → ∃ t, exec (.sqfork h a b c p) s = .next t ∧
      Answering .lanternAnswer s t [] (some (p, false)) ∧ t.mem = s.mem) ∧
    (q.st = 0 → SeqOk s (s.me.reg b) → (readCb s v).st = 1 → 0 < w → w ≤ (readCb s v).l → i ≠ v → KvApart s [] →
      (∀ j, Shares s v w j → (readEnt s j).st = 2) →
      let forks := fun (t : State) => exec (.sqfork h a b c p) s = .next t ∧ Answering .lanternAnswer s t [] (some (p, true)) ∧ t.children i = 0 ∧
        t.children v = s.children v + 1 ∧ readCb t i = ⟨w, w, 1, (readCb s v).home, (readCb s v).hdim, v, w⟩ ∧ ∀ k, k < 4096 → cmapBit t i k = false
      (s.children v < 65535 → (∀ j, Shares s v w j → (readEnt s j).refc < 65535) →
        ((w % 64 = 0 ∨ ∀ l n, l ≤ s.kvShape.toNat % 2 ^ 8 → n ≤ s.kvShape.toNat / 2 ^ 8 % 2 ^ 8 → readLookup s ⟨v, l, n, w / 64⟩ ≠ none) →
          ∃ t, forks t ∧ (∀ j, Shares s v w j → readEnt t j = { readEnt s j with refc := (readEnt s j).refc + 1 }) ∧
            ∀ j, j < kvN s → ¬ Shares s v w j → readEnt t j = readEnt s j) ∧
        (∀ n, w < 64 → s.kvShape.toNat % 2 ^ 16 = 0 →
          let k : KvKey := ⟨v, 0, 0, 0⟩
          let f := readEnt s n
          readLookup s k = none → kvPick s k 0 (some (readCb s v).home) = some (n, s) → inWindow s k n = true → KvApart s [f.frame] →
          ∃ t, forks t ∧ readEnt t n = { f with key := k, owner := v, st := 2, quar := false, pin := false, refc := 2 } ∧
            ∀ c, c < (readCb s v).hd → memRead t.mem (f.frame + 0x3000 + 2 * c) 2 = 0x3C00)) ∧
      (s.children v = 65535 ∨ (∃ j, Shares s v w j ∧ (readEnt s j).refc = 65535) → ∃ t, exec (.sqfork h a b c p) s = .next t ∧
        Answering .lanternAnswer s t [] (some (p, false)) ∧ t.mem = s.mem)) ∧
    (SeqOk s (s.me.reg b) → (readCb s v).st ≠ 1 ∨ (readCb s v).l < w →
      exec (.sqfork h a b c p) s = .next (takeFault (unwaiting s) (seqFlt 0x12 v 0))) ∧
    (q.st = 1 → q.f = 0 → q.parent = 0xFFFFFF → s.children i ≠ 0 → ∃ t, exec (.sqdrop h a) s = .next t ∧ Answering .lanternAnswer s t [] none ∧
      OnlyCb s t i ∧ readCb t i = { q with st := 2, f := q.l } ∧ ∀ k, k < 4096 → cmapBit t i k = false) ∧
    (q.st ≠ 1 → exec (.sqlen h d a) s = .next (takeFault (unwaiting s) (seqFlt 0x12 i 0)) ∧
      exec (.sqres h d a b p) s = .next (takeFault (unwaiting s) (seqFlt 0x12 i 0)) ∧ exec (.sqdrop h a) s = .next (takeFault (unwaiting s) (seqFlt 0x12 i 0)) ∧
      exec (.sqcmt h a b c) s = .next (takeFault (unwaiting s) (seqFlt 0x12 i 0)))) ∧
    (∀ (k tag r : Nat) (x : Word) (o : Outst), s.findOutst k tag = some (.run, o) → (s.ctx k).st = .parked (.reply tag) → o.ctr = none →
      (s.core (ctxCore k)).mlogStart = none → o.raced = [] → o.writes = [(r, x)] → 0 < r → r < 56 → o.pred = none →
      let y := { s.ctx k with st := .live, outst := (s.ctx k).outst.filter (·.tag != o.tag) }
      Quiet y (BitVec.ofNat 6 r) → ∃ t, exec (.lanternAnswer k tag) s = .next t ∧ t.cur = s.cur ∧ t.mem = s.mem ∧
        t.ctx k = retired { put y (BitVec.ofNat 6 r) x with recv := y.recv + 1 })

/-- R60, R61, R260, R267, R274, R277 to R279: KVST of a position in a RESIDENT tier-0 frame of its own block writes that position's key
nibbles, the outlier entries (those of the position freed first, then taken in the order of the channels, assumption 90), its value bytes
and its value scale, the greatest magnitude over 127, and nothing outside the frame's rows. That an operation performs at its issue, and
its answer follows, is assumption 40. KVPF never waits. KVPF.w, KVPIN and KVQREL answer 1, 0
where no block is found, and PIN and QUAR of the entry become what they say. -/
def Obligations.KvBlocksAreWrittenAndPinned : Prop :=
  ∀ (s : State) (h : Hdr) (d a b : Reg), ReadyMem s h → Target s d → Plain s a → Plain s b → Memory.wf s.mem = true →
    let co := (s.me.reg a).toNat
    let lb := (s.me.reg b).toNat
    let e := fun (j : Nat) => readEnt s j
    (BlockOk s (s.me.reg a) (s.me.reg b) →
      (readLookup s (keyOf co lb) = none → exec (.kvpf h a b) s = .next (done s s.me) ∧
        ∀ i ∈ [Instr.kvpfW h d a b, .kvpinOn h d a b, .kvpinOff h d a b], ∃ t, exec i s = .next t ∧ Answering .lanternAnswer s t [(d.toNat, 0)] none ∧
          t.mem = s.mem) ∧
      (∀ j, readLookup s (keyOf co lb) = some j → (e j).st = 2 → (e j).tier = 0 →
        exec (.kvpf h a b) s = .next (done s s.me) ∧
        (∃ t, exec (.kvpfW h d a b) s = .next t ∧ Answering .lanternAnswer s t [(d.toNat, 1)] none ∧ t.mem = s.mem) ∧
        (∃ t, exec (.kvpinOn h d a b) s = .next t ∧ Answering .lanternAnswer s t [(d.toNat, 1)] none ∧ readEnt t j = { e j with pin := true }) ∧
        (∃ t, exec (.kvpinOff h d a b) s = .next t ∧ Answering .lanternAnswer s t [(d.toNat, 1)] none ∧ readEnt t j = { e j with pin := false }) ∧
        (∃ t, exec (.kvqrel h a b) s = .next t ∧ Answering .lanternAnswer s t [] none ∧ readEnt t j = { e j with quar := false })) ∧
      (∀ j, readLookup s (keyOf co lb) = some j → (e j).st = 3 → ∃ t, exec (.kvqrel h a b) s = .next t ∧ Answering .lanternAnswer s t [] none ∧
        readEnt t j = { e j with quar := false } ∧ t.moves = s.moves)) ∧
    (2 ^ 40 ≤ co ∨ 2 ^ 26 ≤ lb → s.kvCtl.getLsbD 0 = true → co / 2 ^ 24 % 2 ^ 8 ≤ s.kvShape.toNat % 2 ^ 8 →
      co / 2 ^ 32 % 2 ^ 8 ≤ s.kvShape.toNat / 2 ^ 8 % 2 ^ 8 →
      exec (.kvpf h a b) s = .next (takeFault s (plainFlt 2 0)) ∧
      ∀ i ∈ [Instr.kvpfW h d a b, .kvpinOn h d a b, .kvpinOff h d a b, .kvqrel h a b],
        exec i s = .next (takeFault (unwaiting s) (plainFlt 2 0))) ∧
    (∀ (s1 s2 s3 : State) (co' : Word) (p ka va j : Nat) (ks vs : List Nat), readWords s co 5 = .ok [co'.toNat, p, ka, va, 0] s1 →
      readSized s1 ka 4 (readCb s (co'.toNat % 2 ^ 24)).hd = .ok ks s2 → readSized s2 va 4 (readCb s (co'.toNat % 2 ^ 24)).hd = .ok vs s3 →
      OnlyRead s s1 → OnlyRead s1 s2 → OnlyRead s2 s3 → BlockOk s co' (BitVec.ofNat 64 (p / 64)) → ka % 4 = 0 → va % 4 = 0 →
      (readCb s (co'.toNat % 2 ^ 24)).l ≤ p → p < (readCb s (co'.toNat % 2 ^ 24)).f → cmapBit s (co'.toNat % 2 ^ 24) p = false →
      p < 2 ^ 32 → ks.length = (readCb s (co'.toNat % 2 ^ 24)).hd → vs.length = (readCb s (co'.toNat % 2 ^ 24)).hd →
      (∀ o ∈ s.kvWait, o.ctx ≠ s.cur) →
      ownLookup s (keyOf co'.toNat (p / 64)) = some j → (e j).st = 2 → (e j).tier = 0 → ∃ t, exec (.kvst h a) s = .next t ∧ Answering .lanternAnswer s3 t [] none ∧
        (∀ x, x < (e j).frame ∨ (e j).frame + 0x3200 ≤ x → memGet t.mem x = memGet s.mem x) ∧
        (let fr := (e j).frame
          let sp := fp32.cvt fp16 .rne (fp32.div .rne (if vs.any fp32.isNan then 0x7FC00000 else vs.foldl (fun m v => max m (v % 2 ^ 31)) 0) 0x42FE0000)
          let r := quantised (p % 64) (fun c => fp16.cvt fp32 .rne (memRead s.mem (fr + 0x3000 + 2 * c) 2)) 0 ks
            ((List.range 16).map fun n => let x := memRead s.mem (fr + 0x3180 + 8 * n) 8; if x % 64 = p % 64 then 0 else x)
          memRead t.mem (fr + 0x3100 + 2 * (p % 64)) 2 = sp ∧
          (∀ c, c < ks.length → (memGet t.mem (fr + 64 * (p % 64) + c / 2)).toNat / 16 ^ (c % 2) % 16 = (r.1[c]?).getD 0) ∧
          (∀ n, n < 16 → memRead t.mem (fr + 0x3180 + 8 * n) 8 = (r.2[n]?).getD 0) ∧
          ∀ c, c < vs.length → (memGet t.mem (fr + 0x1000 + 128 * (p % 64) + c)).toNat = valueByte sp ((vs[c]?).getD 0)))

/-- R175, R261, R265, R275, R276: KVGATH and KVSUM of a legal block with well-formed tokens queue a command of their cluster's lantern under a new
token, PENDING, and write the token to x[D]; they move nothing. -/
def Sys2Proof.Claims.KvCommands : Prop :=
  ∀ (s s1 : State) (h : Hdr) (d a t1 t2 t3 : Reg) (ws : List Nat) (n : Nat), ReadyMem s h → Target s d → (∀ r ∈ [a, t1, t2, t3], Plain s r) →
    s.kvCtl.getLsbD 0 = true → OnlyRead s s1 → TokensOk s [t1, t2, t3] → NextEntry s 4 n →
    let cl := ctxCl s.cur
    let va := (s.me.reg a).toNat
    let cmd := fun (gather flag : Bool) (co w1 w2 w3 p : Nat) => LanCmd.mk (gather := gather) (flag := flag) (blkAddr := va) (coord := co)
      (w1 := w1) (w2 := w2) (w3 := w3) (tok := n) (deps := [(s.me.reg t1).toNat, (s.me.reg t2).toNat, (s.me.reg t3).toNat])
      (core := ctxCore s.cur) (sys := s.me.sys) (prog := p) (snap := none)
    let queues := fun (i : Instr) (q : LanCmd) => ∃ t, exec i s = .next t ∧ t.me = retired (put s1.me d (nextToken s 4 n)) ∧ t.mem = s1.mem ∧
      (t.cluster cl).lanQ = (s.cluster cl).lanQ ++ [q] ∧ (t.cluster cl).tok 4 n = { gen := nextGen s 4 n, st := .pending }
    (∀ co p0 m w2 p, readWords s va 4 = .ok ws s1 → GatherBlock s ws co p0 m w2 p →
      queues (.kvgathK h d a t1 t2 t3) (cmd true false co (p0 + 2 ^ 32 * m) w2 0 p) ∧
      queues (.kvgathV h d a t1 t2 t3) (cmd true true co (p0 + 2 ^ 32 * m) w2 0 p)) ∧
    (∀ co b0 m q g p, readWords s va 5 = .ok ws s1 →
      (SummaryBlock s false ws co b0 m q g p → queues (.kvsumB h d a t1 t2 t3) (cmd false false co (b0 + 2 ^ 32 * m) q g p)) ∧
      (SummaryBlock s true ws co b0 m q g p → queues (.kvsumR h d a t1 t2 t3) (cmd false true co (b0 + 2 ^ 32 * m) q g p)))

/-- R174, R257 to R259, R262, R265, R248: the lanterns' own steps. A gather run delivers the key or value row of a position below L into the
next row of its open tile, as BF16 from the row's first byte on, which counts it claimed, marked and valid; its token counts it and PROG is
written back one higher. A raw summary of a block beyond L is written as the empty summary, and PROG one higher. Nothing else of memory
changes. The run's steps are those of assumption 40. A command with a failed token fails. A frame asked for is entered RESIDENT under its key with one reference; an eviction that
completes frees its source and counts; a promotion makes its target RESIDENT; kv.ctl is written, or held while EN cannot fall. -/
def Sys2Proof.Claims.KvSteps : Prop :=
  ∀ (s : State), Memory.wf s.mem = true →
    (∀ (cl : Nat) (q : LanCmd), (s.cluster cl).lanQ = [q] → s.kvCtl.getLsbD 0 = true →
      let w := engine q.core q.sys (4 + 8 * q.tok)
      let k := keyOf q.coord (q.prog / 64)
      let at_ := (q.blkAddr + if q.gather then 0x18 else 0x20) % 2 ^ 64
      let run := if q.gather then Instr.gatherRun cl else .summaryRun cl
      let tok := fun (t : State) => (t.cluster cl).tok 4 q.tok
      (deps s cl q.deps = .wait → exec run s = .next s) ∧
      (∀ code, deps s cl q.deps = .bad code → ∃ t, exec run s = .next t ∧ t.mem = s.mem ∧ (t.cluster cl).lanQ = [] ∧
        (tok t).st = .failed ∧ (tok t).code = code) ∧
      (∀ locs l cd j, deps s cl q.deps = .ok → q.gather = true → q.snap = some (l, cd) → q.prog < l →
        q.w1 % 2 ^ 32 + q.w1 / 2 ^ 32 % 2 ^ 32 = q.prog + 1 → pieceLocs s w true (pieces 9 at_ 8) = .ok locs s → s.ecc = [] →
        seqGone s (q.coord % 2 ^ 24) (readCb s (q.coord % 2 ^ 24)).home = false → QuietPieces s locs → readLookup s k = some j → (readEnt s j).st = 2 → (readEnt s j).tier = 0 → (readEnt s j).quar = false →
        let hd := (readCb s (q.coord % 2 ^ 24)).hd
        let v := BitVec.ofNat 64 q.w2
        let r := s.ring cl (ringOf v)
        let g := s.tslot cl (ringOf v) (slotOf v)
        let row := if q.flag then valRow s (readEnt s j).frame (q.prog % 64) hd else keyRow s (readEnt s j).frame (q.prog % 64) hd
        (∀ x ∈ row, bfFinite x = true) → q.w2 < 2 ^ 16 → r.en = true → slotOf v ≤ r.nslot →
        g.gen = q.w2 % 16 → r.kind ≤ 1 → r.fmt = 1 → 2 * hd ≤ r.rowb → g.st = .opened → g.claimed < 2 ^ r.hlog → ∃ t, exec run s = .next t ∧
          (t.cluster cl).lanQ = [] ∧ (tok t).st = .done ∧ (tok t).count = (tok s).count + 1 ∧
          t.mem = putPieces (memPut s.mem (locSp cl (r.base + slotOf v * r.slotb + g.claimed * r.rowb)) (row.flatMap (leBytes 2)))
            (leBytes 8 (q.prog + 1)) locs ∧
          (let g' := t.tslot cl (ringOf v) (slotOf v);
            g'.claimed = g.claimed + 1 ∧ g'.marked = g.marked + 1 ∧ g'.valid = g.valid + 1 ∧ g'.st = .opened)) ∧
      (∀ locs s1 l cd, deps s cl q.deps = .ok → q.gather = false → q.flag = true → q.snap = some (l, cd) → l ≤ 64 * q.prog →
        q.w1 % 2 ^ 26 + q.w1 / 2 ^ 32 % 2 ^ 32 = q.prog + 1 → pieceLocs s w true (pieces 9 at_ 8) = .ok locs s →
        seqGone s (q.coord % 2 ^ 24) (readCb s (q.coord % 2 ^ 24)).home = false →
        engWrite s w ((q.w3 + (q.prog - q.w1 % 2 ^ 26) * 512) % 2 ^ 64) (emptySummary (readCb s (q.coord % 2 ^ 24)).hd) = .ok () s1 →
        s1.clusters = s.clusters → QuietPieces s1 locs → ∃ t, exec run s = .next t ∧ (t.cluster cl).lanQ = [] ∧ (tok t).st = .done ∧
          (tok t).count = (tok s).count + 1 ∧ t.mem = putPieces s1.mem (leBytes 8 (q.prog + 1)) locs)) ∧
    (∀ r f, s.kvReqs = [r] → r.promo = false → (s.ctx r.ctx).st = .parked .retry → (readCb s r.seq).st = 1 →
      r.seq < 2 ^ 24 → r.layer < 2 ^ 8 → r.head < 2 ^ 8 → r.lb < 2 ^ 26 →
      let k : KvKey := ⟨r.seq, r.layer, r.head, r.lb⟩
      ownLookup s k = none → kvPick s k 0 (some (readCb s r.seq).home) = some (f, s) → inWindow s k f = true →
      Clear s f (readEnt s f).frame → ∃ t, exec (.frameAllocation r.ctx) s = .next t ∧ t.kvReqs = [] ∧
        (let e := readEnt t f;
          e.key = k ∧ e.owner = r.seq ∧ e.st = 2 ∧ e.refc = 1 ∧ e.quar = false ∧ e.pin = false ∧ e.frame = (readEnt s f).frame)) ∧
    (∀ die, evictDue s die = false → exec (.evictionStart die) s = .next s) ∧
    (∀ die i f, evictDue s die = true → i < kvN s → (∀ j, j < kvN s → ((readEnt s j).st = 2 ∧ (readEnt s j).tier = 0 ∧ (readEnt s j).pin = false ∧
        homeDie (readEnt s j).frame = die ↔ j = i)) → kvPick s (readEnt s i).key 1 none = some (f, s) → inWindow s (readEnt s i).key f = true →
      ∃ t, exec (.evictionStart die) s = .next t ∧ readEnt t i = { readEnt s i with st := 3 } ∧
        t.moves = s.moves ++ [⟨s.tagCtr, false, i, f, (readEnt s i).frame⟩] ∧ ∃ x ∈ t.events, x.2 = .evictionComplete s.tagCtr) ∧
    (∀ m, s.moves = [m] →
      let target := readEnt s m.dst
      let source := readEnt s m.src
      (m.promo = false → m.src ≠ m.dst → m.src < kvN s → m.dst < kvN s → Clear s m.src target.frame → Clear s m.dst target.frame →
        ∃ t, exec (.evictionComplete m.id) s = .next t ∧ t.moves = [] ∧ (readEnt t m.src).st = 0 ∧ (readEnt t m.dst).key = source.key ∧
        (readEnt t m.dst).st = 2 ∧ (readEnt t m.dst).tier = target.tier ∧ (readEnt t m.dst).frame = target.frame ∧
        (t.die (homeDie source.frame)).evicts = ((s.die (homeDie source.frame)).evicts + 1) % 2 ^ 32) ∧
      (m.promo = true → Clear s m.dst target.frame → ∃ t, exec (.promotionComplete m.id) s = .next t ∧ t.moves = [] ∧
        readEnt t m.dst = { target with st := 2 })) ∧
    (∀ v : Word, (kvBusy s = false ∨ v.getLsbD 0 = true ∨ s.kvCtl.getLsbD 0 = false →
        exec (.kvCtlWrite v) s = .next { s with kvCtl := v &&& 0xFFFFFF01#64, kvUsed := s.kvUsed || v.getLsbD 0 }) ∧
      (kvBusy s = true → v.getLsbD 0 = false → s.kvCtl.getLsbD 0 = true → exec (.kvCtlWrite v) s = .next s))

/-- R257 to R266, R275, R276: gathers and summaries, and the steps of the lanterns (assumption 40). -/
def Obligations.KvCommandsQueueAndLanternsStep : Prop := Claims.KvCommands ∧ Claims.KvSteps

namespace Sys2Proof.Claims

/-! ### Barriers and channels -/

/-- The core of the issuing context with receive, or send, endpoint `n` replaced. -/
def withRx (s : State) (n : Nat) (e : RecvEp) : State := s.setMyCore { s.myCore with rx := tput s.myCore.rx n e }
def withTx (s : State) (n : Nat) (e : SendEp) : State := s.setMyCore { s.myCore with tx := tput s.myCore.tx n e }

/-- Receive, and send, endpoint `n` of the issuing context's core. -/
def rxOf (s : State) (n : Nat) : RecvEp := (tget s.myCore.rx n).getD {}
def txOf (s : State) (n : Nat) : SendEp := (tget s.myCore.tx n).getD {}

/-- A value that is the handle of an open receive, or send, endpoint `n` (R304). -/
def RxNamed (s : State) (v : Word) (n : Nat) : Prop := n < 64 ∧ (rxOf s n).isOpen = true ∧ (rxOf s n).gen < 256 ∧ v.toNat = (rxOf s n).gen * 2 ^ 8 + n
def TxNamed (s : State) (v : Word) (n : Nat) : Prop :=
  n < 64 ∧ (txOf s n).isOpen = true ∧ (txOf s n).gen < 256 ∧ v.toNat = (txOf s n).gen * 2 ^ 8 + 2 ^ 7 + n

/-- A handle that names no open endpoint. -/
def Unnamed (s : State) (v : Word) : Prop := ∀ n, ¬RxNamed s v n ∧ ¬TxNamed s v n

/-- No context of the core has `n` bound to its x60, one whose slot is lent to a fibre among them. -/
def Unbound (s : State) (n : Nat) : Prop :=
  ∀ i, i < 16 → let sl := s.slot (16 * ctxCore s.cur + i)
    sl.ctx.upq ≠ some n ∧ ∀ x, sl.park = some x → x.upq ≠ some n

/-- Traffic with an endpoint of another module waits for the posted requests of the context (R294). -/
def PeerWaits (s : State) (peer : Nat) : Prop := peer % 2 ^ 12 ≠ fabDev ∧ Posting s

/-- The `n` bytes at `va` lie in the local store of the issuing context's core, 8-byte aligned (R313). -/
def InLs (s : State) (va n : Nat) : Prop := va / 2 ^ 32 = 0xFE ∧ va % 2 ^ 32 + n ≤ s.myCore.lsplit * 2 ^ 15 ∧ va % 8 = 0

/-- Endpoint number in byte `i` of an ALT list, 255 for none (R316); a list that names something, open receive endpoints alone, none of them bound
to an x60; and is the endpoint there ready (R309)? -/
def altAt (v : Word) (i : Nat) : Nat := v.toNat / 2 ^ (8 * i) % 2 ^ 8
def AltList (s : State) (v : Word) : Prop :=
  (∃ i, i < 8 ∧ altAt v i ≠ 255) ∧ ∀ i, i < 8 → altAt v i ≠ 255 → altAt v i < 48 ∧ (rxOf s (altAt v i)).isOpen = true ∧ Unbound s (altAt v i)
def altReady (s : State) (v : Word) (i : Nat) : Prop := altAt v i ≠ 255 ∧ (rxOf s (altAt v i)).occ ≠ 0

/-- Address of the slot `i` of a receive endpoint of core `k` (R305). -/
def epSlot (k : Nat) (e : RecvEp) (i : Nat) : Nat := locLs k (e.base + i * e.slotw * 8)

end Sys2Proof.Claims

/-- R302, R303: BAR parks its context; where the count is taken at once, at core scope, it has its rank in the generation, and the arrival that
completes the count releases all. An arrival away from the core reaches the counting point later, which gives the rank, releases the
generation with its last arrival, and answers the arrivals of other modules. A released context goes on behind its BAR with its rank in x[D]. A
count of 0, beyond the scope, or that differs from the generation's faults ILLEGAL_ENC, at BAR or at the counting point. That a BAR at system
scope holds at its issue while a posted request of its context is unacknowledged is assumption 75, and that the counting point of another die or
module delivers the fault of a mismatch to the parked context is assumption 39. -/
def Obligations.BarriersReleaseTheirGeneration : Prop :=
  ∀ (s : State), s.cur < 2 ^ 15 →
    (∀ (h : Hdr) (b : BitVec 4) (d a : Reg), ReadyMem s h → Target s d → Plain s a →
      let n := (s.me.reg a).toNat
      let key := 16 * ctxCore s.cur + b.toNat
      let q := s.barrier key
      let rank := q.arr.length + q.remote.length
      let off := { s.me with st := .parked .barrier, barTag := s.tagCtr }
      let here := { s with tagCtr := s.tagCtr + 1 }.setMe off
      let arr := q.arr ++ [⟨s.cur, d, rank, s.tagCtr⟩]
      (1 ≤ n → n ≤ 16 → q.arr = [] ∧ q.remote = [] ∨ q.count = n →
        (rank + 1 < n → exec (.bar h .cor b d a) s = .next (here.setBarrier key { q with count := n, arr := arr })) ∧
        (n ≤ rank + 1 → q.remote = [] → exec (.bar h .cor b d a) s = .next (here.setBarrier key ⟨0, [], [], q.rel ++ arr⟩))) ∧
      (n = 0 ∨ 16 < n ∨ q.arr ≠ [] ∧ q.count ≠ n → exec (.bar h .cor b d a) s = .next (takeFault s (plainFlt 2 0))) ∧
      (∀ x ∈ [(Scope.cl, 2 ^ 7), (.die, 2 ^ 12), (.pkg, 2 ^ 15), (.sys, 2 ^ 27)],
        let key := barKey x.1 s.cur b.toNat
        let q := s.barrier key
        let away := x.1 = .sys ∧ fabDev ≠ 0
        let open_ := away ∨ q.arr = [] ∧ q.remote = [] ∨ q.count = n
        (1 ≤ n → n ≤ x.2 → open_ → x.1 = .sys → Posting s → exec (.bar h x.1 b d a) s = .next s) ∧
        (1 ≤ n → n ≤ x.2 → open_ → ¬(x.1 = .sys ∧ Posting s) → ¬away → ∃ t, exec (.bar h x.1 b d a) s = .next t ∧
          t.me = asked off ∧ t.mem = s.mem ∧
          ∃ e ∈ t.events, s.now < e.1 ∧ e.2 = .barrierArrival key n (s.cur + 2 ^ 15 * d.toNat + 2 ^ 21 * s.tagCtr) fabDev) ∧
        (1 ≤ n → n ≤ x.2 → ¬Posting s → away → ∃ t, exec (.bar h x.1 b d a) s = .next t ∧
          t.me = asked off ∧ t.mem = s.mem ∧ t.barrier key = { q with arr := q.arr ++ [⟨s.cur, d, n, s.tagCtr⟩] } ∧
          (s.boot.links ≠ 0 → t.outbox = s.outbox ++ [.barrier key n s.cur])) ∧
        (n = 0 ∨ x.2 < n ∨ ¬open_ → exec (.bar h x.1 b d a) s = .next (takeFault s (plainFlt 2 0))))) ∧
    (∀ (key n c tag : Nat) (d : Reg), c < 2 ^ 15 → s.lost (ctxDie c) = false →
      let q := s.barrier key
      let rank := q.arr.length + q.remote.length
      let who := fun r => (⟨c, d, r, tag⟩ : BarArr)
      let open_ := q.arr = [] ∧ q.remote = [] ∨ q.count = n
      let word := c + 2 ^ 15 * d.toNat + 2 ^ 21 * tag
      let arrives := exec (.barrierArrival key n word fabDev) s
      let out := fun (arr : List BarArr) (remote : List (Nat × Nat × Nat)) (t : State) =>
        t.barrier key = ⟨0, [], [], q.rel ++ arr⟩ ∧ t.mem = s.mem ∧ t.slots = s.slots ∧
        (s.boot.links ≠ 0 → t.outbox = s.outbox ++ remote.map fun r => .release r.1 key r.2.1 r.2.2)
      (open_ → rank + 1 < n → arrives = .next (s.setBarrier key { q with count := n, arr := q.arr ++ [who rank] })) ∧
      (open_ → n ≤ rank + 1 → ∃ t, arrives = .next t ∧ out (q.arr ++ [who rank]) q.remote t) ∧
      (¬open_ → (s.ctx c).st = .parked .barrier → (s.ctx c).barTag = tag →
        arrives = .next { takeFault ({ s with cur := c }.setMe { s.ctx c with st := .live }) (plainFlt 2 0) with cur := s.cur }) ∧
      (∀ dev, dev ≠ fabDev → let away := exec (.barrierArrival key n word dev) s
        (s.boot.links = 0 → away = .next s) ∧
        (s.boot.links ≠ 0 → open_ → rank + 1 < n →
          away = .next (s.setBarrier key { q with count := n, remote := q.remote ++ [(dev, c, rank)] })) ∧
        (s.boot.links ≠ 0 → open_ → n ≤ rank + 1 → ∃ t, away = .next t ∧ out q.arr (q.remote ++ [(dev, c, rank)]) t) ∧
        (s.boot.links ≠ 0 → ¬open_ → away = .next (s.emit (.release dev key c refusedRank))))) ∧
    (∀ (key c rank tag : Nat) (d : Reg), (s.barrier key).rel = [⟨c, d, rank, tag⟩] → (s.ctx c).st = .parked .barrier → (s.ctx c).barTag = tag →
      DstPlain d → (s.core (ctxCore c)).mlogStart = none →
      (rank < 2 ^ 27 → Quiet (s.ctx c) d → ∃ t, exec (.barrierRelease key) s = .next t ∧ t.cur = s.cur ∧ t.mem = s.mem ∧ (t.barrier key).rel = [] ∧
        t.ctx c = retired (put { s.ctx c with st := .live, recv := (s.ctx c).recv + 1 } d (BitVec.ofNat 64 rank))) ∧
      (rank = refusedRank → exec (.barrierRelease key) s = .next
        (let u := s.setBarrier key { s.barrier key with rel := [] }
         { takeFault ({ u with cur := c }.setMe { s.ctx c with st := .live }) (plainFlt 2 0) with cur := s.cur })))

/-- R305, R306, R310, R312 to R318: the channel instructions. CHOPEN of a closed endpoint opens it under its next GEN and gives its handle; of an
open one it answers false. CHSEND and CHTRY send the message in the local store when the allowance and the buffer permit, else the one
parks and the other answers false. CHRECV copies the head message out and gives its header, or parks. CHGRANT grants free slots. ALT gives
the first ready endpoint behind its pointer, which moves there, or parks; a list of nothing, or of an endpoint that is not open, faults
ILLEGAL_ENC. CHCLOSE gives what is left. QBIND binds and unbinds the queues. A handle that names no open endpoint faults ILLEGAL_ENC, a broken
one CHAN_BROKEN. That traffic with an endpoint of another module waits for the posted requests of the context (PeerWaits) is assumption 75. -/
def Sys2Proof.Claims.Channels : Prop :=
  ∀ (s : State) (h : Hdr) (d a b c : Reg) (p : Pred), ReadyMem s h → Target s d → (∀ r ∈ [a, b, c], Plain s r) →
    let k := ctxCore s.cur
    let v := s.me.reg a
    let src := (s.me.reg b).toNat
    let len := (s.me.reg c).toNat
    (∀ (s1 : State) (num base peer n w : Nat) (auto : Bool), OnlyRead s s1 → num < 48 → 1 ≤ n → n ≤ 256 → 2 ≤ w → w ≤ 33 → peer < 2 ^ 29 →
      base % 8 = 0 → base + n * w * 8 ≤ s.myCore.lsplit * 2 ^ 15 →
      readWords s v.toNat 4 = .ok [2 * auto.toNat + 2 ^ 8 * num + 2 ^ 16 * (n - 1) + 2 ^ 24 * w, base, peer, 0] s1 →
      let g := ((rxOf s num).gen + 1) % 256
      ((rxOf s num).isOpen = false → exec (.chopen h d a p) s = .next (done (withRx s1 num
        { isOpen := true, gen := g, base := base, slotw := w, nslot := n, auto := auto, peer := peer }) (withPred (put s1.me d (BitVec.ofNat 64 (g * 2 ^ 8 + num))) p true))) ∧
      ((rxOf s num).isOpen = true → exec (.chopen h d a p) s = .next (done s1 (withPred s1.me p false)))) ∧
    (∀ (s1 : State) (num base peer n w init : Nat), OnlyRead s s1 → num < 48 → 1 ≤ n → n ≤ 256 → 2 ≤ w → w ≤ 33 → peer < 2 ^ 29 → peer ≠ 0 →
      1 ≤ init → init ≤ 256 → base % 8 = 0 → base + n * w * 8 ≤ s.myCore.lsplit * 2 ^ 15 → (rxOf s num).isOpen = false →
      readWords s v.toNat 4 = .ok [2 ^ 8 * num + 2 ^ 16 * (n - 1) + 2 ^ 24 * w, base, peer, init] s1 →
      let g := ((rxOf s num).gen + 1) % 256
      ∃ t, exec (.chopen h d a p) s = .next t ∧ t.me = retired (withPred (put (asked s1.me) d (BitVec.ofNat 64 (g * 2 ^ 8 + num))) p true) ∧
        rxOf t num = { isOpen := true, gen := g, base := base, slotw := w, nslot := n, peer := peer, granted := min init n } ∧ t.mem = s1.mem) ∧
    (∀ (s1 : State) (num peer : Nat), OnlyRead s s1 → num < 64 → peer < 2 ^ 29 → epNum peer < 48 → (txOf s num).isOpen = false →
      readWords s v.toNat 4 = .ok [1 + 2 ^ 8 * num, 0, peer, 0] s1 →
      let g := ((txOf s num).gen + 1) % 256
      exec (.chopen h d a p) s = .next (done (withTx s1 num { isOpen := true, gen := g, peer := peer })
        (withPred (put s1.me d (BitVec.ofNat 64 (g * 2 ^ 8 + 2 ^ 7 + num))) p true))) ∧
    (∀ n, TxNamed s v n →
      let e := txOf s n
      (e.broken = true → exec (.chsend h a b c) s = .next (takeFault s (plainFlt 0x15 0)) ∧
        exec (.chtry h a b c p) s = .next (takeFault s (plainFlt 0x15 0))) ∧
      (e.broken = false → len ≤ 256 → InLs s src (max 1 len) → saveHoldsLs s = false →
        (e.allow = 0 ∨ 8 ≤ e.buf ∨ PeerWaits s e.peer → exec (.chsend h a b c) s = .next (parkedHere s)) ∧
        (PeerWaits s e.peer → exec (.chtry h a b c p) s = .next s) ∧
        (e.allow = 0 ∨ 8 ≤ e.buf → ¬PeerWaits s e.peer → exec (.chtry h a b c p) s = .next (done s (withPred s.me p false))) ∧
        (e.allow ≠ 0 → e.buf < 8 → len ≤ e.limit → ¬PeerWaits s e.peer →
          let m : ChanMsg := ⟨e.peer, epAddr k n, e.rgen.getD 0, memBytes s.mem (locLs k (src % 2 ^ 32)) len⟩
          let leaves := fun (t : State) (m : ChanMsg) => (e.peer % 2 ^ 12 = fabDev → ∃ x ∈ t.events, x.2 = .messageArrival m) ∧
            (e.peer % 2 ^ 12 ≠ fabDev → s.boot.links ≠ 0 → t.outbox = s.outbox ++ [.message m])
          (∃ t, exec (.chsend h a b c) s = .next t ∧ t.me = retired (asked s.me) ∧ txOf t n = { e with allow := e.allow - 1, buf := e.buf + 1 } ∧
            t.mem = s.mem ∧ leaves t m) ∧
          (∃ t, exec (.chtry h a b c p) s = .next t ∧ t.me = retired (withPred (asked s.me) p true) ∧
            txOf t n = { e with allow := e.allow - 1, buf := e.buf + 1 } ∧ t.mem = s.mem ∧ leaves t m)) ∧
        (e.allow ≠ 0 → e.buf < 8 → ¬PeerWaits s e.peer → e.limit < len → exec (.chsend h a b c) s = .next (takeFault s (plainFlt 2 0)))) ∧
      (e.buf = 0 ∨ e.broken = true → exec (.chclose h d a) s = .next (done (withTx s n { gen := e.gen }) (put s.me d (BitVec.ofNat 64 e.buf)))) ∧
      (e.buf ≠ 0 → e.broken = false → exec (.chclose h d a) s = .next s) ∧
      (a ≠ 0 → (s.slot s.cur).fibre = false → s.me.downq = none → exec (.qbindDown h a) s = .next (done s { s.me with downq := some n }))) ∧
    (∀ n, RxNamed s v n → Unbound s n →
      let e := rxOf s n
      let hd := memRead s.mem (epSlot k e e.headIx) 8
      (e.occ ≠ 0 → e.waiters = [] → e.auto = false → InLs s src (e.slotw * 8 - 8) → 2 ≤ e.slotw → saveHoldsLs s = false → ¬PeerWaits s hd → exec (.chrecv h d a b) s =
        .next (done ((withRx s n { e with occ := e.occ - 1, headIx := (e.headIx + 1) % e.nslot }).setMem
          (memPut s.mem (locLs k (src % 2 ^ 32)) (memBytes s.mem (epSlot k e e.headIx + 8) (hd / 2 ^ 32 % 2 ^ 9)))) (put s.me d (BitVec.ofNat 64 hd)))) ∧
      (e.occ = 0 → e.waiters = [] → InLs s src (e.slotw * 8 - 8) → 2 ≤ e.slotw → saveHoldsLs s = false → exec (.chrecv h d a b) s =
        .next (parkedHere (withRx s n { e with waiters := [s.cur] }))) ∧
      (let amount := min len (e.nslot - e.occ - e.granted);
        len ≤ 256 → src < 2 ^ 29 → ¬PeerWaits s src → ∃ t, exec (.chgrant h d a b c) s = .next t ∧ t.me = retired (put (asked s.me) d (BitVec.ofNat 64 amount)) ∧
          rxOf t n = { e with granted := e.granted + amount } ∧ t.mem = s.mem ∧
          (src % 2 ^ 12 = fabDev → ∃ x ∈ t.events, x.2 = .grantArrival ⟨src, amount, e.gen, e.slotw * 8 - 8⟩)) ∧
      exec (.chclose h d a) s = .next (done (withRx s n { gen := e.gen }) (put s.me d (BitVec.ofNat 64 e.occ))) ∧
      (a ≠ 0 → (s.slot s.cur).fibre = false → 16 ≤ e.nslot → e.peer ≠ 0 → e.auto = false → s.me.upq = none → ∃ t,
        exec (.qbindUp h a) s = .next t ∧ t.me = retired { s.me with upq := some n } ∧ t.mem = s.mem)) ∧
    (Plain s 0 → (s.slot s.cur).fibre = false → exec (.qbindUp h 0) s = .next (done s { s.me with upq := none }) ∧
      exec (.qbindDown h 0) s = .next (done s { s.me with downq := none })) ∧
    (Unnamed s v → ∀ i ∈ [Instr.chsend h a b c, .chtry h a b c p, .chrecv h d a b, .chgrant h d a b c, .chclose h d a],
      exec i s = .next (takeFault s (plainFlt 2 0))) ∧
    (AltList s v →
      (∀ m, m < 8 → let at_ := fun n => (s.me.win.toNat + 1 + n) % 8
        altReady s v (at_ m) → (∀ n, n < m → ¬altReady s v (at_ n)) → exec (.alt h d a) s =
          .next (done s (put { s.me with win := BitVec.ofNat 3 (at_ m) } d (BitVec.ofNat 64 (at_ m))))) ∧
      ((∀ i, i < 8 → ¬altReady s v i) → exec (.alt h d a) s = .next (parkedHere s))) ∧
    ((∀ i, i < 8 → altAt v i = 255) ∨ (∃ i, i < 8 ∧ altAt v i ≠ 255 ∧ (48 ≤ altAt v i ∨ (rxOf s (altAt v i)).isOpen = false)) →
      exec (.alt h d a) s = .next (takeFault s (plainFlt 2 0)))

/-- R113, R306 to R308: a message arrives in the next slot of its open endpoint, header and payload, its class is pending and its sender is answered;
one for a closed endpoint or another GEN changes no memory and is refused. A grant adds to the allowance; one of another GEN breaks the endpoint. An
acknowledgement lowers BUF; a refusal breaks the endpoint, BUF as before (assumption 39). A free message context with a ready class starts with its ready
classes in x1, which are no longer pending. -/
def Sys2Proof.Claims.ChannelSteps : Prop :=
  ∀ (s : State),
    (∀ (m : ChanMsg) (e : RecvEp),
      let k := epCore m.dst
      let n := epNum m.dst
      let answers := fun (t : State) (refused : Bool) =>
        (m.src % 2 ^ 12 = fabDev → ∃ x ∈ t.events, x.2 = .messageAckArrival m.src m.gen refused ∧ s.now < x.1) ∧
        (m.src % 2 ^ 12 ≠ fabDev → t.outbox = s.outbox ++ [.ack m.src m.gen refused])
      Memory.wf s.mem = true → tget (s.core k).rx n = some e → (s.core k).mlogStart = none → m.src % 2 ^ 12 = fabDev ∨ s.boot.links ≠ 0 →
      (e.isOpen = true → e.gen = m.gen → m.body.length ≤ 256 → ∃ t, exec (.messageArrival m) s = .next t ∧ answers t false ∧
        memRead t.mem (epSlot k e e.tailIx) 8 = m.src % 2 ^ 32 + m.body.length * 2 ^ 32 ∧
        memBytes t.mem (epSlot k e e.tailIx + 8) m.body.length = m.body ∧
        tget (t.core k).rx n = some { e with occ := e.occ + 1, granted := e.granted - 1, tailIx := (e.tailIx + 1) % e.nslot } ∧
        (t.core k).pending = (s.core k).pending ||| (1 <<< n) ∧
        (∀ x, x < epSlot k e e.tailIx ∨ epSlot k e e.tailIx + 8 + m.body.length ≤ x → memGet t.mem x = memGet s.mem x)) ∧
      (e.isOpen = false ∨ e.gen ≠ m.gen → ∃ t, exec (.messageArrival m) s = .next t ∧ answers t true ∧
        t.mem = s.mem ∧ t.cores = s.cores)) ∧
    (∀ (g : GrantMsg) (e : SendEp),
      let k := epCore g.dst
      let n := epNum g.dst
      tget (s.core k).tx n = some e → (s.core k).mlogStart = none → e.isOpen = true → e.peer % 2 ^ 12 = fabDev ∨ s.boot.links ≠ 0 →
      (e.rgen = none ∨ e.rgen = some g.gen → ∃ t, exec (.grantArrival g) s = .next t ∧ t.mem = s.mem ∧
        tget (t.core k).tx n = some { e with rgen := some g.gen, allow := e.allow + g.amount, limit := g.limit }) ∧
      (∀ r, e.rgen = some r → r ≠ g.gen → ∃ t, exec (.grantArrival g) s = .next t ∧ tget (t.core k).tx n = some { e with broken := true } ∧
        (t.core k).pending = (s.core k).pending ||| (1 <<< 49))) ∧
    (∀ (dst gen : Nat) (e : SendEp),
      let k := epCore dst
      let n := epNum dst
      tget (s.core k).tx n = some e → (s.core k).mlogStart = none → e.isOpen = true → e.peer % 2 ^ 12 = fabDev ∨ s.boot.links ≠ 0 → e.rgen = some gen →
      (∃ t, exec (.messageAckArrival dst gen false) s = .next t ∧ tget (t.core k).tx n = some { e with buf := e.buf - 1 }) ∧
      (∃ t, exec (.messageAckArrival dst gen true) s = .next t ∧ tget (t.core k).tx n = some { e with broken := true })) ∧
    (∀ c, 11 ≤ ctxSlot c → ctxSlot c ≤ 14 →
      let sl := s.slot c
      let r := (s.core (ctxCore c)).pending &&& sl.bound
      (sl.ctx.st = .empty → sl.park = none → r ≠ 0 → ∃ t, exec (.messageContextStart c) s = .next t ∧ t.mem = s.mem ∧
        (t.ctx c).st = .live ∧ (t.ctx c).pc = sl.bentry ∧ (t.ctx c).reg 1 = r ∧ (t.ctx c).reg 2 = sl.barg ∧
        (t.ctx c).reg 3 = BitVec.ofNat 64 (ctxSlot c - 11) ∧ (t.ctx c).sys = false ∧
        (t.core (ctxCore c)).pending = (s.core (ctxCore c)).pending &&& ~~~sl.bound) ∧
      (sl.ctx.st ≠ .empty ∨ sl.park ≠ none ∨ r = 0 → exec (.messageContextStart c) s = .next s))

/-- R304 to R318: channels, and what arrives on them (assumptions 39 and 75). -/
def Obligations.ChannelsSendReceiveAndGrant : Prop := Claims.Channels ∧ Claims.ChannelSteps

namespace Sys2Proof.Claims

/-! ### Contexts -/

/-- The register file a context begins with (R112). -/
def firstRegs (x1 x2 x3 : Word) : Vector Word 64 := (((Vector.replicate 64 (0 : Word)).set 1 x1).set 2 x2).set 3 x3

/-- A context that begins at `entry` in user mode (R112). -/
def beginning (entry x1 x2 x3 : Word) (prec : Bool) (u : UnitOf) : Ctx :=
  { st := .live, pc := entry, prec := prec, unit := u, x1s := x1, x3s := x3, x := firstRegs x1 x2 x3 }

/-- Is a helper slot free (R108)? -/
def HelperFree (s : State) (n : Nat) : Prop :=
  1 ≤ n ∧ n ≤ 10 ∧ (s.slot (16 * ctxCore s.cur + n)).ctx.st = .empty ∧ (s.slot (16 * ctxCore s.cur + n)).park = none

/-- What GETID 1, 2 and 4 give of the work that a context belongs to (R121). -/
def workIds : UnitOf → Nat × Nat × Nat
  | .group h g w => (h, g, w)
  | .task h => (h, 0, 0)
  | .none => (0, 0, 0)

/-- The work that a started context belongs to: the group of its starter, if it is in one (R116). -/
def helperUnit : UnitOf → UnitOf
  | .group h g w => .group h g w
  | _ => .none

end Sys2Proof.Claims

/-- R108, R112, R115 to R117, R119 to R121: START starts the lowest free helper slot at its entry with the launch argument, its own argument and its slot
number in x1 to x3, and gives its join handle; with no slot free it answers false. HEXIT records the exit word and frees the slot, once the
counters are 0. HJOIN of an ended start gives its exit word, of a stale handle false, and otherwise sleeps. MSGBIND takes classes for its
message context. SLEEP leaves the wheel behind its instruction. GETID gives what it names. -/
def Sys2Proof.Claims.ContextInstructions : Prop :=
  ∀ (s : State) (h : Hdr) (d a b c : Reg) (p : Pred), Ready s h → Target s d → (∀ r ∈ [a, b, c], Plain s r) →
    let k := ctxCore s.cur
    let v := s.me.reg a
    let w := s.me.reg b
    (∀ n, v.toNat % 8 = 0 → HelperFree s n → (∀ m, m < n → ¬HelperFree s m) →
      let g := if (s.slot (16 * k + n)).gen = 4095 then 1 else (s.slot (16 * k + n)).gen + 1
      ∃ t, exec (.start h d a b p) s = .next t ∧ t.me = retired (withPred (put s.me d (BitVec.ofNat 64 (g * 16 + n))) p true) ∧
        t.ctx (16 * k + n) = beginning v s.me.x1s w (BitVec.ofNat 64 n) s.me.prec (helperUnit s.me.unit) ∧ (t.slot (16 * k + n)).gen = g ∧
        (t.slot (16 * k + n)).ended = false ∧ t.mem = s.mem ∧ ∀ x, x ≠ s.cur → x ≠ 16 * k + n → t.slot x = s.slot x) ∧
    (v.toNat % 8 = 0 → (∀ n, ¬HelperFree s n) → exec (.start h d a b p) s = .next (done s (withPred (put s.me d 0) p false))) ∧
    (v.toNat % 8 ≠ 0 → exec (.start h d a b p) s = .next (takeFault s (plainFlt 4 v.toNat))) ∧
    (1 ≤ ctxSlot s.cur → ctxSlot s.cur ≤ 14 → (s.slot s.cur).fibre = false → s.me.streams = [] →
      (s.me.unit = .none → s.me.dcMask = 0#4 → s.me.delayed = [] → ∃ t, exec (.hexit h a) s = .next t ∧ t.me.st = .empty ∧ (t.slot s.cur).ended = true ∧
        (t.slot s.cur).exitWord = v ∧ t.me.upq = none ∧ t.me.downq = none ∧ t.mem = s.mem ∧ ∀ x, x ≠ s.cur → t.slot x = s.slot x)) ∧
    (s.me.dcMask ≠ 0#4 → exec (.hexit h a) s = .next s) ∧
    (s.me.dcMask = 0#4 → ctxSlot s.cur = 0 ∨ ctxSlot s.cur = 15 → exec (.hexit h a) s = .next (takeFault s (plainFlt 2 0))) ∧
    (let sl := s.slot (16 * k + v.toNat % 16);
      (v.toNat < 2 ^ 16 → 1 ≤ v.toNat % 16 → v.toNat % 16 ≤ 10 → v.toNat % 16 ≠ ctxSlot s.cur → v.toNat / 16 = sl.gen → sl.gen ≠ 0 →
        (sl.ended = true → exec (.hjoin h d a p) s = .next (done s (withPred (put s.me d sl.exitWord) p true))) ∧
        (sl.ended = false → exec (.hjoin h d a p) s = .next (s.setMe { s.me with st := .joining v.toNat }))) ∧
      (2 ^ 16 ≤ v.toNat ∨ v.toNat % 16 = 0 ∨ 10 < v.toNat % 16 ∨ v.toNat / 16 ≠ sl.gen ∨ v.toNat / 16 = 0 →
        exec (.hjoin h d a p) s = .next (done s (withPred (put s.me d 0) p false)))) ∧
    (∀ m : BitVec 4, 11 ≤ m.toNat → m.toNat ≤ 14 →
      (s.me.sys = true ∨ v.toNat < 2 ^ 48 → w.toNat % 8 = 0 → ∃ t, exec (.msgbind h m a b c) s = .next t ∧ t.mem = s.mem ∧
        t.me = retired s.me ∧ (t.slot (16 * k + m.toNat)).bound = v ∧ (t.slot (16 * k + m.toNat)).bentry = w ∧
        (t.slot (16 * k + m.toNat)).barg = s.me.reg c ∧
        ∀ n ∈ [11, 12, 13, 14], n ≠ m.toNat → (t.slot (16 * k + n)).bound = (s.slot (16 * k + n)).bound &&& ~~~v) ∧
      (s.me.sys = false → 2 ^ 48 ≤ v.toNat → exec (.msgbind h m a b c) s = .next (takeFault s (plainFlt 3 0)))) ∧
    exec (.sleep h d a) s = .next (done s { s.me with st := .sleeping ((s.cluster (ctxCl s.cur)).tcyc + min v.toNat (2 ^ 40 - 1)) d }) ∧
    exec (.getid h d 0) s = .next (done s (put s.me d (BitVec.ofNat 64 s.cur))) ∧
    (let i := workIds s.me.unit;
      exec (.getid h d 1) s = .next (done s (put s.me d (BitVec.ofNat 64 i.1))) ∧
      exec (.getid h d 2) s = .next (done s (put s.me d (BitVec.ofNat 64 i.2.1))) ∧
      exec (.getid h d 4) s = .next (done s (put s.me d (BitVec.ofNat 64 i.2.2)))) ∧
    exec (.getid h d 3) s = .next (done s (put s.me d s.me.x3s)) ∧
    exec (.getid h d 5) s = .next (done s (put s.me d (BitVec.ofNat 64 fabDev))) ∧
    exec (.getid h d 6) s = .next (done s (put s.me d (BitVec.ofNat 64 (2 * ctxCl s.cur)))) ∧
    exec (.getid h d 7) s = .next (done s (put s.me d (BitVec.ofNat 64 (s.me.sys.toNat + 2 * (let n := ctxSlot s.cur
      if n = 0 then 0 else if n ≤ 10 then 1 else if n ≤ 14 then 2 else 3)))))

/-- R114, R118, R120: a sleeper whose time has come is live again and its register is 0, or, for a message context, its ready classes, which are no
longer pending; before, nothing happens. A fibre lent a message context's slot wakes as the slot's role says (assumption 73). A joiner whose start has ended, or whose slot has been started again, issues its HJOIN again. -/
def Sys2Proof.Claims.Wakeups : Prop :=
  ∀ (s : State) (c : Nat),
    let x := s.ctx c
    let k := s.core (ctxCore c)
    let now := (s.cluster (ctxCl c)).tcyc
    (∀ due d, x.st = .sleeping due d → DstPlain d → Quiet x d →
      (due ≤ now → (ctxSlot c < 11 ∨ ctxSlot c = 15) → ∃ t, exec (.sleepExpiry c) s = .next t ∧ t.cur = s.cur ∧ t.mem = s.mem ∧
        t.ctx c = put { x with st := .live } d 0 ∧ t.cores = s.cores) ∧
      (due ≤ now ∨ k.pending &&& (s.slot c).bound ≠ 0 → 11 ≤ ctxSlot c → ctxSlot c ≤ 14 → ∃ t, exec (.sleepExpiry c) s = .next t ∧
        t.ctx c = put { x with st := .live } d (k.pending &&& (s.slot c).bound) ∧
        (t.core (ctxCore c)).pending = k.pending &&& ~~~(s.slot c).bound) ∧
      (ctxSlot c = 0 → k.upcalls ≠ [] → ∃ t, exec (.sleepExpiry c) s = .next t ∧ t.cur = s.cur ∧ t.mem = s.mem ∧
        t.ctx c = put { x with st := .live } d 0 ∧ t.cores = s.cores) ∧
      (now < due → 1 ≤ ctxSlot c → ctxSlot c ≤ 10 → exec (.sleepExpiry c) s = .next s)) ∧
    (∀ h, x.st = .joining h →
      let sl := s.slot (16 * ctxCore c + h % 16)
      (sl.ended = true ∨ sl.gen ≠ h / 16 → exec (.hjoinWake c) s = .next (s.setCtx c { x with st := .live })) ∧
      (sl.ended = false → sl.gen = h / 16 → exec (.hjoinWake c) s = .next s))

/-- R108, R112 to R121: contexts started, ended, joined, bound and asleep (assumption 73). -/
def Obligations.ContextsStartEndJoinAndSleep : Prop := Claims.ContextInstructions ∧ Claims.Wakeups

namespace Sys2Proof.Claims

/-! ### The scheduler -/

/-- Entry `i` of a die's task table. -/
def entry (s : State) (die i : Nat) : Task := (tget (s.die die).tasks i).getD {}

/-- Generation after `g` (R72). -/
def genAfter (g : Nat) : Nat := if 8191 ≤ g then 1 else g + 1

/-- A task handle (R72). -/
def handle (die i gen : Nat) : Nat := die * 2 ^ 29 + i * 2 ^ 13 + gen

/-- The die's table has a FREE entry, and its list is in rising order. -/
def Roomy (s : State) (die : Nat) : Prop :=
  let l := (s.die die).tasks.map Prod.fst
  l.Pairwise (· < ·) ∧ (∀ i ∈ l, i < 65536) ∧ ∃ i, i < 65536 ∧ (entry s die i).st = .free

/-- Some FREE entry of the die has been taken, for the task `f` gives but for its generation and the time of its entry; its handle. -/
def Entered (s t : State) (die : Nat) (f : Task) (hd : Nat) : Prop :=
  ∃ i, i < 65536 ∧ (entry s die i).st = .free ∧ hd = handle die i (genAfter (entry s die i).gen) ∧
    entry t die i = { f with gen := genAfter (entry s die i).gen, since := s.now }

/-- A live entry that a handle names (R72). -/
def Named (s : State) (hd die i : Nat) : Prop :=
  hd = handle die i (entry s die i).gen ∧ die < 8 ∧ i < 65536 ∧ (entry s die i).gen < 8192 ∧ (entry s die i).st ≠ .free ∧ hd ≠ 0

/-- The word of a packet that says where its task may run: its kind, die and cluster (R70). -/
def kindWord (kind die clu : Nat) : Nat := kind + 2 ^ 8 * die + 2 ^ 11 * clu

/-- The task of a packet that is its header, entry and kind words, its successor words and a payload (R70). -/
def taskOfPacket (w e kind clu : Nat) (succ pay : List Nat) : Task :=
  { st := if w / 2 ^ 16 % 2 ^ 16 = 0 then .ready else .waiting, ctr := w / 2 ^ 16 % 2 ^ 16, qid := w / 2 ^ 40 % 2 ^ 8, prio := w / 2 ^ 12 % 2 ^ 2,
    hnd := w / 2 ^ 32 % 2 ^ 8, prec := w.testBit 11, entry := e, kind := kind, clu := clu, succ := succ, payload := pay.map (BitVec.ofNat 64 ·) }

end Sys2Proof.Claims

/-- R72 to R74, R83, R92, R102 to R106: the scheduler's instructions. LAUNCH of a legal block without rings, and TENQ of a legal packet for its own die,
take a FREE entry, READY unless nothing or a dependence count says otherwise, and answer its handle; an illegal block faults LAUNCH_RANGE
with the block's address in ADDR (assumption 37), an illegal header ILLEGAL_ENC. TDEC sends one decrement and does not wait. TPOLL answers the entry's state, 0 for a stale handle, one
whose register has a bit of 63:32 set among them (assumption 68), and parks for the answer at the own die's scheduler too (assumption 69). TDONE ends
the task's context and frees its entry; outside a task it faults ILLEGAL_ENC. An answer writes x[D] and its predicate. -/
def Obligations.TaskInstructionsKeepTheTable : Prop :=
  ∀ (s s1 s2 s3 : State) (h : Hdr) (d a : Reg) (p : Pred), ReadyMem s h → Target s d → Plain s a →
    let v := (s.me.reg a).toNat
    let die := ctxDie s.cur
    (v % 8 ≠ 0 → exec (.launch h d a p) s = .next (takeFault s (plainFlt (if v < 2 ^ 57 then 0x14 else 6) v))) ∧
    (∀ (ws cr : List Nat) (ds : List (Nat × Nat)), readWords s v 8 = .ok ws s1 → v % 8 = 0 → OnlyRead s s1 → OnlyRead s1 s2 → OnlyRead s2 s3 →
      (v % 64 = 0 → launchLegal ws = true → readDescs s1 (ws[4]?.getD 0) (maskRings (ws[7]?.getD 0 % 2 ^ 16)) = .ok ds s2 →
        (∀ q ∈ ds, descLegal q.2 = true) → readWords s2 (ws[3]?.getD 0) 4 = .ok cr s3 → cringLegal cr = true → Roomy s die →
        s3.now = s.now → ∃ t f l hd, exec (.launch h d a p) s = .next t ∧
          Answering .schedulerAnswer s3 t [(d.toNat, BitVec.ofNat 64 hd)] (some (p, true)) ∧ Entered s t die f hd ∧ f.launch = some l ∧
          f.st = (if ws[1]?.getD 0 % 2 ^ 32 = 0 then .draining else .ready) ∧ f.entry = ws[0]?.getD 0 ∧ f.prio = ws[1]?.getD 0 / 2 ^ 39 % 2 ^ 2 ∧
          f.qid = ws[1]?.getD 0 / 2 ^ 41 % 2 ^ 6 ∧ l.lblk = v ∧ l.arg = ws[2]?.getD 0 ∧ l.gcount = ws[1]?.getD 0 % 2 ^ 32 ∧ l.nextGid = 0 ∧
          l.recs = 0 ∧ l.groups = [] ∧ l.base = cr[0]?.getD 0 ∧ l.descs = ds ∧ t.mem = s3.mem) ∧
      (v % 64 ≠ 0 ∨ launchLegal ws = false → exec (.launch h d a p) s = .next (takeFault s (plainFlt 0x14 v)))) ∧
    (∀ (w e kind dest clu : Nat) (succ pay : List Nat), readWords s v 1 = .ok [w] s1 → OnlyRead s s1 → OnlyRead s1 s2 →
      (headerLegal w = true → kind < 3 → dest < 8 → clu < 32 → succ.length = w / 2 ^ 8 % 2 ^ 3 → (∀ q ∈ succ, q < 2 ^ 32) →
        readWords s1 ((v + 8) % 2 ^ 64) (w % 2 ^ 8 - 1) = .ok (e :: kindWord kind dest clu :: (succ ++ pay)) s2 → e % 8 = 0 →
        let die := if kind = 0 then die else dest
        (s.dieGone die = false → Roomy s die → s2.now = s.now → ∃ t hd, exec (.tenq h d a p) s = .next t ∧
          Answering .schedulerAnswer s2 t [(d.toNat, BitVec.ofNat 64 hd)] (some (p, true)) ∧
          Entered s t die (taskOfPacket w e kind clu succ pay) hd ∧ t.mem = s2.mem) ∧
        (s.dieGone die = true → exec (.tenq h d a p) s = .next (takeFault s (plainFlt 0x16 v)))) ∧
      (headerLegal w = false → exec (.tenq h d a p) s = .next (takeFault s (plainFlt 2 v)))) ∧
    (v ≠ 0 → s.dieGone (v / 2 ^ 29 % 2 ^ 3) = false → ∃ t src, exec (.tdec h a) s = .next t ∧ t.me = retired (asked s.me) ∧ t.mem = s.mem ∧
      t.dies = s.dies ∧ src.ctx = s.cur ∧ src.pc = s.me.pc.toNat ∧
      ∃ e ∈ t.events, s.now < e.1 ∧ e.2 = .decrementArrival (v / 2 ^ 29 % 2 ^ 3) v src) ∧
    (∀ dd i, Named s v dd i → s.dieGone dd = false → ∃ t, exec (.tpoll h d a) s = .next t ∧ t.mem = s.mem ∧
      Answering .schedulerAnswer s t [(d.toNat, BitVec.ofNat 64 ((match (entry s dd i).st with
        | .free => 0
        | .waiting => 1
        | .ready => 2
        | .running => 3
        | .faulted => 4
        | .draining => 5) + match (entry s dd i).launch with
          | some l => l.recs * 2 ^ 24
          | none => (entry s dd i).ctr * 2 ^ 8))] none) ∧
    (2 ^ 32 ≤ v ∨ v = 0 → ∃ t, exec (.tpoll h d a) s = .next t ∧ Answering .schedulerAnswer s t [(d.toNat, 0)] none ∧ t.mem = s.mem) ∧
    (∀ q dd i, s.me.unit = .task q → s.me.streams = [] → Named s q dd i → (entry s dd i).succ = [] → (s.slot s.cur).fibre = false → ∃ t,
      exec (.tdone h) s = .next t ∧ t.me.st = .empty ∧ (t.slot s.cur).ended = true ∧ entry t dd i = { gen := (entry s dd i).gen }) ∧
    ((∀ q, s.me.unit ≠ .task q) → exec (.tdone h) s = .next (takeFault s (plainFlt 2 0))) ∧
    (∀ (k tag r : Nat) (x : Word) (b : Bool) (o : Outst), s.findOutst k tag = some (.run, o) → (s.ctx k).st = .parked (.reply tag) → o.ctr = none →
      (s.core (ctxCore k)).mlogStart = none → o.raced = [] → o.writes = [(r, x)] → 0 < r → r < 56 → o.pred = some (p, b) →
      let y := { s.ctx k with st := .live, outst := (s.ctx k).outst.filter (·.tag != o.tag) }
      Quiet y (BitVec.ofNat 6 r) → ∃ t, exec (.schedulerAnswer k tag) s = .next t ∧ t.cur = s.cur ∧ t.mem = s.mem ∧
        t.ctx k = retired (withPred { put y (BitVec.ofNat 6 r) x with recv := y.recv + 1 } p b))

/-- R75, R85 to R96, R98 to R100, R109 to R112, R335, R374: the scheduler's own steps. A decrement counts a WAITING entry down and the last makes it
READY; one for another entry is counted as discarded. A task that can be placed runs on its slot with its payload in the local store; a group that
can be placed starts its helpers and counts in the window. A routine image that can be loaded is written to routine memory, and contexts that wait
for one go on. An entry READY for more than 2^20 cycles rises by a level. Group records are written in order and the launch's last one frees its
entry; a full ring is polled again within 4,096 cycles. A handler asked for takes the faulted task's entry, or a FREE one. A write of sched.under
clears the count, and sched.fclr frees the FAULTED entry that the handle names, on the die that it names (assumption 37). -/
def Obligations.SchedulerPlacesDispatchesAndRetires : Prop :=
  ∀ (s : State) (die i : Nat),
    let e := entry s die i
    let put_ := fun (f : Task) => s.setDie die { s.die die with tasks := tput (s.die die).tasks i f }
    -- R89: a decrement counts a WAITING entry down, and the last one makes it READY; one for any other entry is counted as discarded
    (∀ q src, Named s q die i → e.st = .waiting → s.dieGone die = false →
      (1 < e.ctr → exec (.decrementArrival die q src) s = .next (put_ { e with ctr := e.ctr - 1 })) ∧
      (e.ctr ≤ 1 → exec (.decrementArrival die q src) s = .next (put_ { e with ctr := 0, st := .ready, since := s.now }))) ∧
    (∀ q src, Named s q die i → e.st ≠ .waiting → s.dieGone die = false → src.hent = 0 → src.hnd = 0 → src.gid = none → exec (.decrementArrival die q src) s =
      .next (s.setDie die { s.die die with under := min ((s.die die).under + 1) 0xFFFFFFFF })) ∧
    -- R87, R111, R112: a task that can be placed runs on its slot, its payload in the local store
    (nextUnit s die = none → exec (.dispatchTask die) s = .next s ∧ exec (.dispatchGroup die) s = .next s) ∧
    (∀ lv q c, nextUnit s die = some (lv, q, i, e) → e.launch = none → placeTask s die e = some c → Memory.wf s.mem = true → ∃ t,
      exec (.dispatchTask die) s = .next t ∧ (entry t die i).st = .running ∧ (entry t die i).ctx = c ∧
      t.ctx c = beginning (BitVec.ofNat 64 e.entry) (BitVec.ofNat 64 (handle die i e.gen))
        (if e.payload = [] then 0 else BitVec.ofNat 64 (0xFE00000000 + 256 * (ctxSlot c - 1))) 0 e.prec (.task (handle die i e.gen)) ∧
      memBytes t.mem (locLs (ctxCore c) (256 * (ctxSlot c - 1))) (8 * e.payload.length) = e.payload.flatMap fun w => leBytes 8 w.toNat) ∧
    -- R93, R109, R110: a group that can be placed starts its helpers and counts in the window
    (∀ lv q l cl b, nextUnit s die = some (lv, q, i, e) → e.launch = some l → placeGroup s die (handle die i e.gen) l = some (cl, b) → l.rout = 0 →
      l.descs = [] → (s.mu (2 * cl)).loads = [] → (s.mu (2 * cl + 1)).loads = [] → ∃ (t : State) (l' : Launch) (cs : List Nat),
      exec (.dispatchGroup die) s = .next t ∧ t.mem = s.mem ∧ (t.die die).window = (s.die die).window + 1 ∧ (entry t die i).launch = some l' ∧
      l'.nextGid = l.nextGid + 1 ∧ l'.groups = l.groups ++ [⟨l.nextGid, 2 ^ l.cpg * l.hpc, 0, 0⟩] ∧ l'.lastCl = some cl ∧
      cs.length = 2 ^ l.cpg * l.hpc ∧ cs.Pairwise (· < ·) ∧
      (∀ r c, cs[r]? = some c → 8 * cl + b ≤ ctxCore c ∧ ctxCore c < 8 * cl + b + 2 ^ l.cpg ∧ (s.ctx c).st = .empty ∧
        t.ctx c = beginning (BitVec.ofNat 64 e.entry) (BitVec.ofNat 64 l.nextGid) (BitVec.ofNat 64 l.arg) (BitVec.ofNat 64 r) e.prec
          (.group (handle die i e.gen) l.nextGid (l.hpc + l.cpg * 2 ^ 4 + b * 2 ^ 6))) ∧
      (entry t die i).st = (if l.nextGid + 1 = l.gcount then .draining else e.st)) ∧
    ((∀ m, m / 64 = die → (s.mu m).loads = []) → ∃ t, exec (.routineImageLoad die) s = .next t ∧ t.mem = s.mem ∧ t.mus = s.mus ∧
      ∀ c sl, tget s.slots c = some sl → ctxDie c = die → sl.ctx.st = .parked .image → t.ctx c = { sl.ctx with st := .live }) ∧
    -- R96: an image that can be loaded is written to routine memory
    (∀ m l, m / 64 = die → (s.mu m).loads = [l] → l.ctx = none → imageReady s m = true → (∀ k, k / 64 = die → k ≠ m → (s.mu k).loads = []) →
      l.off + l.data.length ≤ 65536 → Memory.wf s.mem = true → ∃ t, exec (.routineImageLoad die) s = .next t ∧ (t.mu m).loads = [] ∧
        memBytes t.mem (locRm m l.off) l.data.length = l.data ∧
        ∀ a, a < locRm m l.off ∨ locRm m (l.off + l.data.length) ≤ a → memGet t.mem a = memGet s.mem a) ∧
    -- R88: an entry READY for more than 2^20 cycles rises by a level
    (e.st = .ready → e.prio < 3 → e.since + 2 ^ 20 < s.now → exec (.agingPromotion die i) s = .next (put_ { e with prio := e.prio + 1, since := s.now })) ∧
    (e.st ≠ .ready ∨ 3 ≤ e.prio ∨ s.now ≤ e.since + 2 ^ 20 → exec (.agingPromotion die i) s = .next s) ∧
    -- R75, R94, R95: records are written in order; the last one frees the entry
    (∀ l g s1, e.launch = some l → l.retryAt = none → l.pollAt = none →
      (l.groups = [g] → g.gid = l.recs → g.alive = 0 →
        putRec s (schedWho l (handle die i e.gen) false) l (g.gid % 2 ^ 25 + 2 ^ 40 + g.fcode * 2 ^ 48) = .ok s1 → s1.dies = s.dies → ∃ t,
        exec (.groupRecordWrite die i) s = .next t ∧ t.mem = s1.mem ∧ (t.die die).window = (s.die die).window - 1 ∧
        (entry t die i).launch = some { l with recs := l.recs + 1, groups := [] }) ∧
      (e.st = .draining → l.recs = l.gcount → putRec s (schedWho l (handle die i e.gen) false) l (l.gcount % 2 ^ 25 + 2 ^ 41) = .ok s1 →
        s1.dies = s.dies → ∃ t, exec (.launchDoneRecord die i) s = .next t ∧ t.mem = s1.mem ∧ entry t die i = { gen := e.gen }) ∧
      (l.groups = [g] → g.gid = l.recs → g.alive = 0 →
        putRec s (schedWho l (handle die i e.gen) false) l (g.gid % 2 ^ 25 + 2 ^ 40 + g.fcode * 2 ^ 48) = .full s1 → s1.dies = s.dies →
        s1.now = s.now → ∃ t j, exec (.groupRecordWrite die i) s = .next t ∧ t.mem = s1.mem ∧ 1 ≤ j ∧ j ≤ 4096 ∧
          (entry t die i).launch = some { l with pollAt := some (s.now + j) })) ∧
    (∀ l due, e.launch = some l →
      (l.pollAt = some due → due ≤ s.now →
        let again := put_ { e with launch := some { l with pollAt := none } }
        ((∃ g ∈ l.groups, g.gid = l.recs ∧ g.alive = 0) →
          ∃ t, exec (.ridxPoll die i) s = .next t ∧ exec (.groupRecordWrite die i) again = .next t) ∧
        ((∀ g ∈ l.groups, ¬(g.gid = l.recs ∧ g.alive = 0)) →
          ∃ t, exec (.ridxPoll die i) s = .next t ∧ exec (.launchDoneRecord die i) again = .next t)) ∧
      (l.pollAt = some due → s.now < due → exec (.ridxPoll die i) s = .next s) ∧
      (let on := fun (q : Option Nat) => match q with
          | some x => if s.now < x then some x else none
          | none => none;
        exec (.schedAccessRetry die i) s =
          .next (put_ { e with launch := some { l with retryAt := on l.retryAt, imgAt := on l.imgAt } }))) ∧
    -- R98, R335: a handler asked for takes the faulted task's own entry, READY, with the source's handle and the record's address as payload
    (∀ q r, (s.die die).spawns = q :: r → q.same = some i → Named s q.srcHandle die i → e.st = .faulted → ∃ t f, exec (.handlerSpawn die) s = .next t ∧ entry t die i = f ∧
      f.st = .ready ∧ f.entry = q.entry ∧ f.prio = q.prio ∧ f.handler = true ∧ f.succ = e.succ ∧ f.gen = genAfter e.gen ∧
      f.payload = [BitVec.ofNat 64 q.srcHandle, BitVec.ofNat 64 ((s.die die).frec.toNat / 2 ^ 22 % 2 ^ 26 * 2 ^ 22 + 64 * i)] ∧
      (t.die die).spawns = r) ∧
    (∀ q r, (s.die die).spawns = q :: r → q.same = none → Roomy s die → ∃ t f hd, exec (.handlerSpawn die) s = .next t ∧ Entered s t die f hd ∧
      f.st = .ready ∧ f.entry = q.entry ∧ f.prio = q.prio ∧ f.handler = true ∧ f.succ = [] ∧ (t.die die).spawns = r) ∧
    ((s.die die).spawns = [] → exec (.handlerSpawn die) s = .next s) ∧
    -- R100, R335: writes of sched.under and sched.fclr
    exec .schedUnderClear s = .next (s.setDie (ctxDie s.cur) { s.die (ctxDie s.cur) with under := 0 }) ∧
    (∀ v : Word, Named s (v.toNat % 2 ^ 32) die i →
      (e.st = .faulted → exec (.schedFclr v) s = .next (put_ { gen := e.gen })) ∧
      (e.st ≠ .faulted → exec (.schedFclr v) s = .next s))

namespace Sys2Proof.Claims

/-! ### System registers -/

/-- Registers that every mode may read, with their values (R149, R153, R163, R247, R299, R320, R325, R100, R356, R360). -/
def shown (s : State) : List (Nat × Nat) :=
  [(0x000, ctxSlot s.cur + s.me.sys.toNat * 2 ^ 5 + slotRole (ctxSlot s.cur) * 2 ^ 6 + s.me.prec.toNat * 2 ^ 8), (0x001, s.now % 2 ^ 64),
   (0x002, s.me.icount.toNat), (0x100, s.myCore.lsplit), (0x102, s.myCore.outst + s.myCore.nseq * 2 ^ 16), (0x103, s.myCore.atp.toNat),
   (0x120, s.sqTable.toNat), (0x121, s.kvTable.toNat), (0x122, s.kvShape.toNat), (0x123, s.kvCtl.toNat), (0x130, s.myCore.feLimit),
   (0x140, s.fabExport.toNat), (0x141, fabId), (0x143, s.fabResv + s.fabPool * 2 ^ 8),
   (0x144, s.fabLastr + s.fabAuthf * 2 ^ 16 + s.fabRefc * 2 ^ 32), (0x150, (s.die (ctxDie s.cur)).htable.toNat),
   (0x151, (s.die (ctxDie s.cur)).under), (0x152, (s.die (ctxDie s.cur)).frec.toNat), (0x190, s.pkgLost),
   (0x1C0, s.pwrStep + s.pwrIsl * 2 ^ 16), (0x1C1, s.pwrWatts * 2 ^ 16 + s.pwrThrot * 2 ^ 32), (0x1C2, s.pwrLimit),
   (0x1C3, (s.cluster (ctxCl s.cur)).sstep + (s.cluster (ctxCl s.cur)).mstep * 2 ^ 8)]

/-- Registers of system mode, with their values; a register that is written only reads 0. -/
def shownSys (s : State) : List (Nat × Nat) :=
  [(0x106, s.myCore.uparea.toNat), (0x107, s.myCore.mlog.toNat), (0x160, s.myCore.tvec.toNat), (0x161, s.me.epc.toNat), (0x162, s.me.estat.toNat),
   (0x163, s.me.scratch.toNat), (0x170, (s.cluster (ctxCl s.cur)).farea.toNat), (0x142, 0), (0x153, 0), (0x1D2, 0), (0x1E0, 0)]

/-- The register numbers by what R355 and R357 to R367 allow. -/
def readOnlyNos : List Nat := [0x001, 0x102, 0x112, 0x113, 0x124, 0x141, 0x144, 0x145, 0x180, 0x190, 0x1C1, 0x1C3, 0x1D0, 0x1D1]
def openNos : List Nat := [0x000, 0x002, 0x100, 0x101, 0x103, 0x110, 0x111, 0x120, 0x121, 0x122, 0x123, 0x130, 0x140, 0x143, 0x150, 0x151,
  0x152, 0x1C0, 0x1C2]
def popNos : List Nat := [0x104, 0x105]
def sysNos : List Nat := [0x106, 0x107, 0x160, 0x161, 0x162, 0x163, 0x170, 0x142, 0x153, 0x1D2, 0x1E0]

/-- No context of core `k` has an access that has not completed; one that waits at a full/empty word has one. -/
def CoreIdle (s : State) (k : Nat) : Prop :=
  ∀ n, n < 16 → (s.ctx (16 * k + n)).outst = [] ∧ (∀ tag, (s.ctx (16 * k + n)).st ≠ .parked (.fe tag)) ∧ (s.slot (16 * k + n)).late = [] ∧
    (∀ x, (s.slot (16 * k + n)).park = some x → x.outst = []) ∧ ∀ w ∈ s.feWait, ∀ q ∈ w.2.fl ++ w.2.el, q.ctx ≠ some (16 * k + n)

/-- A context of core `k` awaits an access to the local store or the L1: to no scratchpad and no global address (R151). -/
def SplitWaits (s : State) (k : Nat) : Prop :=
  ∃ n, n < 16 ∧ ∃ o ∈ (s.ctx (16 * k + n)).outst, o.load = true ∧ o.addr / 2 ^ 56 = 0 ∧ o.addr / 2 ^ 32 ≠ 0xFF ∧
    (o.addr / 2 ^ 32 < 0xC0 ∨ 0xDF < o.addr / 2 ^ 32)

/-- Bits `lo` to `lo + n - 1` of a word as a number. -/
def fieldAt (v : Word) (lo n : Nat) : Nat := v.toNat / 2 ^ lo % 2 ^ n

/-- What a write of the value `v` to a register without a condition of its own makes of the state (R149, R154, R198, R247, R299, R325, R100,
R356, R360). -/
def writes (s : State) (v : Word) : List (Nat × State) :=
  let q := s.myCore
  let d := s.die (ctxDie s.cur)
  let core (q : Core) : State := s.setCore (ctxCore s.cur) q
  let die (d : Die) : State := s.setDie (ctxDie s.cur) d
  [(0x000, s.setMe { s.me with prec := v.getLsbD 8 }), (0x106, core { q with uparea := v &&& 0xFFFFFFFFFC00#64 }),
   (0x160, core { q with tvec := v &&& 0xFFFFFFFFFFFFFFF9#64 }), (0x130, core { q with feLimit := fieldAt v 0 40 }),
   (0x161, s.setMe { s.me with epc := v }), (0x162, s.setMe { s.me with estat := v &&& 0x3FF#64 }),
   (0x163, s.setMe { s.me with scratch := v }), (0x150, die { d with htable := v &&& 0xFFFFFFFFF001#64 }),
   (0x152, die { d with frec := v &&& 0xFFFFFFC00001#64 }), (0x151, if fieldAt v 0 32 = 0 then s else die { d with under := 0 }),
   (0x170, s.setCluster (ctxCl s.cur) { s.cluster (ctxCl s.cur) with farea := v &&& 0xFFFFFFFFFF80#64 })] ++
  (if fieldAt v 8 2 = 3 then [] else [(0x101, core { q with vmask := some (fieldAt v 0 8), vfrac := fieldAt v 8 2 })]) ++
  (if fieldAt v 8 8 = 0 ∨ 16 < fieldAt v 8 8 ∨ fieldAt v 0 5 < 2 ∨ 16 < fieldAt v 0 5 then []
    else [(0x143, { s with fabPool := fieldAt v 8 8, fabResv := fieldAt v 0 5 })]) ++
  (if fieldAt v 0 12 < 1000 then [] else [(0x1C2, { s with pwrLimit := fieldAt v 0 12 })]) ++
  (if s.kvCtl.getLsbD 0 then [] else [(0x122, { s with kvShape := v &&& 0xFFFF#64 })]) ++
  (if s.kvCtl.getLsbD 0 ∨ 24 < fieldAt v 0 5 then [] else [(0x120, { s with sqTable := v &&& 0xFFFFFFFFFC1F#64 })]) ++
  (if s.kvCtl.getLsbD 0 ∨ fieldAt v 0 5 < 8 ∨ 28 < fieldAt v 0 5 then [] else [(0x121, { s with kvTable := v &&& 0xFFFFFFFFF01F#64, kvUsed := true })])

/-- Writes that trap ILLEGAL_ENC for their value, or for EN of kv.ctl. -/
def illegalWrites (s : State) (v : Word) : List Nat :=
  (if fieldAt v 8 2 = 3 then [0x101] else []) ++ (if 9 ≤ fieldAt v 0 4 then [0x100] else []) ++
  (if fieldAt v 8 8 = 0 ∨ 16 < fieldAt v 8 8 ∨ fieldAt v 0 5 < 2 ∨ 16 < fieldAt v 0 5 then [0x143] else []) ++
  (if fieldAt v 0 12 < 1000 then [0x1C2] else []) ++ (if s.kvCtl.getLsbD 0 then [0x120, 0x121, 0x122] else []) ++
  (if 24 < fieldAt v 0 5 then [0x120] else []) ++ (if fieldAt v 0 5 < 8 ∨ 28 < fieldAt v 0 5 then [0x121] else [])

/-- The word that a read of wk.miss gives for an entry (R191), and of core.upcall for an upcall (R198). -/
def missWord (m : MissReq) : Word := BitVec.ofNat 64 (m.vpn * 2 ^ 20 + 2 ^ 7 + m.usr.toNat * 2 ^ 6 + m.kind * 2 ^ 4 + m.req)
def upcallWord (u : Upcall) : Word := BitVec.ofNat 64 (u.lrseq * 2 ^ 16 + u.more * 2 ^ 8 + 2 ^ 7 + u.kind * 2 ^ 4 + u.slot)

/-- The core's mailbox with the entry of one slot taken. -/
def takenAway (l : List MissReq) (req : Nat) : List MissReq := l.map fun e => if e.req = req then { e with taken := true } else e

end Sys2Proof.Claims

/-- R147 to R149, R355, R356 and the entries of the registers: SRD and SWR of an unlisted number trap ILLEGAL_ENC, of a register of system mode in
user mode PRIV; a write of a register that no mode writes traps ILLEGAL_ENC, any other write in user mode PRIV. SRD gives a register's
value and SWR writes its fields, a written icount standing as written behind the instruction; values out of a field's range trap
ILLEGAL_ENC. The steps of a register's write do the same on their own. -/
def Sys2Proof.Claims.SystemRegisters : Prop :=
  ∀ (s : State) (h : Hdr) (d a : Reg), Ready s h → Target s d → Plain s a →
    let v := s.me.reg a
    (∀ n : BitVec 12, n.toNat ∉ readOnlyNos ++ openNos ++ popNos ++ sysNos →
      exec (.srd h d n) s = .next (takeFault s (plainFlt 2 0)) ∧ exec (.swr h a n) s = .next (takeFault s (plainFlt 2 0)) ∧
      exec (.registerWrite n v) s = .next (takeFault s (plainFlt 2 0))) ∧
    (∀ n : BitVec 12, n.toNat ∈ readOnlyNos → exec (.swr h a n) s = .next (takeFault s (plainFlt 2 0))) ∧
    (s.me.sys = false →
      (∀ n : BitVec 12, n.toNat ∈ popNos ++ sysNos → exec (.srd h d n) s = .next (takeFault s (plainFlt 3 0))) ∧
      (∀ n : BitVec 12, n.toNat ∈ openNos ++ popNos ++ sysNos → exec (.swr h a n) s = .next (takeFault s (plainFlt 3 0)) ∧
        exec (.registerWrite n v) s = .next (takeFault s (plainFlt 3 0)))) ∧
    (∀ p ∈ shown s, exec (.srd h d (BitVec.ofNat 12 p.1)) s = .next (done s (put s.me d (BitVec.ofNat 64 p.2)))) ∧
    (s.me.sys = true →
      (∀ p ∈ shownSys s, exec (.srd h d (BitVec.ofNat 12 p.1)) s = .next (done s (put s.me d (BitVec.ofNat 64 p.2)))) ∧
      (∀ n : BitVec 12, n.toNat ∈ popNos → exec (.swr h a n) s = .next (takeFault s (plainFlt 2 0))) ∧
      (∀ p ∈ writes s v, exec (.swr h a (BitVec.ofNat 12 p.1)) s = .next (done p.2 p.2.me) ∧
        exec (.registerWrite (BitVec.ofNat 12 p.1) v) s = .next p.2) ∧
      (∀ n ∈ illegalWrites s v, exec (.swr h a (BitVec.ofNat 12 n)) s = .next (takeFault s (plainFlt 2 0))) ∧
      exec (.swr h a 2) s = .next (s.setMe { s.me with pc := s.me.pc + 8, icount := v, missAns := none }))

/-- R153, R185, R191, R198: the steps behind the registers with an effect of their own. A read of wk.miss takes the oldest untaken entry, which
stays pending, and a read of core.upcall pops the oldest upcall; with none they read 0. core.atp is written once the core's accesses
have completed, and holds its writer before. A change of core.lsplit begins once those to the local store and the L1 have, and holds its writer
until it is done; then the bytes that were in the local store and stay there stand, those that enter it are zero and empty, and the writer's
retry goes on. A write of the value that it holds changes nothing (assumption 59). -/
def Sys2Proof.Claims.RegisterSteps : Prop :=
  ∀ (s : State) (d : Reg), DstPlain d → Quiet s.me d →
    let k := ctxCore s.cur
    let q := s.myCore
    (q.mbox.find? (fun m => !m.taken) = none → exec (.wkMissPop d) s = .next (s.setMe (put s.me d 0))) ∧
    (∀ m, q.mbox.find? (fun m => !m.taken) = some m → exec (.wkMissPop d) s =
      .next ((s.setCore k { q with mbox := takenAway q.mbox m.req }).setMe (put s.me d (missWord m)))) ∧
    (q.upcalls = [] → exec (.upcallPop d) s = .next (s.setMe (put s.me d 0))) ∧
    (∀ u r, q.upcalls = u :: r → exec (.upcallPop d) s =
      .next ((s.setCore k { q with upcalls := r }).setMe (put s.me d (upcallWord u)))) ∧
    (∀ (h : Hdr), Ready s h → s.me.sys = true →
      (∀ m, q.mbox.find? (fun m => !m.taken) = some m → exec (.srd h d 0x104) s =
        .next (done (s.setCore k { q with mbox := takenAway q.mbox m.req }) (put s.me d (missWord m)))) ∧
      (∀ u r, q.upcalls = u :: r → exec (.srd h d 0x105) s =
        .next (done (s.setCore k { q with upcalls := r }) (put s.me d (upcallWord u)))) ∧
      (∀ (a : Reg), Plain s a →
        let v := s.me.reg a
        (CoreIdle s k → exec (.swr h a 0x103) s =
          .next (done (s.setCore k { q with atp := v &&& 0xFFFFFFFFFFFFF001#64 }) s.me)) ∧
        ((∃ n, n < 16 ∧ ((s.ctx (16 * k + n)).outst ≠ [] ∨ ∃ tag, (s.ctx (16 * k + n)).st = .parked (.fe tag))) → exec (.swr h a 0x103) s = .next (parkedHere s)) ∧
        ((∀ e ∈ q.lsDone, e.1 ≠ s.cur) →
          (fieldAt v 0 4 = q.lsplit → q.lsplit < 9 → CoreIdle s k → q.lsChange = none → exec (.swr h a 0x100) s = .next (done s s.me)) ∧
          (fieldAt v 0 4 < 9 → SplitWaits s k ∨ q.lsChange.isSome = true → exec (.swr h a 0x100) s = .next (parkedHere s))) ∧
        (fieldAt v 0 4 < 9 → q.lsDone = [(s.cur, s.me.icount)] → exec (.swr h a 0x100) s = .next (done (s.setCore k { q with lsDone := [] }) s.me)))) ∧
    (∀ v : Word,
      (CoreIdle s k → exec (.coreAtpWrite v) s = .next (s.setCore k { q with atp := v &&& 0xFFFFFFFFFFFFF001#64 })) ∧
      ((∃ n, n < 16 ∧ ((s.ctx (16 * k + n)).outst ≠ [] ∨ ∃ tag, (s.ctx (16 * k + n)).st = .parked (.fe tag))) → exec (.coreAtpWrite v) s = .next s) ∧
      (9 ≤ fieldAt v 0 4 → exec (.coreLsplitWrite v) s = .next (takeFault s (plainFlt 2 0))) ∧
      (fieldAt v 0 4 < 9 → fieldAt v 0 4 ≠ q.lsplit → q.lsChange = none → CoreIdle s k → (∀ e ∈ q.lsDone, e.1 ≠ s.cur) →
        (∀ o ∈ (s.cluster (coreCl k)).copyQ, o.part = none) → ∃ t, exec (.coreLsplitWrite v) s = .next t ∧
        (t.core k).lsChange = some (s.cur, fieldAt v 0 4) ∧ (t.core k).lsplit = q.lsplit ∧ t.mem = s.mem ∧
        t.me = { s.me with st := .parked .retry } ∧ (∀ x, x ≠ s.cur → t.slot x = s.slot x) ∧
        ∃ e ∈ t.events, s.now < e.1 ∧ e.2 = .lsplitChangeDone k)) ∧
    (∀ (j c ls : Nat), (s.core j).lsChange = some (c, ls) → ls < 9 → (s.core j).lsplit < 9 → ∃ t, exec (.lsplitChangeDone j) s = .next t ∧
      t.core j = { s.core j with lsplit := ls, lsChange := none, lsDone := (c, (s.ctx c).icount) :: (s.core j).lsDone.filter (·.1 != c) } ∧ t.slots = s.slots ∧
      ∀ a, (min (s.core j).lsplit ls * 2 ^ 15 ≤ a → a < max (s.core j).lsplit ls * 2 ^ 15 →
          memGet t.mem (locLs j a) = 0 ∧ t.isFull (locLs j a) = false) ∧
        (a < locLs j (min (s.core j).lsplit ls * 2 ^ 15) ∨ locLs j (max (s.core j).lsplit ls * 2 ^ 15) ≤ a →
          memGet t.mem a = memGet s.mem a ∧ t.isFull a = s.isFull a))

/-- R147 to R149, R153, R185, R191, R198, R355, R356: system registers read and written (assumption 59). -/
def Obligations.SystemRegistersReadAndWrite : Prop := Claims.SystemRegisters ∧ Claims.RegisterSteps

namespace Sys2Proof.Claims

/-! ### Translation from the walker's side -/

/-- Request `m` of core `k` is the pending one that the mailbox word `e` names (R193). -/
def NamesMiss (s : State) (k : Nat) (e : Word) (m : MissReq) : Prop :=
  e.getLsbD 7 = true ∧
    (s.core k).mbox.find? (fun q => decide (q.req = fieldAt e 0 4 ∧ q.vpn = fieldAt e 20 44 ∧ q.kind = fieldAt e 4 2)) = some m

/-- Base-2 logarithm of the page size of a leaf at level `lvl` (R188). -/
def leafLg (leaf : Word) (lvl : Nat) : Nat := 12 + 9 * (lvl - 1) + 2 * fieldAt leaf 9 3

/-- A leaf that WKDONE accepts at a level (R193). -/
structure LeafOk (leaf : Word) (lvl : Nat) : Prop where
  level : 1 ≤ lvl ∧ lvl ≤ 3
  valid : leaf.getLsbD 0 = true
  rights : fieldAt leaf 1 3 ≠ 0
  zeros : fieldAt leaf 52 12 = 0
  size : fieldAt leaf 9 3 ≤ (if lvl = 3 then 1 else 2)
  aligned : fieldAt leaf 12 36 * 4096 % 2 ^ leafLg leaf lvl = 0

/-- The TLB entry that a leaf gives for the page of request `m` (R187 to R189). -/
def entryOf (leaf : Word) (lvl : Nat) (m : MissReq) : TlbEntry :=
  ⟨m.asid, leaf.getLsbD 5, m.vpn * 4096 / 2 ^ leafLg leaf lvl * 2 ^ leafLg leaf lvl, leafLg leaf lvl, fieldAt leaf 12 36 * 4096, leaf.getLsbD 1,
    leaf.getLsbD 2, leaf.getLsbD 3, leaf.getLsbD 4, leaf.getLsbD 7, leaf.getLsbD 8⟩

/-- Does a TLBINV remove an entry (R194)? -/
def removes (i : InvRec) (e : TlbEntry) : Bool :=
  match i.kind with
  | 0 => (e.gl || decide (e.asid = i.asid)) && decide (i.va / 2 ^ e.lg = e.page / 2 ^ e.lg)
  | 1 => !e.gl && decide (e.asid = i.asid)
  | _ => true

/-- Is a core of number `j` in the scope of a TLBINV of core `k` (R192)? -/
def InScope (sco : InvScope) (k j : Nat) : Prop :=
  match sco with
  | .cl => j / 8 = k / 8
  | .die => j / 256 = k / 256
  | .pkg => True

/-- What a TLBINV leaves (R194): the entries it removes are gone from every TLB of its scope, and every pending request of the scope has
recorded it; `x` is the issuing context then. -/
structure Invalidated (s t : State) (sco : InvScope) (i : InvRec) (x : Ctx) : Prop where
  me : t.me = x
  mem : t.mem = s.mem
  itlb : ∀ j, InScope sco (ctxCore s.cur) j → (t.core j).itlb = (s.core j).itlb.filter fun e => !removes i e
  dtlb : ∀ j, InScope sco (ctxCore s.cur) j → (t.core j).dtlb = (s.core j).dtlb.filter fun e => !removes i e
  l2 : ∀ c, InScope sco (ctxCore s.cur) (8 * c) → (t.cluster c).l2tlb = (s.cluster c).l2tlb.filter fun e => !removes i e
  told : ∀ j, InScope sco (ctxCore s.cur) j → (t.core j).mbox = (s.core j).mbox.map fun m => { m with invs := m.invs ++ [i] }
  others : ∀ j, ¬InScope sco (ctxCore s.cur) j → t.core j = s.core j
  otherL2 : ∀ c, ¬InScope sco (ctxCore s.cur) (8 * c) → t.cluster c = s.cluster c

/-- A context of the scope waits with a full/empty access (R297) at an address that it translated through an entry that a TLBINV removes. -/
def WaitsThrough (s : State) (sco : InvScope) (i : InvRec) (q : FeWaiter) : Prop :=
  ∃ w ∈ s.feWait, q ∈ w.2.fl ++ w.2.el ∧ w.1 < 2 ^ 48 ∧ q.va / 2 ^ 56 = 0 ∧ ∃ c, q.ctx = some c ∧ (s.core (ctxCore c)).atp.getLsbD 0 = true ∧
    InScope sco (ctxCore s.cur) (ctxCore c) ∧
    ∃ e ∈ (s.core (ctxCore c)).dtlb ++ (s.cluster (ctxCl c)).l2tlb, removes i e = true ∧ Hits e ((s.core (ctxCore c)).atp.toNat / 2 ^ 48) q.va = true

end Sys2Proof.Claims

/-- R193, R194: WKDONE of a stale word does nothing. WKDONE.ok installs a legal leaf in the cluster's TLB and in the requester's ITLB or DTLB, unless a
TLBINV recorded with the request removes it, and puts the requester back at its instruction; an illegal leaf traps ILLEGAL_ENC. WKDONE.np and
WKDONE.prot install nothing, and the answer stays with the requester for its retry; the answer to an engine lets its next miss into the mailbox.
TLBINV waits for the context's accesses and removes the entries of its kind in its scope; a full/empty access that waits at an address translated
through one of them parks it until that access waits no longer. It does not wait for posted requests, which have performed (assumptions 17 and
47). -/
def Sys2Proof.Claims.WalkerAnswers : Prop :=
  ∀ (s : State) (h : Hdr) (a b : Reg), Ready s h → Plain s a → Plain s b → s.me.sys = true →
    let k := ctxCore s.cur
    let q := s.core k
    let e := s.me.reg b
    let leaf := s.me.reg a
    let rest := fun (m : MissReq) => { q with mbox := q.mbox.filter fun r => r.req != m.req }
    ((e.getLsbD 7 = false ∨ ∀ m, ¬NamesMiss s k e m) →
      ∀ i ∈ [Instr.wkdoneNp h b, .wkdoneProt h b, .wkdoneOk h 1 a b], exec i s = .next (done s s.me)) ∧
    (∀ m, NamesMiss s k e m → m.req < 15 → (s.ctx (16 * k + m.req)).st = .parked .miss → 16 * k + m.req ≠ s.cur →
      let c := 16 * k + m.req
      let x := s.ctx c
      exec (.wkdoneNp h b) s =
        .next (done ((s.setCore k (rest m)).setCtx c { x with st := .live, missAns := some (m.vpn, m.kind, 1) }) s.me) ∧
      exec (.wkdoneProt h b) s =
        .next (done ((s.setCore k (rest m)).setCtx c { x with st := .live, missAns := some (m.vpn, m.kind, 2) }) s.me) ∧
      (∀ lvl : BitVec 2, LeafOk leaf lvl.toNat →
        ((∀ i ∈ m.invs, removes i (entryOf leaf lvl.toNat m) = false) → ∃ t, exec (.wkdoneOk h lvl a b) s = .next t ∧ t.mem = s.mem ∧
          t.me = retired s.me ∧ (t.core k).mbox = (rest m).mbox ∧ t.ctx c = { x with st := .live, missAns := none } ∧
          entryOf leaf lvl.toNat m ∈ (t.cluster (coreCl k)).l2tlb ∧ (m.kind = 2 → entryOf leaf lvl.toNat m ∈ (t.core k).itlb) ∧
          (m.kind ≠ 2 → entryOf leaf lvl.toNat m ∈ (t.core k).dtlb)) ∧
        ((∃ i ∈ m.invs, removes i (entryOf leaf lvl.toNat m) = true) → exec (.wkdoneOk h lvl a b) s =
          .next (done ((s.setCore k (rest m)).setCtx c { x with st := .live, missAns := none }) s.me))) ∧
      (∀ lvl : BitVec 2, ¬LeafOk leaf lvl.toNat → exec (.wkdoneOk h lvl a b) s = .next (takeFault s (plainFlt 2 0)))) ∧
    (∀ m w ws, NamesMiss s k e m → m.req = 15 → q.engWait = w :: ws → exec (.wkdoneNp h b) s =
      .next (done (s.setCore k { rest m with mbox := (rest m).mbox ++ [w], engWait := ws,
                                             engAns := q.engAns ++ [⟨m.agent, m.vpn, m.kind, 1⟩] }) s.me)) ∧
    (∀ sco : InvScope, ∀ p ∈ [(Instr.tlbinvPage h sco a b, (⟨0, leaf.toNat, fieldAt e 0 16⟩ : InvRec)), (.tlbinvAsid h sco b, ⟨1, 0, fieldAt e 0 16⟩),
        (.tlbinvAll h sco, ⟨2, 0, 0⟩)],
      ((∀ w ∈ s.invWait, w.ctx ≠ s.cur) →
        ((∃ o ∈ s.me.outst, o.posted = none) → exec p.1 s = .next s) ∧
        ((∀ o ∈ s.me.outst, o.posted.isSome = true) →
          ((∀ w, ¬WaitsThrough s sco p.2 w) → ∃ t, exec p.1 s = .next t ∧ Invalidated s t sco p.2 (retired s.me)) ∧
          ((∃ w, WaitsThrough s sco p.2 w) → ∃ t, exec p.1 s = .next t ∧ Invalidated s t sco p.2 { s.me with st := .parked .retry } ∧
            ∃ r ∈ t.invWait, r.ctx = s.cur ∧ r.icount = s.me.icount ∧ ∀ w, WaitsThrough s sco p.2 w → w.tag ∈ r.waits))) ∧
      (∀ r, s.invWait = [r] → r.ctx = s.cur → r.icount = s.me.icount →
        ((∃ w ∈ s.feWait, ∃ q ∈ w.2.fl ++ w.2.el, q.tag ∈ r.waits) → exec p.1 s = .next (parkedHere s)) ∧
        ((∀ w ∈ s.feWait, ∀ q ∈ w.2.fl ++ w.2.el, q.tag ∉ r.waits) → exec p.1 s = .next (done { s with invWait := [] } s.me))))

/-- R189, R195, R196: UPRET puts a parked context back on the wheel from its park record, and traps ILLEGAL_ENC for a slot without one or with a fibre.
WAKE sends a relight, behind the posted requests of its context and, for another module, kept until a port is ready (assumption 83), and goes on; at its arrival a parked slot not yet relit posts the upcall, any other discards it. An entry that a TLB
drops is gone. -/
def Sys2Proof.Claims.Relights : Prop :=
  (∀ (s : State) (h : Hdr) (a b : Reg), Ready s h → Plain s a → Plain s b → s.me.sys = true →
    let v := s.me.reg a
    let w := s.me.reg b
    let c := 16 * ctxCore s.cur + v.toNat
    (∀ x, 1 ≤ v.toNat → v.toNat ≤ 14 → c ≠ s.cur → (s.slot c).fibre = false → (s.slot c).park = some x → exec (.upret h a) s =
      .next (done (s.setSlot c { s.slot c with ctx := { x with st := .live }, park := none, relit := false }) s.me)) ∧
    (v.toNat = 0 ∨ 14 < v.toNat ∨ (s.slot c).fibre = true ∨ (s.slot c).park = none →
      exec (.upret h a) s = .next (takeFault s (plainFlt 2 0))) ∧
    (v.toNat < 2 ^ 15 → ¬Posting s → b = 0 ∨ w.toNat = fabDev → ∃ t, exec (.wake h a b) s = .next t ∧ t.me = retired (asked s.me) ∧ t.mem = s.mem ∧
      t.outbox = s.outbox ∧ ∃ e ∈ t.events, s.now < e.1 ∧ e.2 = .relightArrival v.toNat) ∧
    (v.toNat < 2 ^ 15 → ¬Posting s → b ≠ 0 → w.toNat < 2 ^ 12 → w.toNat ≠ fabDev →
      (s.boot.links ≠ 0 → exec (.wake h a b) s = .next (done { s with outbox := s.outbox ++ [.wake w.toNat v.toNat] } (asked s.me))) ∧
      (s.boot.links = 0 → exec (.wake h a b) s = .next (done { s with nic := s.nic ++ [.wake w.toNat v.toNat] } (asked s.me)))) ∧
    (v.toNat < 2 ^ 15 → Posting s → b = 0 ∨ w.toNat < 2 ^ 12 → ∃ x, exec (.wake h a b) s =
      .next (done { s with wakes := s.wakes ++ [x] } (asked s.me)) ∧ x.dev = (if b = 0 then fabDev else w.toNat) ∧ x.ctx = v.toNat ∧
      ∀ o ∈ s.me.outst, o.posted.isSome = true → o.tag ∈ x.behind) ∧
    (2 ^ 15 ≤ v.toNat ∨ b ≠ 0 ∧ 2 ^ 12 ≤ w.toNat → exec (.wake h a b) s = .next (takeFault s (plainFlt 2 0)))) ∧
  (∀ (s : State) (c : Nat),
    let k := ctxCore c
    ((s.slot c).park = none ∨ (s.slot c).relit = true → exec (.relightArrival c) s = .next s) ∧
    ((s.slot c).park.isSome = true → (s.slot c).relit = false → s.dieGone (ctxDie c) = false → (s.core k).mlogStart = none →
      (∀ u ∈ (s.core k).upcalls, u.slot ≠ ctxSlot c ∨ u.kind ≠ 1) → ∃ t, exec (.relightArrival c) s = .next t ∧ t.mem = s.mem ∧
        t.core k = { s.core k with upcalls := (s.core k).upcalls ++ [⟨ctxSlot c, 1, 0, 0⟩] } ∧
        t.slot c = { s.slot c with relit := true, ctx := { s.ctx c with recv := (s.ctx c).recv + 1 } })) ∧
  (∀ (s : State) (p i : Nat),
    exec (.tlbEntryDrop 0 p i) s = .next (s.setCore p { s.core p with itlb := (s.core p).itlb.eraseIdx i }) ∧
    exec (.tlbEntryDrop 1 p i) s = .next (s.setCore p { s.core p with dtlb := (s.core p).dtlb.eraseIdx i }) ∧
    exec (.tlbEntryDrop 2 p i) s = .next (s.setCluster p { s.cluster p with l2tlb := (s.cluster p).l2tlb.eraseIdx i }))

/-- R187 to R196: the walker's answers, TLBINV, and relights (assumptions 17, 47 and 83). -/
def Obligations.WalkerAnswersAndRelightsTakeEffect : Prop := Claims.WalkerAnswers ∧ Claims.Relights

namespace Sys2Proof.Claims

/-! ### Gang stop, records, images -/

/-- Clusters that a 32-byte mask names, a lost die's left out (R344). -/
def Masked (s : State) (ws : List Nat) (cl : Nat) : Prop :=
  cl < 256 ∧ ((ws[cl / 64]?).getD 0).testBit (cl % 64) = true ∧ s.lost (cl / 32) = false

/-- Those of them that a halt stops: one being saved counts as stopped (R344). -/
def Halts (s : State) (ws : List Nat) (cl : Nat) : Prop := Masked s ws cl ∧ ((s.cluster cl).saving = none ∨ (s.cluster cl).loading = true)

/-- Context `c` waits on a full/empty list of module `dev` with access `o`, its one access of that number. -/
def WaitsAt (s : State) (c dev : Nat) (o : Outst) : Prop :=
  o ∈ (s.ctx c).outst ∧ (∃ off, o.fe = some (dev, off)) ∧ (s.ctx c).st = .parked (.reply o.tag) ∧ ∀ o' ∈ (s.ctx c).outst, o'.tag = o.tag → o' = o

/-- Addresses of the issuing context name physical memory directly from `a` on, `n` bytes inside the first memory on a die that serves
(R152, R185, R190), no answer of the walker waits for a retry, and memory is in its canonical form. -/
structure Direct (s : State) (a n : Nat) : Prop where
  sys : s.me.sys = true
  off : s.myCore.atp.getLsbD 0 = false
  low : a + n ≤ 2 ^ 39
  wf : Memory.wf s.mem = true
  die : ∀ b, a ≤ b → b < a + n → s.dieGone (b / 2 ^ 36) = false
  fresh : s.me.missAns = none

/-- Word `i` of a record at location `a` in memory. -/
def recWord (s : State) (a i : Nat) : Nat := memRead s.mem (a + 8 * i) 8

/-- The record of context `x` of slot `c` with STATE `st` stands at `a` (R347). -/
structure RecordAt (t : State) (a c : Nat) (x : Ctx) (st : Nat) : Prop where
  regs : ∀ i, (hi : i < 64) → recWord t a i = if i = 0 ∨ i = 60 ∨ i = 61 then 0 else (x.x[i]).toNat
  preds : recWord t a 64 = x.p.toNat % 2 ^ 64 ∧ recWord t a 65 = x.p.toNat / 2 ^ 64
  pc : recWord t a 66 = x.pc.toNat
  tcr : recWord t a 67 = ctxSlot c + x.sys.toNat * 2 ^ 5 + slotRole (ctxSlot c) * 2 ^ 6 + x.prec.toNat * 2 ^ 8
  icount : recWord t a 68 = x.icount.toNat
  counts : recWord t a 69 = x.sent.toNat + 2 ^ 32 * x.recv.toNat
  state : recWord t a 70 = st + 2 ^ 4 * x.win.toNat
  fault : recWord t a 71 = x.epc.toNat ∧ recWord t a 72 = x.estat.toNat ∧ recWord t a 73 = x.scratch.toNat
  rest : ∀ i, 75 ≤ i → i < 128 → recWord t a i = 0

/-- The context that a record gives, its words by number (R347). -/
structure FromRecord (w : Nat → Nat) (x : Ctx) : Prop where
  regs : ∀ i, (hi : i < 64) → x.x[i] = if i = 0 ∨ i = 60 ∨ i = 61 then 0 else BitVec.ofNat 64 (w i)
  preds : ∀ i, 0 < i → i < 128 → x.p.getLsbD i = (w 64 + 2 ^ 64 * w 65).testBit i
  pc : x.pc = BitVec.ofNat 64 (w 66)
  prec : x.prec = (w 67).testBit 8
  icount : x.icount = BitVec.ofNat 64 (w 68)
  win : x.win = BitVec.ofNat 3 (w 70 / 2 ^ 4)
  fault : x.epc = BitVec.ofNat 64 (w 71) ∧ x.estat = BitVec.ofNat 64 (w 72) ∧ x.scratch = BitVec.ofNat 64 (w 73)

/-- Nothing of memory outside `n` bytes at `a` has changed. -/
def OnlyAt (s t : State) (a n : Nat) : Prop := ∀ b, b < a ∨ a + n ≤ b → memGet t.mem b = memGet s.mem b

/-- A halt under R336 or a fibre that waits for nothing, as CTXSAVE.slot takes it (R349). -/
def fibreQuiet (x : Ctx) : Prop := x.dcMask = 0#4 ∧ (x.st = .live ∨ x.st = .halted ∨ x.st = .parked .retry)

/-- Word `j` of the record of slot `i` (16c + s) in the image a load has read (R350): of the context, or of its fibre. -/
def imgWord (s : State) (cl i : Nat) (fib : Bool) (j : Nat) : Nat :=
  memRead (s.cluster cl).img ((if fib then 0x60000 else 0x40000) + 1024 * i + 8 * j) 8

/-- A slot restored from its records (R353): empty for STATE 0, and on the wheel with the record's registers for STATE 1. -/
def Restored (s t : State) (cl i : Nat) : Prop :=
  imgWord s cl i true 70 = 0 →
    (imgWord s cl i false 70 = 0 → (t.ctx (128 * cl + i)).st = .empty ∧ (t.slot (128 * cl + i)).park = none) ∧
    (imgWord s cl i false 70 % 8 = 1 → (t.ctx (128 * cl + i)).st = .live ∧ (t.ctx (128 * cl + i)).sys = (imgWord s cl i false 67).testBit 5 ∧
      FromRecord (imgWord s cl i false) (t.ctx (128 * cl + i)))

/-- The image of cluster `cl` that stands at `a` in `t` holds what the cluster held in `s` (R350): the records of its slots and fibres, the
full/empty bits, the routine memories, the local stores up to their splits, the scratchpad, and, behind the number in its engine region, the
rings, token tables and queues (assumption 9). -/
structure ImageOf (s t : State) (cl a : Nat) : Prop where
  slots : ∀ i, i < 128 → 128 * cl + i ≠ s.cur → let sl := s.slot (128 * cl + i)
    (sl.fibre = false → sl.ctx.st ≠ .empty → RecordAt t (a + 0x40000 + 1024 * i) (128 * cl + i) sl.ctx (stateCode sl.gang sl.ctx)) ∧
    (sl.fibre = false → sl.ctx.st = .empty → ∀ j, j < 128 → recWord t (a + 0x40000 + 1024 * i) j = 0) ∧
    (∀ x, sl.fibre = true → sl.park = some x → RecordAt t (a + 0x40000 + 1024 * i) (128 * cl + i) x (stateCode sl.gang x)) ∧
    (sl.fibre = true → RecordAt t (a + 0x60000 + 1024 * i) (128 * cl + i) sl.ctx (stateCode sl.gang sl.ctx)) ∧
    (sl.fibre = false → recWord t (a + 0x60000 + 1024 * i) 70 = 0)
  bits : ∀ i, i < 2 ^ 20 → (memGet t.mem (a + 0x80000 + i / 8)).getLsbD (i % 8) = s.isFull (locSp cl (8 * i))
  lsBits : ∀ k i, k < 8 → i < 2 ^ 15 → (memGet t.mem (a + 0xA0000 + 4096 * k + i / 8)).getLsbD (i % 8) = s.isFull (locLs (8 * cl + k) (8 * i))
  routines : ∀ m i, m < 2 → i < 2 ^ 16 → memGet t.mem (a + 0xC0000 + 2 ^ 20 * m + i) = memGet s.mem (locRm (muOf cl m) i)
  stores : ∀ k i, k < 8 → i < 2 ^ 18 → memGet t.mem (a + 0x2C0000 + 2 ^ 18 * k + i) =
    if i < (s.core (8 * cl + k)).lsplit * 2 ^ 15 then memGet s.mem (locLs (8 * cl + k) i) else 0
  pad : ∀ i, i < 2 ^ 23 → memGet t.mem (a + 0x4C0000 + i) = memGet s.mem (locSp cl i)
  engines : ∃ sn, tget t.snapshots (memRead t.mem (a + 0x1000) 8) = some sn ∧ sn.cl = s.cluster cl ∧
    (∀ k, coreCl k = cl → tget sn.cores k = tget s.cores k) ∧ ∀ m, m / 2 = cl → tget sn.mus m = tget s.mus m

/-- First byte and size of the log of a core, and the cycle of it (R345, R356). -/
def logAddr (s : State) (k : Nat) : Nat := (s.core k).mlog.toNat / 2 ^ 12 % 2 ^ 36 * 4096
def logBytes (s : State) (k : Nat) : Nat := 4096 * 2 ^ ((s.core k).mlog.toNat / 4 % 2 ^ 5)
def logCyc (s : State) (k : Nat) : Nat := (s.cluster (coreCl k)).scyc - ((s.core k).mlogStart.getD 0)

/-- Core `k` logs, with cycle numbers of 64 bits and room for an entry of `n` words. -/
structure LogRoom (s : State) (k n : Nat) : Prop where
  started : (s.core k).mlogStart ≠ none
  logs : (s.core k).replaying = false
  cycles : logCyc s k < 2 ^ 64
  room : (s.core k).mlogPos + (16 + 8 * n) + 16 ≤ logBytes s k

/-- An entry stands at byte `p` of the log of core `k` (R345). -/
structure EntryAt (s t : State) (k p kind slot addr : Nat) (data : List Nat) : Prop where
  head : memRead t.mem (logAddr s k + p) 8 = addr % 2 ^ 48 + data.length * 2 ^ 48 + slot * 2 ^ 56 + kind * 2 ^ 60
  cyc : memRead t.mem (logAddr s k + p + 8) 8 = logCyc s k
  words : ∀ i, i < data.length → memRead t.mem (logAddr s k + p + 16 + 8 * i) 8 = (data[i]?).getD 0

/-- The log of core `k` ends at byte `p`, and reads as zero behind it (R345). -/
def LogEnds (s t : State) (k p : Nat) : Prop := (t.core k).mlogPos = p ∧ memRead t.mem (logAddr s k + p) 16 = 0

/-- The slot in which a class arrival is logged: that of the message context that binds the class, or 0. -/
def classSlot (s : State) (k n : Nat) : Nat :=
  let binds := fun (m : Nat) => (s.slot (16 * k + m)).bound.getLsbD n
  if binds 11 then 11 else if binds 12 then 12 else if binds 13 then 13 else if binds 14 then 14 else 0

/-- The first entry of the log that core `k` replays (R345). -/
structure FirstEntry (s : State) (k kind slot addr cyc : Nat) (data : List Nat) : Prop where
  head : memRead s.mem (logAddr s k) 8 = addr % 2 ^ 48 + data.length * 2 ^ 48 + slot * 2 ^ 56 + kind * 2 ^ 60
  cyc : memRead s.mem (logAddr s k + 8) 8 = cyc
  words : ∀ i, i < data.length → memRead s.mem (logAddr s k + 16 + 8 * i) 8 = (data[i]?).getD 0
  free : 0 ∉ (s.core k).mlogUsed

/-- Does a context wait on a full/empty list or for the walker's answer, so that a gang stop takes it from there? -/
def takenOff (st : CState) : Bool := match st with | .parked (.fe _) => true | .parked .miss => true | _ => false

end Sys2Proof.Claims

/-- R344: GSTOP.halt, with no core of the clusters logging and no row half copied, stops the clusters its mask names: every context of theirs but
the issuer, and with the cluster its engines and timers, and takes a waiting context from its full/empty list and from the walker's mailbox
(R193, R298); GSTOP.go returns them all. Contexts and engines of no named cluster are as they were. That a cluster being saved is left out of
the halt, and that a context waiting at another module issues again while that module is told to drop its waiter, is assumption 53. -/
def Sys2Proof.Claims.GangStops : Prop :=
  ∀ (s s1 : State) (h : Hdr) (a : Reg) (ws : List Nat), Ready s h → Plain s a → s.me.sys = true →
    readWords s (s.me.reg a).toNat 4 = .ok ws s1 → OnlyRead s s1 → (∀ k, (s.core k).mlog.getLsbD 0 = false) →
    ((∀ cl, ∀ q ∈ (s.cluster cl).copyQ, q.part = none) →
      ∃ t, exec (.gstopHalt h a) s = .next t ∧ t.me = retired s1.me ∧ t.mem = s.mem ∧
      (∀ cl, Halts s ws cl → (t.cluster cl).gang = true) ∧ (∀ cl, ¬Halts s ws cl → t.cluster cl = s.cluster cl) ∧
      (∀ c, c ≠ s.cur → (s.ctx c).st ≠ .empty → Halts s ws (ctxCl c) →
        (∀ o ∈ (s.ctx c).outst, o.fe ≠ none → (s.ctx c).st ≠ .parked (.reply o.tag)) →
        t.slot c = { s.slot c with gang := true, ctx := { s.ctx c with st := if takenOff (s.ctx c).st then .live else (s.ctx c).st } } ∧
        (∀ n, (s.ctx c).st = .parked (.fe n) → ∀ w, ∀ q ∈ (t.fe w).fl ++ (t.fe w).el, q.ctx ≠ some c) ∧
        ((s.ctx c).st = .parked .miss → ∀ m ∈ (t.core (ctxCore c)).mbox, m.req ≠ ctxSlot c)) ∧
      (∀ c dev o, c ≠ s.cur → Halts s ws (ctxCl c) → WaitsAt s c dev o →
        (t.slot c).gang = true ∧ (t.ctx c).st = .live ∧ (t.ctx c).pc = (s.ctx c).pc ∧ (t.ctx c).x = (s.ctx c).x ∧ o ∉ (t.ctx c).outst ∧
        ((∀ k ∈ s1.keys, k.2.v = false) → ∃ r, r.op = 9 ∧ r.rid = o.tag ∧ .request dev r ∈ t.outbox ++ t.nic)) ∧
      (∀ c, c ≠ s.cur → ¬Halts s ws (ctxCl c) → t.slot c = s.slot c)) ∧
    (∃ t, exec (.gstopGo h a) s = .next t ∧ t.me = retired s1.me ∧ t.mem = s.mem ∧
      (∀ cl, Masked s ws cl → t.cluster cl = { s.cluster cl with gang := false }) ∧
      (∀ cl, ¬Masked s ws cl → t.cluster cl = s.cluster cl) ∧
      (∀ c, c ≠ s.cur → Masked s ws (ctxCl c) → t.slot c = { s.slot c with gang := false }) ∧
      (∀ c, c ≠ s.cur → ¬Masked s ws (ctxCl c) → t.slot c = s.slot c))

/-- R347 to R349: CTXSAVE.slot of a fibre that waits for nothing writes its record with STATE 1 and gives the slot back to its park record; of a context
halted under R336 it writes STATE 5 and ends the context as a fault ends it (R335), with the record of its halt and its upcall; the record's 128 words count in the issuer's SENT. CTXLOAD.slot starts a fibre in user mode from a record of STATE 1. A fault of
a posted request that had arrived for a saved fibre is told as a late fault (R340). A slot out of
range, an area off 1 KiB, a slot with neither fibre nor halted context, or a record of another STATE, traps ILLEGAL_ENC. The STATE codes and the end
of a halted context are assumption 55, the words in SENT assumption 27, a waiting fibre's leaving its list assumption 53. -/
def Sys2Proof.Claims.SlotRecords : Prop :=
  ∀ (s : State) (h : Hdr) (a b : Reg), Ready s h → Plain s a → Plain s b → s.me.sys = true →
    let n := (s.me.reg a).toNat
    let area := (s.me.reg b).toNat
    let c := 16 * ctxCore s.cur + n
    let sl := s.slot c
    (1 ≤ n → n ≤ 14 → area % 1024 = 0 → c ≠ s.cur →
      (Direct s area 1024 → sl.fibre = true → fibreQuiet sl.ctx → (∃ d ∈ sl.ctx.delayed, d.posted = true) → ∃ t, exec (.ctxsaveSlot h a b) s = .next t ∧
        (t.slot c).fibre = false ∧ ∃ u ∈ (t.core (ctxCore s.cur)).upcalls, u.slot = n ∧ u.kind = 3) ∧
      (Direct s area 1024 → sl.fibre = true → fibreQuiet sl.ctx → (∀ d ∈ sl.ctx.delayed, d.posted = false) → ∃ t, exec (.ctxsaveSlot h a b) s = .next t ∧ RecordAt t area c sl.ctx 1 ∧
        OnlyAt s t area 1024 ∧ t.me = { retired s.me with sent := s.me.sent + 128 } ∧ (t.slot c).fibre = false ∧ (t.slot c).park = sl.park ∧
        (sl.park = none → (t.ctx c).st = .empty) ∧ ∀ x, sl.park = some x → t.ctx c = { x with outst := [], delayed := [] }) ∧
      (Direct s area 1024 → sl.fibre = false → sl.ctx.st = .halted → sl.ctx.unit = .none → sl.ctx.streams = [] →
        sl.ctx.delayed = [] → sl.ctx.hrec < 2 ^ 512 →
        let fr := s.myCore.uparea.toNat / 2 ^ 10 % 2 ^ 38 * 2 ^ 10 + 64 * n
        ∃ t, exec (.ctxsaveSlot h a b) s = .next t ∧ (fr + 64 ≤ area ∨ area + 1024 ≤ fr → RecordAt t area c sl.ctx 5) ∧
          memRead t.mem fr 64 = sl.ctx.hrec ∧ (∃ u ∈ (t.core (ctxCore s.cur)).upcalls, u.slot = n ∧ u.kind = 0) ∧
          (∀ b, b < area ∨ area + 1024 ≤ b → b < fr ∨ fr + 64 ≤ b → memGet t.mem b = memGet s.mem b) ∧
          t.me = { retired s.me with sent := s.me.sent + 128 } ∧ (t.ctx c).st = .empty ∧ (t.slot c).ended = true ∧ (t.slot c).exitWord = BitVec.ofNat 64 (2 ^ 63 + sl.ctx.hcode)) ∧
      (sl.fibre = false → sl.ctx.st ≠ .halted → exec (.ctxsaveSlot h a b) s = .next (takeFault s (plainFlt 2 0))) ∧
      (sl.fibre = true → sl.ctx.dcMask ≠ 0#4 → exec (.ctxsaveSlot h a b) s = .next s) ∧
      (∀ (ws : List Nat) (s1 : State), readWords s area 128 = .ok ws s1 → OnlyRead s s1 → sl.fibre = false → sl.ctx.st = .empty ∨ sl.park.isSome = true →
        let w := fun (i : Nat) => (ws[i]?).getD 0
        (w 70 % 2 ^ 4 = 1 → w 70 < 2 ^ 7 → (∀ i, 75 ≤ i → w i = 0) → ∃ t, exec (.ctxloadSlot h a b) s = .next t ∧ t.me = retired s1.me ∧
          t.mem = s.mem ∧ (t.slot c).fibre = true ∧ (t.slot c).park = sl.park ∧ (t.ctx c).st = .live ∧ (t.ctx c).sys = false ∧
          (t.ctx c).outst = [] ∧ FromRecord w (t.ctx c)) ∧
        (w 70 % 2 ^ 4 ≠ 1 → exec (.ctxloadSlot h a b) s = .next (takeFault s (plainFlt 2 0)))) ∧
      (sl.fibre = true → exec (.ctxloadSlot h a b) s = .next (takeFault s (plainFlt 2 0)))) ∧
    (n = 0 ∨ 14 < n ∨ area % 1024 ≠ 0 → exec (.ctxsaveSlot h a b) s = .next (takeFault s (plainFlt 2 0)) ∧
      exec (.ctxloadSlot h a b) s = .next (takeFault s (plainFlt 2 0)))

/-- R345, R346: a core that logs writes the value of a load from its scratchpad, with its cycle, slot and address, behind the entries of its log, and a
message that arrives with its payload and behind it the arrival of its class; a load from the local store writes none; where an entry does not fit, logging stops and FULL is set. A core
that replays takes the value of such a load from the log, its store to the scratchpad changes nothing, and a load for which the log holds nothing
halts every slot of the core. That an item is matched by its kind, slot and address is assumption 56. -/
def Sys2Proof.Claims.MessageLog : Prop :=
  ∀ (s : State), Memory.wf s.mem = true →
    (∀ (h : Hdr) (sz : MSize) (sx acq : Bool) (sco : Scope) (d : Reg) (m : MAddr) (l : Loc), h.sc = none → (sz = .b16 → sx = false) →
      (Instr.ld h sz sx acq sco d m).wf = true → ReadyMem s h → Target s d → (sz = .b16 → Target s (d + 1)) → Plain s m.a → Plain s m.b →
      let k := ctxCore s.cur
      let va := ea s m (bytes sz)
      let ld := Instr.ld h sz sx acq sco d m
      let v := memRead s.mem l.num (bytes sz)
      resolveCtx s va (bytes sz) sx .read = (.ok l, s) → PlainLoc l → locEcc s l (bytes sz) = false →
      (∀ o, l = .ls k o → exec ld s = .next (done s (loaded s.me sz sx d v))) ∧
      (∀ o, l = .sp (ctxCl s.cur) 0 o →
        let data := if sz = .b16 then [v % 2 ^ 64, v / 2 ^ 64] else [v]
        (LogRoom s k data.length → ∃ t, exec ld s = .next t ∧ t.me = retired (loaded (answered s.me) sz sx d v) ∧
          EntryAt s t k (s.core k).mlogPos 1 (ctxSlot s.cur) va data ∧
          LogEnds s t k ((s.core k).mlogPos + 16 + 8 * data.length) ∧ OnlyAt s t (logAddr s k + (s.core k).mlogPos) (32 + 8 * data.length)) ∧
        ((s.core k).mlogStart ≠ none → (s.core k).replaying = false → logBytes s k < (s.core k).mlogPos + (16 + 8 * data.length) + 16 →
          ∃ t, exec ld s = .next t ∧ t.me = retired (loaded (answered s.me) sz sx d v) ∧ t.mem = s.mem ∧ (t.core k).mlogStart = none ∧
            (t.core k).mlog = (s.core k).mlog ||| 0x80#64) ∧
        ((s.core k).replaying = true → (s.core k).mlogStart ≠ none →
          (∀ (x c : Nat), sz ≠ .b16 → x < 2 ^ (8 * bytes sz) → FirstEntry s k 1 (ctxSlot s.cur) va c [x] → c ≤ logCyc s k →
            ∃ t, exec ld s = .next t ∧ t.me = retired (loaded (answered s.me) sz sx d x) ∧ t.mem = s.mem) ∧
          (memRead s.mem (logAddr s k) 8 = 0 → ∃ t, exec ld s = .next t ∧ t.mem = s.mem ∧
            ∀ i, i < 16 → (s.ctx (16 * k + i)).st ≠ .empty → (t.ctx (16 * k + i)).st = .halted))) ∧
      (∀ o, l = .sp (ctxCl s.cur) 0 o → (s.core k).replaying = true → ∀ r : Reg, (Instr.st h sz false sco r m).wf = true → Plain s r →
        (sz = .b16 → Plain s (r + 1)) → resolveCtx s va (bytes sz) false .write = (.ok l, s) →
        exec (.st h sz false sco r m) s = .next (done s (asked s.me)))) ∧
    (∀ (m : ChanMsg) (e : RecvEp),
      let k := epCore m.dst
      tget (s.core k).rx (epNum m.dst) = some e → m.src % 2 ^ 12 = fabDev → e.isOpen = true → e.gen = m.gen → m.body.length ≤ 256 →
      let pos := (s.core k).mlogPos
      m.body.length % 8 = 0 → LogRoom s k (m.body.length / 8 + 2) → ∃ t, exec (.messageArrival m) s = .next t ∧
        EntryAt s t k pos 2 0 m.src ((List.range (m.body.length / 8)).map fun i => leNat ((m.body.drop (8 * i)).take 8)) ∧
        EntryAt s t k (pos + 16 + m.body.length) 4 (classSlot s k (epNum m.dst)) (epNum m.dst) [] ∧ LogEnds s t k (pos + 32 + m.body.length) ∧
        memBytes t.mem (epSlot k e e.tailIx + 8) m.body.length = m.body)

/-- R344 to R349: gang stops, the slot forms of CTXSAVE and CTXLOAD, and the message log with its replay (assumptions 27, 53, 55 and 56). -/
def Obligations.GangStopsSlotRecordsAndLogsHold : Prop := Claims.GangStops ∧ Claims.SlotRecords ∧ Claims.MessageLog

/-- R350 to R353: CTXSAVE.cl stops the cluster and waits while accesses of its contexts are outstanding; then it writes the image, of all that R350
names, at the end of it the header, answers the image's size, and leaves slots 1 to 14 empty and the rings disabled. CTXLOAD.cl and CTXLOAD.cl.rp, at the end of the image, give each slot
the state of its record: slots 1 to 14 of every core, or every slot of the one core replayed; a core whose core.mlog has EN begins its log,
or its replay, with the cycle after the load (R346). An area below 16 MiB raises SAVE_FAULT, and operands out
of range trap ILLEGAL_ENC. That the save goes page by page, with its place in savePos, is assumption 54, what the engine region holds and the rest
kept beside memory assumption 9. -/
def Obligations.ClusterImagesSaveAndLoad : Prop :=
  ∀ (s : State) (h : Hdr) (d a b c : Reg), Ready s h → Target s d → Plain s a → Plain s b → Plain s c → s.me.sys = true →
    let n := (s.me.reg a).toNat
    let img := (s.me.reg b).toNat
    let v := (s.me.reg c).toNat
    let cl := 32 * ctxDie s.cur + n
    let q := s.cluster cl
    (s.cur < 2 ^ 15 → n < 32 → img % 2 ^ 16 = 0 → ctxCl s.cur ≠ cl ∨ ctxSlot s.cur = 0 ∨ ctxSlot s.cur = 15 →
      (2 ^ 24 ≤ v → q.saving = some s.cur → q.savePos = 0xCC0000 → Direct s img 4096 → s.ecc = [] →
        ∃ t, exec (.ctxsaveCl h d a b c) s = .next t ∧ t.me = retired (put s.me d 0xCC0000) ∧
          memRead t.mem img 8 = 2 ^ 63 + 2 ^ 32 + cl / 32 * 2 ^ 24 + n * 2 ^ 19 ∧ memRead t.mem (img + 8) 8 = s.now % 2 ^ 64 ∧
          memRead t.mem (img + 16) 8 = 0xCC0000 ∧ (∀ i, 24 ≤ i → i < 4096 → memGet t.mem (img + i) = 0) ∧ OnlyAt s t img 4096 ∧
          (t.cluster cl).saving = none ∧ (t.cluster cl).rings = [] ∧ (t.cluster cl).copyQ = [] ∧
          ∀ i, ctxCl i = cl → 1 ≤ ctxSlot i → ctxSlot i ≤ 14 → (t.ctx i).st = .empty ∧ (t.slot i).park = none ∧ (t.slot i).fibre = false) ∧
      (2 ^ 24 ≤ v → q.saving = some s.cur → q.savePos = 0 → saveReady s cl = true → Direct s img 0xCC0000 → s.ecc = [] →
        s.snapshots.length < 2 ^ 63 → (∀ w ∈ s.full, w % 8 = 0) →
        ∃ t, exec (.ctxsaveCl h d a b c) s = .next t ∧ t.me = retired (put s.me d 0xCC0000) ∧ ImageOf s t cl img ∧ OnlyAt s t img 0xCC0000 ∧
          (memRead t.mem img 8).testBit 63 = true) ∧
      (2 ^ 24 ≤ v → q.saving = none → q.saveQ = [] → (∃ i, i ≠ s.cur ∧ ctxCl i = cl ∧ 1 ≤ ctxSlot i ∧ ctxSlot i ≤ 14 ∧ (s.ctx i).st = .live ∧ (s.ctx i).outst ≠ []) →
        ∃ t, exec (.ctxsaveCl h d a b c) s = .next t ∧ t.me = { s.me with st := .parked .retry } ∧ (t.cluster cl).saving = some s.cur ∧
          t.mem = s.mem) ∧
      (v < 2 ^ 24 → exec (.ctxsaveCl h d a b c) s = .next (takeFault s (plainFlt 0x17 img))) ∧
      (q.saving = some s.cur → q.loading = true → q.savePos = 0xCC0000 →
        (∃ t, exec (.ctxloadCl h a b) s = .next t ∧ t.me = retired s.me ∧ (t.cluster cl).saving = none ∧
          ((∀ k, coreCl k = cl → (s.core k).mlog.getLsbD 0 = false) → t.mem = s.mem) ∧
          (∀ k, coreCl k = cl → let m := (s.core k).mlog
            if m.getLsbD 0 then (t.core k).mlogStart = some (q.scyc + 1) ∧ (t.core k).replaying = m.getLsbD 1 ∧ (t.core k).mlogPos = 0
            else (t.core k).mlogStart = (s.core k).mlogStart) ∧
          ∀ i, i < 128 → 1 ≤ i % 16 → i % 16 ≤ 14 → Restored s t cl i) ∧
        (v < 8 → ∃ t, exec (.ctxloadClRp h a b c) s = .next t ∧ (8 * cl + v ≠ ctxCore s.cur → t.me = retired s.me) ∧ (t.cluster cl).saving = none ∧
          (∀ i, i < 128 → i / 16 = v → Restored s t cl i) ∧
          ∀ i, i < 128 → i / 16 ≠ v → 128 * cl + i ≠ s.cur → t.slot (128 * cl + i) = s.slot (128 * cl + i)))) ∧
    (32 ≤ n ∨ img % 2 ^ 16 ≠ 0 → exec (.ctxsaveCl h d a b c) s = .next (takeFault s (plainFlt 2 0)) ∧
      exec (.ctxloadCl h a b) s = .next (takeFault s (plainFlt 2 0)) ∧ exec (.ctxloadClRp h a b c) s = .next (takeFault s (plainFlt 2 0))) ∧
    (8 ≤ v → exec (.ctxloadClRp h a b c) s = .next (takeFault s (plainFlt 2 0)))

namespace Sys2Proof.Claims

/-! ### The fabric's registers, the host, the islands -/

/-- Is the PCIe port enabled (R330, R364)? -/
def PortOn (s : State) : Prop := Config.strapBridge = true ∨ s.boot.minimal = true

/-- The record at a physical address as fab.kload finds it, and one it accepts (R327). -/
def keyRecord (s : State) (v : Word) : Nat := memRead s.mem v.toNat 64
structure KeyOk (s : State) (v : Word) : Prop where
  aligned : v.toNat % 64 = 0
  there : v.toNat < 2 ^ 39 ∧ s.dieGone (v.toNat / 2 ^ 36) = false
  zeros : keyRecord s v / 2 ^ 320 = 0 ∧ keyRecord s v / 2 ^ 276 % 2 ^ 43 = 0
  only : ∀ k ∈ s.keys, k.1 ≠ keyRecord s v / 2 ^ 272 % 2 ^ 4 → k.2.v = true → k.2.peer ≠ keyRecord s v / 2 ^ 256 % 2 ^ 12

/-- The key slot that a record loads, or clears. -/
def keyLoaded (r : Nat) : KeySlot :=
  if r / 2 ^ 319 % 2 = 1 then { v := true, key := BitVec.ofNat 256 r, epoch := r / 2 ^ 268 % 2 ^ 4, peer := r / 2 ^ 256 % 2 ^ 12 } else {}

/-- Window `n` of the host leads to offset `base` of module `dev` (R331). -/
def WindowTo (s : State) (n base dev : Nat) : Prop :=
  n < 64 ∧ base % 2 ^ 30 = 0 ∧ base < 2 ^ 44 ∧ dev < 2 ^ 12 ∧ tget s.windows n = some (1 + base + dev * 2 ^ 44)

/-- Does a doorbell of value `v` reach the module: at its own port, where no image is awaited, or forwarded by another module's bridge (R330, R332)? -/
def Reaches (s : State) (v : Nat) : Prop :=
  (PortOn s ∧ s.boot.waiting = false) ∨ (¬PortOn s ∧ s.boot.links ≠ 0 ∧ v % 2 ^ 12 = fabDev)

/-- The request that a host access of 8 bytes becomes for another module (R331). -/
def hostRequest (s : State) (write : Bool) (off val : Nat) : RemoteReq :=
  { src := fabDev, rid := s.tagCtr, off := off, op := write.toNat, size := 8, kind := .swap, v1 := val, v2 := 0, enc := false, epoch := 0, ctr := 0,
    tagOk := true, ecc := false, limit := 0, x := false, ord := .rlx, sco := .cor, cmb := false }

/-- The export entry in use for an offset: the cached one, or the one that memory holds (R320). -/
def entryFor (s : State) (off : Nat) : Nat :=
  (tget s.exports (off / 2 ^ 21 % 2 ^ 23)).getD (memRead s.mem (fieldAt s.fabExport 12 36 * 2 ^ 12 + 8 * (off / 2 ^ 21 % 2 ^ 23)) 8)

/-- Does the table cover the offset (R320, reason 1 of R322)? -/
def Covered (s : State) (off : Nat) : Prop := s.fabExport.getLsbD 0 = true ∧ off / 2 ^ 21 % 2 ^ 23 < 2 ^ fieldAt s.fabExport 1 5

/-- Field of an entry. -/
def entryField (e lo n : Nat) : Nat := e / 2 ^ lo % 2 ^ n

/-- Is the entry valid, with every reserved field 0 and a kind the module has (R321, reason 2 of R322)? -/
def EntryOk (e : Nat) : Prop :=
  entryField e 0 1 = 1 ∧ entryField e 52 12 = 0 ∧ entryField e 9 12 = 0 ∧ entryField e 5 3 = 0 ∧ entryField e 3 1 = 0 ∧ entryField e 48 4 ≤ 2 ∧
    (entryField e 48 4 = 2 → Config.strapBridge = true) ∧
    (entryField e 48 4 = 1 → entryField e 35 13 = 0 ∧ entryField e 23 1 = 0 ∧ entryField e 24 3 ≤ 5)

/-- Does the entry permit the operation (reason 3 of R322)? -/
def Permits (e : Nat) (op : ROp) : Prop :=
  match op with
  | .read => entryField e 1 1 = 1
  | .write => entryField e 2 1 = 1
  | _ => entryField e 1 1 = 1 ∧ entryField e 2 1 = 1 ∧ entryField e 4 1 = 1

/-- Cluster of an island (R18), and its step, the step asked for, and the end of its stop. -/
def ofIsland (i : Nat) : Nat := i / 64 * 32 + i % 64 / 2
def running (s : State) (i : Nat) : Nat := if i % 2 = 0 then (s.cluster (ofIsland i)).sstep else (s.cluster (ofIsland i)).mstep
def wanted (s : State) (i : Nat) : Nat := if i % 2 = 0 then (s.cluster (ofIsland i)).swAsk else (s.cluster (ofIsland i)).maAsk
def stopEnd (s : State) (i : Nat) : Nat := if i % 2 = 0 then (s.cluster (ofIsland i)).sstop else (s.cluster (ofIsland i)).mstop

/-- May a matrix island be gated (R359)? -/
def Gateable (s : State) (cl : Nat) : Prop :=
  ∀ m ∈ [2 * cl, 2 * cl + 1], (s.mu m).st = .resting ∧ (s.mu m).easel = [] ∧ (s.mu m).bHold = none ∧ (s.mu m).outTile = none

end Sys2Proof.Claims

/-- R320 to R322: the checks of a request in their order: a table that is off or does not reach the offset is reason 1, an invalid entry reason 2, a missing
permission reason 3, a clear request to a confidential segment reason 4; a memory segment leads to its byte unless that is reserved, on a lost die, or
a full/empty word of the second tier (reason 5), or uncorrectable where its data is returned (reason 8); a host segment leads to the host's byte, but no AMO, CAS
or full/empty instruction (reason 5). -/
def Sys2Proof.Claims.ExportTable : Prop :=
  ∀ (s : State) (off size : Nat) (x clear : Bool) (op : ROp),
    let e := entryFor s off
    let is := fun (r : Except (Nat × Nat) Loc) => exportResolve s off size x op clear = r
    let a := entryField e 21 27 * 2 ^ 21 + off % 2 ^ 21
    let word := op = .amo ∨ op = .feRead ∨ op = .feChange
    (¬Covered s off → is (.error (1, cRefused))) ∧
    (Covered s off → ¬EntryOk e → is (.error (2, cRefused))) ∧
    (Covered s off → EntryOk e → ¬Permits e op → is (.error (3, cRefused))) ∧
    (Covered s off → EntryOk e → Permits e op → entryField e 8 1 = 1 → clear = true → is (.error (4, cRefused))) ∧
    (Covered s off → EntryOk e → Permits e op → (entryField e 8 1 = 0 ∨ clear = false) →
      (entryField e 48 4 = 0 →
        let there := (a < 2 ^ 39 ∧ s.dieGone (a / 2 ^ 36) = false) ∨
          (2 ^ 43 ≤ a ∧ a < 2 ^ 43 + 2 ^ 41 ∧ s.dieGone ((a - 2 ^ 43) / 2 ^ 35 / 8) = false ∧ op ≠ .feRead ∧ op ≠ .feChange)
        (¬there → is (.error (5, cRefused))) ∧ (there → op = .read ∨ op = .amo → s.eccAt a size = true → is (.error (8, cEcc))) ∧
          (there → (op ≠ .read ∧ op ≠ .amo ∨ s.eccAt a size = false) → is (.ok (.phys a)))) ∧
      (entryField e 48 4 = 2 → (word → is (.error (5, cRefused))) ∧ (¬word → s.ecc = [] → is (.ok (.host a)))) ∧
      (entryField e 48 4 = 1 →
        let cl := entryField e 32 3 * 32 + entryField e 27 5
        let o := entryField e 21 2 * 2 ^ 21 + off % 2 ^ 21
        s.dieGone (cl / 32) = false → entryField e 24 3 = 0 → size ∈ [1, 2, 4, 8] → o % size = 0 → s.ecc = [] →
          ((sealedAt s cl o size = false ∨ op = .read ∨ op = .feRead) → is (.ok (.sp cl 0 o))) ∧
          (sealedAt s cl o size = true → op ≠ .read → op ≠ .feRead → is (.error (6, cTileState)))))

/-- R320, R327, R330 to R332, R364: a write of fab.export keeps its fields and empties the device's cache of entries, and one with LOG2 above 23 traps
ILLEGAL_ENC. fab.kload loads or clears the key slot that a legal record names, with an empty replay window, and traps ILLEGAL_ENC for a misaligned
address or a record with a reserved field set. A doorbell of the own module, at its port or forwarded by another's bridge, sets class 50 pending on the
core it names, one for another device goes on to it by a Kevel port or waits for one, and one with bits 63:23 set is discarded. A window register takes
a legal value; a host access reads or writes what its window's export entry names, or leaves as a request for another module; a refused one and an
invalid window answer all ones and count. While the boot ROM awaits an image, window 0 is memory. With the port off no access or register write of the host
does anything. That a refused host access counts once, and a refused write when its answer comes, is assumption 49, that a read of another
module is answered in its step with a free value assumption 79, that a doorbell or an access for another module waits for a port assumption 83. -/
def Sys2Proof.Claims.FabricAndHost : Prop :=
  ∀ s : State,
    (∀ v : Word, (fieldAt v 1 5 ≤ 23 → exec (.fabExportWrite v) s = .next { s with fabExport := v &&& 0xFFFFFFFFF03F#64, exports := [] }) ∧
      (23 < fieldAt v 1 5 → exec (.fabExportWrite v) s = .next (takeFault s (plainFlt 2 0))) ∧
      (KeyOk s v → exec (.fabKload v) s =
        .next { s with keys := tput s.keys (keyRecord s v / 2 ^ 272 % 2 ^ 4) (keyLoaded (keyRecord s v)) }) ∧
      (v.toNat % 64 ≠ 0 → exec (.fabKload v) s = .next (takeFault s (plainFlt 2 0))) ∧
      (v.toNat % 64 = 0 → v.toNat < 2 ^ 39 → s.dieGone (v.toNat / 2 ^ 36) = false → keyRecord s v / 2 ^ 320 ≠ 0 →
        exec (.fabKload v) s = .next (takeFault s (plainFlt 2 0)))) ∧
    (∀ v, Reaches s v →
      (2 ^ 23 ≤ v → exec (.hostDoorbell v) s = .next s) ∧
      (v < 2 ^ 23 → v % 2 ^ 12 ≠ fabDev → exec (.hostDoorbell v) s = .next (if s.boot.links = 0 then { s with nic := s.nic ++ [.doorbell v] }
        else { s with outbox := s.outbox ++ [.doorbell v] })) ∧
      (v < 2 ^ 23 → v % 2 ^ 12 = fabDev →
        let k := 256 * (v / 2 ^ 12 % 2 ^ 3) + 8 * (v / 2 ^ 15 % 2 ^ 5) + v / 2 ^ 20
        (s.dieGone (v / 2 ^ 12 % 2 ^ 3) = true → exec (.hostDoorbell v) s = .next s) ∧
        (s.dieGone (v / 2 ^ 12 % 2 ^ 3) = false → (s.core k).mlogStart = none → ∃ t, exec (.hostDoorbell v) s = .next t ∧ t.mem = s.mem ∧
          t.core k = { s.core k with pending := (s.core k).pending ||| (1#64 <<< 50) }))) ∧
    (∀ v, ¬PortOn s → (s.boot.links = 0 ∨ v % 2 ^ 12 ≠ fabDev) → exec (.hostDoorbell v) s = .next s) ∧
    (PortOn s → s.boot.waiting = false →
      (∀ n v, n < 64 → v < 2 ^ 56 → v / 2 % 2 ^ 29 = 0 → exec (.hostWindowRegisterWrite n v) s = .next { s with windows := tput s.windows n v }) ∧
      (∀ n v, 2 ^ 56 ≤ v ∨ v / 2 % 2 ^ 29 ≠ 0 → exec (.hostWindowRegisterWrite n v) s = .next s) ∧
      (∀ n base o p val, WindowTo s n base fabDev → o < 2 ^ 30 → o % 8 = 0 →
        let u := exportLook s (base + o)
        (exportResolve u (base + o) 8 false .read false = .ok (.phys p) →
          exec (.hostWindowAccess ⟨n * 2 ^ 30 + o, false, 8, 0⟩) s = .next { u with outbox := u.outbox ++ [.hostReply (memRead u.mem p 8) false] }) ∧
        (exportResolve u (base + o) 8 false .write false = .ok (.phys p) → val < 2 ^ 64 →
          exec (.hostWindowAccess ⟨n * 2 ^ 30 + o, true, 8, val⟩) s = .next { u with mem := memWrite u.mem p 8 val }) ∧
        ∀ reason code,
        (exportResolve u (base + o) 8 false .read false = .error (reason, code) →
          exec (.hostWindowAccess ⟨n * 2 ^ 30 + o, false, 8, 0⟩) s =
            .next { u with fabLastr := reason, fabRefc := (u.fabRefc + 1) % 2 ^ 32, outbox := u.outbox ++ [.hostReply (2 ^ 64 - 1) true] }) ∧
        (exportResolve u (base + o) 8 false .write false = .error (reason, code) →
          exec (.hostWindowAccess ⟨n * 2 ^ 30 + o, true, 8, val⟩) s = .next { u with fabLastr := reason, fabRefc := (u.fabRefc + 1) % 2 ^ 32 })) ∧
      (∀ n base dev o val, WindowTo s n base dev → dev ≠ fabDev → o < 2 ^ 30 → o % 8 = 0 → (∀ k ∈ s.keys, k.2.v = false) → s.boot.links ≠ 0 →
        (∃ t, exec (.hostWindowAccess ⟨n * 2 ^ 30 + o, true, 8, val⟩) s = .next t ∧ t.mem = s.mem ∧ t.fabRefc = s.fabRefc ∧
          t.hostOut = s.hostOut ++ [(s.tagCtr, dev)] ∧ t.outbox = s.outbox ++ [.request dev (hostRequest s true (base + o) val)]) ∧
        ∃ t v ur, exec (.hostWindowAccess ⟨n * 2 ^ 30 + o, false, 8, 0⟩) s = .next t ∧ t.mem = s.mem ∧
          t.outbox = s.outbox ++ [.request dev (hostRequest s false (base + o) 0), .hostReply v ur] ∧ v < 2 ^ 64 ∧
          (ur = false → t.fabRefc = s.fabRefc) ∧ (ur = true → v = 2 ^ 64 - 1 ∧ t.fabRefc = (s.fabRefc + 1) % 2 ^ 32)) ∧
      (∀ n base dev o w val, WindowTo s n base dev → dev ≠ fabDev → o < 2 ^ 30 → o % 8 = 0 → s.boot.links = 0 →
        ∃ t, exec (.hostWindowAccess ⟨n * 2 ^ 30 + o, w, 8, val⟩) s = .next t ∧ t.mem = s.mem ∧ t.outbox = s.outbox ∧ t.nic = s.nic ∧
          ∃ e ∈ t.events, s.now < e.1 ∧ e.2 = .hostWindowAccess ⟨n * 2 ^ 30 + o, w, 8, val⟩) ∧
      (∀ n o val, o < 2 ^ 30 → tget s.windows n = none →
        exec (.hostWindowAccess ⟨n * 2 ^ 30 + o, false, 8, 0⟩) s =
          .next { s with fabRefc := (s.fabRefc + 1) % 2 ^ 32, outbox := s.outbox ++ [.hostReply (2 ^ 64 - 1) true] } ∧
        exec (.hostWindowAccess ⟨n * 2 ^ 30 + o, true, 8, val⟩) s = .next { s with fabRefc := (s.fabRefc + 1) % 2 ^ 32 })) ∧
    (PortOn s → s.boot.waiting = true → ∀ o val,
      (o < 2 ^ 30 → exec (.hostWindowAccess ⟨o, true, 8, val⟩) s = .next (s.setMem (memWrite s.mem o 8 val)) ∧
        exec (.hostWindowAccess ⟨o, false, 8, 0⟩) s = .next { s with outbox := s.outbox ++ [.hostReply (memRead s.mem o 8) false] }) ∧
      (2 ^ 30 ≤ o → exec (.hostWindowAccess ⟨o, true, 8, val⟩) s = .next { s with fabRefc := (s.fabRefc + 1) % 2 ^ 32 })) ∧
    (¬PortOn s → (∀ n v, exec (.hostWindowRegisterWrite n v) s = .next s) ∧ ∀ a, exec (.hostWindowAccess a) s = .next s)

/-- R320 to R322, R327, R330 to R332: the export table, key slots, doorbells and host accesses (assumptions 49, 79 and 83). -/
def Obligations.FabricKeysAndHostWindowsAct : Prop := Claims.ExportTable ∧ Claims.FabricAndHost

/-- R358 to R360: a write of pwr.ctl stops the island's clock for at most 2,048 cycles and asks for the step, which the island runs with when the change
is done; held and tried again, the write does nothing more until the island runs at the step, and then ends; one to the step that the island has ends at
once, and one to an island whose change is under way waits. A step above 19, a stop of a swarm island, or of a matrix island whose units are
not at rest, traps ILLEGAL_ENC. Behind a window of power above the limit some running island has been lowered, and none to step 0; below 95 % of it no
island is lowered and none runs faster than asked for; between the two the islands stay. That a held write is accepted once, by its context and count of instructions, and ends at its retry is assumption
86, that the watts are given with the window and the islands that move are free assumption 52. -/
def Obligations.IslandsChangeSpeedWithinPower : Prop :=
  ∀ s : State,
    (∀ v : Word,
      let i := fieldAt v 16 9
      let st := fieldAt v 0 5
      let held := { s.me with st := .parked .retry }
      (19 < st ∨ st = 0 ∧ i % 2 = 0 → exec (.pwrCtlWrite v) s = .next (takeFault s (plainFlt 2 0))) ∧
      (st ≤ 19 → st ≠ 0 ∨ i % 2 = 1 → (s.cur, i, s.me.icount) ∉ s.pwrWait →
        (st ≠ 0 ∨ Gateable s (ofIsland i) → stopEnd s i = 0 → running s i ≠ st → ∃ t, exec (.pwrCtlWrite v) s = .next t ∧
          t.pwrIsl = i ∧ t.pwrStep = st ∧ wanted t i = st ∧ running t i = running s i ∧ s.now < stopEnd t i ∧ stopEnd t i ≤ s.now + 2048 ∧
          (stopEnd t i, Instr.islandStepChange i) ∈ t.events ∧ (s.cur, i, s.me.icount) ∈ t.pwrWait ∧ t.mem = s.mem ∧
          t.me = held ∧ ∀ c, c ≠ s.cur → t.slot c = s.slot c) ∧
        (stopEnd s i = 0 → running s i = st → ∃ t, exec (.pwrCtlWrite v) s = .next t ∧ t.pwrIsl = i ∧ t.pwrStep = st ∧ wanted t i = st ∧
          running t i = st ∧ stopEnd t i = 0 ∧ t.pwrWait = s.pwrWait ∧ t.mem = s.mem ∧ t.slots = s.slots) ∧
        (stopEnd s i ≠ 0 → exec (.pwrCtlWrite v) s = .next (s.setMe held)) ∧
        (st = 0 → ¬Gateable s (ofIsland i) → stopEnd s i = 0 → running s i ≠ 0 → exec (.pwrCtlWrite v) s = .next (takeFault s (plainFlt 2 0)))) ∧
      (st ≤ 19 → st ≠ 0 ∨ i % 2 = 1 → (s.cur, i, s.me.icount) ∈ s.pwrWait →
        (stopEnd s i ≠ 0 → wanted s i = st → exec (.pwrCtlWrite v) s = .next (s.setMe held)) ∧
        (stopEnd s i = 0 ∨ wanted s i ≠ st → exec (.pwrCtlWrite v) s = .next { s with pwrWait := s.pwrWait.filter (·.1 != s.cur) }))) ∧
    (∀ i, stopEnd s i ≠ 0 → stopEnd s i ≤ s.now → ∃ t, exec (.islandStepChange i) s = .next t ∧ running t i = wanted s i ∧
      wanted t i = wanted s i ∧ stopEnd t i = 0 ∧ ∀ cl, cl ≠ ofIsland i → t.cluster cl = s.cluster cl) ∧
    (∀ i, stopEnd s i = 0 ∨ s.now < stopEnd s i → exec (.islandStepChange i) s = .next s) ∧
    (∀ w, w < 2 ^ 16 → (s.clusters.map Prod.fst).Nodup → ∃ t, exec (.powerWindow w) s = .next t ∧ t.pwrWatts = w ∧ t.mem = s.mem ∧ t.slots = s.slots ∧
      (∃ e ∈ t.events, e.1 = s.now + 1900000 ∧ ∃ n, e.2 = .powerWindow n) ∧
      (s.pwrLimit < w → (∀ i, running t i ≤ running s i ∧ (0 < running s i → 0 < running t i)) ∧
        ((∃ i, (s.cluster (ofIsland i)).ready = true ∧ stopEnd s i = 0 ∧ 1 < running s i) → ∃ i, running t i < running s i)) ∧
      (100 * w < 95 * s.pwrLimit → ∀ i, running s i ≤ running t i ∧ running t i ≤ max (running s i) (wanted s i)) ∧
      (w ≤ s.pwrLimit → 95 * s.pwrLimit ≤ 100 * w → t.clusters = s.clusters))

namespace Sys2Proof.Claims

/-! ### Bring-up, attestation, the loss of a die -/

/-- A start is under way, neither confirmed nor failed (R364). -/
def StartOpen (s : State) : Prop := s.boot.started = true ∧ s.boot.conf = false ∧ s.boot.failed = false

/-- The start-up state behind a failed start (R364, R365). -/
def failedStart (b : Boot) (reason : Nat) : Boot := { b with failed := true, count := min (b.count + 1) 3, lastReason := reason }

/-- boot.status (R365). -/
def statusWord (b : Boot) : Nat := b.minimal.toNat + b.conf.toNat * 2 + b.fails * 2 ^ 16 + b.reason * 2 ^ 24 + b.svn % 2 ^ 8 * 2 ^ 32

/-- Security version of an image: byte 8 of its header (R366). -/
def version (img : List Byte) : Nat := (img.getD 8 0).toNat

/-- Does an image verify (R366)? Its signature is over its SHA3-512 digest, and its version is not below the fused minimum. -/
def ImageVerifies (img sig : List Byte) : Prop := Config.vendorSigned (sha3 img) sig = true ∧ Config.fusedSvn ≤ version img

/-- Does a stored image verify? -/
def Verifies (i : Nat) : Prop := ImageVerifies (Config.imageBytes i) (Config.imageSignature i)

/-- The image that the host has placed at address 0, header and body, and the signature behind it (R364, R366). -/
def placed (s : State) : List Byte := memBytes s.mem 0 (256 + Config.bodyLength (memBytes s.mem 0 256) % 2 ^ 30)
def placedSignature (s : State) : List Byte := memBytes s.mem (placed s).length 4627

/-- Image `n`, these bytes, is the one that has been started. -/
def Started (b : Boot) (n : Nat) (img : List Byte) : Prop :=
  b.image = some n ∧ b.svn = version img ∧ b.digest = sha3 img ∧ b.control = Config.imageControl img ∧ b.walker = Config.imageWalker img

/-- Some step `i` is on its way. -/
def Coming (t : State) (i : Instr) : Prop := ∃ e ∈ t.events, e.2 = i ∧ t.now < e.1

/-- The buffer that attest.ctl names, in memory that serves (R367). -/
structure Buffer (s : State) (v : Word) (a : Nat) : Prop where
  base : a = fieldAt v 13 35 * 2 ^ 13
  there : a + 2 ^ 13 ≤ 2 ^ 39 ∧ s.dieGone (a / 2 ^ 36) = false
  wf : Memory.wf s.mem = true
  digest : s.boot.digest.length = 64

/-- No access of a context but `c` is outstanding, or none at all, and no channel is open; no core logs. -/
structure QuietBut (s : State) (c : Option Nat) : Prop where
  slots : ∀ q ∈ s.slots, some q.1 ≠ c → q.2.ctx.outst = [] ∧ q.2.late = [] ∧ q.2.park = none
  cores : ∀ q ∈ s.cores, q.2.tx = [] ∧ q.2.mlogStart = none

/-- No access, full/empty word, barrier or channel of the module involves another die's contexts. -/
structure Unconcerned (s : State) : Prop extends QuietBut s none where
  barriers : s.barriers = []
  words : s.feWait = []

/-- The loss of die `d` ends what context `c` waited for with the fault DIE_LOST of address `addr`, at its instruction. -/
def LostHere (s : State) (d c addr : Nat) : Prop :=
  ∃ u, exec (.dieLoss d) s = .next { takeFault u (plainFlt cDieLost addr) with cur := s.cur } ∧ u.cur = c ∧ u.me.st = .live ∧
    u.me.pc = (s.ctx c).pc ∧ u.me.x = (s.ctx c).x ∧ u.me.outst = [] ∧ u.mem = s.mem ∧ u.pkgLost = s.pkgLost + 2 ^ d ∧ u.feWait = [] ∧
    ∀ b ∈ u.barriers, b.2.arr = []

end Sys2Proof.Claims

/-- R362 to R366: module reset keeps memory, empties every table and counts an unconfirmed start; the third failure in a row makes the start minimal.
With an image that verifies, the one of higher security version, the dies, clusters and, in a full start, the 16 links come up; with none the start fails,
or in minimal mode waits for a doorbell behind which an image in memory verifies. A ready bit rises unless its die is lost, and with a cluster's the
control and walker contexts of its cores begin at the image's entries in system mode, with the phase counters anywhere; with a link's the packets that
waited for one leave. The written key confirms an open start before the deadline and nothing else does; the deadline and a power-stage fault fail it. That memory stands over a
reset is assumption 51, that image 0 is taken of two with one security version assumption 100, that a started context's PREC is 0 assumption 64,
the layout of an image assumption 6, and that packets wait for a link assumption 83. The images, and whether one verifies, are uninterpreted: the
clauses that ask it are said for whatever they are. -/
def Sys2Proof.Claims.BringUp : Prop :=
  ∀ s : State,
    (∃ t, exec .moduleReset s = .next t ∧ t.mem = s.mem ∧ t.slots = [] ∧ t.cores = [] ∧ t.clusters = [] ∧ t.mus = [] ∧ t.dies = [] ∧ t.now = 0 ∧
      t.pkgLost = 0 ∧ t.kvTable = 8 ∧ t.fabPool = 8 ∧ t.fabResv = 4 ∧ t.pwrStep = 19 ∧ t.pwrLimit = 2600 ∧ t.boot.conf = false ∧
      (StartOpen s → t.boot.fails = min (s.boot.count + 1) 3 ∧ t.boot.reason = 4) ∧
      (¬StartOpen s → t.boot.fails = s.boot.count ∧ t.boot.reason = if s.boot.count = 0 then 0 else s.boot.lastReason) ∧
      (t.boot.minimal = true ↔ t.boot.fails = 3) ∧
      (∀ i j, (i = 0 ∧ j = 1) ∨ (i = 1 ∧ j = 0) → Verifies i →
        (Verifies j → version (Config.imageBytes j) < version (Config.imageBytes i) ∨
          version (Config.imageBytes j) = version (Config.imageBytes i) ∧ i = 0) → Started t.boot i (Config.imageBytes i)) ∧
      (Verifies 0 ∨ Verifies 1 → t.boot.failed = false ∧ t.boot.waiting = false ∧
        (t.boot.fails ≠ 3 → (∀ d, d < 8 → Coming t (.dieReady d)) ∧ (∀ c, c < 256 → Coming t (.clusterReady c)) ∧
          ∀ p, p < 16 → Coming t (.linkReady p)) ∧
        (t.boot.fails = 3 → Coming t (.dieReady 0) ∧ (∀ c, c < 4 → Coming t (.clusterReady c)) ∧
          ∀ p, ¬Coming t (.linkReady p))) ∧
      (¬Verifies 0 → ¬Verifies 1 → (t.boot.fails = 3 → t.boot.waiting = true ∧ ∀ c, ¬Coming t (.clusterReady c)) ∧
        (t.boot.fails ≠ 3 → t.boot.failed = true ∧ t.boot.count = min (t.boot.fails + 1) 3))) ∧
    (∀ d, s.lost d = false → exec (.dieReady d) s = .next (s.setDie d { s.die d with ready := true })) ∧
    (∀ d, s.lost d = true → exec (.dieReady d) s = .next s) ∧
    (∀ cl, s.lost (cl / 32) = false → (s.cluster cl).ready = false → ∃ t, exec (.clusterReady cl) s = .next t ∧ t.mem = s.mem ∧
      t.cluster cl = { s.cluster cl with ready := true } ∧
      (∀ k, k / 8 = cl → (∃ p, p < 16 ∧ t.core k = { s.core k with phase := p }) ∧
        t.ctx (16 * k) = { beginning (BitVec.ofNat 64 s.boot.control) 0 0 0 false .none with sys := true } ∧
        t.ctx (16 * k + 15) = { beginning (BitVec.ofNat 64 s.boot.walker) 0 0 0 false .none with sys := true }) ∧
      (∀ k, k / 8 ≠ cl → t.core k = s.core k) ∧ ∀ c, c / 128 ≠ cl ∨ 1 ≤ c % 16 ∧ c % 16 ≤ 14 → t.slot c = s.slot c) ∧
    (∀ cl, s.lost (cl / 32) = true ∨ (s.cluster cl).ready = true → exec (.clusterReady cl) s = .next s) ∧
    (∀ p, p < 16 → s.boot.minimal = false → s.boot.links / 2 ^ p % 2 = 0 →
      exec (.linkReady p) s = .next { s with boot := { s.boot with links := s.boot.links + 2 ^ p }, outbox := s.outbox ++ s.nic, nic := [] }) ∧
    (∀ p, 16 ≤ p ∨ s.boot.minimal = true ∨ s.boot.links / 2 ^ p % 2 = 1 → exec (.linkReady p) s = .next s) ∧
    (∀ v : Word, (fieldAt v 0 16 = 0x600D → StartOpen s → s.now ≤ s.boot.start + 2 ^ 32 →
        exec (.bootOk v) s = .next { s with boot := { s.boot with conf := true, count := 0 } }) ∧
      (fieldAt v 0 16 ≠ 0x600D ∨ ¬StartOpen s ∨ s.boot.start + 2 ^ 32 < s.now → exec (.bootOk v) s = .next s)) ∧
    (StartOpen s → s.boot.start + 2 ^ 32 < s.now → exec .bootDeadlineExpiry s = .next { s with boot := failedStart s.boot 3 }) ∧
    (¬StartOpen s → exec .bootDeadlineExpiry s = .next s ∧ exec .powerStageFault s = .next s) ∧
    (StartOpen s → exec .powerStageFault s = .next { s with boot := failedStart s.boot 5 }) ∧
    (PortOn s → s.boot.waiting = true → ∀ v, (¬ImageVerifies (placed s) (placedSignature s) → exec (.hostDoorbell v) s = .next s) ∧
      (ImageVerifies (placed s) (placedSignature s) → ∃ t, exec (.hostDoorbell v) s = .next t ∧ t.mem = s.mem ∧ t.slots = s.slots ∧
        t.boot.waiting = false ∧ t.boot.count = s.boot.count ∧ t.boot.minimal = s.boot.minimal ∧ Started t.boot 2 (placed s) ∧
        (s.boot.minimal = true → Coming t (.dieReady 0) ∧ ∀ c, c < 4 → Coming t (.clusterReady c))))

/-- R367: an attestation writes the report around the nonce that stands in the buffer, with the digest of the running image and a signature over the
report's own digest, counts it, and touches nothing else; the identity key takes 2,592 bytes; with GO = 0 nothing happens, a buffer on a lost die
raises DIE_LOST, and one outside both memories traps ILLEGAL_ENC. -/
def Sys2Proof.Claims.Attestation : Prop :=
  ∀ (s : State) (v : Word) (a : Nat),
    (v.getLsbD 0 = true → Buffer s v a →
      (∃ t, exec (.attestReport v) s = .next t ∧ t.boot = { s.boot with reports := s.boot.reports + 1 } ∧ t.slots = s.slots ∧
        memRead t.mem a 8 = 0x545250414C455A4F ∧ (∀ i, i < 64 → memGet t.mem (a + 8 + i) = memGet s.mem (a + 8 + i)) ∧
        (∀ i, i < 64 → memGet t.mem (a + 0x48 + i) = s.boot.digest.getD i 0) ∧
        memRead t.mem (a + 0x88) 8 = statusWord s.boot % 2 ^ 64 ∧ memRead t.mem (a + 0x90) 8 = fabId ∧
        (∀ i, i < 16 → memGet t.mem (a + 0x98 + i) = Config.serial i) ∧ memRead t.mem (a + 0xA8) 8 = (s.boot.reports + 1) % 2 ^ 64 ∧
        (∀ i, i < 80 → memGet t.mem (a + 0xB0 + i) = 0) ∧
        (∀ i, i < 4627 → memGet t.mem (a + 0x100 + i) = Config.signature (sha3 (memBytes t.mem a 0x100)) i) ∧
        ∀ b, b < a ∨ a + 0x100 + 4627 ≤ b → memGet t.mem b = memGet s.mem b) ∧
      (∃ t, exec (.attestIdentityKey v) s = .next t ∧ t.boot = s.boot ∧ t.slots = s.slots ∧
        (∀ i, i < 2592 → memGet t.mem (a + i) = Config.identityKey i) ∧
        ∀ b, b < a ∨ a + 2592 ≤ b → memGet t.mem b = memGet s.mem b)) ∧
    (v.getLsbD 0 = false → fieldAt v 13 35 * 2 ^ 13 < 2 ^ 39 → exec (.attestReport v) s = .next s ∧ exec (.attestIdentityKey v) s = .next s) ∧
    (v.getLsbD 0 = true → fieldAt v 13 35 * 2 ^ 13 < 2 ^ 39 → s.dieGone (fieldAt v 13 35 / 2 ^ 23) = true →
      exec (.attestReport v) s = .next (takeFault s (plainFlt cDieLost 0)) ∧
      exec (.attestIdentityKey v) s = .next (takeFault s (plainFlt cDieLost 0))) ∧
    (2 ^ 39 ≤ fieldAt v 13 35 * 2 ^ 13 → fieldAt v 13 35 * 2 ^ 13 < 2 ^ 43 →
      exec (.attestReport v) s = .next (takeFault s (plainFlt 2 0)) ∧ exec (.attestIdentityKey v) s = .next (takeFault s (plainFlt 2 0)))

/-- R362 to R367: bring-up and attestation (assumptions 6, 51, 64, 83 and 100). -/
def Obligations.BringUpStartsAndAttests : Prop := Claims.BringUp ∧ Claims.Attestation

/-- R113, R302, R308, R340, R343, R362: the loss of a die: its bit of pkg.lost is set, its ready bit and those of its clusters clear, class 48 is pending on
every core of the dies that serve, and memory stands. A context of another die that awaits an access, a full/empty word or a barrier of the
die faults DIE_LOST at once, and the barrier starts a new generation; a posted request to the die gets a delayed DIE_LOST; a send endpoint to the
die is BROKEN, and a receive endpoint's GRANTED falls by what a sender on the die might still have sent. Each effect is said where it is the only
one. A second loss changes nothing. That grants on their way count as unused allowance is assumption 87. -/
def Obligations.DieLossMarksTheDie : Prop :=
  ∀ (s : State) (d : Nat),
    (s.lost d = true → exec (.dieLoss d) s = .next s) ∧
    (s.lost d = false → d < 8 →
      (Unconcerned s → ∃ t, exec (.dieLoss d) s = .next t ∧ t.pkgLost = s.pkgLost + 2 ^ d ∧ t.lost d = true ∧
        (t.die d).ready = false ∧ t.mem = s.mem ∧ (∀ cl, cl / 32 = d → (t.cluster cl).ready = false) ∧
        (∀ cl, cl / 32 ≠ d → t.cluster cl = s.cluster cl) ∧
        (∀ k, k < 2048 → k / 256 ≠ d → s.dieGone (k / 256) = false → (t.core k).pending = (s.core k).pending ||| (1#64 <<< 48)) ∧
        ∀ d', d' ≠ d → t.die d' = s.die d') ∧
      (∀ c o, QuietBut s (some c) → s.barriers = [] → s.feWait = [] → c < 2 ^ 15 → ctxDie c ≠ d → (s.ctx c).st = .parked (.reply o.tag) →
        (s.ctx c).outst = [o] → o.die = some d → o.posted = none → (s.slot c).late = [] → (s.slot c).park = none → LostHere s d c o.addr) ∧
      (∀ c w q, QuietBut s none → s.barriers = [] → (s.feWait = [(w, ⟨[q], []⟩)] ∨ s.feWait = [(w, ⟨[], [q]⟩)]) → locDie w = d → q.ctx = some c →
        c < 2 ^ 15 → ctxDie c ≠ d → (s.ctx c).st = .parked (.fe q.tag) → LostHere s d c q.va) ∧
      (∀ key b p q, QuietBut s none → s.feWait = [] → s.barriers = [(key, b)] → b.arr = [p, q] → b.remote = [] → ctxDie p.ctx = d →
        ctxDie q.ctx ≠ d → (s.ctx q.ctx).st = .parked .barrier → (s.ctx q.ctx).barTag = q.tag → LostHere s d q.ctx 0) ∧
      ((∀ q ∈ s.slots, ∀ n, q.2.ctx.st ≠ .parked (.reply n)) → s.barriers = [] → s.feWait = [] → (∀ q ∈ s.cores, q.2.tx = [] ∧ q.2.mlogStart = none) →
        ∃ t, exec (.dieLoss d) s = .next t ∧ t.mem = s.mem ∧
          ∀ c sl o, tget s.slots c = some sl → ctxDie c ≠ d → o ∈ sl.ctx.outst ++ sl.late → o.posted ≠ none → o.die = some d →
            (s.now, Instr.delayedFaultArrival c o.tag ⟨cDieLost, clearAuth⟩) ∈ t.events) ∧
      ((∀ q ∈ s.slots, q.2.ctx.outst = [] ∧ q.2.late = [] ∧ q.2.park = none) → s.barriers = [] → s.feWait = [] →
        (s.cores.map Prod.fst).Nodup → (∀ q ∈ s.cores, q.2.mlogStart = none) → ∃ t, exec (.dieLoss d) s = .next t ∧ t.mem = s.mem ∧
          (∀ k n e, k < 2048 → k / 256 ≠ d → s.dieGone (k / 256) = false → tget (s.core k).tx n = some e → e.isOpen = true → e.broken = false →
            epDev e.peer = fabDev → epCore e.peer / 256 = d → (t.core k).txEp n = { e with broken := true } ∧
            (t.core k).pending.getLsbD 49 = true) ∧
          ∀ k n e, k / 256 = d → (s.core k).tx = [(n, e)] → (∀ q ∈ s.cores, q.1 ≠ k → q.2.tx = []) → e.isOpen = true → epDev e.peer = fabDev →
            epCore e.peer / 256 ≠ d → (∀ v ∈ s.events, ∀ g, v.2 = .grantArrival g → g.dst ≠ epAddr k n) →
            (t.core (epCore e.peer)).rxEp (epNum e.peer) = { (s.core (epCore e.peer)).rxEp (epNum e.peer) with
              granted := ((s.core (epCore e.peer)).rxEp (epNum e.peer)).granted - e.allow }))

namespace Sys2Proof.Claims

/-! ### The machine as a whole -/

/-- Words of the manual, each with the instruction it stands for: the examples of R30, R32, R33, R34, R36, R37, R38 and of the chapters and programs. -/
def words : List (Nat × Instr) :=
  [(0x13012028A3000000, .add { gp := 9, gn := true, wm := 2 } .i64 5 5 6), (0x00400A19200004C0, .ld { sc := some 1 } .b8 false false .cor 3 ⟨9, 0, 2⟩),
   (0x00230020A30E0048, .ffma {} .f16 .rz 4 5 6 7), (0x0030000C20A30084, .icmp {} .ltu .i32 3 4 5 (.reg 6) false),
   (0x163000306EC04043, .icmp { gp := 11 } .lt .i64 12 13 54 (.imm 32) true), (0x0631001431038045, .fcmp { gp := 3 } .lt .f16 5 6 8 7 true),
   (0x003901F800000007, .call {} 63 7), (0x173800001FFFFFE3, .br { gp := 11, gn := true } 0x1FFFFFE3),
   (0x001D0028A9ABCDEF, .ldc {} 5 5 0x09ABCDEF), (0x00400C38627FFC93, .ld { sc := some 2 } .b4 true true .cl 7 ⟨3, 4, 0x3FFE⟩),
   (0x0047002925010250, .amo {} .add .i32 .rel .die false 5 9 10), (0x0047002925004220, .amo {} .add .i64 .rlx .sys true 5 9 10),
   (0x00420029200004C0, .ldfe {} 5 ⟨9, 0, 2⟩), (0x044600026B0000C0, .fezero { gp := 2 } ⟨19, 22, 0⟩),
   (0x005000A10A800000, .copy {} 20 8 21 0 0), (0x005100A040000010, .sbindIn {} 0 2 false 20 2 0 0 0),
   (0x005400102A800000, .tktest {} 4 5 20 false), (0x0058005080000186, .topen {} 3 10 4 6), (0x005B00A14A800000, .seal {} 20 10 21 0 0),
   (0x105A00028B000001, .tmarkVoid { gp := 8 } 20 22), (0x00610028C3800003, .sqres {} 5 6 7 3), (0x00640001869C0001, .sqfork {} 12 13 14 1),
   (0x006700A10A800001, .kvgathV {} 20 8 21 0 0), (0x0069018DF8000001, .kvpfW {} 49 47 48), (0x00700028C0000013, .bar {} .cl 3 5 6),
   (0x0072000145980000, .chsend {} 10 11 12), (0x0085003A8A800005, .start {} 7 20 21 5), (0x0090000000000005, .trap {} 5),
   (0x0090000000010001, .trapBrk {} 1), (0x0091000000000000, .eret {}), (0x0092003800000001, .srd {} 7 1),
   (0x0096000145800004, .wkdoneOk {} 1 10 11), (0x00970000A300000C, .tlbinvPage {} .pkg 5 6), (0x0098000080000000, .gstopHalt {} 4),
   (0x00990000C3800000, .ctxsaveSlot {} 6 7), (0x00990028C3900001, .ctxsaveCl {} 5 6 7 8), (0x009A0000C3900003, .ctxloadClRp {} 6 7 8)]

/-- Nothing keeps context `c` from issuing the instruction at its pc at its phase (R123, R153, R340, R344, R351), and it is not the supplied firmware's
control or walker context (R375). -/
structure MayIssue (s : State) (c : Nat) : Prop where
  live : (s.ctx c).st = .live
  gang : (s.slot c).gang = false
  saving : (s.cluster (ctxCl c)).saving = none
  split : (s.core (ctxCore c)).lsChange = none
  delayed : (s.ctx c).delayed = []
  drained : ∀ o ∈ (s.ctx c).outst, o.prec = false
  fresh : (s.ctx c).missAns = none
  replaying : (s.core (ctxCore c)).replaying = false
  code : 1 ≤ ctxSlot c ∧ ctxSlot c ≤ 14 ∨ s.boot.image = some 2

/-- Physical address `a` holds 8 bytes that can be fetched: aligned, in the first memory, on a die that serves, and correct (R146, R152, R158, R343). -/
structure Fetchable (s : State) (a : Nat) : Prop where
  aligned : a % 8 = 0
  low : a < 2 ^ 39
  die : s.dieGone (a / 2 ^ 36) = false
  data : a ∉ s.ecc

/-- Where the pc of context `c` leads: directly in system mode without translation, or through the one ITLB entry that matches (R185, R190). -/
def FetchesAt (s : State) (c a : Nat) : Prop :=
  let pc := (s.ctx c).pc.toNat
  let q := s.core (ctxCore c)
  (q.atp.getLsbD 0 = false ∧ (s.ctx c).sys = true ∧ a = pc) ∨
  (q.atp.getLsbD 0 = true ∧ ctxSlot c ≠ 15 ∧ pc < 2 ^ 39 ∧ pc % 8 = 0 ∧ (s.cluster (ctxCl c)).l2tlb = [] ∧
    ∃ e, q.itlb = [e] ∧ (e.gl = true ∨ e.asid = fieldAt q.atp 48 16) ∧ pc / 2 ^ e.lg = e.page / 2 ^ e.lg ∧ e.x = true ∧
      ((s.ctx c).sys = true ∨ e.u = true) ∧ a = e.frame / 2 ^ e.lg * 2 ^ e.lg + pc % 2 ^ e.lg)

/-- The place of an arrival among those of its cycle: decrements by source die and context (R89), messages by sender (R307), barrier arrivals by device
and context (R302). -/
def arrivalRank : Instr → Nat
  | .decrementArrival _ _ src => 1 + src.ctx
  | .messageArrival m => 1 + m.src
  | .barrierArrival _ _ ctx dev => 1 + dev * 2 ^ 15 + ctx % 2 ^ 15
  | _ => 0

/-- Is it the completion of an access, which takes effect behind the cycle's issues (R128)? -/
def endsAccess : Instr → Bool
  | .countedAccessComplete _ _ | .postedAck _ _ => true
  | _ => false

/-- The moves of a bundle: in rising engine order, each well-formed and of its engine (R42 to R44). -/
def BundleMoves (l : List (Nat × Instr)) : Prop :=
  l.Pairwise (fun a b => a.1 < b.1) ∧ ∀ m ∈ l, m.1 < 8 ∧ m.2.wf = true ∧ ∃ w, encodeMove m.2 = some w ∧ w / 2 ^ 20 % 8 = m.1

end Sys2Proof.Claims

/-- R30 to R41, R43: words written out from the encodings decode to the instructions they stand for, an opcode that is not assigned is an instruction of its
own, a legal opcode with a field that must be zero set is refused, and so does the bundle of the manual's example decode to its moves. -/
def Obligations.EncodedWordsDecodeRight : Prop :=
  (∀ p ∈ words, decodeNat p.1 = .ok p.2) ∧ decodeNat 0x00FF000000000000 = .ok (.unassignedOpcode 0x00FF000000000000) ∧
  decodeNat 0x00400419200004C0 = .error .illegalEnc ∧ decodeMove 0x107F90 = .ok (.afFeed false none 16) ∧
  decodeMove 0xB17F80 = .ok (.arDest true 0) ∧
  decodeBundle [0, 0, 0x0E, 0x0A, 0x90, 0x7F, 0x10, 0x80, 0x7F, 0x31, 0, 0] = .ok ⟨14, false, [(1, .afFeed false none 16), (3, .arDest false 0)], 12⟩

/-- R30 to R41: every well-formed swarm instruction, with every operand at every value its encoding admits, is the instruction its own word decodes to, and
its word lies in memory as its 8 bytes, least significant first. -/
def Obligations.InstructionsRoundTrip : Prop :=
  ∀ (i : Instr) (w : Nat) (rest : List Byte), i.wf = true → encodeNat i = some w →
    w < 2 ^ 64 ∧ decodeNat w = .ok i ∧ decode (leBytes 8 w ++ rest) = .ok (i, rest)

/-- R41: what decodes is well-formed, and has no other word: a word decodes only if it is the word of its instruction. -/
def Obligations.DecodedWordsAreLegal : Prop :=
  ∀ (w : Nat) (i : Instr), w < 2 ^ 64 → decodeNat w = .ok i → i.wf = true ∧ encodeNat i = some w

/-- R42 to R46, R227: every well-formed move is the move its own slot decodes to, a slot decodes only to the move it encodes, and a bundle of moves in
engine order is the bundle its bytes decode to. -/
def Obligations.MovesRoundTrip : Prop :=
  (∀ (i : Instr) (w : Nat), i.wf = true → encodeMove i = some w → w < 2 ^ 24 ∧ decodeMove w = .ok i) ∧
  (∀ (w : Nat) (i : Instr), decodeMove w = .ok i → i.wf = true ∧ encodeMove i = some w) ∧
  (∀ (rep : Nat) (last : Bool) (l : List (Nat × Instr)) (rest : List Byte), rep < 256 → BundleMoves l →
    ∃ n, decodeBundle (encodeBundle rep last l ++ rest) = .ok ⟨rep, last, l, n⟩ ∧ n = (4 + 3 * l.length + 3) / 4 * 4 ∧
      (encodeBundle rep last l).length = n)

/-- R89, R107, R122, R123, R126, R128, R146, R190, R223, R302, R307: a step runs the instruction that the bytes at the issuing context's pc decode to, whether its pc leads to
memory directly or through its ITLB, and traps ILLEGAL_ENC where they decode to none; a context that is off the wheel has a dead phase. A step of a
running matrix unit issues the bundle at its place, a device step is executed as it stands, and with no turn left and nothing to run the next package
cycle begins with what is due in it: decrements in the order of their sources, messages of their senders, barrier arrivals of their contexts, and last the
accesses that complete; that these three kinds stand behind the cycle's other arrivals is this model's choice (log entry 57). -/
def Obligations.StepsRunTheDecodedInstruction : Prop :=
  (∀ (s : State) (c : Nat) (r : List Turn), s.todo = .issue c :: r →
    let u := { s with todo := r, cur := c }
    (∀ a, MayIssue s c → FetchesAt s c a → Fetchable s a →
      (∀ i, decodeNat (memRead s.mem a 8) = .ok i → step s = exec i u) ∧
      (∀ e, decodeNat (memRead s.mem a 8) = .error e → step s = .next (takeFault u (plainFlt 2 0)))) ∧
    ((s.ctx c).st = .empty ∨ (s.ctx c).st = .halted ∨ (s.slot c).gang = true → step s = .next u)) ∧
  (∀ (s : State) (m : Nat) (r : List Turn) (b : Bundle), s.todo = .mu m :: r → (s.mu m).st = .running → (s.mu m).fell = false →
    bundleAt s m (s.mu m).bpc = .ok b → step s = .next (issueBundle { s with todo := r, curMu := m } m b)) ∧
  (∀ (s : State) (i : Instr) (r : List Turn), s.todo = .ev i :: r →
    (encodeNat i = none → encodeMove i = none → step s = exec i { s with todo := r }) ∧
    ((encodeNat i).isSome ∨ (encodeMove i).isSome → step s = .fault .strayTurn)) ∧
  (∀ s : State, s.todo = [] → s.clusters = [] → s.cores = [] → s.dies = [] → s.feWait = [] → s.kvReqs = [] → s.barriers = [] →
    let due := (s.events.filter fun e => decide (e.1 ≤ s.now + 1)).map Prod.snd
    ∃ l : List Instr, l.Perm (due.filter fun i => !endsAccess i) ∧ l.Pairwise (fun a b => arrivalRank a ≤ arrivalRank b) ∧
      step s = .next { s with now := s.now + 1, events := s.events.filter (fun e => decide (s.now + 1 < e.1)),
                              todo := (l ++ due.filter endsAccess).map .ev })

/-- R149, R153, R247, R325, R358, R360, R361 and the other register entries: the values that registers hold at module reset, with no context live, no matrix
unit running, memory as an unwritten memory reads, and its canonical form. That an unlisted byte of memory reads 0 (log entry 1), and
what epc, estat, scratch and the ALT pointer of a context that has not begun hold (log entry 16), are this model's choice and no rule of the manual. -/
def Obligations.ResetLeavesTheListedValues : Prop :=
  let s := State.reset
  Memory.wf s.mem = true ∧ s.now = 0 ∧ s.kvTable = 8 ∧ s.sqTable = 0 ∧ s.kvShape = 0 ∧ s.kvCtl = 0 ∧ s.fabExport = 0 ∧ s.fabPool = 8 ∧ s.fabResv = 4 ∧
  s.fabRefc = 0 ∧ s.fabAuthf = 0 ∧ s.fabLastr = 0 ∧ s.pwrIsl = 0 ∧ s.pwrStep = 19 ∧ s.pwrLimit = 2600 ∧ s.pwrThrot = 0 ∧ s.pkgLost = 0 ∧
  (∀ a, memGet s.mem a = 0) ∧
  (∀ c, (s.ctx c).st = .empty ∧ (s.slot c).park = none ∧ (s.ctx c).epc = 0 ∧ (s.ctx c).estat = 0 ∧ (s.ctx c).scratch = 0 ∧ (s.ctx c).win = 7) ∧
  (∀ k, (s.core k).lsplit = 4 ∧ (s.core k).vfrac = 0 ∧ (s.core k).atp = 0 ∧ (s.core k).uparea = 0 ∧ (s.core k).mlog = 0 ∧ (s.core k).feLimit = 0 ∧
    (s.core k).tvec = 0 ∧ (s.core k).nseq = 0 ∧ (s.core k).outst = 0) ∧
  (∀ cl, (s.cluster cl).farea = 0 ∧ (s.cluster cl).sstep = 19 ∧ (s.cluster cl).mstep = 19 ∧ (s.cluster cl).ready = false) ∧
  (∀ m, (s.mu m).st = .resting ∧ (s.mu m).easel = []) ∧
  ∀ d, (s.die d).ready = false ∧ (s.die d).htable = 0 ∧ (s.die d).under = 0 ∧ (s.die d).frec = 0

/-- The invariant of every step: memory keeps its canonical form, addresses rising and no byte listed that reads as an unlisted one (0, this model's choice:
log entry 1), whatever the instruction, the matrix units, the engines and the environment do. -/
def Obligations.EveryStepKeepsMemoryCanonical : Prop :=
  ∀ s t : State, Memory.wf s.mem = true → step s = .next t → Memory.wf t.mem = true
end

