-- ==== Sys2Proof/Laws/State.lean ====
section
/-! SUPPORT. Every update of the state leaves every other field as it was: one lemma a field and an update, each true by rfl. -/

namespace Sys2Proof.Machine

/-! ### State.setSlot -/

@[simp] theorem State.setSlot_now (s : State) (c : Nat) (v : Slot) : (s.setSlot c v).now = s.now := rfl
@[simp] theorem State.setSlot_cur (s : State) (c : Nat) (v : Slot) : (s.setSlot c v).cur = s.cur := rfl
@[simp] theorem State.setSlot_curMu (s : State) (c : Nat) (v : Slot) : (s.setSlot c v).curMu = s.curMu := rfl
@[simp] theorem State.setSlot_todo (s : State) (c : Nat) (v : Slot) : (s.setSlot c v).todo = s.todo := rfl
@[simp] theorem State.setSlot_events (s : State) (c : Nat) (v : Slot) : (s.setSlot c v).events = s.events := rfl
@[simp] theorem State.setSlot_freeCtr (s : State) (c : Nat) (v : Slot) : (s.setSlot c v).freeCtr = s.freeCtr := rfl
@[simp] theorem State.setSlot_oracle (s : State) (c : Nat) (v : Slot) : (s.setSlot c v).oracle = s.oracle := rfl
@[simp] theorem State.setSlot_tagCtr (s : State) (c : Nat) (v : Slot) : (s.setSlot c v).tagCtr = s.tagCtr := rfl
@[simp] theorem State.setSlot_mem (s : State) (c : Nat) (v : Slot) : (s.setSlot c v).mem = s.mem := rfl
@[simp] theorem State.setSlot_full (s : State) (c : Nat) (v : Slot) : (s.setSlot c v).full = s.full := rfl
@[simp] theorem State.setSlot_ecc (s : State) (c : Nat) (v : Slot) : (s.setSlot c v).ecc = s.ecc := rfl
@[simp] theorem State.setSlot_feWait (s : State) (c : Nat) (v : Slot) : (s.setSlot c v).feWait = s.feWait := rfl
@[simp] theorem State.setSlot_barriers (s : State) (c : Nat) (v : Slot) : (s.setSlot c v).barriers = s.barriers := rfl
@[simp] theorem State.setSlot_outbox (s : State) (c : Nat) (v : Slot) : (s.setSlot c v).outbox = s.outbox := rfl
@[simp] theorem State.setSlot_cores (s : State) (c : Nat) (v : Slot) : (s.setSlot c v).cores = s.cores := rfl
@[simp] theorem State.setSlot_clusters (s : State) (c : Nat) (v : Slot) : (s.setSlot c v).clusters = s.clusters := rfl
@[simp] theorem State.setSlot_mus (s : State) (c : Nat) (v : Slot) : (s.setSlot c v).mus = s.mus := rfl
@[simp] theorem State.setSlot_dies (s : State) (c : Nat) (v : Slot) : (s.setSlot c v).dies = s.dies := rfl
@[simp] theorem State.setSlot_sqTable (s : State) (c : Nat) (v : Slot) : (s.setSlot c v).sqTable = s.sqTable := rfl
@[simp] theorem State.setSlot_kvTable (s : State) (c : Nat) (v : Slot) : (s.setSlot c v).kvTable = s.kvTable := rfl
@[simp] theorem State.setSlot_kvShape (s : State) (c : Nat) (v : Slot) : (s.setSlot c v).kvShape = s.kvShape := rfl
@[simp] theorem State.setSlot_kvCtl (s : State) (c : Nat) (v : Slot) : (s.setSlot c v).kvCtl = s.kvCtl := rfl
@[simp] theorem State.setSlot_childCnt (s : State) (c : Nat) (v : Slot) : (s.setSlot c v).childCnt = s.childCnt := rfl
@[simp] theorem State.setSlot_moves (s : State) (c : Nat) (v : Slot) : (s.setSlot c v).moves = s.moves := rfl
@[simp] theorem State.setSlot_kvReqs (s : State) (c : Nat) (v : Slot) : (s.setSlot c v).kvReqs = s.kvReqs := rfl
@[simp] theorem State.setSlot_kvWait (s : State) (c : Nat) (v : Slot) : (s.setSlot c v).kvWait = s.kvWait := rfl
@[simp] theorem State.setSlot_invWait (s : State) (c : Nat) (v : Slot) : (s.setSlot c v).invWait = s.invWait := rfl
@[simp] theorem State.setSlot_fabExport (s : State) (c : Nat) (v : Slot) : (s.setSlot c v).fabExport = s.fabExport := rfl
@[simp] theorem State.setSlot_fabPool (s : State) (c : Nat) (v : Slot) : (s.setSlot c v).fabPool = s.fabPool := rfl
@[simp] theorem State.setSlot_fabResv (s : State) (c : Nat) (v : Slot) : (s.setSlot c v).fabResv = s.fabResv := rfl
@[simp] theorem State.setSlot_fabRefc (s : State) (c : Nat) (v : Slot) : (s.setSlot c v).fabRefc = s.fabRefc := rfl
@[simp] theorem State.setSlot_fabAuthf (s : State) (c : Nat) (v : Slot) : (s.setSlot c v).fabAuthf = s.fabAuthf := rfl
@[simp] theorem State.setSlot_fabLastr (s : State) (c : Nat) (v : Slot) : (s.setSlot c v).fabLastr = s.fabLastr := rfl
@[simp] theorem State.setSlot_fabFlits (s : State) (c : Nat) (v : Slot) : (s.setSlot c v).fabFlits = s.fabFlits := rfl
@[simp] theorem State.setSlot_keys (s : State) (c : Nat) (v : Slot) : (s.setSlot c v).keys = s.keys := rfl
@[simp] theorem State.setSlot_windows (s : State) (c : Nat) (v : Slot) : (s.setSlot c v).windows = s.windows := rfl
@[simp] theorem State.setSlot_pwrIsl (s : State) (c : Nat) (v : Slot) : (s.setSlot c v).pwrIsl = s.pwrIsl := rfl
@[simp] theorem State.setSlot_pwrStep (s : State) (c : Nat) (v : Slot) : (s.setSlot c v).pwrStep = s.pwrStep := rfl
@[simp] theorem State.setSlot_pwrLimit (s : State) (c : Nat) (v : Slot) : (s.setSlot c v).pwrLimit = s.pwrLimit := rfl
@[simp] theorem State.setSlot_pwrWatts (s : State) (c : Nat) (v : Slot) : (s.setSlot c v).pwrWatts = s.pwrWatts := rfl
@[simp] theorem State.setSlot_pwrThrot (s : State) (c : Nat) (v : Slot) : (s.setSlot c v).pwrThrot = s.pwrThrot := rfl
@[simp] theorem State.setSlot_pkgLost (s : State) (c : Nat) (v : Slot) : (s.setSlot c v).pkgLost = s.pkgLost := rfl
@[simp] theorem State.setSlot_nic (s : State) (c : Nat) (v : Slot) : (s.setSlot c v).nic = s.nic := rfl
@[simp] theorem State.setSlot_exports (s : State) (c : Nat) (v : Slot) : (s.setSlot c v).exports = s.exports := rfl
@[simp] theorem State.setSlot_hostOut (s : State) (c : Nat) (v : Slot) : (s.setSlot c v).hostOut = s.hostOut := rfl
@[simp] theorem State.setSlot_wakes (s : State) (c : Nat) (v : Slot) : (s.setSlot c v).wakes = s.wakes := rfl
@[simp] theorem State.setSlot_pwrWait (s : State) (c : Nat) (v : Slot) : (s.setSlot c v).pwrWait = s.pwrWait := rfl
@[simp] theorem State.setSlot_kvUsed (s : State) (c : Nat) (v : Slot) : (s.setSlot c v).kvUsed = s.kvUsed := rfl
@[simp] theorem State.setSlot_boot (s : State) (c : Nat) (v : Slot) : (s.setSlot c v).boot = s.boot := rfl
@[simp] theorem State.setSlot_snapshots (s : State) (c : Nat) (v : Slot) : (s.setSlot c v).snapshots = s.snapshots := rfl

/-! ### State.setCtx -/

@[simp] theorem State.setCtx_now (s : State) (c : Nat) (v : Ctx) : (s.setCtx c v).now = s.now := rfl
@[simp] theorem State.setCtx_cur (s : State) (c : Nat) (v : Ctx) : (s.setCtx c v).cur = s.cur := rfl
@[simp] theorem State.setCtx_curMu (s : State) (c : Nat) (v : Ctx) : (s.setCtx c v).curMu = s.curMu := rfl
@[simp] theorem State.setCtx_todo (s : State) (c : Nat) (v : Ctx) : (s.setCtx c v).todo = s.todo := rfl
@[simp] theorem State.setCtx_events (s : State) (c : Nat) (v : Ctx) : (s.setCtx c v).events = s.events := rfl
@[simp] theorem State.setCtx_freeCtr (s : State) (c : Nat) (v : Ctx) : (s.setCtx c v).freeCtr = s.freeCtr := rfl
@[simp] theorem State.setCtx_oracle (s : State) (c : Nat) (v : Ctx) : (s.setCtx c v).oracle = s.oracle := rfl
@[simp] theorem State.setCtx_tagCtr (s : State) (c : Nat) (v : Ctx) : (s.setCtx c v).tagCtr = s.tagCtr := rfl
@[simp] theorem State.setCtx_mem (s : State) (c : Nat) (v : Ctx) : (s.setCtx c v).mem = s.mem := rfl
@[simp] theorem State.setCtx_full (s : State) (c : Nat) (v : Ctx) : (s.setCtx c v).full = s.full := rfl
@[simp] theorem State.setCtx_ecc (s : State) (c : Nat) (v : Ctx) : (s.setCtx c v).ecc = s.ecc := rfl
@[simp] theorem State.setCtx_feWait (s : State) (c : Nat) (v : Ctx) : (s.setCtx c v).feWait = s.feWait := rfl
@[simp] theorem State.setCtx_barriers (s : State) (c : Nat) (v : Ctx) : (s.setCtx c v).barriers = s.barriers := rfl
@[simp] theorem State.setCtx_outbox (s : State) (c : Nat) (v : Ctx) : (s.setCtx c v).outbox = s.outbox := rfl
@[simp] theorem State.setCtx_cores (s : State) (c : Nat) (v : Ctx) : (s.setCtx c v).cores = s.cores := rfl
@[simp] theorem State.setCtx_clusters (s : State) (c : Nat) (v : Ctx) : (s.setCtx c v).clusters = s.clusters := rfl
@[simp] theorem State.setCtx_mus (s : State) (c : Nat) (v : Ctx) : (s.setCtx c v).mus = s.mus := rfl
@[simp] theorem State.setCtx_dies (s : State) (c : Nat) (v : Ctx) : (s.setCtx c v).dies = s.dies := rfl
@[simp] theorem State.setCtx_sqTable (s : State) (c : Nat) (v : Ctx) : (s.setCtx c v).sqTable = s.sqTable := rfl
@[simp] theorem State.setCtx_kvTable (s : State) (c : Nat) (v : Ctx) : (s.setCtx c v).kvTable = s.kvTable := rfl
@[simp] theorem State.setCtx_kvShape (s : State) (c : Nat) (v : Ctx) : (s.setCtx c v).kvShape = s.kvShape := rfl
@[simp] theorem State.setCtx_kvCtl (s : State) (c : Nat) (v : Ctx) : (s.setCtx c v).kvCtl = s.kvCtl := rfl
@[simp] theorem State.setCtx_childCnt (s : State) (c : Nat) (v : Ctx) : (s.setCtx c v).childCnt = s.childCnt := rfl
@[simp] theorem State.setCtx_moves (s : State) (c : Nat) (v : Ctx) : (s.setCtx c v).moves = s.moves := rfl
@[simp] theorem State.setCtx_kvReqs (s : State) (c : Nat) (v : Ctx) : (s.setCtx c v).kvReqs = s.kvReqs := rfl
@[simp] theorem State.setCtx_kvWait (s : State) (c : Nat) (v : Ctx) : (s.setCtx c v).kvWait = s.kvWait := rfl
@[simp] theorem State.setCtx_invWait (s : State) (c : Nat) (v : Ctx) : (s.setCtx c v).invWait = s.invWait := rfl
@[simp] theorem State.setCtx_fabExport (s : State) (c : Nat) (v : Ctx) : (s.setCtx c v).fabExport = s.fabExport := rfl
@[simp] theorem State.setCtx_fabPool (s : State) (c : Nat) (v : Ctx) : (s.setCtx c v).fabPool = s.fabPool := rfl
@[simp] theorem State.setCtx_fabResv (s : State) (c : Nat) (v : Ctx) : (s.setCtx c v).fabResv = s.fabResv := rfl
@[simp] theorem State.setCtx_fabRefc (s : State) (c : Nat) (v : Ctx) : (s.setCtx c v).fabRefc = s.fabRefc := rfl
@[simp] theorem State.setCtx_fabAuthf (s : State) (c : Nat) (v : Ctx) : (s.setCtx c v).fabAuthf = s.fabAuthf := rfl
@[simp] theorem State.setCtx_fabLastr (s : State) (c : Nat) (v : Ctx) : (s.setCtx c v).fabLastr = s.fabLastr := rfl
@[simp] theorem State.setCtx_fabFlits (s : State) (c : Nat) (v : Ctx) : (s.setCtx c v).fabFlits = s.fabFlits := rfl
@[simp] theorem State.setCtx_keys (s : State) (c : Nat) (v : Ctx) : (s.setCtx c v).keys = s.keys := rfl
@[simp] theorem State.setCtx_windows (s : State) (c : Nat) (v : Ctx) : (s.setCtx c v).windows = s.windows := rfl
@[simp] theorem State.setCtx_pwrIsl (s : State) (c : Nat) (v : Ctx) : (s.setCtx c v).pwrIsl = s.pwrIsl := rfl
@[simp] theorem State.setCtx_pwrStep (s : State) (c : Nat) (v : Ctx) : (s.setCtx c v).pwrStep = s.pwrStep := rfl
@[simp] theorem State.setCtx_pwrLimit (s : State) (c : Nat) (v : Ctx) : (s.setCtx c v).pwrLimit = s.pwrLimit := rfl
@[simp] theorem State.setCtx_pwrWatts (s : State) (c : Nat) (v : Ctx) : (s.setCtx c v).pwrWatts = s.pwrWatts := rfl
@[simp] theorem State.setCtx_pwrThrot (s : State) (c : Nat) (v : Ctx) : (s.setCtx c v).pwrThrot = s.pwrThrot := rfl
@[simp] theorem State.setCtx_pkgLost (s : State) (c : Nat) (v : Ctx) : (s.setCtx c v).pkgLost = s.pkgLost := rfl
@[simp] theorem State.setCtx_nic (s : State) (c : Nat) (v : Ctx) : (s.setCtx c v).nic = s.nic := rfl
@[simp] theorem State.setCtx_exports (s : State) (c : Nat) (v : Ctx) : (s.setCtx c v).exports = s.exports := rfl
@[simp] theorem State.setCtx_hostOut (s : State) (c : Nat) (v : Ctx) : (s.setCtx c v).hostOut = s.hostOut := rfl
@[simp] theorem State.setCtx_wakes (s : State) (c : Nat) (v : Ctx) : (s.setCtx c v).wakes = s.wakes := rfl
@[simp] theorem State.setCtx_pwrWait (s : State) (c : Nat) (v : Ctx) : (s.setCtx c v).pwrWait = s.pwrWait := rfl
@[simp] theorem State.setCtx_kvUsed (s : State) (c : Nat) (v : Ctx) : (s.setCtx c v).kvUsed = s.kvUsed := rfl
@[simp] theorem State.setCtx_boot (s : State) (c : Nat) (v : Ctx) : (s.setCtx c v).boot = s.boot := rfl
@[simp] theorem State.setCtx_snapshots (s : State) (c : Nat) (v : Ctx) : (s.setCtx c v).snapshots = s.snapshots := rfl

/-! ### State.setMe -/

@[simp] theorem State.setMe_now (s : State) (v : Ctx) : (s.setMe v).now = s.now := rfl
@[simp] theorem State.setMe_cur (s : State) (v : Ctx) : (s.setMe v).cur = s.cur := rfl
@[simp] theorem State.setMe_curMu (s : State) (v : Ctx) : (s.setMe v).curMu = s.curMu := rfl
@[simp] theorem State.setMe_todo (s : State) (v : Ctx) : (s.setMe v).todo = s.todo := rfl
@[simp] theorem State.setMe_events (s : State) (v : Ctx) : (s.setMe v).events = s.events := rfl
@[simp] theorem State.setMe_freeCtr (s : State) (v : Ctx) : (s.setMe v).freeCtr = s.freeCtr := rfl
@[simp] theorem State.setMe_oracle (s : State) (v : Ctx) : (s.setMe v).oracle = s.oracle := rfl
@[simp] theorem State.setMe_tagCtr (s : State) (v : Ctx) : (s.setMe v).tagCtr = s.tagCtr := rfl
@[simp] theorem State.setMe_mem (s : State) (v : Ctx) : (s.setMe v).mem = s.mem := rfl
@[simp] theorem State.setMe_full (s : State) (v : Ctx) : (s.setMe v).full = s.full := rfl
@[simp] theorem State.setMe_ecc (s : State) (v : Ctx) : (s.setMe v).ecc = s.ecc := rfl
@[simp] theorem State.setMe_feWait (s : State) (v : Ctx) : (s.setMe v).feWait = s.feWait := rfl
@[simp] theorem State.setMe_barriers (s : State) (v : Ctx) : (s.setMe v).barriers = s.barriers := rfl
@[simp] theorem State.setMe_outbox (s : State) (v : Ctx) : (s.setMe v).outbox = s.outbox := rfl
@[simp] theorem State.setMe_cores (s : State) (v : Ctx) : (s.setMe v).cores = s.cores := rfl
@[simp] theorem State.setMe_clusters (s : State) (v : Ctx) : (s.setMe v).clusters = s.clusters := rfl
@[simp] theorem State.setMe_mus (s : State) (v : Ctx) : (s.setMe v).mus = s.mus := rfl
@[simp] theorem State.setMe_dies (s : State) (v : Ctx) : (s.setMe v).dies = s.dies := rfl
@[simp] theorem State.setMe_sqTable (s : State) (v : Ctx) : (s.setMe v).sqTable = s.sqTable := rfl
@[simp] theorem State.setMe_kvTable (s : State) (v : Ctx) : (s.setMe v).kvTable = s.kvTable := rfl
@[simp] theorem State.setMe_kvShape (s : State) (v : Ctx) : (s.setMe v).kvShape = s.kvShape := rfl
@[simp] theorem State.setMe_kvCtl (s : State) (v : Ctx) : (s.setMe v).kvCtl = s.kvCtl := rfl
@[simp] theorem State.setMe_childCnt (s : State) (v : Ctx) : (s.setMe v).childCnt = s.childCnt := rfl
@[simp] theorem State.setMe_moves (s : State) (v : Ctx) : (s.setMe v).moves = s.moves := rfl
@[simp] theorem State.setMe_kvReqs (s : State) (v : Ctx) : (s.setMe v).kvReqs = s.kvReqs := rfl
@[simp] theorem State.setMe_kvWait (s : State) (v : Ctx) : (s.setMe v).kvWait = s.kvWait := rfl
@[simp] theorem State.setMe_invWait (s : State) (v : Ctx) : (s.setMe v).invWait = s.invWait := rfl
@[simp] theorem State.setMe_fabExport (s : State) (v : Ctx) : (s.setMe v).fabExport = s.fabExport := rfl
@[simp] theorem State.setMe_fabPool (s : State) (v : Ctx) : (s.setMe v).fabPool = s.fabPool := rfl
@[simp] theorem State.setMe_fabResv (s : State) (v : Ctx) : (s.setMe v).fabResv = s.fabResv := rfl
@[simp] theorem State.setMe_fabRefc (s : State) (v : Ctx) : (s.setMe v).fabRefc = s.fabRefc := rfl
@[simp] theorem State.setMe_fabAuthf (s : State) (v : Ctx) : (s.setMe v).fabAuthf = s.fabAuthf := rfl
@[simp] theorem State.setMe_fabLastr (s : State) (v : Ctx) : (s.setMe v).fabLastr = s.fabLastr := rfl
@[simp] theorem State.setMe_fabFlits (s : State) (v : Ctx) : (s.setMe v).fabFlits = s.fabFlits := rfl
@[simp] theorem State.setMe_keys (s : State) (v : Ctx) : (s.setMe v).keys = s.keys := rfl
@[simp] theorem State.setMe_windows (s : State) (v : Ctx) : (s.setMe v).windows = s.windows := rfl
@[simp] theorem State.setMe_pwrIsl (s : State) (v : Ctx) : (s.setMe v).pwrIsl = s.pwrIsl := rfl
@[simp] theorem State.setMe_pwrStep (s : State) (v : Ctx) : (s.setMe v).pwrStep = s.pwrStep := rfl
@[simp] theorem State.setMe_pwrLimit (s : State) (v : Ctx) : (s.setMe v).pwrLimit = s.pwrLimit := rfl
@[simp] theorem State.setMe_pwrWatts (s : State) (v : Ctx) : (s.setMe v).pwrWatts = s.pwrWatts := rfl
@[simp] theorem State.setMe_pwrThrot (s : State) (v : Ctx) : (s.setMe v).pwrThrot = s.pwrThrot := rfl
@[simp] theorem State.setMe_pkgLost (s : State) (v : Ctx) : (s.setMe v).pkgLost = s.pkgLost := rfl
@[simp] theorem State.setMe_nic (s : State) (v : Ctx) : (s.setMe v).nic = s.nic := rfl
@[simp] theorem State.setMe_exports (s : State) (v : Ctx) : (s.setMe v).exports = s.exports := rfl
@[simp] theorem State.setMe_hostOut (s : State) (v : Ctx) : (s.setMe v).hostOut = s.hostOut := rfl
@[simp] theorem State.setMe_wakes (s : State) (v : Ctx) : (s.setMe v).wakes = s.wakes := rfl
@[simp] theorem State.setMe_pwrWait (s : State) (v : Ctx) : (s.setMe v).pwrWait = s.pwrWait := rfl
@[simp] theorem State.setMe_kvUsed (s : State) (v : Ctx) : (s.setMe v).kvUsed = s.kvUsed := rfl
@[simp] theorem State.setMe_boot (s : State) (v : Ctx) : (s.setMe v).boot = s.boot := rfl
@[simp] theorem State.setMe_snapshots (s : State) (v : Ctx) : (s.setMe v).snapshots = s.snapshots := rfl

/-! ### State.setCore -/

@[simp] theorem State.setCore_now (s : State) (k : Nat) (v : Core) : (s.setCore k v).now = s.now := rfl
@[simp] theorem State.setCore_cur (s : State) (k : Nat) (v : Core) : (s.setCore k v).cur = s.cur := rfl
@[simp] theorem State.setCore_curMu (s : State) (k : Nat) (v : Core) : (s.setCore k v).curMu = s.curMu := rfl
@[simp] theorem State.setCore_todo (s : State) (k : Nat) (v : Core) : (s.setCore k v).todo = s.todo := rfl
@[simp] theorem State.setCore_events (s : State) (k : Nat) (v : Core) : (s.setCore k v).events = s.events := rfl
@[simp] theorem State.setCore_freeCtr (s : State) (k : Nat) (v : Core) : (s.setCore k v).freeCtr = s.freeCtr := rfl
@[simp] theorem State.setCore_oracle (s : State) (k : Nat) (v : Core) : (s.setCore k v).oracle = s.oracle := rfl
@[simp] theorem State.setCore_tagCtr (s : State) (k : Nat) (v : Core) : (s.setCore k v).tagCtr = s.tagCtr := rfl
@[simp] theorem State.setCore_mem (s : State) (k : Nat) (v : Core) : (s.setCore k v).mem = s.mem := rfl
@[simp] theorem State.setCore_full (s : State) (k : Nat) (v : Core) : (s.setCore k v).full = s.full := rfl
@[simp] theorem State.setCore_ecc (s : State) (k : Nat) (v : Core) : (s.setCore k v).ecc = s.ecc := rfl
@[simp] theorem State.setCore_feWait (s : State) (k : Nat) (v : Core) : (s.setCore k v).feWait = s.feWait := rfl
@[simp] theorem State.setCore_barriers (s : State) (k : Nat) (v : Core) : (s.setCore k v).barriers = s.barriers := rfl
@[simp] theorem State.setCore_outbox (s : State) (k : Nat) (v : Core) : (s.setCore k v).outbox = s.outbox := rfl
@[simp] theorem State.setCore_slots (s : State) (k : Nat) (v : Core) : (s.setCore k v).slots = s.slots := rfl
@[simp] theorem State.setCore_clusters (s : State) (k : Nat) (v : Core) : (s.setCore k v).clusters = s.clusters := rfl
@[simp] theorem State.setCore_mus (s : State) (k : Nat) (v : Core) : (s.setCore k v).mus = s.mus := rfl
@[simp] theorem State.setCore_dies (s : State) (k : Nat) (v : Core) : (s.setCore k v).dies = s.dies := rfl
@[simp] theorem State.setCore_sqTable (s : State) (k : Nat) (v : Core) : (s.setCore k v).sqTable = s.sqTable := rfl
@[simp] theorem State.setCore_kvTable (s : State) (k : Nat) (v : Core) : (s.setCore k v).kvTable = s.kvTable := rfl
@[simp] theorem State.setCore_kvShape (s : State) (k : Nat) (v : Core) : (s.setCore k v).kvShape = s.kvShape := rfl
@[simp] theorem State.setCore_kvCtl (s : State) (k : Nat) (v : Core) : (s.setCore k v).kvCtl = s.kvCtl := rfl
@[simp] theorem State.setCore_childCnt (s : State) (k : Nat) (v : Core) : (s.setCore k v).childCnt = s.childCnt := rfl
@[simp] theorem State.setCore_moves (s : State) (k : Nat) (v : Core) : (s.setCore k v).moves = s.moves := rfl
@[simp] theorem State.setCore_kvReqs (s : State) (k : Nat) (v : Core) : (s.setCore k v).kvReqs = s.kvReqs := rfl
@[simp] theorem State.setCore_kvWait (s : State) (k : Nat) (v : Core) : (s.setCore k v).kvWait = s.kvWait := rfl
@[simp] theorem State.setCore_invWait (s : State) (k : Nat) (v : Core) : (s.setCore k v).invWait = s.invWait := rfl
@[simp] theorem State.setCore_fabExport (s : State) (k : Nat) (v : Core) : (s.setCore k v).fabExport = s.fabExport := rfl
@[simp] theorem State.setCore_fabPool (s : State) (k : Nat) (v : Core) : (s.setCore k v).fabPool = s.fabPool := rfl
@[simp] theorem State.setCore_fabResv (s : State) (k : Nat) (v : Core) : (s.setCore k v).fabResv = s.fabResv := rfl
@[simp] theorem State.setCore_fabRefc (s : State) (k : Nat) (v : Core) : (s.setCore k v).fabRefc = s.fabRefc := rfl
@[simp] theorem State.setCore_fabAuthf (s : State) (k : Nat) (v : Core) : (s.setCore k v).fabAuthf = s.fabAuthf := rfl
@[simp] theorem State.setCore_fabLastr (s : State) (k : Nat) (v : Core) : (s.setCore k v).fabLastr = s.fabLastr := rfl
@[simp] theorem State.setCore_fabFlits (s : State) (k : Nat) (v : Core) : (s.setCore k v).fabFlits = s.fabFlits := rfl
@[simp] theorem State.setCore_keys (s : State) (k : Nat) (v : Core) : (s.setCore k v).keys = s.keys := rfl
@[simp] theorem State.setCore_windows (s : State) (k : Nat) (v : Core) : (s.setCore k v).windows = s.windows := rfl
@[simp] theorem State.setCore_pwrIsl (s : State) (k : Nat) (v : Core) : (s.setCore k v).pwrIsl = s.pwrIsl := rfl
@[simp] theorem State.setCore_pwrStep (s : State) (k : Nat) (v : Core) : (s.setCore k v).pwrStep = s.pwrStep := rfl
@[simp] theorem State.setCore_pwrLimit (s : State) (k : Nat) (v : Core) : (s.setCore k v).pwrLimit = s.pwrLimit := rfl
@[simp] theorem State.setCore_pwrWatts (s : State) (k : Nat) (v : Core) : (s.setCore k v).pwrWatts = s.pwrWatts := rfl
@[simp] theorem State.setCore_pwrThrot (s : State) (k : Nat) (v : Core) : (s.setCore k v).pwrThrot = s.pwrThrot := rfl
@[simp] theorem State.setCore_pkgLost (s : State) (k : Nat) (v : Core) : (s.setCore k v).pkgLost = s.pkgLost := rfl
@[simp] theorem State.setCore_nic (s : State) (k : Nat) (v : Core) : (s.setCore k v).nic = s.nic := rfl
@[simp] theorem State.setCore_exports (s : State) (k : Nat) (v : Core) : (s.setCore k v).exports = s.exports := rfl
@[simp] theorem State.setCore_hostOut (s : State) (k : Nat) (v : Core) : (s.setCore k v).hostOut = s.hostOut := rfl
@[simp] theorem State.setCore_wakes (s : State) (k : Nat) (v : Core) : (s.setCore k v).wakes = s.wakes := rfl
@[simp] theorem State.setCore_pwrWait (s : State) (k : Nat) (v : Core) : (s.setCore k v).pwrWait = s.pwrWait := rfl
@[simp] theorem State.setCore_kvUsed (s : State) (k : Nat) (v : Core) : (s.setCore k v).kvUsed = s.kvUsed := rfl
@[simp] theorem State.setCore_boot (s : State) (k : Nat) (v : Core) : (s.setCore k v).boot = s.boot := rfl
@[simp] theorem State.setCore_snapshots (s : State) (k : Nat) (v : Core) : (s.setCore k v).snapshots = s.snapshots := rfl

/-! ### State.setMyCore -/

@[simp] theorem State.setMyCore_now (s : State) (v : Core) : (s.setMyCore v).now = s.now := rfl
@[simp] theorem State.setMyCore_cur (s : State) (v : Core) : (s.setMyCore v).cur = s.cur := rfl
@[simp] theorem State.setMyCore_curMu (s : State) (v : Core) : (s.setMyCore v).curMu = s.curMu := rfl
@[simp] theorem State.setMyCore_todo (s : State) (v : Core) : (s.setMyCore v).todo = s.todo := rfl
@[simp] theorem State.setMyCore_events (s : State) (v : Core) : (s.setMyCore v).events = s.events := rfl
@[simp] theorem State.setMyCore_freeCtr (s : State) (v : Core) : (s.setMyCore v).freeCtr = s.freeCtr := rfl
@[simp] theorem State.setMyCore_oracle (s : State) (v : Core) : (s.setMyCore v).oracle = s.oracle := rfl
@[simp] theorem State.setMyCore_tagCtr (s : State) (v : Core) : (s.setMyCore v).tagCtr = s.tagCtr := rfl
@[simp] theorem State.setMyCore_mem (s : State) (v : Core) : (s.setMyCore v).mem = s.mem := rfl
@[simp] theorem State.setMyCore_full (s : State) (v : Core) : (s.setMyCore v).full = s.full := rfl
@[simp] theorem State.setMyCore_ecc (s : State) (v : Core) : (s.setMyCore v).ecc = s.ecc := rfl
@[simp] theorem State.setMyCore_feWait (s : State) (v : Core) : (s.setMyCore v).feWait = s.feWait := rfl
@[simp] theorem State.setMyCore_barriers (s : State) (v : Core) : (s.setMyCore v).barriers = s.barriers := rfl
@[simp] theorem State.setMyCore_outbox (s : State) (v : Core) : (s.setMyCore v).outbox = s.outbox := rfl
@[simp] theorem State.setMyCore_slots (s : State) (v : Core) : (s.setMyCore v).slots = s.slots := rfl
@[simp] theorem State.setMyCore_clusters (s : State) (v : Core) : (s.setMyCore v).clusters = s.clusters := rfl
@[simp] theorem State.setMyCore_mus (s : State) (v : Core) : (s.setMyCore v).mus = s.mus := rfl
@[simp] theorem State.setMyCore_dies (s : State) (v : Core) : (s.setMyCore v).dies = s.dies := rfl
@[simp] theorem State.setMyCore_sqTable (s : State) (v : Core) : (s.setMyCore v).sqTable = s.sqTable := rfl
@[simp] theorem State.setMyCore_kvTable (s : State) (v : Core) : (s.setMyCore v).kvTable = s.kvTable := rfl
@[simp] theorem State.setMyCore_kvShape (s : State) (v : Core) : (s.setMyCore v).kvShape = s.kvShape := rfl
@[simp] theorem State.setMyCore_kvCtl (s : State) (v : Core) : (s.setMyCore v).kvCtl = s.kvCtl := rfl
@[simp] theorem State.setMyCore_childCnt (s : State) (v : Core) : (s.setMyCore v).childCnt = s.childCnt := rfl
@[simp] theorem State.setMyCore_moves (s : State) (v : Core) : (s.setMyCore v).moves = s.moves := rfl
@[simp] theorem State.setMyCore_kvReqs (s : State) (v : Core) : (s.setMyCore v).kvReqs = s.kvReqs := rfl
@[simp] theorem State.setMyCore_kvWait (s : State) (v : Core) : (s.setMyCore v).kvWait = s.kvWait := rfl
@[simp] theorem State.setMyCore_invWait (s : State) (v : Core) : (s.setMyCore v).invWait = s.invWait := rfl
@[simp] theorem State.setMyCore_fabExport (s : State) (v : Core) : (s.setMyCore v).fabExport = s.fabExport := rfl
@[simp] theorem State.setMyCore_fabPool (s : State) (v : Core) : (s.setMyCore v).fabPool = s.fabPool := rfl
@[simp] theorem State.setMyCore_fabResv (s : State) (v : Core) : (s.setMyCore v).fabResv = s.fabResv := rfl
@[simp] theorem State.setMyCore_fabRefc (s : State) (v : Core) : (s.setMyCore v).fabRefc = s.fabRefc := rfl
@[simp] theorem State.setMyCore_fabAuthf (s : State) (v : Core) : (s.setMyCore v).fabAuthf = s.fabAuthf := rfl
@[simp] theorem State.setMyCore_fabLastr (s : State) (v : Core) : (s.setMyCore v).fabLastr = s.fabLastr := rfl
@[simp] theorem State.setMyCore_fabFlits (s : State) (v : Core) : (s.setMyCore v).fabFlits = s.fabFlits := rfl
@[simp] theorem State.setMyCore_keys (s : State) (v : Core) : (s.setMyCore v).keys = s.keys := rfl
@[simp] theorem State.setMyCore_windows (s : State) (v : Core) : (s.setMyCore v).windows = s.windows := rfl
@[simp] theorem State.setMyCore_pwrIsl (s : State) (v : Core) : (s.setMyCore v).pwrIsl = s.pwrIsl := rfl
@[simp] theorem State.setMyCore_pwrStep (s : State) (v : Core) : (s.setMyCore v).pwrStep = s.pwrStep := rfl
@[simp] theorem State.setMyCore_pwrLimit (s : State) (v : Core) : (s.setMyCore v).pwrLimit = s.pwrLimit := rfl
@[simp] theorem State.setMyCore_pwrWatts (s : State) (v : Core) : (s.setMyCore v).pwrWatts = s.pwrWatts := rfl
@[simp] theorem State.setMyCore_pwrThrot (s : State) (v : Core) : (s.setMyCore v).pwrThrot = s.pwrThrot := rfl
@[simp] theorem State.setMyCore_pkgLost (s : State) (v : Core) : (s.setMyCore v).pkgLost = s.pkgLost := rfl
@[simp] theorem State.setMyCore_nic (s : State) (v : Core) : (s.setMyCore v).nic = s.nic := rfl
@[simp] theorem State.setMyCore_exports (s : State) (v : Core) : (s.setMyCore v).exports = s.exports := rfl
@[simp] theorem State.setMyCore_hostOut (s : State) (v : Core) : (s.setMyCore v).hostOut = s.hostOut := rfl
@[simp] theorem State.setMyCore_wakes (s : State) (v : Core) : (s.setMyCore v).wakes = s.wakes := rfl
@[simp] theorem State.setMyCore_pwrWait (s : State) (v : Core) : (s.setMyCore v).pwrWait = s.pwrWait := rfl
@[simp] theorem State.setMyCore_kvUsed (s : State) (v : Core) : (s.setMyCore v).kvUsed = s.kvUsed := rfl
@[simp] theorem State.setMyCore_boot (s : State) (v : Core) : (s.setMyCore v).boot = s.boot := rfl
@[simp] theorem State.setMyCore_snapshots (s : State) (v : Core) : (s.setMyCore v).snapshots = s.snapshots := rfl

/-! ### State.setCluster -/

@[simp] theorem State.setCluster_now (s : State) (k : Nat) (v : Cluster) : (s.setCluster k v).now = s.now := rfl
@[simp] theorem State.setCluster_cur (s : State) (k : Nat) (v : Cluster) : (s.setCluster k v).cur = s.cur := rfl
@[simp] theorem State.setCluster_curMu (s : State) (k : Nat) (v : Cluster) : (s.setCluster k v).curMu = s.curMu := rfl
@[simp] theorem State.setCluster_todo (s : State) (k : Nat) (v : Cluster) : (s.setCluster k v).todo = s.todo := rfl
@[simp] theorem State.setCluster_events (s : State) (k : Nat) (v : Cluster) : (s.setCluster k v).events = s.events := rfl
@[simp] theorem State.setCluster_freeCtr (s : State) (k : Nat) (v : Cluster) : (s.setCluster k v).freeCtr = s.freeCtr := rfl
@[simp] theorem State.setCluster_oracle (s : State) (k : Nat) (v : Cluster) : (s.setCluster k v).oracle = s.oracle := rfl
@[simp] theorem State.setCluster_tagCtr (s : State) (k : Nat) (v : Cluster) : (s.setCluster k v).tagCtr = s.tagCtr := rfl
@[simp] theorem State.setCluster_mem (s : State) (k : Nat) (v : Cluster) : (s.setCluster k v).mem = s.mem := rfl
@[simp] theorem State.setCluster_full (s : State) (k : Nat) (v : Cluster) : (s.setCluster k v).full = s.full := rfl
@[simp] theorem State.setCluster_ecc (s : State) (k : Nat) (v : Cluster) : (s.setCluster k v).ecc = s.ecc := rfl
@[simp] theorem State.setCluster_feWait (s : State) (k : Nat) (v : Cluster) : (s.setCluster k v).feWait = s.feWait := rfl
@[simp] theorem State.setCluster_barriers (s : State) (k : Nat) (v : Cluster) : (s.setCluster k v).barriers = s.barriers := rfl
@[simp] theorem State.setCluster_outbox (s : State) (k : Nat) (v : Cluster) : (s.setCluster k v).outbox = s.outbox := rfl
@[simp] theorem State.setCluster_slots (s : State) (k : Nat) (v : Cluster) : (s.setCluster k v).slots = s.slots := rfl
@[simp] theorem State.setCluster_cores (s : State) (k : Nat) (v : Cluster) : (s.setCluster k v).cores = s.cores := rfl
@[simp] theorem State.setCluster_mus (s : State) (k : Nat) (v : Cluster) : (s.setCluster k v).mus = s.mus := rfl
@[simp] theorem State.setCluster_dies (s : State) (k : Nat) (v : Cluster) : (s.setCluster k v).dies = s.dies := rfl
@[simp] theorem State.setCluster_sqTable (s : State) (k : Nat) (v : Cluster) : (s.setCluster k v).sqTable = s.sqTable := rfl
@[simp] theorem State.setCluster_kvTable (s : State) (k : Nat) (v : Cluster) : (s.setCluster k v).kvTable = s.kvTable := rfl
@[simp] theorem State.setCluster_kvShape (s : State) (k : Nat) (v : Cluster) : (s.setCluster k v).kvShape = s.kvShape := rfl
@[simp] theorem State.setCluster_kvCtl (s : State) (k : Nat) (v : Cluster) : (s.setCluster k v).kvCtl = s.kvCtl := rfl
@[simp] theorem State.setCluster_childCnt (s : State) (k : Nat) (v : Cluster) : (s.setCluster k v).childCnt = s.childCnt := rfl
@[simp] theorem State.setCluster_moves (s : State) (k : Nat) (v : Cluster) : (s.setCluster k v).moves = s.moves := rfl
@[simp] theorem State.setCluster_kvReqs (s : State) (k : Nat) (v : Cluster) : (s.setCluster k v).kvReqs = s.kvReqs := rfl
@[simp] theorem State.setCluster_kvWait (s : State) (k : Nat) (v : Cluster) : (s.setCluster k v).kvWait = s.kvWait := rfl
@[simp] theorem State.setCluster_invWait (s : State) (k : Nat) (v : Cluster) : (s.setCluster k v).invWait = s.invWait := rfl
@[simp] theorem State.setCluster_fabExport (s : State) (k : Nat) (v : Cluster) : (s.setCluster k v).fabExport = s.fabExport := rfl
@[simp] theorem State.setCluster_fabPool (s : State) (k : Nat) (v : Cluster) : (s.setCluster k v).fabPool = s.fabPool := rfl
@[simp] theorem State.setCluster_fabResv (s : State) (k : Nat) (v : Cluster) : (s.setCluster k v).fabResv = s.fabResv := rfl
@[simp] theorem State.setCluster_fabRefc (s : State) (k : Nat) (v : Cluster) : (s.setCluster k v).fabRefc = s.fabRefc := rfl
@[simp] theorem State.setCluster_fabAuthf (s : State) (k : Nat) (v : Cluster) : (s.setCluster k v).fabAuthf = s.fabAuthf := rfl
@[simp] theorem State.setCluster_fabLastr (s : State) (k : Nat) (v : Cluster) : (s.setCluster k v).fabLastr = s.fabLastr := rfl
@[simp] theorem State.setCluster_fabFlits (s : State) (k : Nat) (v : Cluster) : (s.setCluster k v).fabFlits = s.fabFlits := rfl
@[simp] theorem State.setCluster_keys (s : State) (k : Nat) (v : Cluster) : (s.setCluster k v).keys = s.keys := rfl
@[simp] theorem State.setCluster_windows (s : State) (k : Nat) (v : Cluster) : (s.setCluster k v).windows = s.windows := rfl
@[simp] theorem State.setCluster_pwrIsl (s : State) (k : Nat) (v : Cluster) : (s.setCluster k v).pwrIsl = s.pwrIsl := rfl
@[simp] theorem State.setCluster_pwrStep (s : State) (k : Nat) (v : Cluster) : (s.setCluster k v).pwrStep = s.pwrStep := rfl
@[simp] theorem State.setCluster_pwrLimit (s : State) (k : Nat) (v : Cluster) : (s.setCluster k v).pwrLimit = s.pwrLimit := rfl
@[simp] theorem State.setCluster_pwrWatts (s : State) (k : Nat) (v : Cluster) : (s.setCluster k v).pwrWatts = s.pwrWatts := rfl
@[simp] theorem State.setCluster_pwrThrot (s : State) (k : Nat) (v : Cluster) : (s.setCluster k v).pwrThrot = s.pwrThrot := rfl
@[simp] theorem State.setCluster_pkgLost (s : State) (k : Nat) (v : Cluster) : (s.setCluster k v).pkgLost = s.pkgLost := rfl
@[simp] theorem State.setCluster_nic (s : State) (k : Nat) (v : Cluster) : (s.setCluster k v).nic = s.nic := rfl
@[simp] theorem State.setCluster_exports (s : State) (k : Nat) (v : Cluster) : (s.setCluster k v).exports = s.exports := rfl
@[simp] theorem State.setCluster_hostOut (s : State) (k : Nat) (v : Cluster) : (s.setCluster k v).hostOut = s.hostOut := rfl
@[simp] theorem State.setCluster_wakes (s : State) (k : Nat) (v : Cluster) : (s.setCluster k v).wakes = s.wakes := rfl
@[simp] theorem State.setCluster_pwrWait (s : State) (k : Nat) (v : Cluster) : (s.setCluster k v).pwrWait = s.pwrWait := rfl
@[simp] theorem State.setCluster_kvUsed (s : State) (k : Nat) (v : Cluster) : (s.setCluster k v).kvUsed = s.kvUsed := rfl
@[simp] theorem State.setCluster_boot (s : State) (k : Nat) (v : Cluster) : (s.setCluster k v).boot = s.boot := rfl
@[simp] theorem State.setCluster_snapshots (s : State) (k : Nat) (v : Cluster) : (s.setCluster k v).snapshots = s.snapshots := rfl

/-! ### State.setMu -/

@[simp] theorem State.setMu_now (s : State) (k : Nat) (v : Mu) : (s.setMu k v).now = s.now := rfl
@[simp] theorem State.setMu_cur (s : State) (k : Nat) (v : Mu) : (s.setMu k v).cur = s.cur := rfl
@[simp] theorem State.setMu_curMu (s : State) (k : Nat) (v : Mu) : (s.setMu k v).curMu = s.curMu := rfl
@[simp] theorem State.setMu_todo (s : State) (k : Nat) (v : Mu) : (s.setMu k v).todo = s.todo := rfl
@[simp] theorem State.setMu_events (s : State) (k : Nat) (v : Mu) : (s.setMu k v).events = s.events := rfl
@[simp] theorem State.setMu_freeCtr (s : State) (k : Nat) (v : Mu) : (s.setMu k v).freeCtr = s.freeCtr := rfl
@[simp] theorem State.setMu_oracle (s : State) (k : Nat) (v : Mu) : (s.setMu k v).oracle = s.oracle := rfl
@[simp] theorem State.setMu_tagCtr (s : State) (k : Nat) (v : Mu) : (s.setMu k v).tagCtr = s.tagCtr := rfl
@[simp] theorem State.setMu_mem (s : State) (k : Nat) (v : Mu) : (s.setMu k v).mem = s.mem := rfl
@[simp] theorem State.setMu_full (s : State) (k : Nat) (v : Mu) : (s.setMu k v).full = s.full := rfl
@[simp] theorem State.setMu_ecc (s : State) (k : Nat) (v : Mu) : (s.setMu k v).ecc = s.ecc := rfl
@[simp] theorem State.setMu_feWait (s : State) (k : Nat) (v : Mu) : (s.setMu k v).feWait = s.feWait := rfl
@[simp] theorem State.setMu_barriers (s : State) (k : Nat) (v : Mu) : (s.setMu k v).barriers = s.barriers := rfl
@[simp] theorem State.setMu_outbox (s : State) (k : Nat) (v : Mu) : (s.setMu k v).outbox = s.outbox := rfl
@[simp] theorem State.setMu_slots (s : State) (k : Nat) (v : Mu) : (s.setMu k v).slots = s.slots := rfl
@[simp] theorem State.setMu_cores (s : State) (k : Nat) (v : Mu) : (s.setMu k v).cores = s.cores := rfl
@[simp] theorem State.setMu_clusters (s : State) (k : Nat) (v : Mu) : (s.setMu k v).clusters = s.clusters := rfl
@[simp] theorem State.setMu_dies (s : State) (k : Nat) (v : Mu) : (s.setMu k v).dies = s.dies := rfl
@[simp] theorem State.setMu_sqTable (s : State) (k : Nat) (v : Mu) : (s.setMu k v).sqTable = s.sqTable := rfl
@[simp] theorem State.setMu_kvTable (s : State) (k : Nat) (v : Mu) : (s.setMu k v).kvTable = s.kvTable := rfl
@[simp] theorem State.setMu_kvShape (s : State) (k : Nat) (v : Mu) : (s.setMu k v).kvShape = s.kvShape := rfl
@[simp] theorem State.setMu_kvCtl (s : State) (k : Nat) (v : Mu) : (s.setMu k v).kvCtl = s.kvCtl := rfl
@[simp] theorem State.setMu_childCnt (s : State) (k : Nat) (v : Mu) : (s.setMu k v).childCnt = s.childCnt := rfl
@[simp] theorem State.setMu_moves (s : State) (k : Nat) (v : Mu) : (s.setMu k v).moves = s.moves := rfl
@[simp] theorem State.setMu_kvReqs (s : State) (k : Nat) (v : Mu) : (s.setMu k v).kvReqs = s.kvReqs := rfl
@[simp] theorem State.setMu_kvWait (s : State) (k : Nat) (v : Mu) : (s.setMu k v).kvWait = s.kvWait := rfl
@[simp] theorem State.setMu_invWait (s : State) (k : Nat) (v : Mu) : (s.setMu k v).invWait = s.invWait := rfl
@[simp] theorem State.setMu_fabExport (s : State) (k : Nat) (v : Mu) : (s.setMu k v).fabExport = s.fabExport := rfl
@[simp] theorem State.setMu_fabPool (s : State) (k : Nat) (v : Mu) : (s.setMu k v).fabPool = s.fabPool := rfl
@[simp] theorem State.setMu_fabResv (s : State) (k : Nat) (v : Mu) : (s.setMu k v).fabResv = s.fabResv := rfl
@[simp] theorem State.setMu_fabRefc (s : State) (k : Nat) (v : Mu) : (s.setMu k v).fabRefc = s.fabRefc := rfl
@[simp] theorem State.setMu_fabAuthf (s : State) (k : Nat) (v : Mu) : (s.setMu k v).fabAuthf = s.fabAuthf := rfl
@[simp] theorem State.setMu_fabLastr (s : State) (k : Nat) (v : Mu) : (s.setMu k v).fabLastr = s.fabLastr := rfl
@[simp] theorem State.setMu_fabFlits (s : State) (k : Nat) (v : Mu) : (s.setMu k v).fabFlits = s.fabFlits := rfl
@[simp] theorem State.setMu_keys (s : State) (k : Nat) (v : Mu) : (s.setMu k v).keys = s.keys := rfl
@[simp] theorem State.setMu_windows (s : State) (k : Nat) (v : Mu) : (s.setMu k v).windows = s.windows := rfl
@[simp] theorem State.setMu_pwrIsl (s : State) (k : Nat) (v : Mu) : (s.setMu k v).pwrIsl = s.pwrIsl := rfl
@[simp] theorem State.setMu_pwrStep (s : State) (k : Nat) (v : Mu) : (s.setMu k v).pwrStep = s.pwrStep := rfl
@[simp] theorem State.setMu_pwrLimit (s : State) (k : Nat) (v : Mu) : (s.setMu k v).pwrLimit = s.pwrLimit := rfl
@[simp] theorem State.setMu_pwrWatts (s : State) (k : Nat) (v : Mu) : (s.setMu k v).pwrWatts = s.pwrWatts := rfl
@[simp] theorem State.setMu_pwrThrot (s : State) (k : Nat) (v : Mu) : (s.setMu k v).pwrThrot = s.pwrThrot := rfl
@[simp] theorem State.setMu_pkgLost (s : State) (k : Nat) (v : Mu) : (s.setMu k v).pkgLost = s.pkgLost := rfl
@[simp] theorem State.setMu_nic (s : State) (k : Nat) (v : Mu) : (s.setMu k v).nic = s.nic := rfl
@[simp] theorem State.setMu_exports (s : State) (k : Nat) (v : Mu) : (s.setMu k v).exports = s.exports := rfl
@[simp] theorem State.setMu_hostOut (s : State) (k : Nat) (v : Mu) : (s.setMu k v).hostOut = s.hostOut := rfl
@[simp] theorem State.setMu_wakes (s : State) (k : Nat) (v : Mu) : (s.setMu k v).wakes = s.wakes := rfl
@[simp] theorem State.setMu_pwrWait (s : State) (k : Nat) (v : Mu) : (s.setMu k v).pwrWait = s.pwrWait := rfl
@[simp] theorem State.setMu_kvUsed (s : State) (k : Nat) (v : Mu) : (s.setMu k v).kvUsed = s.kvUsed := rfl
@[simp] theorem State.setMu_boot (s : State) (k : Nat) (v : Mu) : (s.setMu k v).boot = s.boot := rfl
@[simp] theorem State.setMu_snapshots (s : State) (k : Nat) (v : Mu) : (s.setMu k v).snapshots = s.snapshots := rfl

/-! ### State.setDie -/

@[simp] theorem State.setDie_now (s : State) (k : Nat) (v : Die) : (s.setDie k v).now = s.now := rfl
@[simp] theorem State.setDie_cur (s : State) (k : Nat) (v : Die) : (s.setDie k v).cur = s.cur := rfl
@[simp] theorem State.setDie_curMu (s : State) (k : Nat) (v : Die) : (s.setDie k v).curMu = s.curMu := rfl
@[simp] theorem State.setDie_todo (s : State) (k : Nat) (v : Die) : (s.setDie k v).todo = s.todo := rfl
@[simp] theorem State.setDie_events (s : State) (k : Nat) (v : Die) : (s.setDie k v).events = s.events := rfl
@[simp] theorem State.setDie_freeCtr (s : State) (k : Nat) (v : Die) : (s.setDie k v).freeCtr = s.freeCtr := rfl
@[simp] theorem State.setDie_oracle (s : State) (k : Nat) (v : Die) : (s.setDie k v).oracle = s.oracle := rfl
@[simp] theorem State.setDie_tagCtr (s : State) (k : Nat) (v : Die) : (s.setDie k v).tagCtr = s.tagCtr := rfl
@[simp] theorem State.setDie_mem (s : State) (k : Nat) (v : Die) : (s.setDie k v).mem = s.mem := rfl
@[simp] theorem State.setDie_full (s : State) (k : Nat) (v : Die) : (s.setDie k v).full = s.full := rfl
@[simp] theorem State.setDie_ecc (s : State) (k : Nat) (v : Die) : (s.setDie k v).ecc = s.ecc := rfl
@[simp] theorem State.setDie_feWait (s : State) (k : Nat) (v : Die) : (s.setDie k v).feWait = s.feWait := rfl
@[simp] theorem State.setDie_barriers (s : State) (k : Nat) (v : Die) : (s.setDie k v).barriers = s.barriers := rfl
@[simp] theorem State.setDie_outbox (s : State) (k : Nat) (v : Die) : (s.setDie k v).outbox = s.outbox := rfl
@[simp] theorem State.setDie_slots (s : State) (k : Nat) (v : Die) : (s.setDie k v).slots = s.slots := rfl
@[simp] theorem State.setDie_cores (s : State) (k : Nat) (v : Die) : (s.setDie k v).cores = s.cores := rfl
@[simp] theorem State.setDie_clusters (s : State) (k : Nat) (v : Die) : (s.setDie k v).clusters = s.clusters := rfl
@[simp] theorem State.setDie_mus (s : State) (k : Nat) (v : Die) : (s.setDie k v).mus = s.mus := rfl
@[simp] theorem State.setDie_sqTable (s : State) (k : Nat) (v : Die) : (s.setDie k v).sqTable = s.sqTable := rfl
@[simp] theorem State.setDie_kvTable (s : State) (k : Nat) (v : Die) : (s.setDie k v).kvTable = s.kvTable := rfl
@[simp] theorem State.setDie_kvShape (s : State) (k : Nat) (v : Die) : (s.setDie k v).kvShape = s.kvShape := rfl
@[simp] theorem State.setDie_kvCtl (s : State) (k : Nat) (v : Die) : (s.setDie k v).kvCtl = s.kvCtl := rfl
@[simp] theorem State.setDie_childCnt (s : State) (k : Nat) (v : Die) : (s.setDie k v).childCnt = s.childCnt := rfl
@[simp] theorem State.setDie_moves (s : State) (k : Nat) (v : Die) : (s.setDie k v).moves = s.moves := rfl
@[simp] theorem State.setDie_kvReqs (s : State) (k : Nat) (v : Die) : (s.setDie k v).kvReqs = s.kvReqs := rfl
@[simp] theorem State.setDie_kvWait (s : State) (k : Nat) (v : Die) : (s.setDie k v).kvWait = s.kvWait := rfl
@[simp] theorem State.setDie_invWait (s : State) (k : Nat) (v : Die) : (s.setDie k v).invWait = s.invWait := rfl
@[simp] theorem State.setDie_fabExport (s : State) (k : Nat) (v : Die) : (s.setDie k v).fabExport = s.fabExport := rfl
@[simp] theorem State.setDie_fabPool (s : State) (k : Nat) (v : Die) : (s.setDie k v).fabPool = s.fabPool := rfl
@[simp] theorem State.setDie_fabResv (s : State) (k : Nat) (v : Die) : (s.setDie k v).fabResv = s.fabResv := rfl
@[simp] theorem State.setDie_fabRefc (s : State) (k : Nat) (v : Die) : (s.setDie k v).fabRefc = s.fabRefc := rfl
@[simp] theorem State.setDie_fabAuthf (s : State) (k : Nat) (v : Die) : (s.setDie k v).fabAuthf = s.fabAuthf := rfl
@[simp] theorem State.setDie_fabLastr (s : State) (k : Nat) (v : Die) : (s.setDie k v).fabLastr = s.fabLastr := rfl
@[simp] theorem State.setDie_fabFlits (s : State) (k : Nat) (v : Die) : (s.setDie k v).fabFlits = s.fabFlits := rfl
@[simp] theorem State.setDie_keys (s : State) (k : Nat) (v : Die) : (s.setDie k v).keys = s.keys := rfl
@[simp] theorem State.setDie_windows (s : State) (k : Nat) (v : Die) : (s.setDie k v).windows = s.windows := rfl
@[simp] theorem State.setDie_pwrIsl (s : State) (k : Nat) (v : Die) : (s.setDie k v).pwrIsl = s.pwrIsl := rfl
@[simp] theorem State.setDie_pwrStep (s : State) (k : Nat) (v : Die) : (s.setDie k v).pwrStep = s.pwrStep := rfl
@[simp] theorem State.setDie_pwrLimit (s : State) (k : Nat) (v : Die) : (s.setDie k v).pwrLimit = s.pwrLimit := rfl
@[simp] theorem State.setDie_pwrWatts (s : State) (k : Nat) (v : Die) : (s.setDie k v).pwrWatts = s.pwrWatts := rfl
@[simp] theorem State.setDie_pwrThrot (s : State) (k : Nat) (v : Die) : (s.setDie k v).pwrThrot = s.pwrThrot := rfl
@[simp] theorem State.setDie_pkgLost (s : State) (k : Nat) (v : Die) : (s.setDie k v).pkgLost = s.pkgLost := rfl
@[simp] theorem State.setDie_nic (s : State) (k : Nat) (v : Die) : (s.setDie k v).nic = s.nic := rfl
@[simp] theorem State.setDie_exports (s : State) (k : Nat) (v : Die) : (s.setDie k v).exports = s.exports := rfl
@[simp] theorem State.setDie_hostOut (s : State) (k : Nat) (v : Die) : (s.setDie k v).hostOut = s.hostOut := rfl
@[simp] theorem State.setDie_wakes (s : State) (k : Nat) (v : Die) : (s.setDie k v).wakes = s.wakes := rfl
@[simp] theorem State.setDie_pwrWait (s : State) (k : Nat) (v : Die) : (s.setDie k v).pwrWait = s.pwrWait := rfl
@[simp] theorem State.setDie_kvUsed (s : State) (k : Nat) (v : Die) : (s.setDie k v).kvUsed = s.kvUsed := rfl
@[simp] theorem State.setDie_boot (s : State) (k : Nat) (v : Die) : (s.setDie k v).boot = s.boot := rfl
@[simp] theorem State.setDie_snapshots (s : State) (k : Nat) (v : Die) : (s.setDie k v).snapshots = s.snapshots := rfl

/-! ### State.setMem -/

@[simp] theorem State.setMem_now (s : State) (m : List Host.Cell) : (s.setMem m).now = s.now := rfl
@[simp] theorem State.setMem_cur (s : State) (m : List Host.Cell) : (s.setMem m).cur = s.cur := rfl
@[simp] theorem State.setMem_curMu (s : State) (m : List Host.Cell) : (s.setMem m).curMu = s.curMu := rfl
@[simp] theorem State.setMem_todo (s : State) (m : List Host.Cell) : (s.setMem m).todo = s.todo := rfl
@[simp] theorem State.setMem_events (s : State) (m : List Host.Cell) : (s.setMem m).events = s.events := rfl
@[simp] theorem State.setMem_freeCtr (s : State) (m : List Host.Cell) : (s.setMem m).freeCtr = s.freeCtr := rfl
@[simp] theorem State.setMem_oracle (s : State) (m : List Host.Cell) : (s.setMem m).oracle = s.oracle := rfl
@[simp] theorem State.setMem_tagCtr (s : State) (m : List Host.Cell) : (s.setMem m).tagCtr = s.tagCtr := rfl
@[simp] theorem State.setMem_full (s : State) (m : List Host.Cell) : (s.setMem m).full = s.full := rfl
@[simp] theorem State.setMem_ecc (s : State) (m : List Host.Cell) : (s.setMem m).ecc = s.ecc := rfl
@[simp] theorem State.setMem_feWait (s : State) (m : List Host.Cell) : (s.setMem m).feWait = s.feWait := rfl
@[simp] theorem State.setMem_barriers (s : State) (m : List Host.Cell) : (s.setMem m).barriers = s.barriers := rfl
@[simp] theorem State.setMem_outbox (s : State) (m : List Host.Cell) : (s.setMem m).outbox = s.outbox := rfl
@[simp] theorem State.setMem_slots (s : State) (m : List Host.Cell) : (s.setMem m).slots = s.slots := rfl
@[simp] theorem State.setMem_cores (s : State) (m : List Host.Cell) : (s.setMem m).cores = s.cores := rfl
@[simp] theorem State.setMem_clusters (s : State) (m : List Host.Cell) : (s.setMem m).clusters = s.clusters := rfl
@[simp] theorem State.setMem_mus (s : State) (m : List Host.Cell) : (s.setMem m).mus = s.mus := rfl
@[simp] theorem State.setMem_dies (s : State) (m : List Host.Cell) : (s.setMem m).dies = s.dies := rfl
@[simp] theorem State.setMem_sqTable (s : State) (m : List Host.Cell) : (s.setMem m).sqTable = s.sqTable := rfl
@[simp] theorem State.setMem_kvTable (s : State) (m : List Host.Cell) : (s.setMem m).kvTable = s.kvTable := rfl
@[simp] theorem State.setMem_kvShape (s : State) (m : List Host.Cell) : (s.setMem m).kvShape = s.kvShape := rfl
@[simp] theorem State.setMem_kvCtl (s : State) (m : List Host.Cell) : (s.setMem m).kvCtl = s.kvCtl := rfl
@[simp] theorem State.setMem_childCnt (s : State) (m : List Host.Cell) : (s.setMem m).childCnt = s.childCnt := rfl
@[simp] theorem State.setMem_moves (s : State) (m : List Host.Cell) : (s.setMem m).moves = s.moves := rfl
@[simp] theorem State.setMem_kvReqs (s : State) (m : List Host.Cell) : (s.setMem m).kvReqs = s.kvReqs := rfl
@[simp] theorem State.setMem_kvWait (s : State) (m : List Host.Cell) : (s.setMem m).kvWait = s.kvWait := rfl
@[simp] theorem State.setMem_invWait (s : State) (m : List Host.Cell) : (s.setMem m).invWait = s.invWait := rfl
@[simp] theorem State.setMem_fabExport (s : State) (m : List Host.Cell) : (s.setMem m).fabExport = s.fabExport := rfl
@[simp] theorem State.setMem_fabPool (s : State) (m : List Host.Cell) : (s.setMem m).fabPool = s.fabPool := rfl
@[simp] theorem State.setMem_fabResv (s : State) (m : List Host.Cell) : (s.setMem m).fabResv = s.fabResv := rfl
@[simp] theorem State.setMem_fabRefc (s : State) (m : List Host.Cell) : (s.setMem m).fabRefc = s.fabRefc := rfl
@[simp] theorem State.setMem_fabAuthf (s : State) (m : List Host.Cell) : (s.setMem m).fabAuthf = s.fabAuthf := rfl
@[simp] theorem State.setMem_fabLastr (s : State) (m : List Host.Cell) : (s.setMem m).fabLastr = s.fabLastr := rfl
@[simp] theorem State.setMem_fabFlits (s : State) (m : List Host.Cell) : (s.setMem m).fabFlits = s.fabFlits := rfl
@[simp] theorem State.setMem_keys (s : State) (m : List Host.Cell) : (s.setMem m).keys = s.keys := rfl
@[simp] theorem State.setMem_windows (s : State) (m : List Host.Cell) : (s.setMem m).windows = s.windows := rfl
@[simp] theorem State.setMem_pwrIsl (s : State) (m : List Host.Cell) : (s.setMem m).pwrIsl = s.pwrIsl := rfl
@[simp] theorem State.setMem_pwrStep (s : State) (m : List Host.Cell) : (s.setMem m).pwrStep = s.pwrStep := rfl
@[simp] theorem State.setMem_pwrLimit (s : State) (m : List Host.Cell) : (s.setMem m).pwrLimit = s.pwrLimit := rfl
@[simp] theorem State.setMem_pwrWatts (s : State) (m : List Host.Cell) : (s.setMem m).pwrWatts = s.pwrWatts := rfl
@[simp] theorem State.setMem_pwrThrot (s : State) (m : List Host.Cell) : (s.setMem m).pwrThrot = s.pwrThrot := rfl
@[simp] theorem State.setMem_pkgLost (s : State) (m : List Host.Cell) : (s.setMem m).pkgLost = s.pkgLost := rfl
@[simp] theorem State.setMem_nic (s : State) (m : List Host.Cell) : (s.setMem m).nic = s.nic := rfl
@[simp] theorem State.setMem_exports (s : State) (m : List Host.Cell) : (s.setMem m).exports = s.exports := rfl
@[simp] theorem State.setMem_hostOut (s : State) (m : List Host.Cell) : (s.setMem m).hostOut = s.hostOut := rfl
@[simp] theorem State.setMem_wakes (s : State) (m : List Host.Cell) : (s.setMem m).wakes = s.wakes := rfl
@[simp] theorem State.setMem_pwrWait (s : State) (m : List Host.Cell) : (s.setMem m).pwrWait = s.pwrWait := rfl
@[simp] theorem State.setMem_kvUsed (s : State) (m : List Host.Cell) : (s.setMem m).kvUsed = s.kvUsed := rfl
@[simp] theorem State.setMem_boot (s : State) (m : List Host.Cell) : (s.setMem m).boot = s.boot := rfl
@[simp] theorem State.setMem_snapshots (s : State) (m : List Host.Cell) : (s.setMem m).snapshots = s.snapshots := rfl

/-! ### State.setFull -/

@[simp] theorem State.setFull_now (s : State) (w : Nat) (v : Bool) : (s.setFull w v).now = s.now := rfl
@[simp] theorem State.setFull_cur (s : State) (w : Nat) (v : Bool) : (s.setFull w v).cur = s.cur := rfl
@[simp] theorem State.setFull_curMu (s : State) (w : Nat) (v : Bool) : (s.setFull w v).curMu = s.curMu := rfl
@[simp] theorem State.setFull_todo (s : State) (w : Nat) (v : Bool) : (s.setFull w v).todo = s.todo := rfl
@[simp] theorem State.setFull_events (s : State) (w : Nat) (v : Bool) : (s.setFull w v).events = s.events := rfl
@[simp] theorem State.setFull_freeCtr (s : State) (w : Nat) (v : Bool) : (s.setFull w v).freeCtr = s.freeCtr := rfl
@[simp] theorem State.setFull_oracle (s : State) (w : Nat) (v : Bool) : (s.setFull w v).oracle = s.oracle := rfl
@[simp] theorem State.setFull_tagCtr (s : State) (w : Nat) (v : Bool) : (s.setFull w v).tagCtr = s.tagCtr := rfl
@[simp] theorem State.setFull_mem (s : State) (w : Nat) (v : Bool) : (s.setFull w v).mem = s.mem := rfl
@[simp] theorem State.setFull_ecc (s : State) (w : Nat) (v : Bool) : (s.setFull w v).ecc = s.ecc := rfl
@[simp] theorem State.setFull_feWait (s : State) (w : Nat) (v : Bool) : (s.setFull w v).feWait = s.feWait := rfl
@[simp] theorem State.setFull_barriers (s : State) (w : Nat) (v : Bool) : (s.setFull w v).barriers = s.barriers := rfl
@[simp] theorem State.setFull_outbox (s : State) (w : Nat) (v : Bool) : (s.setFull w v).outbox = s.outbox := rfl
@[simp] theorem State.setFull_slots (s : State) (w : Nat) (v : Bool) : (s.setFull w v).slots = s.slots := rfl
@[simp] theorem State.setFull_cores (s : State) (w : Nat) (v : Bool) : (s.setFull w v).cores = s.cores := rfl
@[simp] theorem State.setFull_clusters (s : State) (w : Nat) (v : Bool) : (s.setFull w v).clusters = s.clusters := rfl
@[simp] theorem State.setFull_mus (s : State) (w : Nat) (v : Bool) : (s.setFull w v).mus = s.mus := rfl
@[simp] theorem State.setFull_dies (s : State) (w : Nat) (v : Bool) : (s.setFull w v).dies = s.dies := rfl
@[simp] theorem State.setFull_sqTable (s : State) (w : Nat) (v : Bool) : (s.setFull w v).sqTable = s.sqTable := rfl
@[simp] theorem State.setFull_kvTable (s : State) (w : Nat) (v : Bool) : (s.setFull w v).kvTable = s.kvTable := rfl
@[simp] theorem State.setFull_kvShape (s : State) (w : Nat) (v : Bool) : (s.setFull w v).kvShape = s.kvShape := rfl
@[simp] theorem State.setFull_kvCtl (s : State) (w : Nat) (v : Bool) : (s.setFull w v).kvCtl = s.kvCtl := rfl
@[simp] theorem State.setFull_childCnt (s : State) (w : Nat) (v : Bool) : (s.setFull w v).childCnt = s.childCnt := rfl
@[simp] theorem State.setFull_moves (s : State) (w : Nat) (v : Bool) : (s.setFull w v).moves = s.moves := rfl
@[simp] theorem State.setFull_kvReqs (s : State) (w : Nat) (v : Bool) : (s.setFull w v).kvReqs = s.kvReqs := rfl
@[simp] theorem State.setFull_kvWait (s : State) (w : Nat) (v : Bool) : (s.setFull w v).kvWait = s.kvWait := rfl
@[simp] theorem State.setFull_invWait (s : State) (w : Nat) (v : Bool) : (s.setFull w v).invWait = s.invWait := rfl
@[simp] theorem State.setFull_fabExport (s : State) (w : Nat) (v : Bool) : (s.setFull w v).fabExport = s.fabExport := rfl
@[simp] theorem State.setFull_fabPool (s : State) (w : Nat) (v : Bool) : (s.setFull w v).fabPool = s.fabPool := rfl
@[simp] theorem State.setFull_fabResv (s : State) (w : Nat) (v : Bool) : (s.setFull w v).fabResv = s.fabResv := rfl
@[simp] theorem State.setFull_fabRefc (s : State) (w : Nat) (v : Bool) : (s.setFull w v).fabRefc = s.fabRefc := rfl
@[simp] theorem State.setFull_fabAuthf (s : State) (w : Nat) (v : Bool) : (s.setFull w v).fabAuthf = s.fabAuthf := rfl
@[simp] theorem State.setFull_fabLastr (s : State) (w : Nat) (v : Bool) : (s.setFull w v).fabLastr = s.fabLastr := rfl
@[simp] theorem State.setFull_fabFlits (s : State) (w : Nat) (v : Bool) : (s.setFull w v).fabFlits = s.fabFlits := rfl
@[simp] theorem State.setFull_keys (s : State) (w : Nat) (v : Bool) : (s.setFull w v).keys = s.keys := rfl
@[simp] theorem State.setFull_windows (s : State) (w : Nat) (v : Bool) : (s.setFull w v).windows = s.windows := rfl
@[simp] theorem State.setFull_pwrIsl (s : State) (w : Nat) (v : Bool) : (s.setFull w v).pwrIsl = s.pwrIsl := rfl
@[simp] theorem State.setFull_pwrStep (s : State) (w : Nat) (v : Bool) : (s.setFull w v).pwrStep = s.pwrStep := rfl
@[simp] theorem State.setFull_pwrLimit (s : State) (w : Nat) (v : Bool) : (s.setFull w v).pwrLimit = s.pwrLimit := rfl
@[simp] theorem State.setFull_pwrWatts (s : State) (w : Nat) (v : Bool) : (s.setFull w v).pwrWatts = s.pwrWatts := rfl
@[simp] theorem State.setFull_pwrThrot (s : State) (w : Nat) (v : Bool) : (s.setFull w v).pwrThrot = s.pwrThrot := rfl
@[simp] theorem State.setFull_pkgLost (s : State) (w : Nat) (v : Bool) : (s.setFull w v).pkgLost = s.pkgLost := rfl
@[simp] theorem State.setFull_nic (s : State) (w : Nat) (v : Bool) : (s.setFull w v).nic = s.nic := rfl
@[simp] theorem State.setFull_exports (s : State) (w : Nat) (v : Bool) : (s.setFull w v).exports = s.exports := rfl
@[simp] theorem State.setFull_hostOut (s : State) (w : Nat) (v : Bool) : (s.setFull w v).hostOut = s.hostOut := rfl
@[simp] theorem State.setFull_wakes (s : State) (w : Nat) (v : Bool) : (s.setFull w v).wakes = s.wakes := rfl
@[simp] theorem State.setFull_pwrWait (s : State) (w : Nat) (v : Bool) : (s.setFull w v).pwrWait = s.pwrWait := rfl
@[simp] theorem State.setFull_kvUsed (s : State) (w : Nat) (v : Bool) : (s.setFull w v).kvUsed = s.kvUsed := rfl
@[simp] theorem State.setFull_boot (s : State) (w : Nat) (v : Bool) : (s.setFull w v).boot = s.boot := rfl
@[simp] theorem State.setFull_snapshots (s : State) (w : Nat) (v : Bool) : (s.setFull w v).snapshots = s.snapshots := rfl

/-! ### State.setTask -/

@[simp] theorem State.setTask_now (s : State) (die i : Nat) (v : Task) : (s.setTask die i v).now = s.now := rfl
@[simp] theorem State.setTask_cur (s : State) (die i : Nat) (v : Task) : (s.setTask die i v).cur = s.cur := rfl
@[simp] theorem State.setTask_curMu (s : State) (die i : Nat) (v : Task) : (s.setTask die i v).curMu = s.curMu := rfl
@[simp] theorem State.setTask_todo (s : State) (die i : Nat) (v : Task) : (s.setTask die i v).todo = s.todo := rfl
@[simp] theorem State.setTask_events (s : State) (die i : Nat) (v : Task) : (s.setTask die i v).events = s.events := rfl
@[simp] theorem State.setTask_freeCtr (s : State) (die i : Nat) (v : Task) : (s.setTask die i v).freeCtr = s.freeCtr := rfl
@[simp] theorem State.setTask_oracle (s : State) (die i : Nat) (v : Task) : (s.setTask die i v).oracle = s.oracle := rfl
@[simp] theorem State.setTask_tagCtr (s : State) (die i : Nat) (v : Task) : (s.setTask die i v).tagCtr = s.tagCtr := rfl
@[simp] theorem State.setTask_mem (s : State) (die i : Nat) (v : Task) : (s.setTask die i v).mem = s.mem := rfl
@[simp] theorem State.setTask_full (s : State) (die i : Nat) (v : Task) : (s.setTask die i v).full = s.full := rfl
@[simp] theorem State.setTask_ecc (s : State) (die i : Nat) (v : Task) : (s.setTask die i v).ecc = s.ecc := rfl
@[simp] theorem State.setTask_feWait (s : State) (die i : Nat) (v : Task) : (s.setTask die i v).feWait = s.feWait := rfl
@[simp] theorem State.setTask_barriers (s : State) (die i : Nat) (v : Task) : (s.setTask die i v).barriers = s.barriers := rfl
@[simp] theorem State.setTask_outbox (s : State) (die i : Nat) (v : Task) : (s.setTask die i v).outbox = s.outbox := rfl
@[simp] theorem State.setTask_slots (s : State) (die i : Nat) (v : Task) : (s.setTask die i v).slots = s.slots := rfl
@[simp] theorem State.setTask_cores (s : State) (die i : Nat) (v : Task) : (s.setTask die i v).cores = s.cores := rfl
@[simp] theorem State.setTask_clusters (s : State) (die i : Nat) (v : Task) : (s.setTask die i v).clusters = s.clusters := rfl
@[simp] theorem State.setTask_mus (s : State) (die i : Nat) (v : Task) : (s.setTask die i v).mus = s.mus := rfl
@[simp] theorem State.setTask_sqTable (s : State) (die i : Nat) (v : Task) : (s.setTask die i v).sqTable = s.sqTable := rfl
@[simp] theorem State.setTask_kvTable (s : State) (die i : Nat) (v : Task) : (s.setTask die i v).kvTable = s.kvTable := rfl
@[simp] theorem State.setTask_kvShape (s : State) (die i : Nat) (v : Task) : (s.setTask die i v).kvShape = s.kvShape := rfl
@[simp] theorem State.setTask_kvCtl (s : State) (die i : Nat) (v : Task) : (s.setTask die i v).kvCtl = s.kvCtl := rfl
@[simp] theorem State.setTask_childCnt (s : State) (die i : Nat) (v : Task) : (s.setTask die i v).childCnt = s.childCnt := rfl
@[simp] theorem State.setTask_moves (s : State) (die i : Nat) (v : Task) : (s.setTask die i v).moves = s.moves := rfl
@[simp] theorem State.setTask_kvReqs (s : State) (die i : Nat) (v : Task) : (s.setTask die i v).kvReqs = s.kvReqs := rfl
@[simp] theorem State.setTask_kvWait (s : State) (die i : Nat) (v : Task) : (s.setTask die i v).kvWait = s.kvWait := rfl
@[simp] theorem State.setTask_invWait (s : State) (die i : Nat) (v : Task) : (s.setTask die i v).invWait = s.invWait := rfl
@[simp] theorem State.setTask_fabExport (s : State) (die i : Nat) (v : Task) : (s.setTask die i v).fabExport = s.fabExport := rfl
@[simp] theorem State.setTask_fabPool (s : State) (die i : Nat) (v : Task) : (s.setTask die i v).fabPool = s.fabPool := rfl
@[simp] theorem State.setTask_fabResv (s : State) (die i : Nat) (v : Task) : (s.setTask die i v).fabResv = s.fabResv := rfl
@[simp] theorem State.setTask_fabRefc (s : State) (die i : Nat) (v : Task) : (s.setTask die i v).fabRefc = s.fabRefc := rfl
@[simp] theorem State.setTask_fabAuthf (s : State) (die i : Nat) (v : Task) : (s.setTask die i v).fabAuthf = s.fabAuthf := rfl
@[simp] theorem State.setTask_fabLastr (s : State) (die i : Nat) (v : Task) : (s.setTask die i v).fabLastr = s.fabLastr := rfl
@[simp] theorem State.setTask_fabFlits (s : State) (die i : Nat) (v : Task) : (s.setTask die i v).fabFlits = s.fabFlits := rfl
@[simp] theorem State.setTask_keys (s : State) (die i : Nat) (v : Task) : (s.setTask die i v).keys = s.keys := rfl
@[simp] theorem State.setTask_windows (s : State) (die i : Nat) (v : Task) : (s.setTask die i v).windows = s.windows := rfl
@[simp] theorem State.setTask_pwrIsl (s : State) (die i : Nat) (v : Task) : (s.setTask die i v).pwrIsl = s.pwrIsl := rfl
@[simp] theorem State.setTask_pwrStep (s : State) (die i : Nat) (v : Task) : (s.setTask die i v).pwrStep = s.pwrStep := rfl
@[simp] theorem State.setTask_pwrLimit (s : State) (die i : Nat) (v : Task) : (s.setTask die i v).pwrLimit = s.pwrLimit := rfl
@[simp] theorem State.setTask_pwrWatts (s : State) (die i : Nat) (v : Task) : (s.setTask die i v).pwrWatts = s.pwrWatts := rfl
@[simp] theorem State.setTask_pwrThrot (s : State) (die i : Nat) (v : Task) : (s.setTask die i v).pwrThrot = s.pwrThrot := rfl
@[simp] theorem State.setTask_pkgLost (s : State) (die i : Nat) (v : Task) : (s.setTask die i v).pkgLost = s.pkgLost := rfl
@[simp] theorem State.setTask_nic (s : State) (die i : Nat) (v : Task) : (s.setTask die i v).nic = s.nic := rfl
@[simp] theorem State.setTask_exports (s : State) (die i : Nat) (v : Task) : (s.setTask die i v).exports = s.exports := rfl
@[simp] theorem State.setTask_hostOut (s : State) (die i : Nat) (v : Task) : (s.setTask die i v).hostOut = s.hostOut := rfl
@[simp] theorem State.setTask_wakes (s : State) (die i : Nat) (v : Task) : (s.setTask die i v).wakes = s.wakes := rfl
@[simp] theorem State.setTask_pwrWait (s : State) (die i : Nat) (v : Task) : (s.setTask die i v).pwrWait = s.pwrWait := rfl
@[simp] theorem State.setTask_kvUsed (s : State) (die i : Nat) (v : Task) : (s.setTask die i v).kvUsed = s.kvUsed := rfl
@[simp] theorem State.setTask_boot (s : State) (die i : Nat) (v : Task) : (s.setTask die i v).boot = s.boot := rfl
@[simp] theorem State.setTask_snapshots (s : State) (die i : Nat) (v : Task) : (s.setTask die i v).snapshots = s.snapshots := rfl

/-! ### State.setChildren -/

@[simp] theorem State.setChildren_now (s : State) (i n : Nat) : (s.setChildren i n).now = s.now := rfl
@[simp] theorem State.setChildren_cur (s : State) (i n : Nat) : (s.setChildren i n).cur = s.cur := rfl
@[simp] theorem State.setChildren_curMu (s : State) (i n : Nat) : (s.setChildren i n).curMu = s.curMu := rfl
@[simp] theorem State.setChildren_todo (s : State) (i n : Nat) : (s.setChildren i n).todo = s.todo := rfl
@[simp] theorem State.setChildren_events (s : State) (i n : Nat) : (s.setChildren i n).events = s.events := rfl
@[simp] theorem State.setChildren_freeCtr (s : State) (i n : Nat) : (s.setChildren i n).freeCtr = s.freeCtr := rfl
@[simp] theorem State.setChildren_oracle (s : State) (i n : Nat) : (s.setChildren i n).oracle = s.oracle := rfl
@[simp] theorem State.setChildren_tagCtr (s : State) (i n : Nat) : (s.setChildren i n).tagCtr = s.tagCtr := rfl
@[simp] theorem State.setChildren_mem (s : State) (i n : Nat) : (s.setChildren i n).mem = s.mem := rfl
@[simp] theorem State.setChildren_full (s : State) (i n : Nat) : (s.setChildren i n).full = s.full := rfl
@[simp] theorem State.setChildren_ecc (s : State) (i n : Nat) : (s.setChildren i n).ecc = s.ecc := rfl
@[simp] theorem State.setChildren_feWait (s : State) (i n : Nat) : (s.setChildren i n).feWait = s.feWait := rfl
@[simp] theorem State.setChildren_barriers (s : State) (i n : Nat) : (s.setChildren i n).barriers = s.barriers := rfl
@[simp] theorem State.setChildren_outbox (s : State) (i n : Nat) : (s.setChildren i n).outbox = s.outbox := rfl
@[simp] theorem State.setChildren_slots (s : State) (i n : Nat) : (s.setChildren i n).slots = s.slots := rfl
@[simp] theorem State.setChildren_cores (s : State) (i n : Nat) : (s.setChildren i n).cores = s.cores := rfl
@[simp] theorem State.setChildren_clusters (s : State) (i n : Nat) : (s.setChildren i n).clusters = s.clusters := rfl
@[simp] theorem State.setChildren_mus (s : State) (i n : Nat) : (s.setChildren i n).mus = s.mus := rfl
@[simp] theorem State.setChildren_dies (s : State) (i n : Nat) : (s.setChildren i n).dies = s.dies := rfl
@[simp] theorem State.setChildren_sqTable (s : State) (i n : Nat) : (s.setChildren i n).sqTable = s.sqTable := rfl
@[simp] theorem State.setChildren_kvTable (s : State) (i n : Nat) : (s.setChildren i n).kvTable = s.kvTable := rfl
@[simp] theorem State.setChildren_kvShape (s : State) (i n : Nat) : (s.setChildren i n).kvShape = s.kvShape := rfl
@[simp] theorem State.setChildren_kvCtl (s : State) (i n : Nat) : (s.setChildren i n).kvCtl = s.kvCtl := rfl
@[simp] theorem State.setChildren_moves (s : State) (i n : Nat) : (s.setChildren i n).moves = s.moves := rfl
@[simp] theorem State.setChildren_kvReqs (s : State) (i n : Nat) : (s.setChildren i n).kvReqs = s.kvReqs := rfl
@[simp] theorem State.setChildren_kvWait (s : State) (i n : Nat) : (s.setChildren i n).kvWait = s.kvWait := rfl
@[simp] theorem State.setChildren_invWait (s : State) (i n : Nat) : (s.setChildren i n).invWait = s.invWait := rfl
@[simp] theorem State.setChildren_fabExport (s : State) (i n : Nat) : (s.setChildren i n).fabExport = s.fabExport := rfl
@[simp] theorem State.setChildren_fabPool (s : State) (i n : Nat) : (s.setChildren i n).fabPool = s.fabPool := rfl
@[simp] theorem State.setChildren_fabResv (s : State) (i n : Nat) : (s.setChildren i n).fabResv = s.fabResv := rfl
@[simp] theorem State.setChildren_fabRefc (s : State) (i n : Nat) : (s.setChildren i n).fabRefc = s.fabRefc := rfl
@[simp] theorem State.setChildren_fabAuthf (s : State) (i n : Nat) : (s.setChildren i n).fabAuthf = s.fabAuthf := rfl
@[simp] theorem State.setChildren_fabLastr (s : State) (i n : Nat) : (s.setChildren i n).fabLastr = s.fabLastr := rfl
@[simp] theorem State.setChildren_fabFlits (s : State) (i n : Nat) : (s.setChildren i n).fabFlits = s.fabFlits := rfl
@[simp] theorem State.setChildren_keys (s : State) (i n : Nat) : (s.setChildren i n).keys = s.keys := rfl
@[simp] theorem State.setChildren_windows (s : State) (i n : Nat) : (s.setChildren i n).windows = s.windows := rfl
@[simp] theorem State.setChildren_pwrIsl (s : State) (i n : Nat) : (s.setChildren i n).pwrIsl = s.pwrIsl := rfl
@[simp] theorem State.setChildren_pwrStep (s : State) (i n : Nat) : (s.setChildren i n).pwrStep = s.pwrStep := rfl
@[simp] theorem State.setChildren_pwrLimit (s : State) (i n : Nat) : (s.setChildren i n).pwrLimit = s.pwrLimit := rfl
@[simp] theorem State.setChildren_pwrWatts (s : State) (i n : Nat) : (s.setChildren i n).pwrWatts = s.pwrWatts := rfl
@[simp] theorem State.setChildren_pwrThrot (s : State) (i n : Nat) : (s.setChildren i n).pwrThrot = s.pwrThrot := rfl
@[simp] theorem State.setChildren_pkgLost (s : State) (i n : Nat) : (s.setChildren i n).pkgLost = s.pkgLost := rfl
@[simp] theorem State.setChildren_nic (s : State) (i n : Nat) : (s.setChildren i n).nic = s.nic := rfl
@[simp] theorem State.setChildren_exports (s : State) (i n : Nat) : (s.setChildren i n).exports = s.exports := rfl
@[simp] theorem State.setChildren_hostOut (s : State) (i n : Nat) : (s.setChildren i n).hostOut = s.hostOut := rfl
@[simp] theorem State.setChildren_wakes (s : State) (i n : Nat) : (s.setChildren i n).wakes = s.wakes := rfl
@[simp] theorem State.setChildren_pwrWait (s : State) (i n : Nat) : (s.setChildren i n).pwrWait = s.pwrWait := rfl
@[simp] theorem State.setChildren_kvUsed (s : State) (i n : Nat) : (s.setChildren i n).kvUsed = s.kvUsed := rfl
@[simp] theorem State.setChildren_boot (s : State) (i n : Nat) : (s.setChildren i n).boot = s.boot := rfl
@[simp] theorem State.setChildren_snapshots (s : State) (i n : Nat) : (s.setChildren i n).snapshots = s.snapshots := rfl

/-! ### State.emit -/

@[simp] theorem State.emit_now (s : State) (p : Packet) : (s.emit p).now = s.now := by unfold State.emit; split <;> rfl
@[simp] theorem State.emit_cur (s : State) (p : Packet) : (s.emit p).cur = s.cur := by unfold State.emit; split <;> rfl
@[simp] theorem State.emit_curMu (s : State) (p : Packet) : (s.emit p).curMu = s.curMu := by unfold State.emit; split <;> rfl
@[simp] theorem State.emit_todo (s : State) (p : Packet) : (s.emit p).todo = s.todo := by unfold State.emit; split <;> rfl
@[simp] theorem State.emit_events (s : State) (p : Packet) : (s.emit p).events = s.events := by unfold State.emit; split <;> rfl
@[simp] theorem State.emit_freeCtr (s : State) (p : Packet) : (s.emit p).freeCtr = s.freeCtr := by unfold State.emit; split <;> rfl
@[simp] theorem State.emit_oracle (s : State) (p : Packet) : (s.emit p).oracle = s.oracle := by unfold State.emit; split <;> rfl
@[simp] theorem State.emit_tagCtr (s : State) (p : Packet) : (s.emit p).tagCtr = s.tagCtr := by unfold State.emit; split <;> rfl
@[simp] theorem State.emit_mem (s : State) (p : Packet) : (s.emit p).mem = s.mem := by unfold State.emit; split <;> rfl
@[simp] theorem State.emit_full (s : State) (p : Packet) : (s.emit p).full = s.full := by unfold State.emit; split <;> rfl
@[simp] theorem State.emit_ecc (s : State) (p : Packet) : (s.emit p).ecc = s.ecc := by unfold State.emit; split <;> rfl
@[simp] theorem State.emit_feWait (s : State) (p : Packet) : (s.emit p).feWait = s.feWait := by unfold State.emit; split <;> rfl
@[simp] theorem State.emit_barriers (s : State) (p : Packet) : (s.emit p).barriers = s.barriers := by unfold State.emit; split <;> rfl
@[simp] theorem State.emit_slots (s : State) (p : Packet) : (s.emit p).slots = s.slots := by unfold State.emit; split <;> rfl
@[simp] theorem State.emit_cores (s : State) (p : Packet) : (s.emit p).cores = s.cores := by unfold State.emit; split <;> rfl
@[simp] theorem State.emit_clusters (s : State) (p : Packet) : (s.emit p).clusters = s.clusters := by unfold State.emit; split <;> rfl
@[simp] theorem State.emit_mus (s : State) (p : Packet) : (s.emit p).mus = s.mus := by unfold State.emit; split <;> rfl
@[simp] theorem State.emit_dies (s : State) (p : Packet) : (s.emit p).dies = s.dies := by unfold State.emit; split <;> rfl
@[simp] theorem State.emit_sqTable (s : State) (p : Packet) : (s.emit p).sqTable = s.sqTable := by unfold State.emit; split <;> rfl
@[simp] theorem State.emit_kvTable (s : State) (p : Packet) : (s.emit p).kvTable = s.kvTable := by unfold State.emit; split <;> rfl
@[simp] theorem State.emit_kvShape (s : State) (p : Packet) : (s.emit p).kvShape = s.kvShape := by unfold State.emit; split <;> rfl
@[simp] theorem State.emit_kvCtl (s : State) (p : Packet) : (s.emit p).kvCtl = s.kvCtl := by unfold State.emit; split <;> rfl
@[simp] theorem State.emit_childCnt (s : State) (p : Packet) : (s.emit p).childCnt = s.childCnt := by unfold State.emit; split <;> rfl
@[simp] theorem State.emit_moves (s : State) (p : Packet) : (s.emit p).moves = s.moves := by unfold State.emit; split <;> rfl
@[simp] theorem State.emit_kvReqs (s : State) (p : Packet) : (s.emit p).kvReqs = s.kvReqs := by unfold State.emit; split <;> rfl
@[simp] theorem State.emit_kvWait (s : State) (p : Packet) : (s.emit p).kvWait = s.kvWait := by unfold State.emit; split <;> rfl
@[simp] theorem State.emit_invWait (s : State) (p : Packet) : (s.emit p).invWait = s.invWait := by unfold State.emit; split <;> rfl
@[simp] theorem State.emit_fabExport (s : State) (p : Packet) : (s.emit p).fabExport = s.fabExport := by unfold State.emit; split <;> rfl
@[simp] theorem State.emit_fabPool (s : State) (p : Packet) : (s.emit p).fabPool = s.fabPool := by unfold State.emit; split <;> rfl
@[simp] theorem State.emit_fabResv (s : State) (p : Packet) : (s.emit p).fabResv = s.fabResv := by unfold State.emit; split <;> rfl
@[simp] theorem State.emit_fabRefc (s : State) (p : Packet) : (s.emit p).fabRefc = s.fabRefc := by unfold State.emit; split <;> rfl
@[simp] theorem State.emit_fabAuthf (s : State) (p : Packet) : (s.emit p).fabAuthf = s.fabAuthf := by unfold State.emit; split <;> rfl
@[simp] theorem State.emit_fabLastr (s : State) (p : Packet) : (s.emit p).fabLastr = s.fabLastr := by unfold State.emit; split <;> rfl
@[simp] theorem State.emit_fabFlits (s : State) (p : Packet) : (s.emit p).fabFlits = s.fabFlits := by unfold State.emit; split <;> rfl
@[simp] theorem State.emit_keys (s : State) (p : Packet) : (s.emit p).keys = s.keys := by unfold State.emit; split <;> rfl
@[simp] theorem State.emit_windows (s : State) (p : Packet) : (s.emit p).windows = s.windows := by unfold State.emit; split <;> rfl
@[simp] theorem State.emit_pwrIsl (s : State) (p : Packet) : (s.emit p).pwrIsl = s.pwrIsl := by unfold State.emit; split <;> rfl
@[simp] theorem State.emit_pwrStep (s : State) (p : Packet) : (s.emit p).pwrStep = s.pwrStep := by unfold State.emit; split <;> rfl
@[simp] theorem State.emit_pwrLimit (s : State) (p : Packet) : (s.emit p).pwrLimit = s.pwrLimit := by unfold State.emit; split <;> rfl
@[simp] theorem State.emit_pwrWatts (s : State) (p : Packet) : (s.emit p).pwrWatts = s.pwrWatts := by unfold State.emit; split <;> rfl
@[simp] theorem State.emit_pwrThrot (s : State) (p : Packet) : (s.emit p).pwrThrot = s.pwrThrot := by unfold State.emit; split <;> rfl
@[simp] theorem State.emit_pkgLost (s : State) (p : Packet) : (s.emit p).pkgLost = s.pkgLost := by unfold State.emit; split <;> rfl
@[simp] theorem State.emit_exports (s : State) (p : Packet) : (s.emit p).exports = s.exports := by unfold State.emit; split <;> rfl
@[simp] theorem State.emit_hostOut (s : State) (p : Packet) : (s.emit p).hostOut = s.hostOut := by unfold State.emit; split <;> rfl
@[simp] theorem State.emit_wakes (s : State) (p : Packet) : (s.emit p).wakes = s.wakes := by unfold State.emit; split <;> rfl
@[simp] theorem State.emit_pwrWait (s : State) (p : Packet) : (s.emit p).pwrWait = s.pwrWait := by unfold State.emit; split <;> rfl
@[simp] theorem State.emit_kvUsed (s : State) (p : Packet) : (s.emit p).kvUsed = s.kvUsed := by unfold State.emit; split <;> rfl
@[simp] theorem State.emit_boot (s : State) (p : Packet) : (s.emit p).boot = s.boot := by unfold State.emit; split <;> rfl
@[simp] theorem State.emit_snapshots (s : State) (p : Packet) : (s.emit p).snapshots = s.snapshots := by unfold State.emit; split <;> rfl

/-! ### State.after -/

@[simp] theorem State.after_now (s : State) (d : Nat) (i : Instr) : (s.after d i).now = s.now := rfl
@[simp] theorem State.after_cur (s : State) (d : Nat) (i : Instr) : (s.after d i).cur = s.cur := rfl
@[simp] theorem State.after_curMu (s : State) (d : Nat) (i : Instr) : (s.after d i).curMu = s.curMu := rfl
@[simp] theorem State.after_todo (s : State) (d : Nat) (i : Instr) : (s.after d i).todo = s.todo := rfl
@[simp] theorem State.after_freeCtr (s : State) (d : Nat) (i : Instr) : (s.after d i).freeCtr = s.freeCtr := rfl
@[simp] theorem State.after_oracle (s : State) (d : Nat) (i : Instr) : (s.after d i).oracle = s.oracle := rfl
@[simp] theorem State.after_tagCtr (s : State) (d : Nat) (i : Instr) : (s.after d i).tagCtr = s.tagCtr := rfl
@[simp] theorem State.after_mem (s : State) (d : Nat) (i : Instr) : (s.after d i).mem = s.mem := rfl
@[simp] theorem State.after_full (s : State) (d : Nat) (i : Instr) : (s.after d i).full = s.full := rfl
@[simp] theorem State.after_ecc (s : State) (d : Nat) (i : Instr) : (s.after d i).ecc = s.ecc := rfl
@[simp] theorem State.after_feWait (s : State) (d : Nat) (i : Instr) : (s.after d i).feWait = s.feWait := rfl
@[simp] theorem State.after_barriers (s : State) (d : Nat) (i : Instr) : (s.after d i).barriers = s.barriers := rfl
@[simp] theorem State.after_outbox (s : State) (d : Nat) (i : Instr) : (s.after d i).outbox = s.outbox := rfl
@[simp] theorem State.after_slots (s : State) (d : Nat) (i : Instr) : (s.after d i).slots = s.slots := rfl
@[simp] theorem State.after_cores (s : State) (d : Nat) (i : Instr) : (s.after d i).cores = s.cores := rfl
@[simp] theorem State.after_clusters (s : State) (d : Nat) (i : Instr) : (s.after d i).clusters = s.clusters := rfl
@[simp] theorem State.after_mus (s : State) (d : Nat) (i : Instr) : (s.after d i).mus = s.mus := rfl
@[simp] theorem State.after_dies (s : State) (d : Nat) (i : Instr) : (s.after d i).dies = s.dies := rfl
@[simp] theorem State.after_sqTable (s : State) (d : Nat) (i : Instr) : (s.after d i).sqTable = s.sqTable := rfl
@[simp] theorem State.after_kvTable (s : State) (d : Nat) (i : Instr) : (s.after d i).kvTable = s.kvTable := rfl
@[simp] theorem State.after_kvShape (s : State) (d : Nat) (i : Instr) : (s.after d i).kvShape = s.kvShape := rfl
@[simp] theorem State.after_kvCtl (s : State) (d : Nat) (i : Instr) : (s.after d i).kvCtl = s.kvCtl := rfl
@[simp] theorem State.after_childCnt (s : State) (d : Nat) (i : Instr) : (s.after d i).childCnt = s.childCnt := rfl
@[simp] theorem State.after_moves (s : State) (d : Nat) (i : Instr) : (s.after d i).moves = s.moves := rfl
@[simp] theorem State.after_kvReqs (s : State) (d : Nat) (i : Instr) : (s.after d i).kvReqs = s.kvReqs := rfl
@[simp] theorem State.after_kvWait (s : State) (d : Nat) (i : Instr) : (s.after d i).kvWait = s.kvWait := rfl
@[simp] theorem State.after_invWait (s : State) (d : Nat) (i : Instr) : (s.after d i).invWait = s.invWait := rfl
@[simp] theorem State.after_fabExport (s : State) (d : Nat) (i : Instr) : (s.after d i).fabExport = s.fabExport := rfl
@[simp] theorem State.after_fabPool (s : State) (d : Nat) (i : Instr) : (s.after d i).fabPool = s.fabPool := rfl
@[simp] theorem State.after_fabResv (s : State) (d : Nat) (i : Instr) : (s.after d i).fabResv = s.fabResv := rfl
@[simp] theorem State.after_fabRefc (s : State) (d : Nat) (i : Instr) : (s.after d i).fabRefc = s.fabRefc := rfl
@[simp] theorem State.after_fabAuthf (s : State) (d : Nat) (i : Instr) : (s.after d i).fabAuthf = s.fabAuthf := rfl
@[simp] theorem State.after_fabLastr (s : State) (d : Nat) (i : Instr) : (s.after d i).fabLastr = s.fabLastr := rfl
@[simp] theorem State.after_fabFlits (s : State) (d : Nat) (i : Instr) : (s.after d i).fabFlits = s.fabFlits := rfl
@[simp] theorem State.after_keys (s : State) (d : Nat) (i : Instr) : (s.after d i).keys = s.keys := rfl
@[simp] theorem State.after_windows (s : State) (d : Nat) (i : Instr) : (s.after d i).windows = s.windows := rfl
@[simp] theorem State.after_pwrIsl (s : State) (d : Nat) (i : Instr) : (s.after d i).pwrIsl = s.pwrIsl := rfl
@[simp] theorem State.after_pwrStep (s : State) (d : Nat) (i : Instr) : (s.after d i).pwrStep = s.pwrStep := rfl
@[simp] theorem State.after_pwrLimit (s : State) (d : Nat) (i : Instr) : (s.after d i).pwrLimit = s.pwrLimit := rfl
@[simp] theorem State.after_pwrWatts (s : State) (d : Nat) (i : Instr) : (s.after d i).pwrWatts = s.pwrWatts := rfl
@[simp] theorem State.after_pwrThrot (s : State) (d : Nat) (i : Instr) : (s.after d i).pwrThrot = s.pwrThrot := rfl
@[simp] theorem State.after_pkgLost (s : State) (d : Nat) (i : Instr) : (s.after d i).pkgLost = s.pkgLost := rfl
@[simp] theorem State.after_nic (s : State) (d : Nat) (i : Instr) : (s.after d i).nic = s.nic := rfl
@[simp] theorem State.after_exports (s : State) (d : Nat) (i : Instr) : (s.after d i).exports = s.exports := rfl
@[simp] theorem State.after_hostOut (s : State) (d : Nat) (i : Instr) : (s.after d i).hostOut = s.hostOut := rfl
@[simp] theorem State.after_wakes (s : State) (d : Nat) (i : Instr) : (s.after d i).wakes = s.wakes := rfl
@[simp] theorem State.after_pwrWait (s : State) (d : Nat) (i : Instr) : (s.after d i).pwrWait = s.pwrWait := rfl
@[simp] theorem State.after_kvUsed (s : State) (d : Nat) (i : Instr) : (s.after d i).kvUsed = s.kvUsed := rfl
@[simp] theorem State.after_boot (s : State) (d : Nat) (i : Instr) : (s.after d i).boot = s.boot := rfl
@[simp] theorem State.after_snapshots (s : State) (d : Nat) (i : Instr) : (s.after d i).snapshots = s.snapshots := rfl

@[simp] theorem State.setMem_mem (s : State) (m : List Host.Cell) : (s.setMem m).mem = m := rfl
@[simp] theorem State.emit_outbox (s : State) (p : Packet) :
    (s.emit p).outbox = if p.host || s.boot.links != 0 then s.outbox ++ [p] else s.outbox := by unfold State.emit; split <;> rfl
@[simp] theorem State.emit_nic (s : State) (p : Packet) :
    (s.emit p).nic = if p.host || s.boot.links != 0 then s.nic else s.nic ++ [p] := by unfold State.emit; split <;> rfl
@[simp] theorem State.after_events (s : State) (d : Nat) (i : Instr) : (s.after d i).events = s.events ++ [(s.now + 1 + d, i)] := rfl

end Sys2Proof.Machine
end

