-- ==== Sys2Proof/Laws/Store.lean ====
section
/-! SUPPORT. What the sparse tables, the sets and memory do: read after write, and the canonical form of memory. -/

namespace Sys2Proof.Machine

variable {α : Type}

/-! ### Tables -/

@[simp] theorem tget_tput_self (l : List (Nat × α)) (k : Nat) (a : α) : tget (tput l k a) k = some a := by
  induction l with
  | nil => simp [tput, tget]
  | cons p t ih =>
    obtain ⟨i, b⟩ := p
    simp only [tput]
    split
    · simp [tget]
    · split
      · simp [tget]
      · rename_i h
        simp [tget, h, ih]

theorem tget_tput_other (l : List (Nat × α)) {k j : Nat} (a : α) (h : j ≠ k) : tget (tput l k a) j = tget l j := by
  induction l with
  | nil => simp [tput, tget, h.symm]
  | cons p t ih =>
    obtain ⟨i, b⟩ := p
    simp only [tput]
    split
    · simp [tget, h.symm]
    · split
      · rename_i e
        subst e
        simp [tget, h.symm]
      · simp [tget, ih]

@[simp] theorem tput_tput (l : List (Nat × α)) (k : Nat) (a b : α) : tput (tput l k a) k b = tput l k b := by
  induction l with
  | nil => simp [tput]
  | cons p t ih =>
    obtain ⟨i, c⟩ := p
    simp only [tput]
    split
    · simp [tput]
    · split
      · simp [tput]
      · rename_i h h'
        simp [tput, h, h', ih]

/-- Keys in rising order. -/
def Rising (l : List (Nat × α)) : Prop := (l.map Prod.fst).Pairwise (· < ·)

theorem tget_none_of_lt {l : List (Nat × α)} {k : Nat} (h : ∀ p ∈ l, k < p.1) : tget l k = none := by
  induction l with
  | nil => rfl
  | cons p t ih =>
    obtain ⟨i, b⟩ := p
    have hi : k < i := h (i, b) (by simp)
    simp only [tget]
    rw [if_neg (by omega)]
    exact ih fun q hq => h q (by simp [hq])

theorem mem_tput {l : List (Nat × α)} {k : Nat} {a : α} {p : Nat × α} (h : p ∈ tput l k a) : p = (k, a) ∨ p ∈ l := by
  induction l with
  | nil => exact Or.inl (by simpa [tput] using h)
  | cons q t ih =>
    obtain ⟨i, b⟩ := q
    simp only [tput] at h
    split at h
    · rcases List.mem_cons.1 h with h | h
      · exact Or.inl h
      · exact Or.inr h
    · split at h
      · rcases List.mem_cons.1 h with h | h
        · exact Or.inl h
        · exact Or.inr (List.mem_cons_of_mem _ h)
      · rcases List.mem_cons.1 h with h | h
        · exact Or.inr (by simp [h])
        · exact (ih h).imp id (List.mem_cons_of_mem _)

theorem rising_tput {l : List (Nat × α)} (h : Rising l) (k : Nat) (a : α) : Rising (tput l k a) := by
  induction l with
  | nil => simp [tput, Rising]
  | cons p t ih =>
    obtain ⟨i, b⟩ := p
    obtain ⟨h1, h2⟩ := List.pairwise_cons.1 h
    simp only [tput]
    split
    · rename_i hk
      refine List.pairwise_cons.2 ⟨?_, h⟩
      intro j hj
      rcases List.mem_cons.1 hj with rfl | hj
      · exact hk
      · exact lt_trans hk (h1 j hj)
    · split
      · rename_i e
        subst e
        exact List.pairwise_cons.2 ⟨h1, h2⟩
      · refine List.pairwise_cons.2 ⟨?_, ih h2⟩
        intro j hj
        obtain ⟨q, hq, rfl⟩ := List.mem_map.1 hj
        rcases mem_tput hq with rfl | hq
        · show i < k
          omega
        · exact h1 _ (List.mem_map_of_mem hq)

theorem mem_tdel {l : List (Nat × α)} {k : Nat} {p : Nat × α} (h : p ∈ tdel l k) : p ∈ l := by
  induction l with
  | nil => simp [tdel] at h
  | cons q t ih =>
    obtain ⟨i, b⟩ := q
    simp only [tdel] at h
    split at h
    · exact List.mem_cons_of_mem _ h
    · rcases List.mem_cons.1 h with h | h
      · simp [h]
      · exact List.mem_cons_of_mem _ (ih h)

theorem rising_tdel {l : List (Nat × α)} (h : Rising l) (k : Nat) : Rising (tdel l k) := by
  induction l with
  | nil => simp [tdel, Rising]
  | cons p t ih =>
    obtain ⟨i, b⟩ := p
    obtain ⟨h1, h2⟩ := List.pairwise_cons.1 h
    simp only [tdel]
    split
    · exact h2
    · refine List.pairwise_cons.2 ⟨?_, ih h2⟩
      intro j hj
      obtain ⟨q, hq, rfl⟩ := List.mem_map.1 hj
      exact h1 _ (List.mem_map_of_mem (mem_tdel hq))

theorem tget_tdel_self {l : List (Nat × α)} (h : Rising l) (k : Nat) : tget (tdel l k) k = none := by
  induction l with
  | nil => rfl
  | cons p t ih =>
    obtain ⟨i, b⟩ := p
    obtain ⟨h1, h2⟩ := List.pairwise_cons.1 h
    simp only [tdel]
    split
    · rename_i e
      subst e
      exact tget_none_of_lt fun q hq => h1 _ (List.mem_map_of_mem hq)
    · rename_i hne
      simp [tget, hne, ih h2]

theorem tget_tdel_other (l : List (Nat × α)) {k j : Nat} (h : j ≠ k) : tget (tdel l k) j = tget l j := by
  induction l with
  | nil => rfl
  | cons p t ih =>
    obtain ⟨i, b⟩ := p
    simp only [tdel]
    split
    · rename_i e
      subst e
      simp [tget, h.symm]
    · simp [tget, ih]

/-! ### Memory -/

theorem wf_iff {m : List Host.Cell} : Memory.wf m = true ↔ (∀ c ∈ m, c.2 ≠ 0) ∧ Rising m := by
  simp [Memory.wf, Rising]

theorem wf_rising {m : List Host.Cell} (h : Memory.wf m = true) : Rising m := (wf_iff.1 h).2

@[simp] theorem wf_nil : Memory.wf [] = true := rfl

theorem memSet_wf {m : List Host.Cell} (h : Memory.wf m = true) (a : Nat) (b : Byte) : Memory.wf (memSet m a b) = true := by
  obtain ⟨h1, h2⟩ := wf_iff.1 h
  unfold memSet
  split
  · exact wf_iff.2 ⟨fun c hc => h1 c (mem_tdel hc), rising_tdel h2 a⟩
  · rename_i hb
    refine wf_iff.2 ⟨fun c hc => ?_, rising_tput h2 a b⟩
    rcases mem_tput hc with rfl | hc
    · exact hb
    · exact h1 c hc

theorem memPut_wf {m : List Host.Cell} (h : Memory.wf m = true) (a : Nat) (bs : List Byte) : Memory.wf (memPut m a bs) = true := by
  induction bs generalizing m a with
  | nil => exact h
  | cons b bs ih => exact ih (memSet_wf h a b) (a + 1)

theorem memWrite_wf {m : List Host.Cell} (h : Memory.wf m = true) (a n v : Nat) : Memory.wf (memWrite m a n v) = true :=
  memPut_wf h a _

theorem filter_wf {m : List Host.Cell} (h : Memory.wf m = true) (p : Host.Cell → Bool) : Memory.wf (m.filter p) = true := by
  obtain ⟨h1, h2⟩ := wf_iff.1 h
  refine wf_iff.2 ⟨fun c hc => h1 c (List.mem_filter.1 hc).1, ?_⟩
  exact List.Pairwise.sublist (List.filter_sublist.map _) h2

theorem memZero_wf {m : List Host.Cell} (h : Memory.wf m = true) (a n : Nat) : Memory.wf (memZero m a n) = true :=
  filter_wf h _

theorem foldl_memSet_wf {β : Type} (f : β → Nat × Byte) (l : List β) {m : List Host.Cell} (h : Memory.wf m = true) :
    Memory.wf (l.foldl (fun acc c => memSet acc (f c).1 (f c).2) m) = true := by
  induction l generalizing m with
  | nil => exact h
  | cons c t ih => exact ih (memSet_wf h _ _)

theorem memBlit_wf {m : List Host.Cell} (h : Memory.wf m = true) (src dst n : Nat) : Memory.wf (memBlit m src dst n) = true :=
  foldl_memSet_wf (fun c : Host.Cell => (c.1 - src + dst, c.2)) _ (filter_wf h _)

theorem memGet_memSet_self {m : List Host.Cell} (h : Memory.wf m = true) (a : Nat) (b : Byte) : memGet (memSet m a b) a = b := by
  unfold memGet memSet
  split
  · rename_i hb
    simp [tget_tdel_self (wf_rising h), hb]
  · simp

theorem memGet_memSet_other (m : List Host.Cell) {a a' : Nat} (b : Byte) (h : a' ≠ a) : memGet (memSet m a b) a' = memGet m a' := by
  unfold memGet memSet
  split
  · rw [tget_tdel_other _ h]
  · rw [tget_tput_other _ _ h]

/-- A write leaves every byte outside it as it was. -/
theorem memGet_memPut_outside (bs : List Byte) (m : List Host.Cell) {a a' : Nat} (h : a' < a ∨ a + bs.length ≤ a') :
    memGet (memPut m a bs) a' = memGet m a' := by
  induction bs generalizing m a with
  | nil => rfl
  | cons b bs ih =>
    simp only [List.length_cons] at h
    rw [memPut, ih _ (by omega), memGet_memSet_other _ _ (by omega)]

/-- A byte of a write reads as written. -/
theorem memGet_memPut_inside (bs : List Byte) {m : List Host.Cell} (hm : Memory.wf m = true) (a i : Nat) (h : i < bs.length) :
    memGet (memPut m a bs) (a + i) = bs[i] := by
  induction bs generalizing m a i with
  | nil => simp at h
  | cons b bs ih =>
    cases i with
    | zero =>
      rw [memPut, memGet_memPut_outside _ _ (by omega)]
      simpa using memGet_memSet_self hm a b
    | succ i =>
      have := ih (memSet_wf hm a b) (a + 1) i (by simpa using h)
      simpa [memPut, Nat.add_assoc, Nat.add_comm 1 i] using this

theorem memBytes_length (m : List Host.Cell) (a n : Nat) : (memBytes m a n).length = n := by simp [memBytes]

/-- Reading back what was written (R1). -/
theorem memBytes_memPut {m : List Host.Cell} (hm : Memory.wf m = true) (a : Nat) (bs : List Byte) :
    memBytes (memPut m a bs) a bs.length = bs := by
  refine List.ext_getElem (by simp [memBytes]) fun i h1 h2 => ?_
  simpa [memBytes] using memGet_memPut_inside bs hm a i h2

/-- A read outside a write is not touched by it. -/
theorem memBytes_memPut_outside (m : List Host.Cell) (a : Nat) (bs : List Byte) {a' n : Nat} (h : a' + n ≤ a ∨ a + bs.length ≤ a') :
    memBytes (memPut m a bs) a' n = memBytes m a' n := by
  refine List.map_congr_left fun i hi => ?_
  have := List.mem_range.1 hi
  exact memGet_memPut_outside _ _ (by omega)

end Sys2Proof.Machine
end

