-- ==== Sys2Proof/Laws/Issue.lean ====
section
/-! SUPPORT. What the issue shell of Operands.lean does, said once for each way it can go: performing, holding, a false guard, a
privileged instruction in user mode; and what the readers and writers of operands do on plain registers. -/

namespace Sys2Proof.Machine

open Claims

/-! ### The issuing context behind `setMe` -/

@[simp] theorem State.me_setMe (s : State) (x : Ctx) : (s.setMe x).me = x := by
  simp [State.me, State.setMe, State.setCtx, State.ctx, State.slot, State.setSlot]

@[simp] theorem State.setMe_setMe (s : State) (x y : Ctx) : (s.setMe x).setMe y = s.setMe y := by
  simp [State.setMe, State.setCtx, State.slot, State.setSlot]

theorem State.slot_setSlot_self (s : State) (c : Nat) (v : Slot) : (s.setSlot c v).slot c = v := by
  simp [State.slot, State.setSlot]

theorem State.slot_setSlot_other (s : State) {c d : Nat} (v : Slot) (h : d ≠ c) : (s.setSlot c v).slot d = s.slot d := by
  simp [State.slot, State.setSlot, tget_tput_other _ _ h]

@[simp] theorem State.ctx_setCtx_self (s : State) (c : Nat) (x : Ctx) : (s.setCtx c x).ctx c = x := by
  simp [State.ctx, State.setCtx, State.slot_setSlot_self]

theorem State.ctx_setCtx_other (s : State) {c d : Nat} (x : Ctx) (h : d ≠ c) : (s.setCtx c x).ctx d = s.ctx d := by
  simp [State.ctx, State.setCtx, State.slot_setSlot_other _ _ h]

theorem State.ctx_setMe_other (s : State) {d : Nat} (x : Ctx) (h : d ≠ s.cur) : (s.setMe x).ctx d = s.ctx d :=
  State.ctx_setCtx_other s x h

@[simp] theorem State.setMe_core (s : State) (x : Ctx) (k : Nat) : (s.setMe x).core k = s.core k := rfl
@[simp] theorem State.setMe_cluster (s : State) (x : Ctx) (k : Nat) : (s.setMe x).cluster k = s.cluster k := rfl
@[simp] theorem State.setMe_die (s : State) (x : Ctx) (k : Nat) : (s.setMe x).die k = s.die k := rfl
@[simp] theorem State.setMe_mu (s : State) (x : Ctx) (k : Nat) : (s.setMe x).mu k = s.mu k := rfl

@[simp] theorem State.core_setCore_self (s : State) (k : Nat) (v : Core) : (s.setCore k v).core k = v := by
  simp [State.core, State.setCore]

theorem State.core_setCore_other (s : State) {k j : Nat} (v : Core) (h : j ≠ k) : (s.setCore k v).core j = s.core j := by
  simp [State.core, State.setCore, tget_tput_other _ _ h]

@[simp] theorem State.cluster_setCluster_self (s : State) (k : Nat) (v : Cluster) : (s.setCluster k v).cluster k = v := by
  simp [State.cluster, State.setCluster]

theorem State.cluster_setCluster_other (s : State) {k j : Nat} (v : Cluster) (h : j ≠ k) :
    (s.setCluster k v).cluster j = s.cluster j := by
  simp [State.cluster, State.setCluster, tget_tput_other _ _ h]

@[simp] theorem State.mu_setMu_self (s : State) (k : Nat) (v : Mu) : (s.setMu k v).mu k = v := by
  simp [State.mu, State.setMu]

theorem State.mu_setMu_other (s : State) {k j : Nat} (v : Mu) (h : j ≠ k) : (s.setMu k v).mu j = s.mu j := by
  simp [State.mu, State.setMu, tget_tput_other _ _ h]

@[simp] theorem State.die_setDie_self (s : State) (k : Nat) (v : Die) : (s.setDie k v).die k = v := by
  simp [State.die, State.setDie]

theorem State.die_setDie_other (s : State) {k j : Nat} (v : Die) (h : j ≠ k) : (s.setDie k v).die j = s.die j := by
  simp [State.die, State.setDie, tget_tput_other _ _ h]

@[simp] theorem State.setMu_setMu (s : State) (k : Nat) (v w : Mu) : (s.setMu k v).setMu k w = s.setMu k w := by
  simp [State.setMu]

@[simp] theorem State.setCore_setCore (s : State) (k : Nat) (v w : Core) : (s.setCore k v).setCore k w = s.setCore k w := by
  simp [State.setCore]

@[simp] theorem State.setCluster_setCluster (s : State) (k : Nat) (v w : Cluster) :
    (s.setCluster k v).setCluster k w = s.setCluster k w := by
  simp [State.setCluster]

@[simp] theorem State.setDie_setDie (s : State) (k : Nat) (v w : Die) : (s.setDie k v).setDie k w = s.setDie k w := by
  simp [State.setDie]

/-! ### Operands -/

theorem streamIx_src {r : Reg} (h : SrcPlain r) : streamIx r = none := by
  unfold streamIx; rw [if_neg]; unfold SrcPlain at h; omega

theorem streamIx_dst {r : Reg} (h : DstPlain r) : streamIx r = none := by
  unfold streamIx; rw [if_neg]; unfold DstPlain at h; omega

theorem srcPlain_ne {r : Reg} (h : SrcPlain r) : r ≠ 60#6 := by
  rintro rfl; simp [SrcPlain] at h

theorem dstPlain_ne {r : Reg} (h : DstPlain r) : r ≠ 61#6 := by
  rintro rfl; simp [DstPlain] at h

theorem takeOne_plain {s : State} {r : Reg} (h : Plain s r) : takeOne s r = .ok [s.me.reg r] s := by
  have q : s.me.outst.find? (fun o => o.writes.any (·.1 == r.toNat)) = none := by
    rw [List.find?_eq_none]
    intro o ho
    simpa using fun w hw => h.2 o ho (_, w) hw rfl
  simp [takeOne, streamIx_src h.1, srcPlain_ne h.1, q]
  rintro rfl
  rfl

theorem takeSrcs_plain {s : State} (rs : List Reg) (h : ∀ r ∈ rs, Plain s r) : takeSrcs s rs = .ok (rs.map s.me.reg) s := by
  induction rs with
  | nil => rfl
  | cons r rs ih => simp [takeSrcs, takeOne_plain (h r (by simp)), ih fun q hq => h q (by simp [hq])]

theorem commitSrcs_plain {s : State} (rs : List Reg) (h : ∀ r ∈ rs, SrcPlain r) : commitSrcs s rs = s := by
  induction rs with
  | nil => rfl
  | cons r rs ih =>
    simp [commitSrcs, streamIx_src (h r (by simp)), srcPlain_ne (h r (by simp)), ih fun q hq => h q (by simp [hq])]

theorem dstCheck_plain {s : State} {r : Reg} (h : DstPlain r) : dstCheck s r = .ok [] s := by
  simp [dstCheck, streamIx_dst h, dstPlain_ne h]

theorem putReg_plain {s : State} {r : Reg} (h : DstPlain r) (v : Word) : putReg s r v = s.setMe (s.me.setReg r v) := by
  simp [putReg, streamIx_dst h, dstPlain_ne h]

/-- A register write that meets no outstanding access changes the register alone; x0 keeps nothing. -/
theorem Ctx.setReg_quiet {x : Ctx} {r : Reg} (h : Quiet x r) (v : Word) :
    x.setReg r v = if r = 0 then x else { x with x := x.x.set r.toNat v r.isLt } := by
  unfold Ctx.setReg
  split
  · rfl
  · have : x.outst.map (fun o => if o.writes.any (·.1 == r.toNat) then { o with raced := r.toNat :: o.raced } else o) = x.outst := by
      conv_rhs => rw [← List.map_id x.outst]
      refine List.map_congr_left fun o ho => if_neg ?_
      simpa using fun w hw => h o ho (_, w) hw rfl
    rw [this]

@[simp] theorem Ctx.setReg_pc (x : Ctx) (r : Reg) (v : Word) : (x.setReg r v).pc = x.pc := by unfold Ctx.setReg; split <;> rfl
@[simp] theorem Ctx.setReg_icount (x : Ctx) (r : Reg) (v : Word) : (x.setReg r v).icount = x.icount := by
  unfold Ctx.setReg; split <;> rfl
@[simp] theorem Ctx.setReg_p (x : Ctx) (r : Reg) (v : Word) : (x.setReg r v).p = x.p := by unfold Ctx.setReg; split <;> rfl
@[simp] theorem Ctx.setReg_dc (x : Ctx) (r : Reg) (v : Word) : (x.setReg r v).dc = x.dc := by unfold Ctx.setReg; split <;> rfl
@[simp] theorem Ctx.setReg_st (x : Ctx) (r : Reg) (v : Word) : (x.setReg r v).st = x.st := by unfold Ctx.setReg; split <;> rfl
@[simp] theorem Ctx.setReg_sys (x : Ctx) (r : Reg) (v : Word) : (x.setReg r v).sys = x.sys := by unfold Ctx.setReg; split <;> rfl
@[simp] theorem Ctx.setReg_streams (x : Ctx) (r : Reg) (v : Word) : (x.setReg r v).streams = x.streams := by
  unfold Ctx.setReg; split <;> rfl
@[simp] theorem Ctx.setPred_pc (x : Ctx) (n : Pred) (v : Bool) : (x.setPred n v).pc = x.pc := by unfold Ctx.setPred; split <;> rfl
@[simp] theorem Ctx.setPred_icount (x : Ctx) (n : Pred) (v : Bool) : (x.setPred n v).icount = x.icount := by
  unfold Ctx.setPred; split <;> rfl
@[simp] theorem Ctx.setPred_x (x : Ctx) (n : Pred) (v : Bool) : (x.setPred n v).x = x.x := by unfold Ctx.setPred; split <;> rfl

/-- What a read gives after a write of the same register: nothing of x0 is written. -/
theorem Ctx.reg_setReg_self (x : Ctx) {r : Reg} (h : DstPlain r) (v : Word) :
    (x.setReg r v).reg r = if r = 0 then 0 else v := by
  have := dstPlain_ne h
  by_cases h0 : r = 0#6
  · simp [Ctx.reg, h0]
  · simp [Ctx.reg, Ctx.setReg, h0, this]

theorem Ctx.reg_setReg_other (x : Ctx) {r q : Reg} (h : q ≠ r) (v : Word) : (x.setReg r v).reg q = x.reg q := by
  have : r.toNat ≠ q.toNat := fun e => h (BitVec.eq_of_toNat_eq e.symm)
  unfold Ctx.reg Ctx.setReg
  split <;> rename_i h0
  · rfl
  · split
    · rfl
    · exact Vector.getElem_set_ne r.isLt q.isLt this

/-! ### The issue shell -/

theorem wakeRetry_live {s : State} (h : s.me.st = .live) : wakeRetry s = s := by simp [wakeRetry, h]

theorem retire_done (s : State) (x : Ctx) (h : x.pc = s.me.pc) (hi : x.icount = s.me.icount) :
    retire (s.setMe x) (x.pc + 8) = done s x := by simp [retire, done, h, hi]

/-- The shell on a ready context: the body runs on the register values, and its answer settles. -/
theorem issueS_ready {s : State} {f : Form} (body : State → (Nat → Word) → Res) (h : Ready s f.h)
    (hm : f.mem = true → ∀ o ∈ s.me.outst, o.acq = false) (hp : f.sysOnly = true → s.me.sys = true)
    (hs : ∀ r ∈ f.srcs, Plain s r) (hd : ∀ d, f.dst = some d → DstPlain d) :
    issueS f body s = settle s f.srcs (body s fun i => ((f.srcs.map s.me.reg)[i]?).getD 0) := by
  have hst : f.streams = [] := by
    simp only [Form.streams, List.filter_eq_nil_iff, List.mem_append, Option.mem_toList]
    rintro r (hr | hr)
    · simp [streamIx_src (hs r hr).1]
    · simp [streamIx_dst (hd r hr)]
  have h1 : s.me.drains = false := by simpa [Ctx.drains] using h.precise
  have h2 : (f.sysOnly && !s.me.sys) = false := by
    rcases hb : f.sysOnly with _ | _
    · rfl
    · simp [hp hb]
  have h4 : (f.mem && s.me.outst.any (·.acq)) = false := by
    rcases hb : f.mem with _ | _
    · rfl
    · simpa using hm hb
  have hpf : perform f body s = settle s f.srcs (body s fun i => ((f.srcs.map s.me.reg)[i]?).getD 0) := by
    simp only [perform, hst, List.foldl_nil, takeSrcs_plain f.srcs hs]
    rcases hb : f.dst with _ | d
    · rfl
    · simp only [dstCheck_plain (hd d hb)]
  simp only [issueS, wakeRetry_live h.live, h1, h2, h.waits, h.guard, h4, hpf]
  rcases hb : f.h.sc with _ | n
  · rfl
  · have hn : s.me.dc[(n : Nat)] ≠ 15#4 := h.room n hb
    simp [hn]

theorem settle_next {s t : State} (srcs : List Reg) (h : ∀ r ∈ srcs, SrcPlain r) :
    settle s srcs (.next t) = retire t (t.me.pc + 8) := by simp [settle, commitSrcs_plain srcs h]

theorem settle_jump {s t : State} (srcs : List Reg) (h : ∀ r ∈ srcs, SrcPlain r) (pc : Word) :
    settle s srcs (.jump t pc) = retire t pc := by simp [settle, commitSrcs_plain srcs h]

/-- The shell on a ready context whose body performs: the state it answers retires. -/
theorem issue_next {s t : State} {f : Form} {body : State → (Nat → Word) → Res} (h : Ready s f.h)
    (hm : f.mem = true → ∀ o ∈ s.me.outst, o.acq = false) (hp : f.sysOnly = true → s.me.sys = true)
    (hs : ∀ r ∈ f.srcs, Plain s r) (hd : ∀ d, f.dst = some d → DstPlain d)
    (hb : body s (fun i => ((f.srcs.map s.me.reg)[i]?).getD 0) = .next t) :
    issue f body s = .next (retire t (t.me.pc + 8)) := by
  rw [issue, issueS_ready body h hm hp hs hd, hb, settle_next _ fun r hr => (hs r hr).1]

/-- The same for a body that writes one plain register. -/
theorem issue_put {s : State} {f : Form} {body : State → (Nat → Word) → Res} {d : Reg} {v : Word} (h : Ready s f.h)
    (hm : f.mem = true → ∀ o ∈ s.me.outst, o.acq = false) (hp : f.sysOnly = true → s.me.sys = true)
    (hs : ∀ r ∈ f.srcs, Plain s r) (hf : f.dst = some d) (hd : DstPlain d)
    (hb : body s (fun i => ((f.srcs.map s.me.reg)[i]?).getD 0) = .next (putReg s d v)) :
    issue f body s = .next (done s (s.me.setReg d v)) := by
  rw [issue_next h hm hp hs (by rintro _ e; rw [hf] at e; cases e; exact hd) hb, putReg_plain hd]
  simp [retire, done]

/-- The same for a body that changes the issuing context alone, not its pc and icount. -/
theorem issue_me {s : State} {f : Form} {body : State → (Nat → Word) → Res} {x : Ctx} (h : Ready s f.h)
    (hm : f.mem = true → ∀ o ∈ s.me.outst, o.acq = false) (hp : f.sysOnly = true → s.me.sys = true)
    (hs : ∀ r ∈ f.srcs, Plain s r) (hd : ∀ d, f.dst = some d → DstPlain d)
    (hb : body s (fun i => ((f.srcs.map s.me.reg)[i]?).getD 0) = .next (s.setMe x)) (hx : x.pc = s.me.pc)
    (hi : x.icount = s.me.icount) : issue f body s = .next (done s x) := by
  rw [issue_next h hm hp hs hd hb]
  simp [retire, done, hx, hi]

/-- An instruction that computes one register, on a ready context. -/
theorem issueAlu_ready {s : State} {h : Hdr} {srcs : List Reg} {d : Reg} (g : (Nat → Word) → Word) (hr : Ready s h)
    (hs : ∀ r ∈ srcs, Plain s r) (hd : DstPlain d) :
    issueAlu h srcs d g s = .next (done s (s.me.setReg d (g fun i => ((srcs.map s.me.reg)[i]?).getD 0))) := by
  unfold issueAlu issue
  rw [issueS_ready (f := { h := h, srcs := srcs, dst := some d }) _ hr (by simp) (by simp) hs
    (by rintro _ h; cases h; exact hd)]
  simp only [putReg_plain hd, settle_next srcs (fun r hr => (hs r hr).1)]
  simp [retire, done]

/-- An instruction that writes a condition and its negation, on a ready context. -/
theorem issuePred_ready {s : State} {h : Hdr} {srcs : List Reg} {pt pf : Pred} {cm : Bool} (g : Ctx → (Nat → Word) → Bool)
    (hr : Ready s h) (hs : ∀ r ∈ srcs, Plain s r) :
    issuePred h srcs pt pf cm g s = .next (done s ((s.me.setPred pt (g s.me fun i => ((srcs.map s.me.reg)[i]?).getD 0)).setPred pf
      (!(g s.me fun i => ((srcs.map s.me.reg)[i]?).getD 0)))) := by
  unfold issuePred issue
  rw [issueS_ready (f := { h := h, srcs := srcs, clear := if cm = true then some (pt, pf) else none }) _ hr (by simp) (by simp) hs
    (by rintro _ h; cases h)]
  simp only [settle_next srcs (fun r hr => (hs r hr).1), putPred]
  simp [retire, done]

/-- The WM wait (R126): with a named counter above zero nothing happens. -/
theorem issueS_waits {s : State} {f : Form} (body : State → (Nat → Word) → Res) (hl : s.me.st = .live)
    (hp : f.sysOnly = true → s.me.sys = true) (hw : f.h.wm &&& s.me.dcMask ≠ 0#4) : issueS f body s = s := by
  have h2 : (f.sysOnly && !s.me.sys) = false := by
    rcases hb : f.sysOnly with _ | _
    · rfl
    · simp [hp hb]
  simp [issueS, wakeRetry_live hl, h2, hw]

/-- A false guard (R127): the instruction retires; its predicates are cleared where CM asks for it. -/
theorem issueS_off {s : State} {f : Form} (body : State → (Nat → Word) → Res) (hl : s.me.st = .live)
    (hp : f.sysOnly = true → s.me.sys = true) (hc : ∀ o ∈ s.me.outst, o.prec = false) (hw : f.h.wm &&& s.me.dcMask = 0#4)
    (hg : s.me.guard f.h = false) :
    issueS f body s = done s (match f.clear with
      | some (pt, pf) => (s.me.setPred pt false).setPred pf false
      | none => s.me) := by
  have h1 : s.me.drains = false := by simpa [Ctx.drains] using hc
  have h2 : (f.sysOnly && !s.me.sys) = false := by
    rcases hb : f.sysOnly with _ | _
    · rfl
    · simp [hp hb]
  simp only [issueS, wakeRetry_live hl, h1, h2, hw, hg]
  rcases f.clear with _ | ⟨pt, pf⟩ <;> simp [retire, done]

/-- An S-marked instruction in user mode (R38): the PRIV fault, before wait and guard. -/
theorem issueS_priv {s : State} {f : Form} (body : State → (Nat → Word) → Res) (hl : s.me.st = .live)
    (hc : ∀ o ∈ s.me.outst, o.prec = false) (hp : f.sysOnly = true) (hu : s.me.sys = false) :
    issueS f body s = takeFault s { code := cPriv } := by
  have h1 : s.me.drains = false := by simpa [Ctx.drains] using hc
  simp [issueS, wakeRetry_live hl, h1, hp, hu]

end Sys2Proof.Machine
end

