-- ==== Sys2Proof/Laws/Mu.lean ====
section
/-! SUPPORT. The issue of one move alone: its engine (R42), and what the issue makes of the move's answer (R44, R45, R223). -/

namespace Sys2Proof

theorem Rm.code_lt (r : Rm) : r.code < 128 := by cases r <;> decide
theorem OFmt.code_lt (r : OFmt) : r.code < 128 := by cases r <;> decide
theorem PpOp.code_lt (r : PpOp) : r.code < 128 := by cases r <;> decide
theorem ArMode.code_lt (r : ArMode) : r.code < 128 := by cases r <;> decide
theorem Accum.code_lt (r : Accum) : r.code < 128 := by cases r <;> decide
theorem FeedSrc.code_lt (r : FeedSrc) : r.code < 128 := by cases r <;> simp [FeedSrc.code]; omega
theorem PalOp.code_lt (r : PalOp) : r.code < 128 := by
  obtain ⟨o, x, y⟩ := r
  cases o <;> cases x <;> cases y <;> decide
theorem OutPort.code_lt (r : OutPort) : r.code < 256 := by cases r <;> decide

end Sys2Proof

namespace Sys2Proof.Machine

theorem slotWord_engine (hold : Bool) (dst src mod : Nat) (hs : src < 256) (hm : mod < 128) :
    slotWord hold dst src mod / 2 ^ 20 % 8 = dst / 2 ^ 5 % 8 := by
  unfold slotWord
  cases hold <;> simp <;> omega

theorem startCode_lt (r : Option OutPort) : (r.map OutPort.code).getD 0xFF < 256 := by
  cases r with
  | none => decide
  | some p => exact p.code_lt

/-- The engine of every move (R42, R227). -/
theorem engineOf_seq (k : Bool) (t : JumpSrc) (n : LoopSrc) (c : Bool) :
    engineOf (.seqTake k) = 0 ∧ engineOf (.seqJump k t) = 0 ∧ engineOf (.seqLoopn k n) = 0 ∧ engineOf (.seqEndl k) = 0 ∧
    engineOf (.seqDone k c) = 0 ∧ engineOf (.seqIdle k) = 0 := by
  have hj : t.src < 256 := by cases t <;> simp [JumpSrc.src]
  have hj' : t.mod < 128 := by cases t <;> simp [JumpSrc.mod]; omega
  have hl : n.src < 256 := by
    cases n with
    | imm c => simp [LoopSrc.src]
    | out p => exact p.code_lt
  have hl' : n.mod < 128 := by cases n <;> simp [LoopSrc.mod]; omega
  have hc : c.toNat < 128 := by cases c <;> decide
  refine ⟨?_, ?_, ?_, ?_, ?_, ?_⟩ <;> simp only [engineOf, encodeMove, Option.getD] <;>
    rw [slotWord_engine] <;> omega

theorem engineOf_rest (k half en : Bool) (st : Option OutPort) (b : BitVec 2) (r : BitVec 4) (b5 : BitVec 5) (n6 : BitVec 6) (n : BitVec 7) (f : FeedSrc)
    (md : ArMode) (p : PalOp) (v : Accum) (fm : OFmt) (rm : Rm) (op : PpOp) :
    engineOf (.afFeed k st n) = 1 ∧ engineOf (.afBase k n) = 1 ∧ engineOf (.afFrom k f) = 1 ∧
    engineOf (.blLoad k) = 2 ∧ engineOf (.blSwap k) = 2 ∧ engineOf (.blHad k half) = 2 ∧ engineOf (.blPop k) = 2 ∧
    engineOf (.arMode k md) = 3 ∧ engineOf (.arPal k p) = 3 ∧ engineOf (.arDest k b) = 3 ∧ engineOf (.arAccum k v) = 3 ∧
    engineOf (.acClear k b) = 4 ∧ engineOf (.acSel k b) = 4 ∧ engineOf (.acPclr k b) = 4 ∧
    engineOf (.drDrain k st n) = 5 ∧ engineOf (.drFmt k fm) = 5 ∧ engineOf (.drScale k n) = 5 ∧ engineOf (.drRound k rm) = 5 ∧
    engineOf (.ppOp k op) = 6 ∧ engineOf (.ppK k n) = 6 ∧ engineOf (.ppPasses k n6) = 6 ∧ engineOf (.ppNcol k n) = 6 ∧
    engineOf (.owOpen k r) = 7 ∧ engineOf (.owWrite k en b5) = 7 ∧ engineOf (.owSealout k) = 7 := by
  have h1 := startCode_lt st
  have h2 := f.code_lt
  have h3 := md.code_lt
  have h4 := p.code_lt
  have h5 := v.code_lt
  have h6 := fm.code_lt
  have h7 := rm.code_lt
  have h8 := op.code_lt
  have h9 : half.toNat < 128 := by cases half <;> decide
  have h10 : en.toNat * 64 + b5.toNat < 128 := by cases en <;> simp <;> omega
  refine ⟨?_, ?_, ?_, ?_, ?_, ?_, ?_, ?_, ?_, ?_, ?_, ?_, ?_, ?_, ?_, ?_, ?_, ?_, ?_, ?_, ?_, ?_, ?_, ?_, ?_⟩ <;>
    simp only [engineOf, encodeMove] <;> (rw [Option.getD_some, slotWord_engine] <;> first | exact h1 | omega)

theorem slotsOf_one (e : Nat) (i : Instr) (h : e < 8) : slotsOf [(e, i)] [] = [(e, i)] := by interval_cases e <;> rfl

theorem moveOrder_one (i : Instr) : moveOrder [i] = [i] := by
  unfold moveOrder
  cases h : (setting {} i) <;> cases h' : lastTrigger i <;> simp [h, h'] <;> (cases i <;> simp_all [setting, lastTrigger])

/-- The issue of move `i` of engine `e` alone, on a unit at the bundle's first issue with nothing held: what becomes of the move's answer. -/
theorem muExec_one (s : State) (e : Nat) (i : Instr) (hh : (s.mu s.curMu).held = []) (hr : (s.mu s.curMu).rep = 0)
    (he : engineOf i = e) (h8 : e < 8) :
    muExec i s = .next (
      match muMove ⟨s.curMu, s.mu s.curMu, (s.mu s.curMu).bpc + 8, true, true⟩ i s with
      | .wait => s
      | .bad r => muHalt s s.curMu cMuBundle r 0 0
      | .poison b => haltPoison s s.curMu b
      | .ok t c =>
        let u := s.mu s.curMu
        let v := t.mu s.curMu
        let h := if holds i then [(e, i)] else []
        match c with
        | .on => t.setMu s.curMu { v with rep := 0, bpc := u.bpc + 8, fell := false, lastBpc := u.bpc, held := h }
        | .jump p => t.setMu s.curMu { v with rep := 0, bpc := p, fell := false, lastBpc := u.bpc, held := h }
        | .rest => t.setMu s.curMu { v with rep := 0, bpc := u.bpc + 8, fell := false, lastBpc := u.bpc, st := .resting, held := [],
                                            loops := [], feeds := [] }) := by
  simp only [muExec, issueBundle, hr, hh, he, slotsOf_one e i h8, List.map, moveOrder_one, runMoves, holdNext]
  cases hm : muMove ⟨s.curMu, s.mu s.curMu, (s.mu s.curMu).bpc + 8, true, true⟩ i s with
  | wait => simp [hm]
  | bad r => simp [hm]
  | poison r => simp [hm]
  | ok t c =>
    simp only [beq_self_eq_true, hm]
    cases c <;> cases hk : holds i <;> simp [hk]

end Sys2Proof.Machine
end

