-- ==== Sys2Proof/Laws/Num.lean ====
section
/-! SUPPORT. Laws of the number helpers: results and operands of the two integer widths as bit vectors. -/

namespace Sys2Proof.Machine

theorem sext_toInt (v : Nat) {n : Nat} (h : 0 < n) : sext v n = (BitVec.ofNat n v).toInt := by
  obtain ⟨m, rfl⟩ := Nat.exists_eq_succ_of_ne_zero h.ne'
  have e : 2 ^ (m + 1) = 2 * 2 ^ m := by rw [pow_succ]; ring
  have hlt : v % 2 ^ (m + 1) < 2 ^ (m + 1) := Nat.mod_lt _ (by positivity)
  simp only [sext, BitVec.toInt, BitVec.toNat_ofNat, Nat.succ_eq_add_one, Nat.add_sub_cancel, Nat.cast_pow, Nat.cast_ofNat]
  split_ifs <;> first | rfl | (exfalso; omega)

theorem wrap_eq (v : Int) (n : Nat) : wrap v n = (BitVec.ofInt n v).toNat := by simp [wrap, BitVec.toNat_ofInt]

theorem intTy_res_i64 (v : Int) : Sys2Proof.IntTy.res .i64 v = BitVec.ofInt 64 v := by
  simp only [IntTy.res, IntTy.w, sext_toInt _ (Nat.succ_pos 63), wrap_eq, BitVec.ofNat_toNat, BitVec.setWidth_eq, BitVec.ofInt_toInt]

theorem intTy_res_i32 (v : Int) : Sys2Proof.IntTy.res .i32 v = (BitVec.ofInt 32 v).signExtend 64 := by
  simp only [IntTy.res, IntTy.w, sext_toInt _ (Nat.succ_pos 31), wrap_eq, BitVec.ofNat_toNat, BitVec.setWidth_eq, BitVec.signExtend]

theorem intTy_u_i64 (v : Word) : Sys2Proof.IntTy.u .i64 v = v.toNat := by
  simp [IntTy.u, IntTy.w]; omega

theorem intTy_u_i32 (v : Word) : Sys2Proof.IntTy.u .i32 v = (v.setWidth 32).toNat := by simp [IntTy.u, IntTy.w]

theorem intTy_s_i64 (v : Word) : Sys2Proof.IntTy.s .i64 v = v.toInt := by simp [IntTy.s, IntTy.w, sext_toInt]

theorem intTy_s_i32 (v : Word) : Sys2Proof.IntTy.s .i32 v = (v.setWidth 32).toInt := by
  simp only [IntTy.s, IntTy.w, sext_toInt _ (Nat.succ_pos 31)]
  congr 1

/-! ### Exact results narrowed to w bits -/

theorem ofInt_add_toNat {w : Nat} (x y : BitVec w) : BitVec.ofInt w ((x.toNat : Int) + y.toNat) = x + y := by
  rw [BitVec.ofInt_add]; simp

theorem ofInt_sub_toNat {w : Nat} (x y : BitVec w) : BitVec.ofInt w ((x.toNat : Int) - y.toNat) = x - y := by
  rw [sub_eq_add_neg, BitVec.ofInt_add, BitVec.ofInt_neg, BitVec.sub_eq_add_neg]; simp

theorem ofInt_mul_toNat {w : Nat} (x y : BitVec w) : BitVec.ofInt w ((x.toNat : Int) * y.toNat) = x * y := by
  rw [BitVec.ofInt_mul]; simp

theorem ofInt_toNat {w : Nat} (x : BitVec w) : BitVec.ofInt w (x.toNat : Int) = x := by simp

theorem ofInt_toNat_low (x : Word) : BitVec.ofInt 32 (x.toNat : Int) = x.setWidth 32 := by
  apply BitVec.eq_of_toNat_eq; simp

/-- Bits 2w-1:w of an integer. -/
theorem ofInt_high (w : Nat) (i : Int) : BitVec.ofInt w (i / 2 ^ w) = ((BitVec.ofInt (2 * w) i) >>> w).setWidth w := by
  have hN : (0 : Int) < 2 ^ w := by positivity
  have e : i / 2 ^ w % 2 ^ w = i % (2 ^ w * 2 ^ w) / 2 ^ w % 2 ^ w := by
    conv_lhs => rw [← Int.mul_ediv_add_emod i (2 ^ w * 2 ^ w), mul_assoc, add_comm, Int.add_mul_ediv_left _ _ hN.ne']
    exact Int.add_mul_emod_self_left _ _ _
  apply BitVec.eq_of_toNat_eq
  have p2 : (2 : Int) ^ (2 * w) = 2 ^ w * 2 ^ w := by rw [two_mul, pow_add]
  simp only [BitVec.toNat_ofInt, BitVec.toNat_setWidth, BitVec.toNat_ushiftRight, Nat.shiftRight_eq_div_pow]
  push_cast
  rw [e, p2]
  obtain ⟨n, hn⟩ := Int.eq_ofNat_of_zero_le (Int.emod_nonneg i (mul_pos hN hN).ne')
  rw [hn]
  norm_cast

end Sys2Proof.Machine
end

