-- ==== Sys2Proof/Laws/Shell.lean ====
section
/-! SUPPORT. Every swarm instruction runs in the issue shell of Operands.lean, with its header, its mark S and the predicates it clears. -/

namespace Sys2Proof.Machine

open Claims

/-- The shell of each swarm instruction. -/
theorem exec_shell (i : Instr) (h : Hdr) (hh : header i = some h) (s : State) :
    ∃ f body, exec i s = issue f body s ∧ f.h = h ∧ f.sysOnly = privileged i ∧ f.clear = clears i := by
  cases i <;> simp only [header, Option.some.injEq, reduceCtorEq] at hh
  case icmp b _ => subst hh; cases b <;> exact ⟨_, _, rfl, rfl, rfl, rfl⟩
  case inval mm _ => subst hh; cases mm <;> exact ⟨_, _, rfl, rfl, rfl, rfl⟩
  all_goals subst hh; exact ⟨_, _, rfl, rfl, rfl, rfl⟩

end Sys2Proof.Machine
end

