-- ==== Sys2Proof/Tests/Slice0.lean ====
section
/-! SUPPORT. The model tried on small states: the checks of well-formedness, words of the manual decoded, worked examples of the manual, and for each statement
states and operands that meet its hypotheses. -/

namespace Sys2Proof.Tests

open Sys2Proof.Machine Sys2Proof.Claims

/-! ### A small module -/

/-- Registers that hold sixteen times their number. -/
def regs : Vector Word 64 := Vector.ofFn fun i => BitVec.ofNat 64 (i.val * 16)

/-- A context that issues at 0x1000 in system mode. -/
def ctx0 : Ctx := { st := .live, sys := true, pc := 0x1000, x := regs }

/-- Die 0 and cluster 0 are up; context 17, slot 1 of core 1, issues, and holds `x`. -/
def withCtx (x : Ctx) : State :=
  { State.reset with todo := [], cur := 17, slots := [(17, { ctx := x })], clusters := [(0, { ready := true })], dies := [(0, { ready := true })] }

def base : State := withCtx ctx0

/-- The state that an instruction leaves. -/
def after (i : Instr) (s : State) : State :=
  match exec i s with
  | .next t => t
  | _ => s

/-- A context with nothing outstanding and no counter raised is ready for an instruction without header. -/
theorem ready_of {s : State} {h : Hdr} (hl : s.me.st = .live) (ho : s.me.outst = []) (hw : h.wm &&& s.me.dcMask = 0#4) (hg : s.me.guard h = true)
    (hd : ∀ n : Fin 4, h.sc = some n → s.me.dc[n] ≠ 15#4) : Ready s h :=
  ⟨hl, (by rw [ho]; simp), hw, hg, hd⟩
theorem readyMem_of {s : State} {h : Hdr} (hr : Ready s h) (ho : s.me.outst = []) : ReadyMem s h :=
  ⟨hr, fun o h => by rw [ho] at h; cases h⟩
theorem plain_of {s : State} {r : Reg} (ho : s.me.outst = []) (hr : SrcPlain r) : Plain s r := ⟨hr, fun o h => by rw [ho] at h; cases h⟩
theorem target_of {s : State} {r : Reg} (ho : s.me.outst = []) (hr : DstPlain r) : Target s r := ⟨hr, fun o h => by rw [ho] at h; cases h⟩

theorem quiet_of {x : Ctx} {r : Reg} (h : ∀ o ∈ x.outst, ∀ w ∈ o.writes, w.1 ≠ r.toNat) : Quiet x r := h
theorem not_drain {st : CState} (h : st = .live) : ∀ f, st ≠ .parked (.drain f) := fun _ => by rw [h]; simp

/-- The common premises: a ready context, targets x0 and x55, sources x0, x6 and x61. -/
structure Set (s : State) : Prop where
  ready : Ready s {}
  d0 : Target s 0
  d : Target s 55
  a0 : Plain s 0
  a : Plain s 6
  b : Plain s 7
  c : Plain s 61
  dc : ∀ n : Fin 4, s.me.dc[n] = 0#4

theorem set_of {s : State} (hl : s.me.st = .live) (ho : s.me.outst = []) (hd : ∀ n : Fin 4, s.me.dc[n] = 0#4) : Set s where
  ready := ready_of hl ho (by simp) (by simp [Ctx.guard, Ctx.pred]) (by simp)
  d0 := target_of ho (by simp [DstPlain])
  d := target_of ho (by simp [DstPlain])
  a0 := plain_of ho (by simp [SrcPlain])
  a := plain_of ho (by simp [SrcPlain])
  b := plain_of ho (by simp [SrcPlain])
  c := plain_of ho (by simp [SrcPlain])
  dc := hd

theorem set_base : Set base := set_of rfl rfl (by decide)



/-- As `base`, with some registers holding other values. -/
def holding (l : List (Fin 64 × Nat)) : State := withCtx { ctx0 with x := l.foldl (fun x p => x.set p.1 (BitVec.ofNat 64 p.2)) regs }

theorem set_holding (l : List (Fin 64 × Nat)) : Set (holding l) := set_of rfl rfl (fun n => by fin_cases n <;> rfl)

/-! ### Hypotheses that can be met: operations on registers -/

theorem witness_IntegerOperationsWriteTheirResult : Set base := set_base
theorem witness_DivisionTruncatesAndNeverTraps : Set (holding [(6, 2 ^ 63), (7, 2 ^ 64 - 1)]) ∧ Set base ∧ base.me.reg 61 = 0 :=
  ⟨set_holding _, set_base, rfl⟩
theorem witness_ShiftsFieldsAndMixerWriteTheirResult : Set base := set_base
theorem witness_FloatArithmeticRoundsOnceOrGivesNaN_FloatResults : Set base := set_base
theorem witness_FloatMinMaxAndClassByPatterns : Set base := set_base

/-- Operands of each invalid operation in FP32: two infinities, a zero and an infinity, a product and a sum of infinities, two zeros, a negative
number, a negative zero, a number over zero. -/
theorem witness_FloatArithmeticRoundsOnceOrGivesNaN_FloatInvalid :
    (isInf .f32 0x7F800000 ∧ isInf .f32 0xFF800000 ∧ neg .f32 0x7F800000 ≠ neg .f32 0xFF800000) ∧
    (isZero .f32 0x80000000 ∧ isInf .f32 0x7F800000) ∧
    (isInf .f32 0x7F800000 ∧ !isNaN .f32 1 ∧ !isZero .f32 1 ∧ isInf .f32 0xFF800000 ∧ (neg .f32 0x7F800000 != neg .f32 1) ≠ neg .f32 0xFF800000) ∧
    (isZero .f32 0 ∧ isZero .f32 0x80000000) ∧ (neg .f32 0x80000001 ∧ !isZero .f32 0x80000001) ∧ (neg .f32 0x80000000 ∧ isZero .f32 0x80000000) ∧
    (mag .f32 0x7F7FFFFF < infPat .f32 ∧ !isZero .f32 0x7F7FFFFF ∧ isZero .f32 0) ∧
    ∀ x y z : Nat, Set (holding [(6, x), (7, y), (8, z)]) :=
  ⟨by decide, by decide, by decide, by decide, by decide, by decide, by decide, fun _ _ _ => set_holding _⟩

theorem witness_ComparesAndPredicateOpsWritePredicates : Set base ∧ base.me.p.getLsbD 0 = true := ⟨set_base, by decide⟩

/-- x6 is 0x60 and x7 is 0x63: a base whose targets are aligned, and one whose targets are not; the pc at an odd place. -/
theorem witness_BranchesReachAlignedTargets :
    let s := holding [(7, 0x63)]
    let u := withCtx { ctx0 with pc := 0x1004 }
    Set s ∧ Set u ∧ (branchTarget s 0x1FFFFFFF).toNat % 8 = 0 ∧ (branchTarget u 1).toNat % 8 ≠ 0 ∧
    (s.me.reg 6 + 8 * (1 : BitVec 29).signExtend 64).toNat % 8 = 0 ∧ (s.me.reg 7 + 8 * (1 : BitVec 29).signExtend 64).toNat % 8 ≠ 0 :=
  ⟨set_holding _, set_of rfl rfl (by decide), by decide, by decide, by decide, by decide⟩

/-! ### Holds and guards -/

/-- An access outstanding for register x9 under counter 1. -/
def pend (acq : Bool) : Outst :=
  { tag := 5, writes := [(9, 7)], pred := none, ctr := some 1, load := true, acq := acq, posted := none, addr := 0, size := 8, sx := false, pc := 0
    flt := none, raced := [], die := none, prec := false }

/-- A context in user or system mode, with counter 1 at 15, one access outstanding, precise or not. -/
def busy (sys prec acq : Bool) : State :=
  withCtx { ctx0 with sys := sys, prec := prec, outst := [pend acq], dc := #v[0, 15, 0, 0] }

theorem witness_FalseGuardPerformsNothing :
    header (.icmp { gn := true } .eq .i64 1 2 3 (.reg 4) true) = some { gn := true } ∧ (busy false false false).me.st = .live ∧
    (busy false false false).me.guard { gn := true } = false ∧ (2#4 &&& (busy false false false).me.dcMask ≠ 0#4) ∧
    (0#4 &&& (busy false false false).me.dcMask = 0#4) ∧ clears (.icmp { gn := true } .eq .i64 1 2 3 (.reg 4) true) = some (1, 2) ∧
    privileged (.eret { gn := true }) ∧ (busy true false false).me.sys = true ∧ (∀ o ∈ (busy false false false).me.outst, o.prec = false) :=
  ⟨rfl, rfl, by decide, by decide, by decide, rfl, rfl, rfl, by decide⟩

theorem witness_BusyCountersHoldTheIssue :
    header (.fence { sc := some 1 } .acq .die) = some { sc := some 1 } ∧ (busy false false true).me.st = .live ∧
    (2#4 &&& (busy false false true).me.dcMask ≠ 0#4) ∧ (busy false false true).me.dc[(1 : Fin 4)] = 15#4 ∧
    (busy false false true).me.guard { sc := some 1 } = true ∧ (∃ o ∈ (withCtx { ctx0 with outst := [{ pend false with prec := true }] }).me.outst, o.prec = true) ∧
    memoryInstr (.fence { sc := some 1 } .acq .die) = true ∧ (∃ o ∈ (busy false false true).me.outst, o.acq = true) :=
  ⟨rfl, rfl, by decide, rfl, by decide, ⟨{ pend false with prec := true }, by decide, rfl⟩, rfl, pend true, by decide, rfl⟩

theorem witness_PrivilegedRaisesPrivInUserMode :
    header (.eret {}) = some {} ∧ privileged (.eret {}) = true ∧ (withCtx { ctx0 with sys := false }).me.st = .live ∧
    (withCtx { ctx0 with sys := false }).me.sys = false ∧ (∀ o ∈ (withCtx { ctx0 with sys := false }).me.outst, o.prec = false) :=
  ⟨rfl, rfl, rfl, rfl, by decide⟩

/-! ### Hypotheses that can be met: streams and queues as operands -/

/-- A binding of two elements of two bytes, the given elements in its FIFO, `n` of them already taken or pushed. -/
def stream (out : Bool) (fifo : List Word) (n : Nat) : Machine.Stream :=
  { out := out, esz := 2, sx := true, blk := ⟨0, 0, 3, 3, 3, 1, 0, 2, 0⟩, tok := 9, gen := 0, deps := [], sys := true, fifo := fifo, moved := 0, taken := n, fault := none
    told := false }

/-- Streams 0 to 3: one whose last element stands in its FIFO, one with two elements and more to come, one that waits, one to memory. -/
def streaming : State :=
  withCtx { ctx0 with streams := [(0, stream false [0x8001] 2), (1, stream false [5, 0xFFFF] 0), (2, stream false [] 1), (3, stream true [1] 1)] }

/-- A stream to memory with a full FIFO and elements to come, two streams past their end; x59 is unbound. -/
def streamEnds : State :=
  withCtx { ctx0 with streams := [(0, { stream true (List.replicate 16 0) 20 with blk := ⟨0, 0, 3, 3, 40, 1, 0, 2, 0⟩ }), (1, stream true [] 3), (2, stream false [] 3)] }

theorem set_streaming : Set streaming := set_of rfl rfl (by decide)
theorem set_streamEnds : Set streamEnds := set_of rfl rfl (by decide)

theorem witness_StreamAndQueueOperandsTakeAndPush_StreamSources :
    Set streaming ∧ Set streamEnds ∧
    (tget streaming.me.streams 1 = some (stream false [5, 0xFFFF] 0) ∧ (stream false [5, 0xFFFF] 0).taken + 2 < (stream false [5, 0xFFFF] 0).total) ∧
    (tget streaming.me.streams 0 = some (stream false [0x8001] 2) ∧ (stream false [0x8001] 2).taken + 1 = (stream false [0x8001] 2).total) ∧
    (tget streaming.me.streams 2 = some (stream false [] 1) ∧ (stream false [] 1).taken < (stream false [] 1).total) ∧
    (tget streamEnds.me.streams 2 = some (stream false [] 3) ∧ (stream false [] 3).taken = (stream false [] 3).total) :=
  ⟨set_streaming, set_streamEnds, ⟨rfl, by decide⟩, ⟨rfl, by decide⟩, ⟨rfl, by decide⟩, ⟨rfl, by decide⟩⟩

theorem witness_StreamAndQueueOperandsTakeAndPush_StreamDestinations :
    (tget streaming.me.streams 3 = some (stream true [1] 1) ∧ (stream true [1] 1).taken < (stream true [1] 1).total ∧ (stream true [1] 1).fifo.length < 16) ∧
    (∃ t, tget streamEnds.me.streams 0 = some t ∧ t.out = true ∧ t.taken < t.total ∧ 16 ≤ t.fifo.length) ∧
    (tget streamEnds.me.streams 1 = some (stream true [] 3) ∧ (stream true [] 3).total ≤ (stream true [] 3).taken) ∧
    (tget streaming.me.streams 1).isSome ∧ tget streamEnds.me.streams 3 = none :=
  ⟨⟨rfl, by decide, by decide⟩, ⟨_, rfl, rfl, by decide, by decide⟩, ⟨rfl, by decide⟩, rfl, rfl⟩

/-- Endpoint 2 of core 1 receives from and sends to endpoint 3 of core 2; x60 and x61 are bound to it. -/
def queued (occ allow buf : Nat) : State :=
  (withCtx { ctx0 with upq := some 2, downq := some 2 }).setCore 1
    { rx := [(2, { isOpen := true, gen := 1, base := 64, slotw := 4, nslot := 4, peer := epAddr 2 3, occ := occ })]
      tx := [(2, { isOpen := true, gen := 1, peer := epAddr 2 3, allow := allow, limit := 24, buf := buf, rgen := some 1 })] }

theorem set_queued (o a b : Nat) : Set (queued o a b) := set_of rfl rfl (fun n => by fin_cases n <;> rfl)

theorem witness_StreamAndQueueOperandsTakeAndPush_QueueRegisters :
    Set base ∧ base.me.upq = none ∧ base.me.downq = none ∧ Set (queued 0 0 8) ∧ (queued 0 0 8).me.upq = some 2 ∧
    ((queued 0 0 8).myCore.rxEp 2).occ = 0 ∧ 8 ≤ ((queued 0 0 8).myCore.txEp 2).buf ∧ ((queued 0 0 8).myCore.txEp 2).isOpen = true ∧
    ((queued 0 0 8).myCore.txEp 2).broken = false ∧ Set (queued 1 1 7) ∧ 0 < ((queued 1 1 7).myCore.rxEp 2).occ ∧
    0 < ((queued 1 1 7).myCore.txEp 2).allow ∧ ((queued 1 1 7).myCore.txEp 2).buf < 8 :=
  ⟨set_base, rfl, rfl, set_queued _ _ _, rfl, by decide, by decide, by decide, by decide, set_queued _ _ _, by decide, by decide, by decide⟩

/-! ### Hypotheses that can be met: accesses to memory -/

/-- As `holding`, with dies 0 and 1 up and bytes in the places that the accesses below name. -/
def memory (l : List (Fin 64 × Nat)) : State :=
  { holding l with
    clusters := [(0, { ready := true }), (1, { ready := true })], dies := [(0, { ready := true }), (1, { ready := true })]
    mem := memWrite (memWrite (memWrite [] 0x200 16 0xF1F2F3F4F5F6F7F8A1A2A3A4A5A6A788) (locSp 0 0x200) 16 0x11223344556677889900AABBCCDDEEFF) (locLs 1 0x200) 8
      0x8877665544332211 }

def mA : MAddr := ⟨6, 0, 0⟩

theorem set_memory (l : List (Fin 64 × Nat)) : Set (memory l) := set_of rfl rfl (fun n => by fin_cases n <;> rfl)
theorem calm (l : List (Fin 64 × Nat)) : Undisturbed (memory l) :=
  ⟨rfl, rfl, by simp [memory, holding, withCtx, ctxCl, State.cluster, tget]⟩
theorem readyMem_memory (l : List (Fin 64 × Nat)) (c : Option (Fin 4)) : ReadyMem (memory l) { sc := c } :=
  readyMem_of (ready_of rfl rfl (by simp) (by simp [Ctx.guard, Ctx.pred]) fun n _ => by fin_cases n <;> simp [(set_memory l).dc]) rfl

/-- The own local store, the own scratchpad, memory of the own die and of die 1, each by the address of its 16 bytes. -/
def atLs : State := memory [(6, 0xFE00000200)]
def atSp : State := memory [(6, 0xFF00000200)]
def atDie : State := memory [(6, 0x200)]
def atFar : State := memory [(6, 0x1000000200)]

/-- Translation on under address space 3, with these entries in the core's DTLB; the page at 0x12345000 in the frame at 0x9000. -/
def translates (es : List TlbEntry) : State := (memory []).setCore 1 { atp := 1 + 3 * 2 ^ 48, dtlb := es }
def pageEntry : TlbEntry := ⟨3, false, 0x12345000, 12, 0x9000, true, true, false, false, true, false⟩

theorem witness_AddressesLeadWhereTheMapSays :
    bit atLs.myCore.atp.toNat 0 = false ∧ ctxSlot atLs.cur ≠ 15 ∧ (2 ^ 56 ≤ 2 ^ 57 - 16 ∧ 2 ^ 57 - 16 < 2 ^ 57) ∧
    (0xFE0001FFF0 / 2 ^ 32 = 0xFE ∧ 0xFE0001FFF0 % 2 ^ 32 + 16 ≤ atLs.myCore.lsplit * 2 ^ 15) ∧
    (0xFF007FFFF0 / 2 ^ 32 = 0xFF ∧ 0xFF007FFFF0 % 2 ^ 32 < 2 ^ 25 ∧ sealedAt atLs (ctxCl atLs.cur) 0x7FFFF0 16 = false) ∧
    (0xC0 ≤ 0xC1007FFFF0 / 2 ^ 32 ∧ 0xC1007FFFF0 / 2 ^ 32 ≤ 0xDF ∧ 0xC1007FFFF0 % 2 ^ 32 + 16 ≤ 2 ^ 23 ∧ (atLs.cluster 1).ready = true ∧
      sealedAt atLs 1 0x7FFFF0 16 = false) ∧
    (2 ^ 39 - 16 < 2 ^ 56 ∧ (2 ^ 39 - 16) / 2 ^ 32 ≠ 0xFE ∧ atLs.me.sys = true ∧ atLs.dieGone (homeDie 0x1FFFFFFFF0) = false) ∧
    (bit (translates []).myCore.atp.toNat 0 = true ∧ matching (translates []) .read 0x12345008 = [] ∧ 0x12345009 % 8 ≠ 0) ∧
    (matching (translates [pageEntry]) .write 0x12345008 = [pageEntry] ∧ entryLeads (translates [pageEntry]) pageEntry .write 0x12345008 = .ok (.phys 0x9008)) ∧
    (let e := { pageEntry with w := false }; matching (translates [e]) .amo 0x12345008 = [e] ∧ entryLeads (translates [e]) e .amo 0x12345008 = .flt cProt) ∧
    (let e := { pageEntry with d := false }; matching (translates [e]) .write 0x12345008 = [e] ∧ entryLeads (translates [e]) e .write 0x12345008 = .miss 3) ∧
    (let e := { pageEntry with frame := 2 ^ 40 }; entryLeads (translates [e]) e .read 0x12345008 = .flt cProt) ∧
    (let e := { pageEntry with frame := 2 ^ 36 * 3 }; entryLeads { translates [e] with pkgLost := 8 } e .read 0x12345008 = .flt cDieLost) ∧
    matching (translates [pageEntry, { pageEntry with frame := 0xA000 }]) .read 0x12345008 = [pageEntry, { pageEntry with frame := 0xA000 }] := by decide

theorem witness_LoadsWriteTheirRegister :
    Set atLs ∧ ReadyMem atLs {} ∧ ReadyMem atDie { sc := some 1 } ∧ Undisturbed atLs ∧
    (Instr.ld {} .b16 false false .cl 8 mA).wf = true ∧ plainDst 8 = true ∧
    resolveCtx atLs (ea atLs mA 8) 8 true .read = (.ok (.ls 1 0x200), atLs) ∧
    (resolveCtx atSp (ea atSp mA 16) 16 false .read = (.ok (.sp 0 0 0x200), atSp) ∧ pathOf 1 (.sp 0 0 0x200) = .near) ∧
    (resolveCtx atDie (ea atDie mA 2) 2 true .read = (.ok (.phys 0x200), atDie) ∧ pathOf 1 (.phys 0x200) = .onDie) ∧
    (resolveCtx atFar (ea atFar mA 4) 4 false .read = (.ok (.phys 0x1000000200), atFar) ∧ pathOf 1 (.phys 0x1000000200) = .offDie) ∧
    locEcc atFar (.phys 0x1000000200) 4 = false :=
  ⟨set_memory _, readyMem_memory _ none, readyMem_memory _ (some 1), calm _, by decide, by decide, by decide, ⟨by decide, by decide⟩,
    ⟨by decide, by decide⟩, ⟨by decide, by decide⟩, by decide⟩

/-- A core with all its 64 posted requests outstanding. -/
def full64 : State := atFar.setCore 1 { outst := 64 }

theorem witness_StoresWriteTheirBytesOnly :
    (Instr.st {} .b16 true .cl 8 mA).wf = true ∧
    resolveCtx atLs (ea atLs mA 8) 8 false .write = (.ok (.ls 1 0x200), atLs) ∧
    resolveCtx atDie (ea atDie mA 16) 16 false .write = (.ok (.phys 0x200), atDie) ∧
    resolveCtx atFar (ea atFar mA 1) 1 false .write = (.ok (.phys 0x1000000200), atFar) ∧ atFar.myCore.outst < 64 ∧
    resolveCtx full64 (ea full64 mA 1) 1 false .write = (.ok (.phys 0x1000000200), full64) ∧ 64 ≤ full64.myCore.outst ∧ Set full64 :=
  ⟨by decide, by decide, by decide, by decide, by decide, by decide, by decide, set_of rfl rfl (fun n => by fin_cases n <;> rfl)⟩

theorem witness_AtomicsExchangeAndAnswerTheOldWord :
    (Instr.amo {} .fadd .i32 .rlx .die false 8 6 7).wf = true ∧
    resolveCtx atLs (atLs.me.reg 6).toNat 8 false .amo = (.ok (.ls 1 0x200), atLs) ∧
    resolveCtx atSp (atSp.me.reg 6).toNat 4 false .amo = (.ok (.sp 0 0 0x200), atSp) ∧
    resolveCtx atDie (atDie.me.reg 6).toNat 8 false .amo = (.ok (.phys 0x200), atDie) := by decide

/-- Translation is on and the TLBs are empty. -/
def translating : State := atDie.setCore 1 { atp := 1 }
/-- An address that no size divides. -/
def odd : State := memory [(6, 0x201)]

theorem witness_FaultingAccessPerformsNothing :
    resolveCtx odd (ea odd mA 2) 2 true .read = (.flt cAlign, odd) ∧ resolveCtx odd (ea odd mA 16) 16 false .write = (.flt cAlign, odd) ∧
    resolveCtx odd (odd.me.reg 6).toNat 4 false .amo = (.flt cAlign, odd) ∧ (∃ q, resolveCtx translating (ea translating mA 8) 8 true .read = (.miss q, translating)) ∧
    (∃ q, resolveCtx translating (ea translating mA 8) 8 false .write = (.miss q, translating)) ∧
    (∃ q, resolveCtx translating (translating.me.reg 6).toNat 8 false .amo = (.miss q, translating)) ∧ ReadyMem translating {} :=
  ⟨by decide, by decide, by decide, ⟨0, by decide⟩, ⟨1, by decide⟩, ⟨1, by decide⟩, readyMem_of (ready_of rfl rfl rfl (by decide) (by decide)) rfl⟩

/-- A load and a posted store outstanding. -/
def fencing : State := withCtx { ctx0 with outst := [pend false, { pend false with load := false, posted := some 3, writes := [], ctr := none }] }

theorem witness_FencesHoldAndLineHintsGoOn :
    ReadyMem fencing {} ∧ (∃ o ∈ fencing.me.outst, o.load = true) ∧ (∃ o ∈ fencing.me.outst, o.posted = none ∨ Scope.sys = .sys) ∧
    Plain fencing mA.a ∧ ReadyMem atDie { sc := some 1 } ∧ resolveCtx atDie (ea atDie mA 1) 1 false .read = (.ok (.phys 0x200), atDie) ∧
    resolveCtx atSp (ea atSp mA 1) 1 false .read = (.ok (.sp 0 0 0x200), atSp) :=
  ⟨{ live := rfl, precise := by decide, waits := by decide, guard := by decide, room := (fun n h => by cases h), noAcq := by decide }, ⟨pend false, by decide, rfl⟩, ⟨pend false, by decide, .inl rfl⟩,
    ⟨by simp [SrcPlain, mA], fun o ho w hw => by revert w; revert o; decide⟩, readyMem_memory _ (some 1), by decide, by decide⟩

/-! ### Hypotheses that can be met: full/empty words -/

/-- A plain waiting place on the own die, its word full or empty, with the given waiters, all of context 20. -/
def atWord (full : Bool) (fl el : List FeWaiter) : State :=
  let s := memory [(6, 0x200)]
  { s with
    full := if full then [0x100, 0x200] else [0x100]
    feWait := [(0x200, { fl := fl, el := el })]
    slots := tput s.slots 20 { ctx := { ctx0 with st := .parked (.fe 4) } } }

def waiter (op : Nat) : FeWaiter := ⟨4, op, 0x55, 9, 0x200, some 20, none, some 50⟩

theorem readyMem_atWord (f : Bool) (a b : List FeWaiter) : ReadyMem (atWord f a b) {} :=
  readyMem_of (ready_of rfl rfl (by simp) (by simp [Ctx.guard, Ctx.pred]) (by simp)) rfl

theorem witness_FullEmptyPerformsOrWaits_FullEmptyAtOnce :
    ReadyMem (atWord true [] []) {} ∧ ReadyMem (atWord false [] []) {} ∧ Canonical (atWord true [] []) ∧ Canonical (atWord false [] []) ∧
    Undisturbed (atWord true [] []) ∧ pathOf 1 (.phys 0x200) ≠ .offDie ∧ ((atWord true [] []).fe 0x200).fl = [] ∧ ((atWord true [] []).fe 0x200).el = [] ∧
    feResolve (atWord true [] []) (ea (atWord true [] []) mA 8) .amo = (.ok (.phys 0x200), atWord true [] []) ∧ (atWord true [] []).isFull 0x200 = true ∧
    feResolve (atWord true [] []) (ea (atWord true [] []) mA 8) .read = (.ok (.phys 0x200), atWord true [] []) ∧
    feResolve (atWord false [] []) (ea (atWord false [] []) mA 8) .write = (.ok (.phys 0x200), atWord false [] []) ∧
    (atWord false [] []).isFull 0x200 = false ∧ feWindow 0x200 = false :=
  ⟨readyMem_atWord _ _ _, readyMem_atWord _ _ _, ⟨by decide, by decide, by decide⟩, ⟨by decide, by decide, by decide⟩, ⟨by decide, by decide, by decide⟩, by decide, by decide, by decide,
    by decide, by decide, by decide, by decide, by decide, by decide⟩

theorem witness_FullEmptyPerformsOrWaits_FullEmptyWaits :
    ReadyMem (atWord false [waiter 0] []) {} ∧ (atWord false [waiter 0] []).isFull 0x200 = false ∧ ((atWord false [waiter 0] []).fe 0x200).el = [] ∧
    feResolve (atWord false [waiter 0] []) (ea (atWord false [waiter 0] []) mA 8) .amo = (.ok (.phys 0x200), atWord false [waiter 0] []) ∧
    ReadyMem (atWord true [] [waiter 2]) {} ∧ (atWord true [] [waiter 2]).isFull 0x200 = true ∧ ((atWord true [] [waiter 2]).fe 0x200).fl = [] :=
  ⟨readyMem_atWord _ _ _, by decide, by decide, by decide, readyMem_atWord _ _ _, by decide, by decide⟩

theorem head_atWord (f : Bool) (a b : List FeWaiter) (op : Nat) : Head (atWord f a b) (waiter op) 20 where
  ctx := rfl
  parked := rfl
  plain := ⟨by simp [DstPlain, waiter], fun o h => by cases h⟩
  noLog := rfl

/-- Two LDFF waiters, of contexts 20 and 21, ahead of an LDFE of context 22 and another LDFF. -/
def ldff (n : Nat) : FeWaiter := { waiter 1 with tag := n, ctx := some (16 + n) }
def ldfe22 : FeWaiter := { waiter 0 with tag := 6, ctx := some 22, va := 0xFE00000200 }
def crowd : State :=
  let s := atWord true [ldff 4, ldff 5, ldfe22, ldff 7] []
  let off (n : Nat) : Slot := { ctx := { ctx0 with st := .parked (.fe n) } }
  { s with slots := tput (tput (tput s.slots 21 (off 5)) 22 (off 6)) 23 (off 7) }

theorem witness_FullEmptyServiceTakesTheHead :
    (Head (atWord true [waiter 1, waiter 0] []) (waiter 1) 20 ∧ Canonical (atWord true [waiter 1, waiter 0] []) ∧
      (atWord true [waiter 1, waiter 0] []).fe 0x200 = ⟨waiter 1 :: [waiter 0], []⟩ ∧ (atWord true [waiter 1, waiter 0] []).isFull 0x200 = true ∧
      (atWord true [waiter 1, waiter 0] []).eccAt 0x200 8 = false ∧ (waiter 1).op ≤ 1) ∧
    (let s := { atWord true [waiter 1, waiter 0] [] with ecc := [0x200] }; Head s (waiter 1) 20 ∧ Canonical s ∧ s.eccAt 0x200 8 = true) ∧
    (Head (atWord false [waiter 0] [waiter 2, waiter 2]) (waiter 2) 20 ∧ Canonical (atWord false [waiter 0] [waiter 2, waiter 2]) ∧
      (atWord false [waiter 0] [waiter 2, waiter 2]).fe 0x200 = ⟨[waiter 0], waiter 2 :: [waiter 2]⟩ ∧
      (atWord false [waiter 0] [waiter 2, waiter 2]).isFull 0x200 = false) ∧
    ((atWord false [] [waiter 2, waiter 2]).fe 0x200 = ⟨[], waiter 2 :: [waiter 2]⟩ ∧ (atWord false [] [waiter 2, waiter 2]).isFull 0x200 = false) ∧
    ((atWord true [] [waiter 2]).isFull 0x200 = true ∧ ((atWord true [] [waiter 2]).fe 0x200).fl = [] ∧
      (atWord false [waiter 0] []).isFull 0x200 = false ∧ ((atWord false [waiter 0] []).fe 0x200).el = []) ∧
    (Head crowd (ldff 5) 21 ∧ Canonical crowd ∧ (ldff 5).due = some 50 ∧ crowd.fe 0x200 = ⟨[ldff 4] ++ ldff 5 :: [ldfe22, ldff 7], []⟩ ∧
      (∀ p ∈ [ldff 4] ++ [ldfe22, ldff 7], p.tag ≠ 5) ∧ crowd.now < 50 ∧ Head { crowd with now := 50 } (ldff 5) 21) ∧
    (crowd.fe 0x200 = ⟨[ldff 4, ldff 5] ++ ldfe22 :: [ldff 7], []⟩ ∧ crowd.isFull 0x200 = true ∧ crowd.eccAt 0x200 8 = false ∧
      (∀ q ∈ [ldff 4, ldff 5], q.op = 1) ∧ ldfe22.op = 0 ∧ (∀ q ∈ [ldff 4, ldff 5] ++ [ldfe22], ∃ c, Head crowd q c) ∧
      (([ldff 4, ldff 5] ++ [ldfe22]).map (·.ctx)).Nodup) := by
  have plain : DstPlain (9 : Reg) := by simp [DstPlain]
  refine ⟨⟨head_atWord _ _ _ _, ⟨by decide, by decide, by decide⟩, rfl, rfl, by decide, by decide⟩,
    ⟨⟨rfl, rfl, ⟨plain, fun o h => by cases h⟩, rfl⟩, ⟨by decide, by decide, by decide⟩, by decide⟩,
    ⟨head_atWord _ _ _ _, ⟨by decide, by decide, by decide⟩, rfl, rfl⟩, ⟨rfl, rfl⟩, ⟨by decide, by decide, by decide, by decide⟩,
    ⟨⟨rfl, rfl, ⟨plain, fun o h => by cases h⟩, rfl⟩, ⟨by decide, by decide, by decide⟩, rfl, rfl, by decide, by decide,
      ⟨rfl, rfl, ⟨plain, fun o h => by cases h⟩, rfl⟩⟩,
    rfl, rfl, by decide, by decide, rfl, fun q hq => ?_, by decide⟩
  simp only [List.cons_append, List.nil_append, List.mem_cons, List.not_mem_nil, or_false] at hq
  obtain rfl | rfl | rfl := hq
  · exact ⟨20, rfl, rfl, ⟨plain, fun o h => by cases h⟩, rfl⟩
  · exact ⟨21, rfl, rfl, ⟨plain, fun o h => by cases h⟩, rfl⟩
  · exact ⟨22, rfl, rfl, ⟨plain, fun o h => by cases h⟩, rfl⟩

/-! ### Hypotheses that can be met: answers, requests and fetches -/

/-- As `base`, with one access of context 20 outstanding, which stands where `st` says. -/
def awaiting (st : CState) (o : Outst) : State :=
  { base with slots := tput base.slots 20 { ctx := { ctx0 with st := st, dc := #v[0, 2, 0, 0], outst := [pend false, o] } } }
/-- An access of context 20 under tag 8. -/
def acc8 (wr : List (Nat × Word)) (ctr : Option (Fin 4)) (load : Bool) (posted flt : Option Nat) : Outst :=
  { pend false with tag := 8, writes := wr, ctr := ctr, load := load, posted := posted, flt := flt, addr := 0x440, pc := 0xFF8 }

theorem witness_OutstandingAccessesEnd :
    (awaiting .live (acc8 [(63, 9)] (some 1) true none none)).findOutst 20 8 = some (.run, acc8 [(63, 9)] (some 1) true none none) ∧
    (awaiting .live (acc8 [] (some 1) false none none)).findOutst 20 8 = some (.run, acc8 [] (some 1) false none none) ∧
    (awaiting .live (acc8 [] (some 1) true none (some cEcc))).findOutst 20 8 = some (.run, acc8 [] (some 1) true none (some cEcc)) ∧
    ((awaiting .live (acc8 [] (some 1) true none none)).core (ctxCore 20)).mlogStart = none ∧
    (∀ f, ((awaiting .live (acc8 [] (some 1) true none none)).ctx 20).st ≠ .parked (.drain f)) ∧
    (awaiting (.parked (.reply 8)) (acc8 [(55, 9)] none true none none)).findOutst 20 8 = some (.run, acc8 [(55, 9)] none true none none) ∧
    ((awaiting (.parked (.reply 8)) (acc8 [(55, 9)] none true none none)).ctx 20).st = .parked (.reply 8) ∧
    Quiet { ctx0 with outst := [pend false] } (BitVec.ofNat 6 55) ∧
    (awaiting .live (acc8 [] none false (some 7) none)).findOutst 20 8 = some (.run, acc8 [] none false (some 7) none) ∧
    (({ base with slots := tput base.slots 20 { late := [acc8 [] none false (some 7) none] } } : State).findOutst 20 8 =
      some (.late, acc8 [] none false (some 7) none)) ∧
    (base.core (ctxCore 20)).upcalls = [] :=
  ⟨by decide, by decide, by decide, by decide, not_drain (by decide), by decide, by decide, quiet_of (by decide), by decide, by decide, by decide⟩

/-- The export table of one entry, at 0x10000: 2 MiB from 0x200000 for reads, writes and atomics. -/
def exporting : State :=
  { base with boot := { base.boot with links := 1 }, fabExport := 0x10001, mem := memWrite (memWrite [] 0x10000 8 0x200017) 0x200040 8 0x7766554433221100 }
def request (op off : Nat) : RemoteReq := ⟨77, 5, off, op, 4, .add, 0xFFFFFFF1, 3, false, 0, 0, true, false, 0, false, .rlx, .sys, false⟩

theorem witness_RemoteRequestsPerformOrAreRefused :
    (∀ k ∈ exporting.keys, k.2.v = false) ∧ exporting.boot.links ≠ 0 ∧ base.boot.links = 0 ∧ reqCheck (exportLook exporting 0x44) (request 0 0x44) = .ok (.phys 0x200044) ∧
    reqCheck (exportLook exporting 0x44) (request 1 0x44) = .ok (.phys 0x200044) ∧ reqCheck (exportLook exporting 0x44) (request 2 0x44) = .ok (.phys 0x200044) ∧
    reqCheck (exportLook exporting 0x40) (request 3 0x40) = .ok (.phys 0x200040) ∧ reqCheck (exportLook exporting 0x200000) (request 0 0x200000) = .error (1, cRefused) := by decide

theorem witness_IllegalWordsAndFetchesFault : base.me.st = .live ∧ base.myCore.mbox = [] ∧ ctxSlot base.cur ≠ 15 := by decide

/-! ### Hypotheses that can be met: exceptions -/

/-- A context of slot `slot` of core 1 that issues, trap handler enabled or not, its record area at 0x4000. -/
def trapping (slot : Nat) (tv est : Word) (fibre : Bool) : State :=
  { base with
    cur := 16 + slot, slots := [(16 + slot, { ctx := { ctx0 with estat := est, epc := 0x2008, sys := true }, fibre := fibre })]
    cores := [(1, { tvec := tv, uparea := 0x4000, outst := 2 })] }

theorem fits (slot : Nat) (tv est : Word) (fb : Bool) (h : slot < 16) : Fits (trapping slot tv est fb) 0x19 where
  mem := rfl
  cur := by simp [trapping]; omega
  outst := by
    have : ctxCore (16 + slot) = 1 := by simp [ctxCore]; omega
    simp [State.myCore, State.core, trapping, this, tget]
  task := by simp [State.me, State.ctx, State.slot, trapping, tget, taskOf, ctx0]
  code := by decide

theorem witness_TrapEntrySavesAndEnters :
    Fits (trapping 4 0x7001 0 false) 0x19 ∧ trapRule (trapping 4 0x7001 0 false) 0x19 ∧ inTrap (trapping 4 0x7001 0 false) = false ∧
    (trapping 4 0x7001 0 false).myCore.tvec.getLsbD 0 = true ∧ trapRule (trapping 15 0x7001 0 false) 1 :=
  ⟨fits _ _ _ _ (by decide), ⟨rfl, .inr (.inr (.inr rfl))⟩, by decide, by decide, ⟨rfl, .inr (.inl rfl)⟩⟩

theorem witness_OtherFaultsHaltParkOrEnd :
    (inTrap (trapping 1 0x7001 0x200 false) = true ∧ ((trapping 1 0x7001 0x200 false).slot 17).fibre = false ∧
      (trapping 1 0x7001 0x200 false).myCore.upcalls = []) ∧
    (trapRule (trapping 0 0 0 false) 1 ∧ (trapping 0 0 0 false).myCore.tvec.getLsbD 0 = false) ∧
    (inTrap (trapping 14 0x7001 0 false) = false ∧ ctxSlot (trapping 14 0x7001 0 false).cur = 14 ∧ restartable cNotPresent = true ∧
      ∀ o ∈ (trapping 14 0x7001 0 false).me.outst, o.ctr = none) ∧
    (restartable cAlign = false ∧ cAlign ≠ 0x18 ∧ cAlign ≠ 0x19 ∧ (trapping 10 0x7001 0 false).me.unit = .none ∧
      (trapping 10 0x7001 0 false).me.streams = []) ∧
    ((trapping 3 0x7001 0 true).slot 19).fibre = true ∧ Fits (trapping 3 0x7001 0 true) 0x19 :=
  ⟨⟨by decide, by decide, by decide⟩, ⟨⟨rfl, .inl rfl⟩, by decide⟩, ⟨by decide, by decide, by decide, by decide⟩,
    ⟨by decide, by decide, by decide, by decide, by decide⟩, by decide, fits _ _ _ _ (by decide)⟩

theorem set_trapping (slot : Nat) (tv est : Word) (fb : Bool) : Set (trapping slot tv est fb) := by
  have : (trapping slot tv est fb).me = { ctx0 with estat := est, epc := 0x2008, sys := true } := by
    simp [State.me, State.ctx, State.slot, trapping, tget]
  exact set_of (by rw [this]; rfl) (by rw [this]; rfl) fun n => by rw [this]; fin_cases n <;> rfl

theorem witness_TrapsEnterAndEretReturns :
    Set (trapping 5 0x7001 0 false) ∧ ((trapping 5 0x7001 0 false).slot 21).fibre = false ∧ inTrap (trapping 5 0x7001 0 false) = false ∧
    (trapping 5 0x7001 0 false).myCore.tvec.getLsbD 0 = true ∧ Set (trapping 5 0x7001 0x200 false) ∧ inTrap (trapping 5 0x7001 0x200 false) = true ∧
    (trapping 5 0x7001 0x200 false).me.sys = true ∧ (trapping 5 0x7001 0x200 false).me.epc.toNat % 8 = 0 :=
  ⟨set_trapping _ _ _ _, by decide, by decide, by decide, set_trapping _ _ _ _, by decide, by decide, by decide⟩

/-! ### Hypotheses that can be met: copies, streams and tokens -/

/-- The six words of a copy of one row of 16 bytes, and of a stream of 4-byte elements from memory and to memory. -/
def copyWords : List Nat := [0x1000, 0x2000, 16 + 2 ^ 24 * 2, 16, 32, 1]
def inWords : List Nat := [0x1000, 0, 8 + 2 ^ 24, 0, 0, 0]
def outWords : List Nat := [0, 0x2000, 8 + 2 ^ 24, 0, 0, 0]
def copyBlk : CopyBlk := ⟨0x1000, 0x2000, 0, 0, 2, 16, 16, 32, 1⟩

/-- Words laid out in memory as 8 bytes each. -/
def wordsAt (m : List Host.Cell) (a : Nat) (ws : List Nat) : List Host.Cell := memPut m a (ws.flatMap (leBytes 8))

/-- x6 names a block in the own local store; x7 holds a token. -/
def copying (ws : List Nat) (tok : Nat) : State :=
  let s := holding [(6, 0xFE00000300), (7, tok)]
  { s with mem := wordsAt (wordsAt [] (locLs 1 0x300) ws) 0x1010 [0x1122334455667788, 0x99] }

theorem set_copying (ws : List Nat) (t : Nat) : Set (copying ws t) := set_of rfl rfl (fun n => by fin_cases n <;> rfl)
theorem readMem {s : State} (h : Set s) (ho : s.me.outst = []) : ReadyMem s {} := readyMem_of h.ready ho
theorem onlyRead_refl (s : State) (hf : tput s.slots s.cur { s.slot s.cur with ctx := s.me } = s.slots) : OnlyRead s s where
  cur := rfl
  me := rfl
  others := fun _ _ => rfl
  slot := rfl
  cores := rfl
  clusters := rfl
  dies := rfl
  mem := rfl
  full := rfl
  tables := ⟨rfl, rfl, rfl, rfl, rfl, rfl⟩

/-- 64 commands queued. -/
def cmd : CopyCmd := ⟨copyBlk, 0x300, 5, [], 1, true, false, false, none, none⟩
def queue64 : State := (copying copyWords 0).setCluster 0 { ready := true, copyQ := List.replicate 64 cmd }

theorem accepted_copy : Accepted copyWords copyBlk :=
  ⟨rfl, by decide, by decide, by decide, by decide, by decide, by decide, by decide⟩

theorem nextEntry_zero {s : State} {eng : Nat} (h : ((s.cluster (ctxCl s.cur)).tab eng).next = 0)
    (hu : ((s.cluster (ctxCl s.cur)).tok eng 0).usable = true) : NextEntry s eng 0 :=
  ⟨by decide, by rw [h]; decide, hu, fun j _ hj => by rw [h] at hj; simp at hj⟩

theorem witness_CopyQueuesUnderANewToken :
    ReadyMem (copying copyWords 0) {} ∧ (∀ r ∈ ([6, 7, 7, 7] : List Reg), Plain (copying copyWords 0) r) ∧
    readWords (copying copyWords 0) 0xFE00000300 6 = .ok copyWords (copying copyWords 0) ∧ OnlyRead (copying copyWords 0) (copying copyWords 0) ∧
    Accepted copyWords copyBlk ∧ TokensOk (copying copyWords 0) [7, 7, 7] ∧ NextEntry (copying copyWords 0) 1 0 ∧
    (((copying copyWords 0).cluster 0).copyQ.length < 64) ∧ (∀ b, ¬Accepted [0, 0, 0, 0, 0, 0] b) ∧ ¬TokensOk (copying copyWords 1) [7, 7, 7] ∧
    64 ≤ ((queue64.cluster 0).copyQ.length) :=
  ⟨readMem (set_copying _ _) rfl, by intro r hr; exact plain_of rfl (by revert r; simp [SrcPlain]), rfl, onlyRead_refl _ (by decide), accepted_copy,
    by unfold TokensOk; decide, nextEntry_zero (by decide) (by decide), by decide,
    fun b h => by
      have h3 := h.rows
      have h6 := h.six
      simp only [List.cons.injEq] at h6
      omega,
    by unfold TokensOk; decide, by decide⟩

theorem witness_StreamsBindFillAndClose :
    Set (copying inWords 0) ∧ ((copying inWords 0).slot 17).fibre = false ∧ tget (copying inWords 0).me.streams 2 = none ∧
    readWords (copying inWords 0) 0xFE00000300 6 = .ok inWords (copying inWords 0) ∧ (streamBlock inWords false 4 true).isSome ∧
    readWords (copying outWords 0) 0xFE00000300 6 = .ok outWords (copying outWords 0) ∧ (streamBlock outWords true 8 false).isSome ∧
    Set streaming ∧ (tget streaming.me.streams 1 = some (stream false [5, 0xFFFF] 0)) ∧ (tget streaming.me.streams 3 = some (stream true [1] 1)) ∧
    ((stream true [1] 1).fifo ≠ []) :=
  ⟨set_copying _ _, by decide, by decide, rfl, by decide, rfl, by decide, set_streaming, rfl, rfl, by decide⟩

/-- Entry 9 of the copy unit of cluster 0 in a state, under GEN 3; a token that names it. -/
def tokState (st : TokSt) (code : Nat) (dl : Bool) (t : Nat) : State :=
  (copying [] t).setCluster 0 { ready := true, toks := [(1, { ent := [(9, ⟨3, st, 77, code, some { code := code }, dl, none⟩)] })] }

def tok9 : Nat := 2 ^ 29 + 3 * 2 ^ 8 + 9

theorem witness_TokenWaitsAnswerByState :
    Set (tokState .done 0 false 0) ∧ (tokState .done 0 false 0).me.reg 7 = 0 ∧ Undisturbed (tokState .done 0 false 0) ∧
    tokRef (tokState .done 0 false 5) 0 5 = .invalid ∧ tokRef (tokState .done 0 false (tok9 + 2 ^ 8)) 0 (tok9 + 2 ^ 8) = .stale ∧
    (∀ st ∈ [TokSt.pending, .done, .failed], tokRef (tokState st 0 false tok9) 0 tok9 = .entry 1 9 ⟨3, st, 77, 0, some { code := 0 }, false, none⟩) ∧
    tokRef (tokState .faulted cAlign true tok9) 0 tok9 = .entry 1 9 ⟨3, .faulted, 77, cAlign, some { code := cAlign }, true, none⟩ ∧
    restartable cAlign = false ∧ restartable cNotPresent = true ∧
    tokRef (tokState .faulted cNotPresent false tok9) 0 tok9 = .entry 1 9 ⟨3, .faulted, 77, cNotPresent, some { code := cNotPresent }, false, none⟩ :=
  ⟨set_of rfl rfl (fun n => by fin_cases n <;> rfl), by decide, ⟨by decide, by decide, by decide⟩, by decide, by decide, by decide, by decide, by decide, by decide, by decide⟩

/-- The copy unit of cluster 0 with the command above queued, running, its rows over, or waiting for a token. -/
def copier (q : CopyCmd) : State := (tokState .pending 0 false 0).setCluster 0 { (tokState .pending 0 false 0).cluster 0 with copyQ := [q] }
def failing : State := (tokState .failed cAlign false 0).setCluster 0 { (tokState .failed cAlign false 0).cluster 0 with copyQ := [{ cmd with deps := [tok9] }] }

def bytes16 : List Byte := leBytes 8 0x1122334455667788 ++ leBytes 8 0x99

/-- The same with the choices that its next steps draw. -/
def drawing (q : CopyCmd) (o : List Nat) : State := { copier q with oracle := o }

/-- The command with its row partly read, all but a word read, and its two words to be written. -/
def partRead (got : List (Nat × List Byte)) : CopyCmd := { cmd with running := true, part := some (.reading got) }
def rowWords : List (Nat × List Byte) := [(0x2020, leBytes 8 0x1122334455667788), (0x2028, leBytes 8 0x99)]
def partWritten (ws : List (Nat × List Byte)) : CopyCmd := { cmd with running := true, part := some (.writing ws) }

theorem reads_word (q : CopyCmd) (hq : q = cmd ∨ q = partRead [(0, leBytes 8 0x1122334455667788)]) (p : (Nat × Nat) × Nat)
    (h : p = ((0x1010, 8), 0) ∨ p = ((0x1018, 8), 1)) :
    ∃ bs u, engRead (copier q) (engine 1 true 41) p.1.1 p.1.2 = .ok bs u ∧ (u.cluster 0).copyQ = [q] := by
  obtain rfl | rfl := hq <;> obtain rfl | rfl := h <;> exact ⟨_, _, rfl, rfl⟩

theorem witness_CopyUnitMovesRowsAndCompletes :
    ((copier cmd).cluster 0).copyQ = [] ++ cmd :: [] ∧ cmd.held (copier cmd) = false ∧ deps (copier cmd) 0 cmd.deps = .ok ∧ Formats copyBlk ∧
    copyBlk.prog < copyBlk.nrows ∧
    (((drawing cmd [0]).choose 2).1 = 0 ∧ (((drawing cmd [0]).choose 2).2.choose 1).2 = copier cmd ∧
      ∃ u, RowsMoved (engine 1 true 41) copyBlk 1 (copier cmd) copyBlk.prog u ∧ (u.cluster 0).copyQ = [cmd]) ∧
    (((drawing cmd [1]).choose 2).1 = 1 ∧ ((drawing cmd [1, 0]).choose 2).2 = drawing cmd [0] ∧ ((drawing cmd [0]).choose 2).2 = copier cmd ∧
      unread copyBlk [] = [((0x1010, 8), 0), ((0x1018, 8), 1)] ∧
      ∀ p ∈ unread copyBlk [], ∃ bs u, engRead (copier cmd) (engine 1 true 41) p.1.1 p.1.2 = .ok bs u ∧ (u.cluster 0).copyQ = [cmd]) ∧
    (let got := [(0, leBytes 8 0x1122334455667788)];
      (partRead got).part = some (.reading got) ∧ unread copyBlk got = [((0x1018, 8), 1)] ∧ unread copyBlk (tput got 1 (leBytes 8 0x99)) = [] ∧
      got.Pairwise (·.1 < ·.1) ∧ (copier (partRead got)).choose 1 = (0, copier (partRead got)) ∧
      ∀ p ∈ unread copyBlk got, ∃ bs u, engRead (copier (partRead got)) (engine 1 true 41) p.1.1 p.1.2 = .ok bs u ∧
        (u.cluster 0).copyQ = [partRead got]) ∧
    ((partWritten rowWords).part = some (.writing rowWords) ∧ ((drawing (partWritten rowWords) [1]).choose 2).2 = copier (partWritten rowWords) ∧
      ∀ p ∈ rowWords, ∃ u, engWriteOf (copier (partWritten rowWords)) (engine 1 true 41) rowWords p.1 p.2 = .ok () u ∧
        (u.cluster 0).copyQ = [partWritten rowWords]) ∧
    (let ws := [(0x2028, leBytes 8 0x99)];
      ∀ p ∈ ws, ∃ u, engWriteOf (copier (partWritten ws)) (engine 1 true 41) ws p.1 p.2 = .ok () u ∧ (u.cluster 0).copyQ = [partWritten ws]) ∧
    deps (copier { cmd with deps := [tok9] }) 0 [tok9] = .wait ∧ deps failing 0 [tok9] = .bad cAlign ∧
    (∃ s1, engWrite (copier { cmd with running := true, rowsOver := true }) (engine 1 true 41) 0x328 (leBytes 8 1) = .ok () s1 ∧
      s1.clusters = (copier { cmd with running := true, rowsOver := true }).clusters) ∧
    (∃ s1, engWrite (copier { cmd with running := true, rowsOver := true, fault := some { code := cNotPresent } }) (engine 1 true 41) 0x328 (leBytes 8 1) = .ok () s1 ∧
      s1.clusters = (copier { cmd with running := true, rowsOver := true, fault := some { code := cNotPresent } }).clusters) := by
  refine ⟨rfl, by decide, by decide, by unfold Formats; decide, by decide,
    ⟨by decide, by decide, _, ⟨bytes16, bytes16, copier cmd, _, (rfl : engRead (copier cmd) (engine 1 true 41) 0x1010 16 = .ok bytes16 (copier cmd)), by simp [RowAs, copyBlk], rfl, rfl⟩, rfl⟩,
    ⟨by decide, by decide, by decide, by decide, fun p hp => reads_word cmd (.inl rfl) p ?_⟩,
    ⟨rfl, by decide, by decide, by decide, by decide, fun p hp => reads_word _ (.inr rfl) p (.inr ?_)⟩, ⟨rfl, by decide, fun p hp => ?_⟩, fun p hp => ?_,
    by decide, by decide, ⟨_, rfl, rfl⟩, ⟨_, rfl, rfl⟩⟩
  · have h : unread copyBlk [] = [((0x1010, 8), 0), ((0x1018, 8), 1)] := by decide
    rw [h] at hp
    simpa using hp
  · have h : unread copyBlk [(0, leBytes 8 0x1122334455667788)] = [((0x1018, 8), 1)] := by decide
    rw [h] at hp
    simpa using hp
  · simp only [rowWords, List.mem_cons, List.not_mem_nil, or_false] at hp
    obtain rfl | rfl := hp <;> exact ⟨_, rfl, rfl⟩
  · simp only [List.mem_singleton] at hp
    subst hp
    exact ⟨_, rfl, rfl⟩

/-- Stream 1 of context 17 takes one 8-byte element from 0x1010, or gives one to 0x2020; entry 9 of the copy unit is its token. -/
def one (out : Bool) (fifo : List Word) (dep : List Nat) : Machine.Stream :=
  { stream out fifo 0 with esz := 8, blk := ⟨0x1010, 0x2020, 0, 0, 1, 8, 0, 0, 0⟩, gen := 3, deps := dep }
def filling (out : Bool) (fifo : List Word) (dep : List Nat) (o : List Nat) : State :=
  { (tokState .pending 0 false 0).setMe { ctx0 with streams := [(1, one out fifo dep)] } with oracle := o }

theorem witness_StreamsBindFillAndClose_StreamFills :
    (tget ((filling false [] [] [0]).ctx 17).streams 1 = some (one false [] []) ∧ (one false [] []).total = 1 ∧
      ((filling false [] [] [0]).cluster 0).tok 1 9 = ⟨3, .pending, 77, 0, some { code := 0 }, false, none⟩ ∧
      ((filling false [] [] [0]).choose 16).2 = filling false [] [] [] ∧ Formats (one false [] []).blk ∧
      deps (filling false [] [] [0]) 0 [] = .ok ∧ ((filling false [] [] [0]).ctx 17).st = .live ∧ ((filling false [] [] [0]).core 1).lsChange = none ∧
      ∀ n, n ≤ 1 → ∃ vs u, Filled (engine 1 true 73) (one false [] []) n (filling false [] [] []) 0 vs u) ∧
    (tget ((filling true [7] [] [0]).ctx 17).streams 1 = some (one true [7] []) ∧ (one true [7] []).moved + 1 ≤ (one true [7] []).total ∧
      ∀ n, n ≤ 1 → ∃ u, Drained (engine 1 true 73) (one true [7] []) (([7] : List Word).take n) (filling true [7] [] []) 0 u) ∧
    deps (filling true [] [tok9] []) 0 [tok9] = .wait ∧
    (let s := { failing with slots := (filling true [] [tok9] []).slots }; deps s 0 [tok9] = .bad cAlign ∧ (s.ctx 17).st = .live) ∧
    (tget ((filling false (List.replicate 16 1) [] []).ctx 17).streams 1 = some (one false (List.replicate 16 1) []) ∧
      16 ≤ (one false (List.replicate 16 1) []).fifo.length) := by
  refine ⟨⟨rfl, by decide, by decide, by decide, by unfold Formats; decide, by decide, by decide, by decide, fun n hn => ?_⟩, ⟨rfl, by decide, fun n hn => ?_⟩,
    by decide, ⟨by decide, by decide⟩, rfl, by decide⟩
  · obtain rfl | rfl : n = 0 ∨ n = 1 := by omega
    · exact ⟨_, _, rfl, rfl⟩
    · exact ⟨_, _, _, 0x1122334455667788, [], _, rfl, by simp only [one, if_true]; decide, rfl, rfl, rfl⟩
  · obtain rfl | rfl : n = 0 ∨ n = 1 := by omega
    · exact ⟨_, rfl⟩
    · exact ⟨_, 7, _, by simp [one], rfl, rfl⟩

/-! ### Hypotheses that can be met: tiles -/

/-- Ring 2 of cluster 0 with slot 1, at GEN 3, as given; x6 is its handle, x7 a row number or token, x8 the operand of TOPEN or MULOAD. -/
def tiling (kind : Nat) (t : TSlot) (row : Nat) : State :=
  (holding [(6, 0x2013), (7, row), (8, 2 ^ 40 + 5 * 2 ^ 32 + 100)]).setCluster 0
    { ready := true, tcyc := 9, rings := [(2, { en := true, base := 0x1000, slotb := 0x800, nslot := 1, kind := kind, hlog := 3, rowb := 256, openPtr := 1
                                                slots := [(1, { t with gen := 3 })] })] }

theorem set_tiling (k : Nat) (t : TSlot) (row : Nat) : Set (tiling k t row) := set_of rfl rfl (fun n => by fin_cases n <;> rfl)

/-- An open tile of eight rows with some claimed and marked. -/
def openTile (claimed marked : Nat) : TSlot := { st := .opened, claimed := claimed, marked := marked, rows := 2 ^ marked - 1 }

theorem witness_TileInstructionsKeepTheSlots_TileOpens :
    Set (tiling 0 {} 0) ∧ Quiet (tiling 0 {} 0).me (9 + 1) ∧
    (((tiling 0 {} 0).ring 0 2).slot 1).st = .empty ∧ ((tiling 0 {} 0).me.reg 8).toNat / 2 ^ 41 = 0 ∧
    ((tiling 0 {} 0).me.reg 8).toNat / 2 ^ 24 % 2 ^ 8 = 0 ∧ (((tiling 0 (openTile 0 0) 0).ring 0 2).slot 1).st ≠ .empty ∧
    ((tiling 0 {} 0).ring 0 3).en = false ∧ ((tiling 2 {} 0).ring 0 2).kind = 2 ∧
    (tileOf (tiling 0 (openTile 7 7) 0) ((tiling 0 (openTile 7 7) 0).me.reg 6)).claimed < 2 ^ 3 ∧
    (tileOf (tiling 0 (openTile 8 7) 0) ((tiling 0 (openTile 8 7) 0).me.reg 6)).claimed = 2 ^ 3 :=
  ⟨set_tiling _ _ _, quiet_of (by decide), by decide, by decide, by decide, by decide, by decide, by decide, by decide, by decide⟩

theorem witness_TileInstructionsKeepTheSlots_TileMarks :
    (∀ o ∈ (tiling 0 (openTile 8 7) 7).me.outst, o.posted ≠ none) ∧ ((tiling 0 (openTile 8 7) 7).me.reg 7).toNat < 8 ∧
    bit (openTile 8 7).rows 7 = false ∧ (openTile 8 6).marked + 1 < (openTile 8 6).claimed ∧ (openTile 8 7).marked + 1 = (openTile 8 7).claimed ∧
    (openTile 8 7).closers = [] ∧ (openTile 7 7).marked = (openTile 7 7).claimed ∧ bit (openTile 8 7).rows 6 = true := by decide

theorem witness_SealsCloseTilesUnderTokens :
    Live (tiling 0 (openTile 8 8) 0) ((tiling 0 (openTile 8 8) 0).me.reg 6) ∧ (openTile 8 8).mu < 2 ∧ TokensOk (tiling 0 (openTile 8 8) 0) [7, 7, 7] ∧
    NextEntry (tiling 0 (openTile 8 8) 0) 2 0 ∧ (openTile 0 0).claimed = 0 ∧ (7 : BitVec 8).toNat + 1 ≤ 2 ^ 3 ∧ 2 ^ 3 < (8 : BitVec 8).toNat + 1 ∧
    ((tiling 0 {} 0).mu 0).runTok = [] ∧ (({} : TSlot).rcd).st = .done ∧ NextEntry (tiling 0 {} 0) 2 0 :=
  ⟨⟨by decide, by decide, by decide, by decide⟩, by decide, by unfold TokensOk; decide, nextEntry_zero (by decide) (by decide), by decide, by decide, by decide, by decide, by decide,
    nextEntry_zero (by decide) (by decide)⟩

theorem witness_TileInstructionsKeepTheSlots_TileStatus :
    Live (tiling 2 { st := .sealed } 0) ((tiling 2 { st := .sealed } 0).me.reg 6) ∧ Set (tiling 2 { st := .sealed } 0) ∧
    ((tiling 0 {} 0).me.reg 7).toNat < 2 ^ 16 ∧ ¬Live (tiling 0 {} 0) ((tiling 0 {} 0).me.reg 7) ∧ 2 ^ 16 ≤ ((tiling 0 {} 0).me.reg 8).toNat ∧
    (∀ k ∈ [0, 1], let s := tiling k { st := .sealed } 0; (tileOf s (s.me.reg 6)).st = .sealed ∧ (s.ring 0 2).kind ≠ 2) ∧
    (let s := tiling 2 (openTile 0 0) 0; (tileOf s (s.me.reg 6)).st = .opened ∧ (s.ring 0 2).kind = 2) :=
  ⟨⟨by decide, by decide, by decide, by decide⟩, set_tiling _ _ _, by decide, fun h => absurd h.enabled (by decide), by decide, by decide, by decide⟩

/-- x6 names 8 bytes in the own local store, x7 asks for them at offset 0xFFF8 of the routine memory. -/
def loading : State :=
  let s := holding [(6, 0xFE00000300), (7, 0xFFF8 * 2 ^ 32 + 8)]
  { s with mem := wordsAt [] (locLs 1 0x300) [0x1122334455667788] }

theorem witness_TilesPostDiscardAndTimeOut :
    (let s := tiling 0 { openTile 8 8 with st := .closing, valid := 8, mask := 255 } 0
     (s.tslot 0 2 1).st = .closing ∧ (s.tslot 0 2 1).marked = (s.tslot 0 2 1).claimed ∧ deps s 0 (s.tslot 0 2 1).deps = .ok ∧ 0 < (s.tslot 0 2 1).valid ∧
       (s.mu 0).easel.length < 32 ∧ s.gated 0 = false) ∧
    (let s := tiling 0 { openTile 8 8 with st := .closing } 0
     (s.tslot 0 2 1).valid = 0 ∧ (s.tslot 0 2 1).closers = [] ∧ deps s 0 (s.tslot 0 2 1).deps = .ok) ∧
    (let s := tiling 0 { openTile 8 8 with st := .closing, deps := [tok9] } 0
     let s := s.setCluster 0 { s.cluster 0 with toks := (failing.cluster 0).toks }
     deps s 0 (s.tslot 0 2 1).deps = .bad cAlign ∧ (s.tslot 0 2 1).closers = []) ∧
    (let s := tiling 0 { openTile 8 8 with timer := some 9 } 0
     (s.tslot 0 2 1).timer = some 9 ∧ 9 ≤ (s.cluster 0).tcyc ∧ (s.tslot 0 2 1).st = .opened) ∧
    ((tiling 0 { openTile 8 8 with timer := some 10 } 0).cluster 0).tcyc < 10 ∧
    ReadyMem loading {} ∧ ((loading.me.reg 7).toNat / 2 ^ 17 % 2 ^ 15 = 0) ∧ readSized loading 0xFE00000300 4 2 = .ok [0x55667788, 0x11223344] loading ∧
    OnlyRead loading loading ∧ (loading.mu 1).st ≠ .running ∧ loading.gated 0 = false :=
  ⟨by decide, by decide, by decide, by decide, by decide, readMem (set_of rfl rfl (fun n => by fin_cases n <;> rfl)) rfl, by decide, rfl, onlyRead_refl _ (by decide),
    by decide, by decide⟩

/-! ### Hypotheses that can be met: moves of the matrix unit -/

/-- Unit 1 of cluster 0 as given, with ring 2 of tiles in BF16 and ring 3 an out ring. -/
def unit (u : Mu) : State :=
  (base.setCluster 0
    { ready := true
      rings := [(2, { en := true, base := 0x1000, slotb := 0x800, nslot := 1, kind := 0, fmt := 1, hlog := 3, rowb := 256, slots := [(0, { st := .sealed, gen := 3, closers := [4] })] }),
                (3, { en := true, base := 0x4000, slotb := 0x1000, nslot := 1, kind := 2, fmt := 0, hlog := 3, rowb := 512, openPtr := 1 }),
                (4, { en := true, base := 0x8000, slotb := 0x800, nslot := 1, kind := 1, fmt := 1, hlog := 3, rowb := 256, slots := [(0, { st := .sealed, gen := 3 })] })]
      farea := 0x3080 }).setMu 1 u |> fun s => { s with curMu := 1, now := 50 }

/-- An easel entry, of a ring of A tiles or of B tiles, posted in cycle 49. -/
def tileA : Tile := ⟨9, 8, 0, 3, false, 2, 0, 3, 255, 49, 0⟩
def tileB : Tile := { tileA with kind := 1, ring := 4, mask := 0x7F }

def runMu : Mu := { st := .running, cyc := 100, bpc := 0x200 }

theorem atIssue (u : Mu) (hh : u.held = []) (hr : u.rep = 0) : AtIssue (unit u) := by
  have : (unit u).mu (unit u).curMu = u := by simp [unit, State.mu, State.setMu, tget, base, withCtx, State.setCluster, State.reset, tput]
  exact ⟨by rw [this]; exact hh, by rw [this]; exact hr⟩

theorem witness_MuMovesSetTheirUnit_MuSettings : AtIssue (unit runMu) := atIssue _ rfl rfl
theorem witness_MuMovesSetTheirUnit_MuPalette :
    (⟨.fin, .a, .a⟩ : PalOp).opc = .fin ∧ (⟨.mul, .a, .a⟩ : PalOp).opc ≠ .fin ∧ ((unit runMu).mu 1).palPart.length < 3 ∧
    ((unit { runMu with palPart := List.replicate 3 ⟨.mul, .a, .a⟩ }).mu 1).palPart.length = 3 ∧
    AtIssue (unit { runMu with palPart := List.replicate 3 ⟨.mul, .a, .a⟩ }) :=
  ⟨rfl, by decide, by decide, rfl, atIssue _ rfl rfl⟩

def loops4 : List Loop := [⟨0x100, 2, 0⟩, ⟨0x80, 1, 1⟩, ⟨0x80, 1, 1⟩, ⟨0x80, 1, 1⟩]

theorem witness_MuSequenceTakesJumpsAndLoops :
    AtIssue (unit { runMu with easel := [tileA], loops := loops4 }) ∧ tileA.cyc < (unit runMu).now ∧ tileA.kind ≠ 1 ∧ tileB.kind = 1 ∧
    ((unit runMu).mu 1).curA = none ∧ ((unit runMu).mu 1).bHold = none ∧ ((unit { runMu with curA := some tileA }).mu 1).curA ≠ none ∧
    ((unit { runMu with bHold := some tileB }).mu 1).bHold ≠ none ∧ ((unit runMu).mu 1).easel = [] ∧ ((unit runMu).mu 1).loops.length < 4 ∧
    ((unit { runMu with loops := loops4 }).mu 1).loops.length = 4 ∧ tileA.hlog ≤ 8 ∧ ((unit runMu).mu 1).loops = [] ∧
    ((unit runMu).mu 1).feeds = [] ∧ ((unit runMu).mu 1).pipe = [] ∧ ((unit runMu).mu 1).sealOuts = [] :=
  ⟨atIssue _ rfl rfl, by decide, by decide, by decide, by decide, by decide, by decide, by decide, by decide, by decide, by decide, by decide, by decide, by decide,
    by decide, by decide⟩

/-- A unit with an A tile, a canvas in BF16 and the row pointers near their ends. -/
def feedable : Mu := { runMu with curA := some tileA, front := { tag := .fmt 1 }, afRow := 1, afBase := 24, drRow := 249, arDest := 3 }
def feed1 : Feed := ⟨.tile, some tileA, 0, 2, 0, .int8, [], 1, .zero, 50⟩
def drain1 : Drain := ⟨2, 7, 1, .bf16, 64, .rne, .none, 128, 8, 128, none, 0, 60⟩

/-- The same that feeds bank 1 in a pair mode, and one that drains into its out tile. -/
def bankFeed : Mu := { feedable with afFrom := .bank 1, front := { tag := .had }, arMode := .fp32c, arDest := 2, afRow := 249 }
def outDrain : Mu := { feedable with drRow := 1, owEn := true, outTile := some ⟨3, 1, 1⟩ }

theorem startsAt_ptr (s : State) (p : Nat) : StartsAt s none p p := .inl ⟨rfl, rfl⟩

theorem witness_MuFeedsDrainsAndCanvasAreQueued_MuFeedsAndDrains :
    (AtIssue (unit feedable) ∧ AtIssue (unit bankFeed) ∧ AtIssue (unit outDrain)) ∧
    (StartsAt (unit feedable) none 1 1 ∧ StartsAt (unit feedable) (some .hrows) 1 8 ∧ ((unit feedable).mu 1).afFrom = .tile ∧
      ((unit feedable).ring 0 2).fmt = 1 ∧ ((unit feedable).mu 1).afRow + (7 : BitVec 7).toNat ≤ 2 ^ 3 ∧
      8 * ((unit feedable).mu 1).afBase % 256 + kOf .bf16 ≤ 256 ∧ (bankOf ((unit feedable).mu 1) 3).poison = false ∧
      ((unit feedable).mu 1).feeds.length < 16 ∧ ((unit runMu).mu 1).curA = none) ∧
    (FeedFits .bf16 false 1 (.fmt 1) 3 .pinf none ∧ FeedFits .fp16 false 2 .had 3 .zero none ∧ FeedFits .int8 false 5 (.fmt 4) 1 .acc none ∧
      FeedFits .l6 false 3 (.fmt 3) 2 .acc none ∧ FeedFits .fp32 false 0 (.fmt 2) 3 .ninf none ∧ FeedFits .fp32c true 0 .had 2 .zero none ∧
      FeedFits .micro true 0 (.fmt 0) 1 .pinf (some [])) ∧
    (¬FeedFits .bf16 false 2 (.fmt 1) 3 .pinf none ∧ ¬FeedFits .l6 false 3 (.fmt 3) 3 .acc none ∧ ¬FeedFits .int8 false 4 (.fmt 4) 1 .pinf none ∧
      ¬FeedFits .micro true 0 (.fmt 0) 1 .pinf none ∧ ¬FeedFits .int8 true 0 (.fmt 4) 1 .acc none) ∧
    (((unit bankFeed).mu 1).afFrom = .bank 1 ∧ ((unit bankFeed).mu 1).afRow + (7 : BitVec 7).toNat ≤ 256 ∧
      (∀ b : BitVec 2, b.toNat = 2 ∨ b.toNat = 3 → (bankOf ((unit bankFeed).mu 1) b).poison = false)) ∧
    (bankOf ((unit (withBank feedable 3 { poison := true, frow := 5, faddr := 6 })).mu 1) 3).poison = true ∧
    16 ≤ ((unit { runMu with feeds := List.replicate 16 feed1 }).mu 1).feeds.length ∧
    (((unit feedable).mu 1).acSel = (0 : BitVec 2).toNat ∧ ((unit feedable).mu 1).drain = none ∧
      ((unit feedable).mu 1).drRow + (7 : BitVec 7).toNat ≤ 256 ∧ ((unit feedable).mu 1).owEn = false) ∧
    (((unit outDrain).ring 0 3).fmt = outDrain.drFmt.code ∧ 8 * outDrain.owBase + 1 + (7 : BitVec 7).toNat ≤ 2 ^ ((unit outDrain).ring 0 3).hlog ∧
      2 ^ ((unit outDrain).ring 0 3).hlog < 8 * outDrain.owBase + 2 + (7 : BitVec 7).toNat) ∧
    (bankOf ((unit (withBank feedable 0 { poison := true, frow := 5, faddr := 6 })).mu 1) 0).poison = true ∧
    ((unit { runMu with drain := some drain1 }).mu 1).drain ≠ none :=
  ⟨⟨atIssue _ rfl rfl, atIssue _ rfl rfl, atIssue _ rfl rfl⟩,
    ⟨startsAt_ptr _ _, .inr ⟨.hrows, rfl, rfl, by decide⟩, by decide, by decide, by decide, by decide, by decide, by decide, by decide⟩,
    by simp [FeedFits, paired], by simp [FeedFits, paired], ⟨by decide, by decide, by decide⟩, by decide, by decide, by decide, by decide, by decide, by decide⟩

theorem witness_MuFeedsDrainsAndCanvasAreQueued_MuCanvasAndOut :
    AtIssue (unit { runMu with bHold := some tileB }) ∧ ((unit runMu).ring 0 4).fmt ≠ 3 ∧ ((unit runMu).mu 1).fill = none ∧
    ((unit { runMu with fill := some (120, {}) }).mu 1).fill ≠ none ∧ ((unit { runMu with bHold := some tileB }).mu 1).bLoaded = true ∧
    ((unit { runMu with bHold := some tileB }).tslot 0 4 0).closers = [] ∧ ((unit runMu).ring 0 3).en = true ∧ ((unit runMu).ring 0 3).kind = 2 ∧
    (((unit runMu).ring 0 3).slot 1).st = .empty ∧ ((unit runMu).ring 0 2).kind ≠ 2 ∧ ((unit runMu).mu 1).outTile = none ∧
    AtIssue (unit { runMu with outTile := some ⟨3, 0, 1⟩ }) :=
  ⟨atIssue _ rfl rfl, by decide, by decide, by decide, by decide, by decide, by decide, by decide, by decide, by decide, by decide, atIssue _ rfl rfl⟩

/-! ### Hypotheses that can be met: inside the matrix unit -/

theorem witness_MuRowsEnterLandAndLeave_MuIntake :
    Offered (unit { cyc := 100, easel := [tileA] }) 1 tileA [] ∧ ((unit { cyc := 100, easel := [tileA] }).mu 1).st = .resting ∧
    Offered (unit { cyc := 100, easel := [tileB] }) 1 tileB [] ∧ ((unit runMu).mu 1).st ≠ .resting ∧
    ((unit { runMu with fill := some (100, {}) }).mu 1).fill = some (100, {}) ∧
    ((unit { runMu with feeds := [feed1] }).mu 1).feeds = [feed1] ∧ feed1.tile = some tileA ∧ feed1.at_ ≤ runMu.cyc ∧ (unit runMu).ecc = [] ∧
    ({ feed1 with src := .bank 1, tile := none } : Feed).src = .bank (BitVec.ofNat 2 1) ∧
    ((unit { runMu with drain := some drain1 }).mu 1).drain = some drain1 ∧ (2 : BitVec 2).toNat = drain1.bank ∧ drain1.at_ ≤ runMu.cyc ∧
    (rowOf (bankOf (withBank runMu 2 { rows := [(7, { valid := true })] }) 2) 7).valid = true ∧ (rowOf (bankOf runMu 2) 7).valid = false :=
  ⟨⟨by decide, by decide, by decide⟩, by decide, ⟨by decide, by decide, by decide⟩, by decide, by decide, by decide, by decide, by decide, by decide, by decide, by decide, by decide,
    by decide, by decide, by decide⟩

/-- A row of 128 elements in INT8 codes against a canvas of the least, in a mode, to land in cycle `due` in bank `dest`. -/
def landing (md : ArMode) (ac : Accum) (dest due : Nat) (valid : Bool) : InArr :=
  ⟨due, 5, valid, md, [], dest, ac, List.replicate 64 0x7F ++ List.replicate 64 0x80, List.replicate 128 (List.replicate 128 0x80), 0x3F800000⟩

theorem witness_MuRowsEnterLandAndLeave_RowLanding :
    (∀ p ∈ [(ArMode.bf16, Accum.pinf), (.fp16, .ninf), (.int8, .zero), (.fp32, .acc), (.micro, .acc)],
      ((unit { runMu with arr := [landing p.1 p.2 3 100 true] }).mu 1).arr = [landing p.1 p.2 3 100 true] ∧ ¬paired p.1) ∧
    (∀ p ∈ [(ArMode.l6, Accum.acc), (.fp32c, .zero)],
      ((unit { runMu with arr := [landing p.1 p.2 2 100 true] }).mu 1).arr = [landing p.1 p.2 2 100 true] ∧ paired p.1) ∧
    ((3 : BitVec 2).toNat = (landing .int8 .zero 3 100 true).dest ∧ (2 : BitVec 2).toNat = (landing .l6 .acc 2 100 true).dest ∧
      (landing .l6 .acc 2 100 true).dest % 2 = 0) ∧
    runMu.cyc < (landing .l6 .acc 2 101 true).due ∧ (landing .l6 .acc 2 100 true).due ≤ runMu.cyc ∧ (landing .l6 .acc 2 100 false).valid = false := by
  refine ⟨?_, ?_, by decide, by decide, by decide, by decide⟩ <;> unfold paired <;> decide

/-- Row 2 on its way through PP, read in cycle `rd` with an operation, and the same when it has left PP for the out tile. -/
def ppRow (op : PpOp) (rd : Nat) : InPipe := ⟨rd, 2, true, List.replicate 128 0x3F800000, some 0, false, .fp32, .rne, op, 64, 8, 128, some ⟨3, 1, 1⟩, 0⟩
def outRow : InPipe := { ppRow .none 88 with done := true }

theorem witness_MuRowsEnterLandAndLeave_MuOutput :
    (∀ p ∈ [(PpOp.none, 90), (.rowmax, 90), (.rowmin, 89), (.rowsum, 90), (.exp2, 90), (.mulv, 90), (.divv, 89), (.thrNeg, 82), (.thrZero, 81)],
      ppExitAt (ppRow p.1 p.2) ≤ runMu.cyc ∧ runMu.cyc < ppExitAt (ppRow p.1 p.2) + 2 ∧ runMu.cyc < ppExitAt (ppRow p.1 (p.2 + 2))) ∧
    ((ppRow .exp2 90).vals.length = 128 ∧ (ppRow .exp2 90).ncol ≤ 128 ∧ ∀ y ∈ (ppRow .exp2 90).vals, y < 2 ^ 32) ∧
    (runMu.cyc < { ppRow .exp2 94 with v := none }.rd + 10 ∧ { ppRow .exp2 94 with v := none }.rd + 6 ≤ runMu.cyc ∧
      runMu.cyc < { ppRow .exp2 95 with v := none }.rd + 6) ∧
    outRow.done = true ∧ outRow.v ≠ none ∧ ppExitAt outRow + 2 ≤ runMu.cyc ∧ runMu.cyc < ppExitAt { outRow with rd := 89 } + 2 ∧
    bit (((unit runMu).ring 0 3).slot 1).mask (8 * outRow.base + outRow.row) = false ∧
    ((unit { runMu with sealOuts := [⟨100, ⟨3, 1, 1⟩⟩] }).mu 1).sealOuts = [⟨100, ⟨3, 1, 1⟩⟩] ∧
    ((unit { runMu with runTok := [⟨101, 2, 0, 3, ⟨.done, 0, 5⟩, [7]⟩] }).mu 1).runTok = [⟨101, 2, 0, 3, ⟨.done, 0, 5⟩, [7]⟩] := by
  refine ⟨?_, ⟨by simp [ppRow], by decide, fun y hy => ?_⟩, ?_⟩
  · unfold ppExitAt; decide
  · rw [List.eq_of_mem_replicate hy]; decide
  · unfold ppExitAt; decide

/-- A unit whose next row is uncorrectable, and a halted one. -/
def poisoned : State := { unit { runMu with feeds := [feed1, feed1] } with ecc := [locSp 0 0x1008] }
def halted (a : Option Tile) : State := unit { runMu with st := .halted, code := 0x0B, curA := a }

theorem witness_MuFaultsHaltAndRestart :
    Memory.wf (unit runMu).mem = true ∧ ((unit runMu).mu 1).bpc < 2 ^ 64 ∧ (poisoned.mu 1).feeds = [feed1, feed1] ∧ (1 : BitVec 2).toNat = feed1.dest ∧
    rowBad poisoned 1 tileA feed1.row = true ∧ ((unit runMu).mu (2 * ctxCl (unit runMu).cur + true.toNat)).st ≠ .halted ∧
    ((halted none).mu 1).st = .halted ∧ ((halted none).mu 1).feeds = [] ∧ ((halted none).mu 1).drain = none ∧ ((halted none).mu 1).curA = none ∧
    ((halted (some tileA)).mu 1).curA = some tileA ∧ ((halted (some tileA)).tslot 0 2 0).closers = [4] := by decide

/-! ### Hypotheses that can be met: sequences and the KV space -/

/-- 16 control blocks at 0x100000, 16 entries of the inverted table at 0x200000, one layer and one head, the lanterns enabled; x6, x7 and x8 hold the operands. -/
def kvBase (x6 x7 x8 : Nat) : State :=
  { holding [(6, x6), (7, x7), (8, x8)] with sqTable := 0x100004, kvTable := 0x200004, kvCtl := 0x101, kvShape := 0, kvUsed := true }

/-- Sequence 3 with a control block, some commit bits set. -/
def seqState (x6 x7 x8 : Nat) (q : SeqCb) (cm : List Nat) : State := cm.foldl (fun s p => setCmap s 3 p true) (writeCb (kvBase x6 x7 x8) 3 q)

def seqOpen : SeqCb := ⟨70, 128, 1, 0, false, 0xFFFFFF, 0⟩

theorem set_of_me {s t : State} (hs : Set t) (h : s.me = t.me) : Set s where
  ready := ⟨h ▸ hs.ready.live, h ▸ hs.ready.precise, h ▸ hs.ready.waits, h ▸ hs.ready.guard, h ▸ hs.ready.room⟩
  d0 := ⟨hs.d0.1, h ▸ hs.d0.2⟩
  d := ⟨hs.d.1, h ▸ hs.d.2⟩
  a0 := ⟨hs.a0.1, h ▸ hs.a0.2⟩
  a := ⟨hs.a.1, h ▸ hs.a.2⟩
  b := ⟨hs.b.1, h ▸ hs.b.2⟩
  c := ⟨hs.c.1, h ▸ hs.c.2⟩
  dc := fun n => h ▸ hs.dc n

theorem set_kvBase (a b c : Nat) : Set (kvBase a b c) := set_of_me (set_holding [(6, a), (7, b), (8, c)]) rfl

set_option maxRecDepth 16000 in
theorem witness_SequencesReserveCommitAndFork :
    Set (seqState 3 70 1 seqOpen []) ∧ Memory.wf (seqState 3 70 1 seqOpen []).mem = true ∧ SeqOk (seqState 3 70 1 seqOpen []) 3 ∧
    readCb (seqState 3 70 1 seqOpen []) 3 = seqOpen ∧
    (readCb (kvBase 3 1 0) 3).st = 0 ∧ (1 / 2 = 0 ∧ (kvBase 3 1 0).dieGone 0 = false) ∧ SeqOk (kvBase 3 1 0) 3 ∧
    (4096 + seqOpen.l < { seqOpen with f := 4102 }.f + 65) ∧ ({ seqOpen with f := 4096 }.f + 70 ≤ 4096 + seqOpen.l ∧ { seqOpen with f := 4096 }.f % 64 = 0) ∧
    (seqOpen.l ≤ 70 ∧ 70 < seqOpen.f ∧ cmapBit (seqState 3 70 1 seqOpen []) 3 70 = false ∧ ownFrames (seqState 3 70 1 seqOpen []) 3 70 1 = [] ∧
      cmapBit (seqState 3 70 1 seqOpen []) 3 71 = false) ∧
    (69 < seqOpen.l ∧ seqOpen.f ≤ 128) ∧ SeqOk (seqState 5 3 0 seqOpen []) 3 ∧ (readCb (seqState 5 3 0 seqOpen []) 5).st = 0 ∧ SeqOk (seqState 5 3 0 seqOpen []) 5 ∧
    (let s := (seqState 3 0 0 { seqOpen with f := 0 } [9]).setChildren 3 1; (readCb s 3).f = 0 ∧ s.children 3 ≠ 0) ∧
    (awaiting (.parked (.reply 8)) (acc8 [(55, 9)] none true none none)).findOutst 20 8 = some (.run, acc8 [(55, 9)] none true none none) ∧
    BadId (kvBase 16 0 0) 16 ∧ ¬BadId (kvBase 3 16 0) 3 ∧
    (let s := seqState 3 70 2 seqOpen [72]; (∀ k, 70 ≤ k → k < 70 + 2 → cmapBit s 3 k = false) ∧ ownFrames s 3 70 2 = [] ∧ 72 ≤ 73 ∧
      (∀ k, 70 ≤ k → k < 73 → CommittedWith s 3 70 2 k) ∧ ¬CommittedWith s 3 70 2 73) ∧
    (let s := seqState 3 70 2 seqOpen [71]; (∀ k, 70 ≤ k → k < 70 + 1 → seqOpen.l ≤ k ∧ k < seqOpen.f ∧ cmapBit s 3 k = false) ∧
      (70 + 1 < seqOpen.f ∧ cmapBit s 3 (70 + 1) = true) ∧ seqOpen.f ≤ 127 + 1) := by
  refine ⟨set_of_me (set_kvBase 3 70 1) rfl, by decide, ⟨by decide, by decide, by decide, by decide⟩, by decide, by decide, by decide, ⟨by decide, by decide, by decide, by decide⟩, by decide, by decide,
    by decide, by decide, ⟨by decide, by decide, by decide, by decide⟩, by decide, ⟨by decide, by decide, by decide, by decide⟩, by decide, by decide, .inl (by decide), by unfold BadId; decide,
    ⟨by decide, by decide, by decide, fun k h1 h2 => ?_, by unfold CommittedWith; decide⟩, ⟨by decide, by decide, by decide⟩⟩
  by_cases h : k < 72
  · exact .inr ⟨h1, h⟩
  · obtain rfl : k = 72 := by omega
    exact .inl (by decide)

/-- Block 1 of sequence 3 in the frame at 0x300000 as entry `e` says, at the block's first probe entry. -/
def kvEntry : KvEnt := ⟨⟨3, 0, 0, 1⟩, 3, 2, false, false, 1, 0, 0x300000, noEnt⟩
def blkAt (s : State) : Nat := probe s ⟨3, 0, 0, 1⟩ 0
def blockState (x6 x7 : Nat) (e : KvEnt) : State := let s := seqState x6 x7 0 seqOpen []; writeEnt s (blkAt s) e

/-- The same block and, at its second probe entry, a FREE one with the frame at 0x308000. -/
def seqBlock (x6 x7 x8 : Nat) (q : SeqCb) (e : KvEnt) : State :=
  let s := seqState x6 x7 x8 q []
  let s := writeEnt s (blkAt s) e
  writeEnt s (probe s ⟨3, 0, 0, 1⟩ 1) ⟨⟨0, 0, 0, 0⟩, 0xFFFFFF, 0, false, false, 0, 0, 0x308000, noEnt⟩
def partBlock : SeqCb := { seqOpen with f := 100 }
def settling (e : KvEnt) : State := seqBlock 3 10 0 partBlock e

set_option maxRecDepth 16000 in
/-- SQRES of ten positions behind 100, block 1 in a shared frame, in a frame without owner, in its own, and nowhere. -/
theorem witness_SequencesReserveCommitAndFork_settle :
    partBlock.f % 64 ≠ 0 ∧ partBlock.f + 10 ≤ 4096 + partBlock.l ∧ readCb (settling kvEntry) 3 = partBlock ∧
    (∀ x, x < 16 → (readCb (settling kvEntry) x).st ≠ 2) ∧ (settling kvEntry).kvWait = [] ∧
    readLookup (seqState 3 10 0 partBlock []) ⟨3, 0, 0, 1⟩ = none ∧
    readLookup (settling kvEntry) ⟨3, 0, 0, 1⟩ = some 14 ∧ kvEntry.owner = 3 ∧
    (let e := { kvEntry with owner := 0xFFFFFF }; readLookup (settling e) ⟨3, 0, 0, 1⟩ = some 14 ∧ readEnt (settling e) 14 = e ∧
      inWindow (settling e) ⟨3, 0, 0, 1⟩ 14 = true) ∧
    (let e := { kvEntry with owner := 5, refc := 2 }; let s := settling e
     readLookup s ⟨3, 0, 0, 1⟩ = some 14 ∧ readEnt s 14 = e ∧ kvPick s ⟨3, 0, 0, 1⟩ 0 (some 0) = some (15, s) ∧ inWindow s ⟨3, 0, 0, 1⟩ 15 = true ∧
       (readEnt s 15).frame ≠ e.frame) := by decide

set_option maxRecDepth 16000 in
theorem apart_settling : KvApart (settling { kvEntry with owner := 5, refc := 2 }) [0x308000, 0x300000] where
  tables a j ha hj := by
    have h1 : a < 16 := ha
    have h2 : j < 16 := hj
    interval_cases a <;> interval_cases j <;> decide
  entries f hf j hj := by
    have h2 : j < 16 := hj
    simp only [List.mem_cons, List.not_mem_nil, or_false] at hf
    obtain rfl | rfl := hf <;> interval_cases j <;> decide
  blocks f hf a ha := by
    have h1 : a < 16 := ha
    simp only [List.mem_cons, List.not_mem_nil, or_false] at hf
    obtain rfl | rfl := hf <;> interval_cases a <;> decide

/-- SQFORK of 70 positions of sequence 3, block 1 in place, and of ten, block 0 nowhere. -/
def forking (n : Nat) (e : KvEnt) : State := seqBlock 5 3 n seqOpen e

set_option maxRecDepth 16000 in
theorem shares_forking {j : Nat} (h : Shares (forking 70 kvEntry) 3 70 j) :
    readLookup (forking 70 kvEntry) ⟨3, 0, 0, 0⟩ = some j ∨ readLookup (forking 70 kvEntry) ⟨3, 0, 0, 1⟩ = some j := by
  obtain ⟨lb, l, p, h1, h2, h3, h4⟩ := h
  have hz : (forking 70 kvEntry).kvShape = 0 := by decide
  rw [hz] at h2 h3
  obtain rfl : l = 0 := by simpa using h2
  obtain rfl : p = 0 := by simpa using h3
  have : lb < 2 := by omega
  interval_cases lb
  · exact .inl h4
  · exact .inr h4

set_option maxRecDepth 16000 in
theorem witness_SequencesReserveCommitAndFork_fork :
    (SeqOk (forking 70 kvEntry) 5 ∧ SeqOk (forking 70 kvEntry) 3 ∧ (readCb (forking 70 kvEntry) 5).st = 0 ∧ readCb (forking 70 kvEntry) 3 = seqOpen) ∧
    (∀ j, Shares (forking 70 kvEntry) 3 70 j → (readEnt (forking 70 kvEntry) j).st = 2 ∧ (readEnt (forking 70 kvEntry) j).refc < 65535) ∧
    (∀ l n, l ≤ 0 → n ≤ 0 → readLookup (forking 70 kvEntry) ⟨3, l, n, 1⟩ ≠ none) ∧ (forking 70 kvEntry).children 3 < 65535 ∧
    (∀ j, ¬Shares (forking 10 kvEntry) 3 10 j) ∧ readLookup (forking 10 kvEntry) ⟨3, 0, 0, 0⟩ = none ∧
    kvPick (forking 10 kvEntry) ⟨3, 0, 0, 0⟩ 0 (some 0) = some (11, forking 10 kvEntry) ∧ inWindow (forking 10 kvEntry) ⟨3, 0, 0, 0⟩ 11 = true ∧
    (let e := { kvEntry with refc := 65535 }; Shares (forking 70 e) 3 70 14 ∧ (readEnt (forking 70 e) 14).refc = 65535) ∧
    ((forking 70 kvEntry).setChildren 3 65535).children 3 = 65535 := by
  refine ⟨⟨⟨by decide, by decide, by decide, by decide⟩, ⟨by decide, by decide, by decide, by decide⟩, by decide, by decide⟩, fun j hj => ?_, fun l n hl hn => ?_,
    by decide, fun j ⟨lb, l, p, h1, h2, h3, h4⟩ => ?_, by decide, by decide, by decide, ⟨⟨1, 0, 0, by decide, by decide, by decide, by decide⟩, by decide⟩, by decide⟩
  · have h0 : readLookup (forking 70 kvEntry) ⟨3, 0, 0, 0⟩ = none := by decide
    have h1 : readLookup (forking 70 kvEntry) ⟨3, 0, 0, 1⟩ = some 14 := by decide
    obtain h | h := shares_forking hj
    · rw [h0] at h; cases h
    · rw [h1] at h; cases h; decide
  · obtain rfl : l = 0 := by omega
    obtain rfl : n = 0 := by omega
    decide
  · have h5 : readLookup (forking 10 kvEntry) ⟨3, 0, 0, 0⟩ = none := by decide
    have hz : (forking 10 kvEntry).kvShape = 0 := by decide
    rw [hz] at h2 h3
    obtain rfl : l = 0 := by simpa using h2
    obtain rfl : p = 0 := by simpa using h3
    obtain rfl : lb = 0 := by omega
    rw [h5] at h4; cases h4

/-- The block of a KVST of position 70 and its rows, in the own local store. -/
def storing : State :=
  let s := blockState 0xFE00000300 1 kvEntry
  { s with mem := wordsAt (wordsAt s.mem (locLs 1 0x300) [3, 70, 0xFE00000400, 0xFE00000400, 0]) (locLs 1 0x400) [0xC10000003F800000, 0x4000000040400000] }

set_option maxRecDepth 16000 in
theorem witness_KvBlocksAreWrittenAndPinned :
    Set (blockState 3 1 kvEntry) ∧ Memory.wf (blockState 3 1 kvEntry).mem = true ∧ BlockOk (blockState 3 1 kvEntry) 3 1 ∧
    readLookup (blockState 3 1 kvEntry) (keyOf 3 1) = some (blkAt (blockState 3 1 kvEntry)) ∧
    (readEnt (blockState 3 1 kvEntry) (blkAt (blockState 3 1 kvEntry))) = kvEntry ∧
    (let t := blockState 3 1 { kvEntry with st := 3 }; BlockOk t 3 1 ∧ ∃ j, readLookup t (keyOf 3 1) = some j ∧ (readEnt t j).st = 3) ∧
    BlockOk (blockState 3 0 kvEntry) 3 0 ∧ readLookup (blockState 3 0 kvEntry) (keyOf 3 0) = none ∧
    (2 ^ 40 ≤ 2 ^ 40 + 3 ∧ (2 ^ 40 + 3) / 2 ^ 24 % 2 ^ 8 ≤ (0 : Word).toNat) ∧
    (∃ ks : List Nat, readWords storing 0xFE00000300 5 = .ok [3, 70, 0xFE00000400, 0xFE00000400, 0] storing ∧
      readSized storing 0xFE00000400 4 (readCb storing 3).hd = .ok ks storing ∧ ks.length = (readCb storing 3).hd ∧ ks.any fp32.isNan = false) ∧
    OnlyRead storing storing ∧ BlockOk storing 3 1 ∧ ((readCb storing 3).l ≤ 70 ∧ 70 < (readCb storing 3).f) ∧ cmapBit storing 3 70 = false ∧
    ownLookup storing (keyOf 3 1) = some (blkAt storing) ∧ (∀ o ∈ storing.kvWait, o.ctx ≠ storing.cur) :=
  ⟨set_of_me (set_kvBase 3 1 0) rfl, by decide, ⟨by decide, by decide, by decide, by decide, by decide, by decide, by decide⟩, by decide, by decide,
    ⟨⟨by decide, by decide, by decide, by decide, by decide, by decide, by decide⟩, blkAt (blockState 3 1 kvEntry), by decide, by decide⟩,
    ⟨by decide, by decide, by decide, by decide, by decide, by decide, by decide⟩, by decide, by decide, ⟨_, rfl, rfl, by decide, by decide⟩, onlyRead_refl _ (by decide),
    ⟨by decide, by decide, by decide, by decide, by decide, by decide, by decide⟩, by decide, by decide, by decide, by decide⟩

def gatherWords : List Nat := [3, 68 + 2 ^ 32, 0x2013, 68]
def rawWords : List Nat := [3, 1 + 2 ^ 32 * 65536, 0, 16, 65537]
def boundWords : List Nat := [3, 1 + 2 ^ 32, 4, 4, 1]
def asking (ws : List Nat) : State := { copying ws 0 with kvCtl := 1, sqTable := 4 }

theorem witness_KvCommandsQueueAndLanternsStep_KvCommands :
    Set (asking gatherWords) ∧ (asking gatherWords).kvCtl.getLsbD 0 = true ∧ NextEntry (asking gatherWords) 4 0 ∧ TokensOk (asking gatherWords) [7, 7, 7] ∧
    OnlyRead (asking gatherWords) (asking gatherWords) ∧ readWords (asking gatherWords) 0xFE00000300 4 = .ok gatherWords (asking gatherWords) ∧
    GatherBlock (asking gatherWords) gatherWords 3 68 1 0x2013 68 ∧ readWords (asking rawWords) 0xFE00000300 5 = .ok rawWords (asking rawWords) ∧
    SummaryBlock (asking rawWords) true rawWords 3 1 65536 0 16 65537 ∧ SummaryBlock (asking boundWords) false boundWords 3 1 1 4 4 1 :=
  ⟨set_of_me (set_copying gatherWords 0) rfl, by decide, nextEntry_zero (by decide) (by decide), by unfold TokensOk; decide, onlyRead_refl _ (by decide), rfl,
    by unfold GatherBlock; decide, rfl, by unfold SummaryBlock; decide, by unfold SummaryBlock; decide⟩

/-- A gather of position 68 into ring 2, slot 1, its run begun; a raw summary of block 2 of a sequence of 70; with the tokens and tiles of `tiling`. -/
def gatherCmd : LanCmd := ⟨true, false, 0x5000, 3, 68 + 2 ^ 32, 0x2013, 0, 7, [], 1, true, 68, some (70, false)⟩
def rawCmd : LanCmd := ⟨false, true, 0x5000, 3, 2 + 2 ^ 32, 0, 0x6000, 7, [], 1, true, 2, some (70, false)⟩
def lantern (q : LanCmd) : State :=
  let s := blockState 3 1 kvEntry
  s.setCluster 0 { (tiling 0 (openTile 7 7) 0).cluster 0 with
    rings := [(2, { (tiling 0 (openTile 7 7) 0).ring 0 2 with fmt := 1 })], lanQ := [q], toks := (failing.cluster 0).toks }

/-- A frame asked for block 1, a tier-0 entry FREE for it; its context waits. -/
def allocating : State :=
  let s := blockState 3 1 { kvEntry with st := 0, refc := 0 }
  { s with kvReqs := [⟨20, false, 3, 0, 0, 1, unitScales 64⟩], slots := tput s.slots 20 { ctx := { ctx0 with st := .parked .retry } } }

/-- Block 1 RESIDENT, and the block's second probe entry FREE in tier 1, or FILLING in tier 0 by a promotion; at most that many free entries are wanted. -/
def evicting : State :=
  let s := blockState 3 1 kvEntry
  writeEnt { s with kvCtl := 0xFF01 } (probe s ⟨3, 0, 0, 1⟩ 1) { kvEntry with st := 0, tier := 1, frame := 0x8000000000 }
def moving (promo : Bool) : State :=
  let s := evicting
  { s with moves := [⟨9, promo, blkAt s, probe s ⟨3, 0, 0, 1⟩ 1, 0x300000⟩] }

set_option maxRecDepth 8000 in
theorem witness_KvCommandsQueueAndLanternsStep_KvSteps :
    (deps (lantern { gatherCmd with deps := [tok9] }) 0 [tok9] = .bad cAlign) ∧
    (((lantern gatherCmd).cluster 0).lanQ = [gatherCmd] ∧ deps (lantern gatherCmd) 0 [] = .ok ∧ gatherCmd.prog < 70 ∧
      (∃ locs, pieceLocs (lantern gatherCmd) (engine 1 true 4) true (pieces 9 0x5018 8) = .ok locs (lantern gatherCmd) ∧ QuietPieces (lantern gatherCmd) locs) ∧
      readLookup (lantern gatherCmd) (keyOf 3 1) = some (blkAt (lantern gatherCmd)) ∧
      (∀ x ∈ keyRow (lantern gatherCmd) 0x300000 4 64, bfFinite x = true) ∧ ((lantern gatherCmd).ring 0 2).fmt = 1 ∧ ((lantern gatherCmd).tslot 0 2 1).claimed < 2 ^ 3 ∧
      ∀ x ∈ valRow (lantern { gatherCmd with flag := true }) 0x300000 4 64, bfFinite x = true) ∧
    (70 ≤ 64 * rawCmd.prog ∧ ∃ s1, engWrite (lantern rawCmd) (engine 1 true 4) 0x6000 (emptySummary 64) = .ok () s1 ∧ s1.clusters = (lantern rawCmd).clusters ∧
      ∃ locs, pieceLocs s1 (engine 1 true 4) true (pieces 9 0x5020 8) = .ok locs s1 ∧ QuietPieces s1 locs) ∧
    (ownLookup allocating ⟨3, 0, 0, 1⟩ = none ∧ kvPick allocating ⟨3, 0, 0, 1⟩ 0 (some 0) = some (blkAt allocating, allocating) ∧
      inWindow allocating ⟨3, 0, 0, 1⟩ (blkAt allocating) = true ∧ Clear allocating (blkAt allocating) 0x300000) ∧
    (evictDue evicting 0 = true ∧ evictDue (blockState 3 1 kvEntry) 0 = false) ∧
    (∀ j, j < kvN evicting → ((readEnt evicting j).st = 2 ∧ (readEnt evicting j).tier = 0 ∧ (readEnt evicting j).pin = false ∧ homeDie (readEnt evicting j).frame = 0 ↔
      j = blkAt evicting)) ∧
    kvPick evicting ⟨3, 0, 0, 1⟩ 1 none = some (probe evicting ⟨3, 0, 0, 1⟩ 1, evicting) ∧
    (Clear (moving false) (blkAt (moving false)) 0x8000000000 ∧ Clear (moving true) (probe (moving true) ⟨3, 0, 0, 1⟩ 1) 0x8000000000) ∧
    (kvBusy (moving true) = true ∧ kvBusy (kvBase 0 0 0) = false) := by
  refine ⟨by decide, ⟨by decide, by decide, by decide, ⟨_, rfl, fun x hx => ?_⟩, by decide, by decide, by decide, by decide, by decide⟩, ⟨by decide, _, rfl, rfl, _, rfl, fun x hx => ?_⟩,
    ⟨by decide, by decide, by decide, by unfold Clear; decide⟩, by decide, by decide, by decide, by unfold Clear; decide, by decide⟩ <;>
  · simp only [List.mem_singleton] at hx
    subst hx
    exact ⟨trivial, fun _ _ h => nomatch h⟩

/-! ### Hypotheses that can be met: barriers and channels -/

/-- Barrier 3 of the own core in the generation `q`; x6 holds the count. -/
def meeting (n : Nat) (q : Barrier) : State := (holding [(6, n)]).setBarrier 19 q
/-- Context 20 waits in the barrier `q`. -/
def meeting20 (q : Barrier) : State := { (holding []).setBarrier 19 q with slots := [(20, { ctx := { ctx0 with st := .parked .barrier } })] }

theorem witness_BarriersReleaseTheirGeneration :
    Set (meeting 3 ⟨3, [⟨20, 5, 0, 0⟩], [], []⟩) ∧ (meeting 3 ⟨3, [⟨20, 5, 0, 0⟩], [], []⟩).cur < 2 ^ 15 ∧ (((meeting 3 ⟨3, [⟨20, 5, 0, 0⟩], [], []⟩).me.reg 6).toNat = 3) ∧
    ((meeting 3 ⟨3, [⟨20, 5, 0, 0⟩], [], []⟩).barrier (16 * ctxCore 17 + 3) = ⟨3, [⟨20, 5, 0, 0⟩], [], []⟩) ∧ (0 + 1 < 16 ∧ 16 ≤ 16) ∧
    ((meeting 1 ⟨0, [], [], []⟩).barrier (16 * ctxCore 17 + 3)).remote = [] ∧
    (∀ n ∈ [0, 17], ((meeting n ⟨0, [], [], []⟩).me.reg 6).toNat = n) ∧ ((meeting 2 ⟨3, [⟨20, 5, 0, 0⟩], [], []⟩).barrier 19).count ≠ 2 ∧
    (∀ sc ∈ [Scope.cl, .die, .pkg], ((meeting 128 ⟨0, [], [], []⟩).barrier (barKey sc 17 3)).arr = [] ∧
      ((meeting 128 ⟨0, [], [], []⟩).barrier (barKey sc 17 3)).remote = []) ∧
    (((meeting20 ⟨2, [], [], []⟩).ctx 20).st = .parked .barrier ∧ (meeting20 ⟨2, [], [], []⟩).barrier 19 = ⟨2, [], [], []⟩) ∧
    (((meeting20 ⟨0, [], [], [⟨20, 55, 1, 0⟩]⟩).barrier 19).rel = [⟨20, 55, 1, 0⟩] ∧ DstPlain 55 ∧ Quiet ((meeting20 ⟨0, [], [], [⟨20, 55, 1, 0⟩]⟩).ctx 20) 55 ∧
      ((meeting20 ⟨0, [], [], [⟨20, 55, 1, 0⟩]⟩).core (ctxCore 20)).mlogStart = none) ∧
    (ReadyMem fencing {} ∧ Posting fencing ∧ ¬Posting (meeting 3 ⟨0, [], [], []⟩)) ∧
    ((meeting20 ⟨3, [⟨21, 5, 0, 3⟩], [], []⟩).lost (ctxDie 20) = false ∧ ((meeting20 ⟨3, [⟨21, 5, 0, 3⟩], [], []⟩).barrier 19).count ≠ 2 ∧
      ((meeting20 ⟨3, [⟨21, 5, 0, 3⟩], [], []⟩).ctx 20).st = .parked .barrier ∧ ((meeting20 ⟨3, [⟨21, 5, 0, 3⟩], [], []⟩).ctx 20).barTag = 0) ∧
    ((meeting20 ⟨3, [⟨21, 5, 0, 3⟩], [(9, 4, 1)], []⟩).barrier 19 = ⟨3, [⟨21, 5, 0, 3⟩], [(9, 4, 1)], []⟩ ∧ 3 ≤ 1 + 1 + 1) ∧
    ({ meeting20 ⟨3, [⟨21, 5, 0, 3⟩], [], []⟩ with boot := { links := 1 } }.boot.links ≠ 0 ∧ (meeting20 ⟨3, [], [], []⟩).boot.links = 0 ∧ fabDev + 1 ≠ fabDev) ∧
    ((meeting20 ⟨0, [], [], [⟨20, 55, refusedRank, 0⟩]⟩).barrier 19).rel = [⟨20, 55, refusedRank, 0⟩] :=
  ⟨set_of_me (set_holding [(6, 3)]) rfl, by decide, by decide, by decide, by decide, by decide, by decide, by decide, by decide, by decide,
    ⟨by decide, by simp [DstPlain], quiet_of (by decide), by decide⟩, ⟨witness_FencesHoldAndLineHintsGoOn.1, by unfold Posting; decide, by unfold Posting; decide⟩, by decide, by decide,
    ⟨by decide, by decide, by omega⟩, by decide⟩

def rxEp2 (occ : Nat) (ws : List Nat) : RecvEp := { isOpen := true, gen := 1, base := 64, slotw := 4, nslot := 16, peer := 0x123, occ := occ, waiters := ws }
def txEp3 (allow buf : Nat) (broken : Bool) : SendEp :=
  { isOpen := true, gen := 2, peer := epAddr 2 5, allow := allow, limit := 24, buf := buf, rgen := some 1, broken := broken }

/-- Receive endpoint 2 and send endpoint 3 of core 1 are open; memory holds the words of a CHOPEN at 0x300 of the local store, or a message of 16 bytes at the head. -/
def chan (x6 x7 x8 : Nat) (r : RecvEp) (t : SendEp) (ws : List Nat) : State :=
  { (holding [(6, x6), (7, x7), (8, x8)]).setCore 1 { rx := [(2, r)], tx := [(3, t)] } with
    mem := wordsAt (wordsAt [] (locLs 1 64) [0x1000000456, 0x1111, 0x2222]) (locLs 1 0x300) ws }

theorem set_chan (a b c : Nat) (r : RecvEp) (t : SendEp) (ws : List Nat) : Set (chan a b c r t ws) := set_of_me (set_holding [(6, a), (7, b), (8, c)]) rfl

def openRecv : List Nat := [2 + 2 ^ 8 * 4 + 2 ^ 16 * 15 + 2 ^ 24 * 4, 64, 0x123, 0]
def openGranting : List Nat := [2 ^ 8 * 4 + 2 ^ 16 * 15 + 2 ^ 24 * 4, 64, 0x123, 5]
def openSend : List Nat := [1 + 2 ^ 8 * 4, 0, 0x123, 0]
def openSend63 : List Nat := [1 + 2 ^ 8 * 63, 0, 0x123, 0]
/-- An ALT list that names endpoint 2 in its byte 3 alone. -/
def list2 : Word := 0xFFFFFFFF02FFFFFF

theorem fabDev_lt : fabDev < 2 ^ 12 := Nat.mod_lt _ (by decide)
theorem peer_own (k n : Nat) : epAddr k n % 2 ^ 12 = fabDev := by
  have := fabDev_lt
  unfold epAddr
  omega

theorem unbound_chan (a b c : Nat) (r : RecvEp) (t : SendEp) (ws : List Nat) (n : Nat) : Unbound (chan a b c r t ws) n := fun i hi => by
  have h : ∀ i : Fin 16, ((chan a b c r t ws).slot (16 * ctxCore 17 + i)).ctx.upq = none ∧ ((chan a b c r t ws).slot (16 * ctxCore 17 + i)).park = none :=
    fun i => by fin_cases i <;> exact ⟨rfl, rfl⟩
  have := h ⟨i, hi⟩
  simp only [show (chan a b c r t ws).cur = 17 from rfl]
  exact ⟨by rw [this.1]; simp, fun x hx => by rw [this.2] at hx; cases hx⟩

set_option maxRecDepth 4000 in
theorem witness_ChannelsSendReceiveAndGrant_Channels :
    Set (chan 0xFE00000300 0 0 {} {} openRecv) ∧ OnlyRead (chan 0xFE00000300 0 0 {} {} openRecv) (chan 0xFE00000300 0 0 {} {} openRecv) ∧
    readWords (chan 0xFE00000300 0 0 {} {} openRecv) 0xFE00000300 4 = .ok openRecv (chan 0xFE00000300 0 0 {} {} openRecv) ∧
    (rxOf (chan 0xFE00000300 0 0 {} {} openRecv) 4).isOpen = false ∧ (64 + 16 * 4 * 8 ≤ (chan 0 0 0 {} {} []).myCore.lsplit * 2 ^ 15) ∧
    readWords (chan 0xFE00000300 0 0 {} {} openGranting) 0xFE00000300 4 = .ok openGranting (chan 0xFE00000300 0 0 {} {} openGranting) ∧
    readWords (chan 0xFE00000300 0 0 {} {} openSend) 0xFE00000300 4 = .ok openSend (chan 0xFE00000300 0 0 {} {} openSend) ∧ epNum 0x123 < 48 ∧
    TxNamed (chan 0x283 0xFE00000300 16 {} (txEp3 1 7 false) [1, 2]) 0x283 3 ∧ InLs (chan 0x283 0xFE00000300 16 {} (txEp3 1 7 false) [1, 2]) 0xFE00000300 16 ∧
    ((txEp3 1 7 false).peer = epAddr 2 5 ∧ epAddr 2 5 % 2 ^ 12 = fabDev) ∧ TxNamed (chan 0x283 0xFE00000300 16 {} (txEp3 0 0 true) []) 0x283 3 ∧
    RxNamed (chan 0x102 0xFE00000400 1 (rxEp2 1 []) {} []) 0x102 2 ∧ Unbound (chan 0x102 0xFE00000400 1 (rxEp2 1 []) {} []) 2 ∧
    InLs (chan 0x102 0xFE00000400 1 (rxEp2 1 []) {} []) 0xFE00000400 24 ∧ (chan 0 0 0 {} {} []).me.upq = none ∧ (chan 0 0 0 {} {} []).me.downq = none ∧
    ((chan 0 0 0 {} {} []).slot 17).fibre = false ∧ Unnamed (chan 0 0 0 {} {} []) 0x100000#64 ∧ Plain (chan 0 0 0 {} {} []) 0 ∧
    saveHoldsLs (chan 0x283 0xFE00000300 16 {} (txEp3 1 7 false) []) = false ∧ ¬PeerWaits (chan 0x283 0xFE00000300 16 {} (txEp3 1 7 false) []) 0x123 ∧
    PeerWaits fencing ((fabDev + 1) % 2 ^ 12) ∧
    ((txOf (chan 0xFE00000300 0 0 {} {} openSend63) 63).isOpen = false ∧ readWords (chan 0xFE00000300 0 0 {} {} openSend63) 0xFE00000300 4 = .ok openSend63 (chan 0xFE00000300 0 0 {} {} openSend63)) ∧
    InLs (chan 0x283 0xFE00000300 0 {} (txEp3 1 7 false) []) 0xFE00000300 (max 1 0) ∧
    (AltList (chan 0 0 0 (rxEp2 1 []) {} []) list2 ∧ altReady (chan 0 0 0 (rxEp2 1 []) {} []) list2 ((7 + 1 + 3) % 8) ∧
      (chan 0 0 0 (rxEp2 1 []) {} []).me.win.toNat = 7 ∧ (∀ n, n < 3 → ¬altReady (chan 0 0 0 (rxEp2 1 []) {} []) list2 ((7 + 1 + n) % 8)) ∧
      (∀ i, i < 8 → ¬altReady (chan 0 0 0 (rxEp2 0 []) {} []) list2 i)) ∧
    (∀ i, i < 8 → altAt (-1) i = 255) ∧ (altAt 0xFFFFFFFFFFFFFF03 0 ≠ 255 ∧ (rxOf (chan 0 0 0 (rxEp2 0 []) {} []) 3).isOpen = false) ∧
    48 ≤ altAt 0xFFFFFFFFFFFFFF30 0 := by
  refine ⟨set_chan _ _ _ _ _ _, onlyRead_refl _ (by decide), rfl, by decide, by decide, rfl, rfl, by decide, ⟨by decide, by decide, by decide, by decide⟩,
    ⟨by decide, by decide, by decide⟩, ⟨rfl, peer_own 2 5⟩, ⟨by decide, by decide, by decide, by decide⟩, ⟨by decide, by decide, by decide, by decide⟩, unbound_chan _ _ _ _ _ _ _,
    ⟨by decide, by decide, by decide⟩, by decide, by decide, by decide, fun n => ⟨fun ⟨h, _, hg, hv⟩ => ?_, fun ⟨h, _, hg, hv⟩ => ?_⟩, (set_chan _ _ _ _ _ _).a0, by decide,
    fun h => absurd h.2 (by unfold Posting; decide), ⟨by have := fabDev_lt; omega, by unfold Posting; decide⟩,
    ⟨by decide, rfl⟩, ⟨by decide, by decide, by decide⟩, ⟨⟨⟨3, by decide, by decide⟩, fun i hi hn => ?_⟩, by unfold altReady; decide, by decide, by unfold altReady; decide,
    by unfold altReady; decide⟩, by decide, by decide, by decide⟩
  · have hv : 0x100000 = _ := hv
    omega
  · have hv : 0x100000 = _ := hv
    omega
  · obtain rfl : i = 3 := by
      interval_cases i <;> first | rfl | exact absurd rfl hn
    exact ⟨by decide, by decide, unbound_chan _ _ _ _ _ _ _⟩

/-- A message of 16 bytes and a grant of 2 slots for endpoints 2 and 3 of core 1. -/
def msg : ChanMsg := ⟨epAddr 1 2, 0x456, 1, leBytes 8 0x3333 ++ leBytes 8 0x4444⟩
def grant : GrantMsg := ⟨epAddr 1 3, 2, 1, 48⟩
/-- Slot 12 of core 1 is a message context for classes 2 and 5. -/
def listening (ctx : Ctx) (pending : Word) : State :=
  { base with cores := [(1, { pending := pending })], slots := tput base.slots 28 { ctx := ctx, bound := 0x24, bentry := 0x3000, barg := 0x77 } }

theorem core_own (n : Nat) (h : n < 64) : epCore (epAddr 1 n) = 1 ∧ epNum (epAddr 1 n) = n := by
  have := fabDev_lt
  unfold epCore epNum epAddr bits
  omega

theorem witness_ChannelsSendReceiveAndGrant_ChannelSteps :
    epCore msg.dst = 1 ∧ epNum msg.dst = 2 ∧ Memory.wf (chan 0 0 0 (rxEp2 1 []) (txEp3 1 7 false) []).mem = true ∧
    tget ((chan 0 0 0 (rxEp2 1 []) (txEp3 1 7 false) []).core 1).rx 2 = some (rxEp2 1 []) ∧ ((chan 0 0 0 (rxEp2 1 []) (txEp3 1 7 false) []).core 1).mlogStart = none ∧
    (rxEp2 1 []).gen = msg.gen ∧ msg.body.length ≤ 256 ∧ ({ rxEp2 1 [] with gen := 3 } : RecvEp).gen ≠ msg.gen ∧
    epCore grant.dst = 1 ∧ epNum grant.dst = 3 ∧ tget ((chan 0 0 0 (rxEp2 1 []) (txEp3 1 7 false) []).core 1).tx 3 = some (txEp3 1 7 false) ∧
    (txEp3 1 7 false).rgen = some grant.gen ∧ (txEp3 1 7 false).rgen = some 1 ∧ (2 ≠ grant.gen) ∧
    ((listening {} 0x25).slot 28).ctx.st = .empty ∧ ((listening {} 0x25).slot 28).park = none ∧
    ((listening {} 0x25).core (ctxCore 28)).pending &&& ((listening {} 0x25).slot 28).bound ≠ 0 ∧
    ((listening {} 1).core (ctxCore 28)).pending &&& ((listening {} 1).slot 28).bound = 0 ∧ (listening ctx0 1).ctx 28 = ctx0 ∧
    epAddr 2 9 % 2 ^ 12 = fabDev ∧ (fabDev + 1) % 2 ^ 12 % 2 ^ 12 ≠ fabDev ∧
    (txEp3 1 7 false).peer = epAddr 2 5 ∧ epAddr 2 5 % 2 ^ 12 = fabDev := by
  refine ⟨(core_own 2 (by decide)).1, (core_own 2 (by decide)).2, by decide, by decide, by decide, by decide, by decide, by decide, (core_own 3 (by decide)).1,
    (core_own 3 (by decide)).2, rfl, by decide, by decide, by decide, by decide, by decide, by decide, by decide, by decide, peer_own _ _,
    (by have := fabDev_lt; omega), rfl, peer_own 2 5⟩
/-! ### Hypotheses that can be met: contexts and the scheduler -/

/-- Slots 1 to 10 of core 1 hold contexts; slot 0 of core 1 issues, in `boot`. -/
def crowded : State := { base with slots := (List.range 10).map fun i => (17 + i, { ctx := ctx0 }) }
def boot : State := { base with cur := 16, slots := [(16, { ctx := ctx0 })] }
/-- Slot 2 of core 1 was started for the fifth time; x6 holds `v`. -/
def joinable (v : Nat) (fin : Bool) : State :=
  let s := holding [(6, v)]
  { s with slots := tput s.slots 18 { gen := 5, ended := fin, exitWord := 0x99 } }
/-- A user context with x6, x7. -/
def userCtx (v w : Nat) : State := withCtx { ctx0 with sys := false, x := (regs.set 6 (BitVec.ofNat 64 v)).set 7 (BitVec.ofNat 64 w) }
def counting : State := withCtx { ctx0 with dc := #v[0, 2, 0, 0] }

theorem set_userCtx (v w : Nat) : Set (userCtx v w) := set_of rfl rfl (fun n => by fin_cases n <;> rfl)

theorem witness_ContextsStartEndJoinAndSleep_ContextInstructions :
    Set (holding [(6, 0x3000)]) ∧ (holding [(6, 0x3000)]).me.unit = .none ∧ HelperFree (holding [(6, 0x3000)]) 2 ∧ (∀ m, m < 2 → ¬HelperFree (holding [(6, 0x3000)]) m) ∧
    Ready crowded {} ∧ (∀ n, ¬HelperFree crowded n) ∧ (crowded.me.reg 6).toNat % 8 = 0 ∧ ((holding [(6, 0x3004)]).me.reg 6).toNat % 8 ≠ 0 ∧
    base.me.streams = [] ∧ base.me.dcMask = 0#4 ∧ Ready counting {} ∧ counting.me.dcMask ≠ 0#4 ∧ Ready boot {} ∧ ctxSlot boot.cur = 0 ∧
    Set (joinable 0x52 true) ∧ ((joinable 0x52 true).slot (16 * ctxCore 17 + 0x52 % 16)).gen = 0x52 / 16 ∧
    ((joinable 0x52 true).slot 18).ended = true ∧ ((joinable 0x52 false).slot 18).ended = false ∧ (0x42 / 16 ≠ ((joinable 0x42 false).slot 18).gen) ∧
    (Set (userCtx 0xF0 0x4000) ∧ (userCtx 0xF0 0x4000).me.sys = false ∧ ((userCtx 0xF0 0x4000).me.reg 6).toNat < 2 ^ 48 ∧
      2 ^ 48 ≤ ((userCtx (2 ^ 48) 0x4000).me.reg 6).toNat) := by
  refine ⟨set_holding _, by decide, ⟨by decide, by decide, by decide, by decide⟩, fun m hm ⟨h1, _, h3, _⟩ => ?_, ready_of (by decide) (by decide) (by decide) (by decide) (by decide),
    fun n ⟨h1, h2, h3, _⟩ => ?_, by decide, by decide, by decide, by decide, ready_of (by decide) (by decide) (by decide) (by decide) (by decide), by decide,
    ready_of (by decide) (by decide) (by decide) (by decide) (by decide), by decide, set_of_me (set_holding [(6, 0x52)]) rfl, by decide, by decide, by decide, by decide,
    set_userCtx _ _, by decide, by decide, by decide⟩
  · obtain rfl : m = 1 := by omega
    exact absurd h3 (by decide)
  · have h : ∀ n : Fin 11, 1 ≤ n.val → (crowded.slot (16 * ctxCore crowded.cur + n)).ctx.st ≠ .empty := by decide
    exact h ⟨n, by omega⟩ h1 h3

/-- Context `c` stands where `st` says; message contexts take classes 2 and 5; two are pending. -/
def resting (c : Nat) (st : CState) (fin : Bool) : State :=
  { base with
    slots := [(c, { ctx := { ctx0 with st := st }, bound := 0x24 }), (18, { gen := 5, ended := fin })]
    cores := [(1, { pending := 0x21 })], clusters := [(0, { ready := true, tcyc := 50 })] }

theorem witness_ContextsStartEndJoinAndSleep_Wakeups :
    (((resting 20 (.sleeping 50 9) false).ctx 20).st = .sleeping 50 9 ∧ ((resting 20 (.sleeping 50 9) false).cluster (ctxCl 20)).tcyc = 50) ∧
    Quiet ((resting 20 (.sleeping 50 9) false).ctx 20) 9 ∧ Quiet ((resting 28 (.sleeping 60 9) false).ctx 28) 9 ∧
    ((resting 28 (.sleeping 60 9) false).core (ctxCore 28)).pending &&& ((resting 28 (.sleeping 60 9) false).slot 28).bound ≠ 0 ∧
    ((resting 20 (.joining 0x52) true).ctx 20).st = .joining 0x52 ∧ ((resting 20 (.joining 0x52) false).slot 18).ended = false ∧
    ((resting 20 (.joining 0x52) false).slot (16 * ctxCore 20 + 0x52 % 16)).gen = 0x52 / 16 := by
  exact ⟨by decide, quiet_of (by decide), quiet_of (by decide), by decide, by decide, by decide, by decide⟩

/-- The eight words of a launch of 2 groups of one helper, its completion ring descriptor, and a packet of one payload word. -/
def launchWords (n hpc : Nat) : List Nat := [0x3000, n + 2 ^ 32 * hpc + 2 ^ 39 * 2 + 2 ^ 41 * 9, 0x55, 0xFE00000440, 0, 0, 0, 0]
def ringWords : List Nat := [0x4000, 4, 0, 0]
def packet : List Nat := [4 + 2 ^ 12 + 2 ^ 16 * 3 + 2 ^ 40 * 7, 0x3000, 0, 0x77]

/-- A die whose table holds entry 0 as `f`; x6 names the words at 0x340 of the local store. -/
def tasking (f : Task) (ws : List Nat) (v : Nat) : State :=
  { holding [(6, v)] with
    mem := wordsAt (wordsAt [] (locLs 1 0x340) ws) (locLs 1 0x440) ringWords, dies := [(0, { ready := true, tasks := [(0, f)] })] }

def task3 (st : TaskSt) (ctr : Nat) : Task := { st := st, gen := 3, ctr := ctr, prio := 1, qid := 2, entry := 0x3000, payload := [0x77, 0x88] }
def inTask : State :=
  { base with slots := [(17, { ctx := { ctx0 with unit := .task 3 } })], dies := [(0, { ready := true, tasks := [(0, { task3 .running 0 with ctx := 17 })] })] }

/-- An answer of context 20 that writes x55 and p3. -/
def acc8p : Outst := { acc8 [(55, 9)] none true none none with pred := some (3, true) }

theorem set_tasking (f : Task) (ws : List Nat) (v : Nat) : Set (tasking f ws v) :=
  set_of_me (set_holding [(6, v)]) (by simp only [tasking, State.me, State.ctx, State.slot])

set_option maxRecDepth 30000 in
theorem witness_TaskInstructionsKeepTheTable :
    Set (tasking (task3 .ready 0) (launchWords 2 1) 0xFE00000340) ∧
    readWords (tasking (task3 .ready 0) (launchWords 2 1) 0xFE00000340) 0xFE00000340 8 = .ok (launchWords 2 1) (tasking (task3 .ready 0) (launchWords 2 1) 0xFE00000340) ∧
    OnlyRead (tasking (task3 .ready 0) (launchWords 2 1) 0xFE00000340) (tasking (task3 .ready 0) (launchWords 2 1) 0xFE00000340) ∧ launchLegal (launchWords 2 1) = true ∧
    readWords (tasking (task3 .ready 0) (launchWords 2 1) 0xFE00000340) 0xFE00000440 4 = .ok ringWords (tasking (task3 .ready 0) (launchWords 2 1) 0xFE00000340) ∧
    cringLegal ringWords = true ∧ Roomy (tasking (task3 .ready 0) (launchWords 2 1) 0xFE00000340) 0 ∧ launchLegal (launchWords 2 0) = false ∧ launchLegal (launchWords 2 11) = false ∧
    readWords (tasking {} packet 0xFE00000340) 0xFE00000340 1 = .ok [packet.headD 0] (tasking {} packet 0xFE00000340) ∧ headerLegal (packet.headD 0) = true ∧
    readWords (tasking {} packet 0xFE00000340) 0xFE00000340 (packet.headD 0 % 2 ^ 8) = .ok packet (tasking {} packet 0xFE00000340) ∧
    Roomy (tasking {} packet 0xFE00000340) 0 ∧ headerLegal (packet.headD 0 + 2 ^ 63) = false ∧ (tasking {} packet 0xFE00000340).dieGone 0 = false ∧
    Named (tasking (task3 .waiting 5) [] 3) 3 0 0 ∧ (tasking (task3 .waiting 5) [] 3).dieGone 0 = false ∧ (entry (tasking (task3 .waiting 5) [] 3) 0 0).launch = none ∧
    (inTask.me.unit = .task 3 ∧ Named inTask 3 0 0 ∧ Ready inTask {} ∧ (entry inTask 0 0).succ = []) ∧ (∀ q, base.me.unit ≠ .task q) ∧
    ((awaiting (.parked (.reply 8)) acc8p).findOutst 20 8 = some (.run, acc8p) ∧ Quiet { ctx0 with outst := [pend false] } (BitVec.ofNat 6 55)) := by
  refine ⟨set_tasking _ _ _, rfl, onlyRead_refl _ (by decide), by decide, rfl, by decide, ⟨by decide, by decide, 1, by decide, by decide⟩, by decide, by decide, rfl,
    by decide, rfl, ⟨by decide, by decide, 0, by decide, by decide⟩, by decide, by decide, ?_, by decide, by decide,
    ⟨by decide, ?_, ready_of (by decide) (by decide) (by decide) (by decide) (by decide), by decide⟩, fun q => by rw [show base.me.unit = UnitOf.none from rfl]; simp,
    by decide, quiet_of (by decide)⟩ <;> exact ⟨by decide, by decide, by decide, by decide, by decide, by decide⟩

/-- The die's entry 0 is `f`; its completion ring is described at 0x2000. -/
def planned (f : Task) : State :=
  { base with mem := wordsAt [] 0x2000 ringWords, dies := [(0, { ready := true, tasks := [(0, f)] })] }
def launch2 (next recs : Nat) (gs : List Group) (retry poll : Option Nat) : Launch :=
  ⟨0x1000, 0x55, 0x2000, 0x4000, 4, 0, [], 0, 0, 0, 2, 0, 1, next, recs, gs, 17, true, retry, none, poll, none⟩
def group0 : Group := ⟨0, 0, 0, 0⟩
def launching (st : TaskSt) (l : Launch) : State := planned { task3 st 0 with launch := some l }
def spawning (q : List Spawn) : State := (planned (task3 .faulted 0)).setDie 0 { (planned (task3 .faulted 0)).die 0 with spawns := q }

/-- Is a record written, the dies as before? -/
def written (r : RecRes) (d : List (Nat × Die)) : Bool :=
  match r with
  | .ok s => s.dies == d
  | _ => false

theorem of_written {r : RecRes} {d : List (Nat × Die)} (h : written r d = true) : ∃ s, r = .ok s ∧ s.dies = d := by
  cases r with
  | ok s => exact ⟨s, rfl, by simpa [written] using h⟩
  | _ => simp [written] at h

set_option maxRecDepth 30000 in
theorem witness_SchedulerPlacesDispatchesAndRetires :
    Named (planned (task3 .waiting 2)) 3 0 0 ∧ (entry (planned (task3 .waiting 2)) 0 0).ctr = 2 ∧ Named (planned (task3 .waiting 1)) 3 0 0 ∧
    Named (planned (task3 .ready 0)) 3 0 0 ∧ nextUnit (planned {}) 0 = none ∧
    nextUnit (planned (task3 .ready 0)) 0 = some (1, 2, 0, entry (planned (task3 .ready 0)) 0 0) ∧
    placeTask (planned (task3 .ready 0)) 0 (task3 .ready 0) = some 1 ∧ Memory.wf (planned (task3 .ready 0)).mem = true ∧
    nextUnit (launching .ready (launch2 1 0 [] none none)) 0 = some (1, 2, 0, entry (launching .ready (launch2 1 0 [] none none)) 0 0) ∧
    placeGroup (launching .ready (launch2 1 0 [] none none)) 0 (handle 0 0 3) (launch2 1 0 [] none none) = some (0, 0) ∧
    (entry { planned (task3 .ready 0) with now := 2 ^ 21 } 0 0).since + 2 ^ 20 < 2 ^ 21 ∧
    (∀ st ∈ [TaskSt.ready, .draining], ∃ s1, putRec (launching st (launch2 2 0 [group0] none none)) (schedWho (launch2 2 0 [group0] none none) (handle 0 0 3) false) (launch2 2 0 [group0] none none) (2 ^ 40) = .ok s1 ∧
      s1.dies = (launching st (launch2 2 0 [group0] none none)).dies) ∧
    (∃ s1, putRec (launching .draining (launch2 2 2 [] none none)) (schedWho (launch2 2 2 [] none none) (handle 0 0 3) false) (launch2 2 2 [] none none) (2 + 2 ^ 41) = .ok s1 ∧
      s1.dies = (launching .draining (launch2 2 2 [] none none)).dies) ∧
    ((launch2 1 0 [] none (some 0)).pollAt = some 0 ∧ 0 ≤ base.now ∧ base.now < base.now + 9) ∧
    (entry (spawning [⟨some 0, 0x5000, 7, 2, true, 0, 0, 3, 9⟩]) 0 0).st = .faulted ∧ Named (spawning []) ((3 : Word).toNat % 2 ^ 32) 0 0 := by
  refine ⟨?_, by decide, ?_, ?_, by decide, by decide, by decide, by decide, by decide, by decide, by decide, ?_, of_written (by decide), by decide, by decide, ?_⟩
  all_goals first
    | exact ⟨by decide, by decide, by decide, by decide, by decide, by decide⟩
    | (intro st h; simp only [List.mem_cons, List.not_mem_nil, or_false] at h; rcases h with rfl | rfl <;> exact of_written (by decide))

/-! ### Hypotheses that can be met: system registers -/

/-- The core has two misses, one taken, and an upcall; a change of its split to `ls` may be under way; context 20 has what `x` says. -/
def kernel (ch : Option (Nat × Nat)) (x : Ctx) : State :=
  { (holding [(6, 4), (7, 0xABCDEF5), (8, 9)]).setCore 1
      { mbox := [⟨5, 0x77, 1, true, 1, true, [], 0, 0⟩, ⟨6, 0x78, 2, false, 3, false, [], 0, 0⟩], upcalls := [⟨3, 1, 99, 1⟩], lsChange := ch } with
    slots := tput (holding [(6, 4), (7, 0xABCDEF5), (8, 9)]).slots 20 { ctx := x } }

/-- The change that the issuing context asked for is done. -/
def retrying : State := (kernel none {}).setCore 1 { (kernel none {}).core 1 with lsDone := [(17, 0)] }

theorem set_kernel (ch : Option (Nat × Nat)) (x : Ctx) : Set (kernel ch x) := set_of_me (set_holding [(6, 4), (7, 0xABCDEF5), (8, 9)]) rfl

theorem witness_SystemRegistersReadAndWrite_SystemRegisters :
    Set base ∧ base.me.sys = true ∧ Set (userCtx 0 0) ∧ (userCtx 0 0).me.sys = false ∧ (0x003 ∉ readOnlyNos ++ openNos ++ popNos ++ sysNos) ∧
    illegalWrites base 0x309 ≠ [] ∧ (writes base 0x848).length = 17 := ⟨set_base, by decide, set_userCtx _ _, by decide, by decide, by decide, by decide⟩

theorem witness_SystemRegistersReadAndWrite_RegisterSteps :
    Set (kernel none {}) ∧ DstPlain 55 ∧ Quiet (kernel none {}).me 55 ∧ base.myCore.mbox.find? (fun m => !m.taken) = none ∧
    ((kernel none {}).myCore.mbox.find? (fun m => !m.taken)).isSome ∧ (kernel none {}).myCore.upcalls ≠ [] ∧ base.myCore.upcalls = [] ∧
    CoreIdle (kernel none {}) 1 ∧ ((kernel none { outst := [pend false] }).ctx (16 * 1 + 4)).outst ≠ [] ∧
    (fieldAt ((kernel none {}).me.reg 6) 0 4 = (kernel none {}).myCore.lsplit ∧ (kernel none {}).myCore.lsChange = none) ∧
    ((kernel (some (17, 8)) {}).core 1).lsChange = some (17, 8) ∧ ((kernel (some (17, 8)) {}).core 1).lsplit = 4 ∧
    SplitWaits (kernel none { outst := [{ pend false with load := true, addr := 0xFE00000300 }] }) 1 ∧
    ((∀ e ∈ ((kernel none {}).core 1).lsDone, e.1 ≠ (kernel none {}).cur) ∧ ∀ o ∈ ((kernel none {}).cluster (coreCl 1)).copyQ, o.part = none) ∧
    (retrying.myCore.lsDone = [(retrying.cur, retrying.me.icount)] ∧ fieldAt (retrying.me.reg 6) 0 4 < 9) := by
  refine ⟨set_kernel _ _, by simp [DstPlain], quiet_of (by decide), by decide, by decide, by decide, by decide, fun n hn => ?_, by decide, by decide, by decide, by decide,
    ⟨4, by decide, _, List.mem_cons_self .., by decide, by decide, by decide, by decide⟩, ⟨by decide, by decide⟩, by decide⟩
  have h : ∀ n : Fin 16, ((kernel none {}).ctx (16 * 1 + n)).outst = [] ∧ (((kernel none {}).ctx (16 * 1 + n)).st = .empty ∨ ((kernel none {}).ctx (16 * 1 + n)).st = .live) ∧
      ((kernel none {}).slot (16 * 1 + n)).late = [] ∧
      ((kernel none {}).slot (16 * 1 + n)).park = none := by decide
  obtain ⟨h1, h0, h2, h3⟩ := h ⟨n, hn⟩
  exact ⟨h1, fun t ht => (by rcases h0 with h0 | h0 <;> rw [h0] at ht <;> cases ht), h2, fun x hx => (by rw [h3] at hx; cases hx), fun w hw => nomatch hw⟩

/-! ### Hypotheses that can be met: the walker -/

def missOf (req kind : Nat) (invs : List InvRec) : MissReq := ⟨req, 0x12345, kind, true, 3, true, invs, 6, 0⟩
/-- The mailbox word of that request; a leaf of level 1 for it. -/
def missWord5 : Nat := 0x12345 * 2 ^ 20 + 2 ^ 7 + 2 ^ 6 + 5
def leaf1 : Nat := 0x7000 + 0x13
/-- Core 1 with one pending request; context `5` waits for it; x6 holds `leaf`, x7 `w`. -/
def walking (leaf w : Nat) (m : MissReq) : State :=
  { (holding [(6, leaf), (7, w)]).setCore 1 { mbox := [m], engWait := [missOf 15 0 []], itlb := [⟨3, false, 0x12345000, 12, 0x9000, true, false, false, false, false, false⟩] } with
    slots := tput (holding [(6, leaf), (7, w)]).slots 21 { ctx := { ctx0 with st := .parked .miss } } }

theorem set_walking (l w : Nat) (m : MissReq) : Set (walking l w m) := set_of_me (set_holding [(6, l), (7, w)]) (by simp [walking, State.me, State.ctx, State.slot, holding, withCtx, State.setCore, tput, tget])

theorem no_miss (m : MissReq) {p : MissReq → Bool} : (base.core 1).mbox.find? p ≠ some m := by
  rw [show (base.core 1).mbox = [] by decide]
  simp

/-- Context 20 waits with an LDFE at 0x12345008, which its DTLB leads to 0x9008. -/
def theWaiter : FeWaiter := ⟨5, 0, 0, 9, 0x12345008, some 20, none, none⟩
def waitsOn (r : List InvHold) : State :=
  { base with cores := [(1, { atp := 1 + 3 * 2 ^ 48, dtlb := [pageEntry] })], feWait := [(0x9008, ⟨[theWaiter], []⟩)], invWait := r }

theorem witness_WalkerAnswersAndRelightsTakeEffect_WalkerAnswers :
    Set (walking leaf1 missWord5 (missOf 5 0 [])) ∧ (walking leaf1 missWord5 (missOf 5 0 [])).me.sys = true ∧
    NamesMiss (walking leaf1 missWord5 (missOf 5 0 [])) 1 (BitVec.ofNat 64 missWord5) (missOf 5 0 []) ∧
    ((walking leaf1 missWord5 (missOf 5 0 [])).ctx (16 * 1 + 5)).st = .parked .miss ∧ 16 * 1 + 5 ≠ 17 ∧ LeafOk (BitVec.ofNat 64 leaf1) 1 ∧
    LeafOk 0x100000213 3 ∧ ¬LeafOk 0x40000213 3 ∧
    (∀ i ∈ (missOf 5 0 [⟨1, 0, 3⟩]).invs, removes i (entryOf (BitVec.ofNat 64 leaf1) 1 (missOf 5 0 [⟨1, 0, 3⟩])) = true) ∧
    removes ⟨1, 0, 4⟩ (entryOf (BitVec.ofNat 64 leaf1) 1 (missOf 5 0 [])) = false ∧
    NamesMiss (walking leaf1 (missWord5 + 10) (missOf 15 0 [])) 1 (BitVec.ofNat 64 (missWord5 + 10)) (missOf 15 0 []) ∧
    (∀ m, ¬NamesMiss base 1 (BitVec.ofNat 64 missWord5) m) ∧ (∀ o ∈ base.me.outst, o.posted.isSome = true) ∧ (∃ o ∈ (busy true false false).me.outst, o.posted = none) ∧
    (∀ w ∈ (waitsOn []).invWait, w.ctx ≠ (waitsOn []).cur) ∧ WaitsThrough (waitsOn []) .cl ⟨0, 0x12345000, 3⟩ theWaiter ∧
    (∀ w, ¬WaitsThrough base .cl ⟨2, 0, 0⟩ w) ∧
    (let r : InvHold := ⟨17, 0, [5]⟩; r.ctx = (waitsOn [r]).cur ∧ r.icount = (waitsOn [r]).me.icount ∧ theWaiter.tag ∈ r.waits ∧
      theWaiter ∈ ((waitsOn [r]).fe 0x9008).fl ∧ (waitsOn [r]).me.outst = []) := by
  refine ⟨set_walking _ _ _, by decide, ⟨by decide, by decide⟩, by decide, by decide, ⟨by decide, by decide, by decide, by decide, by decide, by decide⟩,
    ⟨by decide, by decide, by decide, by decide, by decide, by decide⟩, fun h => absurd h.aligned (by decide), by decide, by decide, ⟨by decide, by decide⟩,
    fun m ⟨_, h⟩ => no_miss m h, by decide, ⟨_, List.mem_singleton.2 rfl, rfl⟩,
    by decide, ⟨(0x9008, ⟨[theWaiter], []⟩), List.mem_singleton.2 rfl, List.mem_singleton.2 rfl, by decide, by decide, 20, rfl, by decide, by unfold InScope; decide,
      pageEntry, by decide, by decide, by decide⟩, fun w ⟨_, h, _⟩ => (nomatch h), by decide⟩

/-- Slot 4 of core 1 has a park record, relit or not; x6 and x7 hold the operands. -/
def relighting (v w : Nat) (relit fib : Bool) (up : List Upcall) : State :=
  let s := (holding [(6, v), (7, w)]).setCore 1 { upcalls := up }
  { s with slots := tput s.slots 20 { park := some { ctx0 with st := .parked .miss }, relit := relit, fibre := fib } }

theorem set_relighting (v w : Nat) (r f : Bool) (up : List Upcall) : Set (relighting v w r f up) :=
  set_of_me (set_holding [(6, v), (7, w)]) (by simp [relighting, State.me, State.ctx, State.slot, holding, withCtx, State.setCore, tput, tget])

theorem witness_WalkerAnswersAndRelightsTakeEffect_Relights :
    Set (relighting 4 0x123 false false []) ∧ ((relighting 4 0 false false []).me.reg 6).toNat = 4 ∧ 16 * 1 + 4 ≠ (relighting 4 0 false false []).cur ∧
    ((relighting 4 0 false false []).slot 20).park = some { ctx0 with st := .parked .miss } ∧ ((relighting 4 0 false true []).slot 20).fibre = true ∧
    ((relighting 20 fabDev false false []).me.reg 7).toNat = fabDev ∧ ((relighting (2 ^ 15) 0 false false []).me.reg 6).toNat = 2 ^ 15 ∧
    ((relighting 4 0 true false []).slot 20).relit = true ∧ (relighting 4 0 false false []).dieGone (ctxDie 20) = false ∧
    ((relighting 4 0 false false [⟨4, 0, 1, 1⟩]).core 1).mlogStart = none ∧
    (∀ u ∈ ((relighting 4 0 false false [⟨4, 0, 1, 1⟩]).core 1).upcalls, u.slot ≠ ctxSlot 20 ∨ u.kind ≠ 1) ∧ (∃ w, w < 2 ^ 12 ∧ w ≠ fabDev) := by
  refine ⟨set_relighting _ _ _ _ _, by decide, by decide, by decide, by decide, ?_, by decide, by decide, by decide, by decide, by decide, ?_⟩
  · have := fabDev_lt
    show (BitVec.ofNat 64 fabDev).toNat = fabDev
    simp only [BitVec.toNat_ofNat]
    omega
  · by_cases h : fabDev = 0
    · exact ⟨1, by decide, by omega⟩
    · exact ⟨0, by decide, fun e => h e.symm⟩

/-! ### Hypotheses that can be met: pre-emption -/

/-- The mask of clusters 0 and 200 at the operand's address; context 200 of cluster 1 stands halted; of cluster 0, context 20 runs, 21 waits
on the full/empty word at 0x800, 22 waits for the walker, and 23 on a word of module 7. -/
def ganging : State :=
  let s := copying [1, 0, 0, 2 ^ 8] 0
  { s with slots := tput (tput (tput (tput s.slots 20 { ctx := ctx0 }) 21 { ctx := { ctx0 with st := .parked (.fe 5) } }) 22
                      { ctx := { ctx0 with st := .parked .miss } }) 23 { ctx := { ctx0 with st := .parked (.reply 5), outst := [{ pend false with fe := some (7, 0x40) }] } }
                      ++ [(200, { ctx := ctx0, gang := true })],
           clusters := s.clusters ++ [(1, { gang := true })],
           feWait := [(0x800, { fl := [⟨5, 0, 0, 9, 0x800, some 21, none, none⟩] })],
           cores := [(1, { mbox := [⟨6, 7, 0, true, 0, false, [], 0, 0⟩] })] }

/-- The same with a save of cluster 0, or a load of it, in progress. -/
def besaved (loading : Bool) : State := ganging.setCluster 0 { ganging.cluster 0 with saving := some 17, loading := loading }

theorem set_ganging : Set ganging := set_of_me (set_copying [1, 0, 0, 2 ^ 8] 0) (by decide)

theorem witness_GangStopsSlotRecordsAndLogsHold_GangStops :
    Set ganging ∧ ganging.me.sys = true ∧ readWords ganging (ganging.me.reg 6).toNat 4 = .ok [1, 0, 0, 2 ^ 8] ganging ∧ OnlyRead ganging ganging ∧
    (∀ k, (ganging.core k).mlog.getLsbD 0 = false) ∧ Masked ganging [1, 0, 0, 2 ^ 8] 0 ∧ Masked ganging [1, 0, 0, 2 ^ 8] 200 ∧ ¬Masked ganging [1, 0, 0, 2 ^ 8] 1 ∧
    (ganging.ctx 20).st ≠ .empty ∧ ctxCl 20 = 0 ∧ ctxCl 200 = 1 ∧ (ganging.ctx 21).st = .parked (.fe 5) ∧ (ganging.fe 0x800).fl.any (·.ctx == some 21) = true ∧
    ctxCl 21 = 0 ∧ (ganging.ctx 22).st = .parked .miss ∧ (ganging.core (ctxCore 22)).mbox.any (·.req == ctxSlot 22) = true ∧ ctxCl 22 = 0 ∧
    (∀ cl, ∀ q ∈ (ganging.cluster cl).copyQ, q.part = none) ∧ (Halts ganging [1, 0, 0, 2 ^ 8] 0 ∧ Halts ganging [1, 0, 0, 2 ^ 8] 200) ∧
    (Masked (besaved false) [1, 0, 0, 2 ^ 8] 0 ∧ ¬Halts (besaved false) [1, 0, 0, 2 ^ 8] 0 ∧ Halts (besaved true) [1, 0, 0, 2 ^ 8] 0) ∧
    (WaitsAt ganging 23 7 { pend false with fe := some (7, 0x40) } ∧ ctxCl 23 = 0 ∧ ∀ k ∈ ganging.keys, k.2.v = false) := by
  refine ⟨set_ganging, by decide, rfl, onlyRead_refl _ (by decide), fun k => by by_cases hk : k = 1 <;> simp [State.core, ganging, tget, hk, Ne.symm], ⟨by decide, by decide, by decide⟩, ⟨by decide, by decide, by decide⟩,
    fun h => absurd h.2.1 (by decide), by decide, by decide, by decide, by decide, by decide, by decide, by decide, by decide, by decide, fun cl q hq => ?_,
    ⟨⟨⟨by decide, by decide, by decide⟩, by decide⟩, ⟨by decide, by decide, by decide⟩, by decide⟩,
    ⟨⟨by decide, by decide, by decide⟩, fun h => absurd h.2 (by decide), ⟨by decide, by decide, by decide⟩, by decide⟩,
    ⟨⟨List.mem_cons_self .., ⟨0x40, rfl⟩, by decide, by decide⟩, by decide, by decide⟩⟩
  by_cases h0 : 0 = cl <;> by_cases h1 : 1 = cl <;> simp_all [State.cluster, ganging, copying, holding, withCtx, tget]

/-- Slot 4 of core 1 is `sl`; x6 and x7 name a slot and an area. -/
def recording (n area : Nat) (sl : Slot) : State := { holding [(6, n), (7, area)] with slots := tput (holding [(6, n), (7, area)]).slots 20 sl }
def fibreSlot (park : Option Ctx) : Slot := { ctx := { ctx0 with sys := false }, fibre := true, park := park }
def haltedSlot : Slot := { ctx := { ctx0 with st := .halted, hcode := 0x19 } }

theorem set_recording (n area : Nat) (sl : Slot) : Set (recording n area sl) :=
  set_of_me (set_holding [(6, n), (7, area)]) (by simp [recording, State.me, State.ctx, State.slot, holding, withCtx, tput, tget])

theorem direct_of {s : State} {a n : Nat} (hs : s.me.sys = true) (ho : s.myCore.atp.getLsbD 0 = false) (h : a + n ≤ 2 ^ 36) (hw : Memory.wf s.mem = true)
    (hd : s.dieGone 0 = false) (hf : s.me.missAns = none) : Direct s a n where
  fresh := hf
  sys := hs
  off := ho
  low := by omega
  wf := hw
  die := fun b _ h2 => by rw [Nat.div_eq_of_lt (by omega)]; exact hd

/-- A record of STATE 1 at an area in the local store. -/
def savedWords : List Nat := List.replicate 64 7 ++ [5, 6, 0x3000, 2 ^ 8, 9, 0, 1 + 2 ^ 4 * 3, 0x11, 0x22, 0x33] ++ List.replicate 54 0
def loadable (park : Option Ctx) : State :=
  { recording 4 0xFE00000400 { park := park } with mem := wordsAt [] (locLs 1 0x400) savedWords }

theorem set_loadable (p : Option Ctx) : Set (loadable p) :=
  set_of_me (set_recording 4 0xFE00000400 { park := p }) (by simp only [loadable, State.me, State.ctx, State.slot])

set_option maxRecDepth 30000 in
theorem witness_GangStopsSlotRecordsAndLogsHold_SlotRecords :
    Set (recording 4 0x8000 (fibreSlot (some ctx0))) ∧ Direct (recording 4 0x8000 (fibreSlot (some ctx0))) 0x8000 1024 ∧ fibreQuiet (fibreSlot none).ctx ∧
    Direct (recording 4 0x8000 haltedSlot) 0x8000 1024 ∧ haltedSlot.ctx.st = .halted ∧ haltedSlot.ctx.unit = .none ∧ (haltedSlot.ctx.streams = [] ∧ haltedSlot.ctx.delayed = [] ∧ haltedSlot.ctx.hrec < 2 ^ 512) ∧ (16 * 1 + 4 ≠ 17) ∧
    ((recording 4 0x8000 {}).slot 20).ctx.st ≠ .halted ∧ ({ ctx0 with dc := #v[0, 1, 0, 0] } : Ctx).dcMask ≠ 0#4 ∧
    (∃ d ∈ ({ ctx0 with delayed := [⟨0x14, 0x440, 7, none, true, 0xFF8⟩] } : Ctx).delayed, d.posted = true) ∧ (∀ d ∈ (fibreSlot none).ctx.delayed, d.posted = false) ∧
    (∃ s1, readWords (loadable none) 0xFE00000400 128 = .ok savedWords s1 ∧ OnlyRead (loadable none) s1) ∧ ((loadable none).slot 20).ctx.st = .empty ∧
    ((loadable (some ctx0)).slot 20).park.isSome = true ∧ ((savedWords[70]?).getD 0 % 2 ^ 4 = 1 ∧ (savedWords[70]?).getD 0 < 2 ^ 7) ∧ (∀ i, 75 ≤ i → (savedWords[i]?).getD 0 = 0) := by
  refine ⟨set_recording _ _ _, direct_of (by decide) (by decide) (by decide) (by decide) (by decide) (by decide), ⟨by decide, by decide⟩,
    direct_of (by decide) (by decide) (by decide) (by decide) (by decide) (by decide), by decide, by decide, by decide, by decide, by decide, by decide,
    ⟨_, List.mem_singleton.2 rfl, rfl⟩, by decide,
    ⟨_, rfl, onlyRead_refl _ (by decide)⟩, by decide, by decide, by decide, fun i hi => ?_⟩
  by_cases h : i < 128
  · have := (by decide : ∀ i : Fin 128, 75 ≤ i.val → (savedWords[i.val]?).getD 0 = 0) ⟨i, h⟩ hi
    exact this
  · rw [List.getElem?_eq_none (by have : savedWords.length = 128 := by decide
                                  omega)]
    rfl

/-- As `atSp`, core 1 logging at 0x100000 from byte `pos` on, or replaying a log of one load of 0x77. -/
def logging (pos : Nat) (re : Bool) : State := atSp.setCore 1 { mlog := 0x100001, mlogStart := some 0, mlogPos := pos, replaying := re }
def replays : State :=
  { logging 0 true with mem := wordsAt atSp.mem 0x100000 [0xFF00000200 + 2 ^ 48 + 2 ^ 56 + 2 ^ 60, 0, 0x77] }
def heard : ChanMsg := ⟨epAddr 1 2, epAddr 2 9, 1, leBytes 8 0x3333⟩

theorem witness_GangStopsSlotRecordsAndLogsHold_MessageLog :
    Memory.wf (logging 0 false).mem = true ∧ (Instr.ld {} .b8 false false .cl 8 mA).wf = true ∧ (Set (logging 0 false) ∧ (logging 0 false).me.outst = []) ∧
    ((∀ n ∈ [0, 4032], resolveCtx (logging n false) (ea (logging n false) mA 8) 8 false .read = (.ok (.sp 0 0 0x200), logging n false)) ∧
      locEcc (logging 0 false) (.sp 0 0 0x200) 8 = false) ∧
    (LogRoom (logging 4000 false) 1 1 ∧ (LogRoom (logging 0 false) 1 2 ∧ LogRoom (logging 0 false) 1 (heard.body.length / 8 + 2)) ∧ logBytes (logging 4072 false) 1 < 4072 + (16 + 8 * 1) + 16) ∧
    (Memory.wf replays.mem = true ∧ resolveCtx replays (ea replays mA 8) 8 false .read = (.ok (.sp 0 0 0x200), replays) ∧ replays.myCore.mlogStart ≠ none ∧
      FirstEntry replays 1 1 (ctxSlot replays.cur) (ea replays mA 8) 0 [0x77] ∧ 0 ≤ logCyc replays 1) ∧
    memRead (logging 0 true).mem (logAddr (logging 0 true) 1) 8 = 0 ∧ resolveCtx replays (ea replays mA 8) 8 false .write = (.ok (.sp 0 0 0x200), replays) ∧
    (epCore heard.dst = 1 ∧ epNum heard.dst = 2 ∧ epAddr 2 9 % 2 ^ 12 = fabDev ∧ heard.body.length % 8 = 0 ∧
      tget (((logging 0 false).setCore 1 { (logging 0 false).core 1 with rx := [(2, rxEp2 0 [])] }).core 1).rx 2 = some (rxEp2 0 []) ∧ (rxEp2 0 []).gen = heard.gen) := by
  refine ⟨by decide, by decide, ⟨set_of rfl rfl (fun n => by fin_cases n <;> rfl), by decide⟩, ⟨by decide, by decide⟩,
    ⟨⟨by decide, by decide, by decide, by decide⟩, ⟨⟨by decide, by decide, by decide, by decide⟩, by decide, by decide, by decide, by decide⟩, by decide⟩,
    ⟨by decide, by decide, by decide, ⟨by decide, by decide, fun i hi => ?_, by decide⟩, by decide⟩, by decide, by decide,
    ⟨(core_own 2 (by decide)).1, (core_own 2 (by decide)).2, peer_own 2 9, by decide, rfl, by decide⟩⟩
  obtain rfl : i = 0 := by simpa using hi
  decide

/-- Core 1 of cluster 0 saves cluster 3, in slot 1; x6 to x8 hold the operands. -/
def saving (v : Nat) (q : Cluster) : State :=
  let s := holding [(6, 3), (7, 0x10000), (8, v)]
  { s with clusters := s.clusters ++ [(3, q)], slots := tput s.slots 390 { ctx := { ctx0 with outst := [pend false] } } }

theorem set_saving (v : Nat) (q : Cluster) : Set (saving v q) :=
  set_of_me (set_holding [(6, 3), (7, 0x10000), (8, v)]) (by simp [saving, State.me, State.ctx, State.slot, holding, withCtx, tput, tget])

/-- The image that a load has read: slot 5 holds a context of STATE 1. -/
def loaded : Cluster :=
  { ready := true, saving := some 17, loading := true, savePos := 0xCC0000, img := memPut [] (0x40000 + 1024 * 5 + 8 * 66) (leBytes 8 0x3000 ++ List.replicate 24 0 ++ leBytes 8 1) }

theorem witness_ClusterImagesSaveAndLoad :
    Set (saving (2 ^ 24) { saving := some 17, savePos := 0xCC0000 }) ∧ (saving (2 ^ 24) {}).me.sys = true ∧ ctxCl 17 ≠ 3 ∧
    ((saving (2 ^ 24) { saving := some 17, savePos := 0xCC0000 }).cluster 3).saving = some 17 ∧
    Direct (saving (2 ^ 24) { saving := some 17, savePos := 0xCC0000 }) 0x10000 4096 ∧
    (((saving (2 ^ 24) {}).cluster 3).saving = none ∧ ((saving (2 ^ 24) {}).cluster 3).saveQ = []) ∧ (ctxCl 390 = 3 ∧ ((saving (2 ^ 24) {}).ctx 390).outst ≠ []) ∧
    (let s := saving (2 ^ 24) { saving := some 17 }; Direct { s with slots := base.slots } 0x10000 0xCC0000 ∧ saveReady { s with slots := base.slots } 3 = true ∧ s.ecc = [] ∧
      s.snapshots.length < 2 ^ 63 ∧ ∀ w ∈ s.full, w % 8 = 0) ∧
    (((saving 7 loaded).setCore 25 { mlog := 3 }).core 25).mlog.getLsbD 1 = true ∧
    ((saving 7 loaded).cluster 3).loading = true ∧ (∀ k, ((saving 7 loaded).core k).mlog.getLsbD 0 = false) ∧
    imgWord (saving 7 loaded) 3 5 false 70 % 8 = 1 ∧ imgWord (saving 7 loaded) 3 5 true 70 = 0 ∧ imgWord (saving 7 loaded) 3 6 false 70 = 0 :=
  ⟨set_saving _ _, by decide, by decide, by decide, direct_of (by decide) (by decide) (by decide) (by decide) (by decide) (by decide), by decide, by decide,
    ⟨direct_of (by decide) (by decide) (by decide) (by decide) (by decide) (by decide), by decide, by decide, by decide, by decide⟩, by decide, by decide,
    fun _ => by simp [State.core, saving, holding, withCtx, State.reset, tget], by decide, by decide, by decide⟩

/-! ### Hypotheses that can be met: the fabric's registers, the host, the islands -/

/-- The record of a key for device 0x123 in slot 5, at 0x9000; the port on or off, in the minimal configuration; window 3 leads to offset 0. -/
def keyWords : List Nat := [1, 2, 3, 4, 2 ^ 63 + 0x123 + 7 * 2 ^ 12 + 5 * 2 ^ 16, 0, 0, 0]
def hosting (minimal : Bool) : State :=
  { exporting with mem := wordsAt exporting.mem 0x9000 keyWords, boot := { exporting.boot with minimal := minimal }, windows := [(3, 1 + 0 + fabDev * 2 ^ 44)] }

set_option exponentiation.threshold 600 in
set_option maxRecDepth 30000 in
theorem witness_FabricKeysAndHostWindowsAct_ExportTable :
    ¬Covered exporting 0x200000 ∧ Covered exporting 0x48 ∧ entryFor exporting 0x48 = 0x200017 ∧ EntryOk 0x200017 ∧ ¬EntryOk 0x200016 ∧ Permits 0x200017 .amo ∧
    ¬Permits 0x200007 .amo ∧ entryField 0x200117 8 1 = 1 ∧ entryField 0x200017 48 4 = 0 ∧ exporting.dieGone 0 = false ∧
    (EntryOk 0x1000000200017 ∧ entryField 0x1000000200017 48 4 = 1 ∧ entryField 0x1000000200017 24 3 = 0 ∧ exporting.ecc = []) := by
  refine ⟨?_, ?_, by decide, ?_, ?_, ?_, ?_, by decide, by decide, by decide, ?_, by decide, by decide, by decide⟩
  · unfold Covered; decide
  · unfold Covered; decide
  · exact ⟨by decide, by decide, by decide, by decide, by decide, by decide, fun h => absurd h (by decide), fun h => absurd h (by decide)⟩
  · exact fun h => absurd h.1 (by decide)
  · exact ⟨by decide, by decide, by decide⟩
  · exact fun h => absurd h.2.2 (by decide)
  · exact ⟨by decide, by decide, by decide, by decide, by decide, by decide, fun h => absurd h (by decide), fun _ => ⟨by decide, by decide, by decide⟩⟩

set_option exponentiation.threshold 600 in
set_option maxRecDepth 30000 in
theorem witness_FabricKeysAndHostWindowsAct_FabricAndHost :
    (fieldAt 0x2F 1 5 = 23 ∧ fieldAt 0x30 1 5 = 24) ∧ KeyOk (hosting true) 0x9000 ∧ keyRecord (hosting true) 0x10000 / 2 ^ 320 = 0 ∧
    keyRecord (hosting true) 0x9000 / 2 ^ 272 % 2 ^ 4 = 5 ∧ keyRecord { hosting true with mem := wordsAt [] 0x9000 [0, 0, 0, 0, 0, 1] } 0x9000 / 2 ^ 320 ≠ 0 ∧
    PortOn (hosting true) ∧ (hosting true).boot.waiting = false ∧ Reaches (hosting true) fabDev ∧ (hosting true).boot.links ≠ 0 ∧ (∃ v, v < 2 ^ 23 ∧ v % 2 ^ 12 = fabDev ∧ v / 2 ^ 12 % 2 ^ 3 = 0) ∧
    (∃ v, v < 2 ^ 23 ∧ v % 2 ^ 12 ≠ fabDev) ∧ (hosting true).dieGone 0 = false ∧ WindowTo (hosting true) 3 0 fabDev ∧
    exportResolve (exportLook (hosting true) (0 + 0x48)) (0 + 0x48) 8 false .read false = .ok (.phys 0x200048) ∧ exportResolve (exportLook (hosting true) (0 + 0x48)) (0 + 0x48) 8 false .write false = .ok (.phys 0x200048) ∧
    exportResolve (exportLook (hosting true) (0 + 0x200000)) (0 + 0x200000) 8 false .read false = .error (1, cRefused) ∧ (∀ k ∈ (hosting true).keys, k.2.v = false) ∧
    (∃ d w, WindowTo { hosting true with windows := w } 3 0 d ∧ d ≠ fabDev) ∧
    (∃ b, PortOn { hosting true with boot := b } ∧ b.waiting = true) ∧
    ((∃ d w, WindowTo { hosting true with windows := w, boot := { (hosting true).boot with links := 0 } } 3 0 d ∧ d ≠ fabDev) ∧
      PortOn { hosting true with boot := { (hosting true).boot with links := 0 } }) ∧
    tget (hosting true).windows 4 = none := by
  have hf := fabDev_lt
  refine ⟨by decide, ⟨by decide, by decide, by decide, fun k hk => by cases hk⟩, by decide, by decide, by decide, .inr rfl, by decide, .inl ⟨.inr rfl, by decide⟩, by decide,
    ⟨fabDev, by omega, by omega, by omega⟩, ?_, by decide, ⟨by decide, by decide, by decide, hf, rfl⟩, by decide, by decide, by decide, (fun k hk => by cases hk),
    ⟨(fabDev + 1) % 4096, [(3, 1 + 0 + (fabDev + 1) % 4096 * 2 ^ 44)], ⟨by decide, by decide, by decide, by omega, rfl⟩, by omega⟩,
    ⟨{ (hosting true).boot with waiting := true }, .inr rfl, rfl⟩,
    ⟨⟨(fabDev + 1) % 4096, [(3, 1 + 0 + (fabDev + 1) % 4096 * 2 ^ 44)], ⟨by decide, by decide, by decide, by omega, rfl⟩, by omega⟩, .inr rfl⟩, rfl⟩
  by_cases h : fabDev = 0
  · exact ⟨1, by omega, by omega⟩
  · exact ⟨0, by omega, by omega⟩

/-- Clusters 0 and 40 run, at steps 6 and 5 of 9 and 5 asked for; the matrix island of the second is stopped until 70; now is 60. -/
def powered (mstop : Nat) : State :=
  { base with
    now := 60
    clusters := [(0, { ready := true, sstep := 6, swAsk := 9, mstep := 6, maAsk := 9 }), (40, { ready := true, sstep := 5, swAsk := 5, mstep := 5, maAsk := 7, mstop := mstop })] }

theorem witness_IslandsChangeSpeedWithinPower :
    ((17, 0x51, 0) ∉ (powered 0).pwrWait ∧ (powered 0).cur = 17 ∧ (powered 0).me.icount = 0 ∧ (17, 0x51, 0) ∈ { powered 70 with pwrWait := [(17, 0x51, 0)] }.pwrWait ∧ stopEnd (powered 70) 0x51 ≠ 0 ∧
      wanted (powered 70) 0x51 = 7) ∧
    (fieldAt 0x510014 0 5 = 20 ∧ fieldAt 0x510000 16 9 % 2 = 1) ∧ (fieldAt 0x510000 0 5 = 0 ∧ Gateable (powered 0) (ofIsland 0x51)) ∧
    (ofIsland 0x51 = 40 ∧ stopEnd (powered 0) 0x51 = 0 ∧ running (powered 0) 0x51 ≠ 0) ∧ ¬Gateable { powered 0 with mus := [(81, { st := .running })] } 40 ∧
    (stopEnd (powered 60) 0x51 = 60 ∧ (powered 60).now = 60) ∧ (powered 70).now < stopEnd (powered 70) 0x51 ∧ ((powered 70).clusters.map Prod.fst).Nodup ∧
    ((powered 70).pwrLimit < 2601 ∧ ((powered 70).cluster (ofIsland 0)).ready = true ∧ stopEnd (powered 70) 0 = 0 ∧ 1 < running (powered 70) 0) ∧
    100 * 2469 < 95 * (powered 70).pwrLimit ∧ 95 * (powered 70).pwrLimit ≤ 100 * 2470 := by
  refine ⟨by decide, by decide, ⟨by decide, ?_⟩, by decide, ?_, by decide, by decide, by decide, by decide, by decide, by decide⟩
  · unfold Gateable
    decide
  · unfold Gateable
    decide

/-! ### Hypotheses that can be met: bring-up, attestation, the loss of a die

Whether a stored or a host's image verifies is fixed by opaque constants: the clauses that ask for it have no witness here. -/

/-- A start under way, at time `now`; 3 starts have failed before. -/
def starting (now : Nat) : State := { base with now := now, boot := { base.boot with started := true, count := 3, lastReason := 3 } }

theorem witness_BringUpStartsAndAttests_BringUp :
    StartOpen (starting 7) ∧ ¬StartOpen base ∧ (starting 7).lost 3 = false ∧ { starting 7 with pkgLost := 8 }.lost 3 = true ∧
    ((starting 7).cluster 5).ready = false ∧ ((starting 7).cluster 0).ready = true ∧ fieldAt 0x1600D 0 16 = 0x600D ∧ (starting 7).now ≤ (starting 7).boot.start + 2 ^ 32 ∧
    (starting (2 ^ 32 + 1)).boot.start + 2 ^ 32 < (starting (2 ^ 32 + 1)).now ∧ StartOpen (starting (2 ^ 32 + 1)) ∧ PortOn (hosting true) ∧ (starting 7).boot.minimal = false ∧ (starting 7).boot.links / 2 ^ 15 % 2 = 0 ∧
    (hosting true).boot.minimal = true :=
  ⟨⟨by decide, by decide, by decide⟩, fun h => absurd h.1 (by decide), by decide, by decide, by decide, by decide, by decide, by decide, by decide,
    ⟨by decide, by decide, by decide⟩, .inr rfl, by decide, by decide, by decide⟩

/-- A start with an image, whose digest is 64 bytes. -/
def attesting : State := { base with boot := { base.boot with digest := List.replicate 64 7 } }

theorem witness_BringUpStartsAndAttests_Attestation :
    Buffer attesting 0x6001 0x6000 ∧ (0x6001 : Word).getLsbD 0 = true ∧ (0x6000 : Word).getLsbD 0 = false ∧ fieldAt 0x6000 13 35 * 2 ^ 13 < 2 ^ 39 ∧
    ({ base with pkgLost := 1 } : State).dieGone (fieldAt 0x6001 13 35 / 2 ^ 23) = true ∧
    2 ^ 39 ≤ fieldAt 0x8000000000 13 35 * 2 ^ 13 :=
  ⟨⟨by decide, by decide, by decide, by decide⟩, by decide, by decide, by decide, by decide, by decide⟩

/-- Context 20 as `x` with what is parked at a full/empty word, at a barrier, or on channels. -/
def bereft (x : Ctx) (fe : List (Nat × FeLists)) (bs : List (Nat × Barrier)) (cs : List (Nat × Core)) : State :=
  { base with slots := [(20, { ctx := x })], feWait := fe, barriers := bs, cores := cs }
def parkedOn (st : Park) : Ctx := { ctx0 with st := .parked st }
def toDie3 (posted : Option Nat) : Outst := { pend false with die := some 3, posted := posted }
/-- A send endpoint to endpoint 5 of core `k`. -/
def sender (k : Nat) : SendEp := { isOpen := true, gen := 2, peer := epAddr k 5, allow := 4 }

theorem epDev_own (k n : Nat) : epDev (epAddr k n) = fabDev := by
  have := fabDev_lt
  unfold epDev epAddr bits
  omega
theorem epCore_768 : epCore (epAddr 768 5) = 768 := by
  have h : ∀ f, f < 4096 → epCore (f + 768 / 256 * 2 ^ 12 + 768 / 8 % 32 * 2 ^ 15 + 768 % 8 * 2 ^ 20 + 5 * 2 ^ 23) = 768 := fun f hf => by
    unfold epCore bits
    omega
  unfold epAddr
  exact h _ fabDev_lt

theorem witness_DieLossMarksTheDie :
    base.lost 0 = false ∧ Unconcerned base ∧ { base with pkgLost := 1 }.lost 0 = true ∧ base.dieGone (1 / 256) = false ∧ 1 / 256 ≠ 3 ∧
    (let s := bereft { parkedOn (.reply 5) with outst := [toDie3 none] } [] [] []
     QuietBut s (some 20) ∧ ctxDie 20 ≠ 3 ∧ (s.ctx 20).st = .parked (.reply (toDie3 none).tag) ∧ (s.ctx 20).outst = [toDie3 none] ∧ (s.slot 20).late = []) ∧
    (let w := 3 * 2 ^ 36 + 8
     let s := bereft (parkedOn (.fe 5)) [(w, ⟨[⟨5, 0, 0, 9, w, some 20, none, none⟩], []⟩)] [] []
     QuietBut s none ∧ locDie w = 3 ∧ (s.ctx 20).st = .parked (.fe 5)) ∧
    (let b : Barrier := ⟨3, [⟨3 * 4096, 5, 0, 7⟩, ⟨20, 5, 1, 0⟩], [], []⟩
     let s := bereft (parkedOn .barrier) [] [(9, b)] []
     QuietBut s none ∧ ctxDie (3 * 4096) = 3 ∧ (s.ctx 20).st = .parked .barrier ∧ (s.ctx 20).barTag = 0) ∧
    (let s := bereft { ctx0 with outst := [toDie3 (some 4)] } [] [] []
     (∀ q ∈ s.slots, ∀ n, q.2.ctx.st ≠ .parked (.reply n)) ∧ toDie3 (some 4) ∈ (s.ctx 20).outst ∧ (toDie3 (some 4)).posted ≠ none) ∧
    (epDev (sender 768).peer = fabDev ∧ epCore (sender 768).peer / 256 = 3 ∧ (sender 768).broken = false ∧
      tget ((bereft ctx0 [] [] [(1, { tx := [(3, sender 768)] })]).core 1).tx 3 = some (sender 768)) ∧
    (epDev (sender 1).peer = fabDev ∧ epCore (sender 1).peer / 256 ≠ 3 ∧ ((bereft ctx0 [] [] [(768, { tx := [(3, sender 1)] })]).core 768).tx = [(3, sender 1)] ∧
      (bereft ctx0 [] [] [(768, { tx := [(3, sender 1)] })]).events = []) := by
  have h1 : epCore (sender 768).peer = 768 := epCore_768
  have h2 : epCore (sender 1).peer = 1 := (core_own 5 (by decide)).1
  refine ⟨by decide, ⟨⟨by decide, by decide⟩, by decide, by decide⟩, by decide, by decide, by decide,
    ⟨⟨by decide, by decide⟩, by decide, by decide, by decide, by decide⟩, ⟨⟨by decide, by decide⟩, by decide, by decide⟩,
    ⟨⟨by decide, by decide⟩, by decide, by decide, by decide⟩, ⟨fun q hq n => ?_, by decide, by decide⟩,
    ⟨epDev_own 768 5, by rw [h1], by decide, rfl⟩, ⟨epDev_own 1 5, by rw [h2]; decide, rfl, rfl⟩⟩
  rw [List.mem_singleton.1 hq]
  simp [ctx0]

/-! ### Hypotheses that can be met: decoding and the step -/

/-- Context 17 has its turn; the bytes at 0x1000 are those of `@!p9 add x5, x5, x6` under dc1's wait; with translation, its pc leads to 0x9000. -/
def addWord : Nat := 0x13012028A3000000
def issuing (w : Nat) : State := { base with todo := [.issue 17], mem := memWrite [] 0x1000 8 w }
def itlbEntry : TlbEntry := ⟨3, false, 0x1000, 12, 0x9000, true, true, true, true, true, false⟩
def issuingVirtual (w : Nat) : State :=
  { withCtx { ctx0 with sys := false } with
    todo := [.issue 17], mem := memWrite [] 0x9000 8 w, cores := [(1, { atp := 1 + 3 * 2 ^ 48, itlb := [itlbEntry] })] }
def firstBundle : List Byte := [0, 0, 0x0E, 0x0A, 0x90, 0x7F, 0x10, 0x80, 0x7F, 0x31, 0, 0]
def issuingMu : State := { unit runMu with todo := [.mu 1], mem := memPut [] (locRm 1 0x200) firstBundle }

theorem witness_InstructionsRoundTrip :
    (Instr.add { gp := 9, gn := true, wm := 2 } .i64 5 5 6).wf = true ∧ encodeNat (.add { gp := 9, gn := true, wm := 2 } .i64 5 5 6) = some addWord ∧
    decodeNat addWord = .ok (.add { gp := 9, gn := true, wm := 2 } .i64 5 5 6) ∧ addWord < 2 ^ 64 := by decide

theorem witness_DecodedWordsAreLegal : decodeNat addWord = .ok (.add { gp := 9, gn := true, wm := 2 } .i64 5 5 6) ∧ addWord < 2 ^ 64 := by decide

theorem witness_MovesRoundTrip :
    (Instr.afFeed false none 16).wf = true ∧ encodeMove (.afFeed false none 16) = some 0x107F90 ∧ decodeMove 0x107F90 = .ok (.afFeed false none 16) ∧
    BundleMoves [(1, .afFeed false none 16), (3, .arDest false 0)] ∧ 14 < 256 := by
  refine ⟨by decide, by decide, by decide, ⟨by simp, fun m hm => ?_⟩, by decide⟩
  simp only [List.mem_cons, List.not_mem_nil, or_false] at hm
  rcases hm with rfl | rfl
  · exact ⟨by decide, by decide, 0x107F90, by decide, by decide⟩
  · exact ⟨by decide, by decide, 0x317F80, by decide, by decide⟩

theorem witness_StepsRunTheDecodedInstruction :
    MayIssue (issuing addWord) 17 ∧ FetchesAt (issuing addWord) 17 0x1000 ∧ Fetchable (issuing addWord) 0x1000 ∧
    decodeNat (memRead (issuing addWord).mem 0x1000 8) = .ok (.add { gp := 9, gn := true, wm := 2 } .i64 5 5 6) ∧
    MayIssue (issuingVirtual 0x00400419200004C0) 17 ∧ FetchesAt (issuingVirtual 0x00400419200004C0) 17 0x9000 ∧ Fetchable (issuingVirtual 0x00400419200004C0) 0x9000 ∧
    decodeNat (memRead (issuingVirtual 0x00400419200004C0).mem 0x9000 8) = .error .illegalEnc ∧ (crowded.ctx 29).st = .empty ∧
    (issuingMu.mu 1).st = .running ∧ bundleAt issuingMu 1 (issuingMu.mu 1).bpc = .ok ⟨14, false, [(1, .afFeed false none 16), (3, .arDest false 0)], 12⟩ ∧
    (encodeNat (.dieReady 3) = none ∧ encodeMove (.dieReady 3) = none ∧ (encodeNat (.tdone {})).isSome) ∧ State.reset.clusters = [] ∧ State.reset.cores = [] :=
  ⟨⟨by decide, by decide, by decide, by decide, by decide, by decide, by decide, by decide, .inl (by decide)⟩, .inl ⟨by decide, by decide, by decide⟩,
    ⟨by decide, by decide, by decide, by decide⟩, by decide, ⟨by decide, by decide, by decide, by decide, by decide, by decide, by decide, by decide, .inl (by decide)⟩,
    .inr ⟨by decide, by decide, by decide, by decide, by decide, itlbEntry, by decide, .inr (by decide), by decide, by decide, .inr (by decide), by decide⟩,
    ⟨by decide, by decide, by decide, by decide⟩, by decide, by decide, by decide, by decide, by decide, by decide, by decide⟩

theorem witness_EveryStepKeepsMemoryCanonical :
    Memory.wf (issuing addWord).mem = true ∧ (∃ t, step (issuing addWord) = .next t) ∧ Memory.wf State.reset.mem = true ∧ step base = .next (endOrNext base) :=
  ⟨by decide, ⟨_, rfl⟩, by decide, rfl⟩

/-! ### Well-formedness: an ill-formed term for each check -/

theorem test_wf_refuses_counter : (Instr.add { sc := some 1 } .i64 5 6 7).wf = false := by decide
theorem test_wf_refuses_destination_60 : (Instr.ld {} .b4 false false .cor 60 ⟨3, 0, 0⟩).wf = false := by decide
theorem test_wf_refuses_equal_targets : (Instr.icmp {} .lt .i64 5 5 6 (.reg 7) false).wf = false ∧ (Instr.fcmp {} .lt .f32 5 5 6 7 false).wf = false := by decide
theorem test_wf_accepts_no_target : (Instr.icmp {} .lt .i64 0 0 6 (.reg 7) false).wf = true := by decide
theorem test_wf_refuses_odd_pair : (Instr.ld {} .b16 false false .cor 5 ⟨3, 0, 0⟩).wf = false ∧ (Instr.st {} .b16 false .cor 56 ⟨3, 0, 0⟩).wf = false := by decide
theorem test_wf_refuses_wide_sign_extension : (Instr.ld {} .b8 true false .cor 5 ⟨3, 0, 0⟩).wf = false := by decide
theorem test_wf_refuses_integer_conversion : (Instr.fcvt {} .i32 .u64 .rz 5 6).wf = false := by decide
theorem test_wf_refuses_fadd_i64 : (Instr.amo {} .fadd .i64 .rlx .cor false 5 6 7).wf = false ∧ (Instr.amo {} .swap .i32 .rlx .cor true 5 6 7).wf = false := by decide
theorem test_wf_refuses_relaxed_fence : (Instr.fence {} .rlx .die).wf = false := by decide
theorem test_wf_refuses_tile_register : (Instr.topen {} 3 0 4 6).wf = false ∧ (Instr.topen {} 3 55 4 6).wf = false := by decide
theorem test_wf_refuses_message_slot : (Instr.msgbind {} 10 5 6 7).wf = false ∧ (Instr.msgbind {} 15 5 6 7).wf = false := by decide
theorem test_wf_refuses_level_0 : (Instr.wkdoneOk {} 0 5 6).wf = false := by decide
theorem test_wf_refuses_held_loop : (Instr.seqLoopn true (.imm 3)).wf = false ∧ (Instr.seqEndl true).wf = false := by decide
theorem test_wf_refuses_passes : (Instr.ppPasses false 0).wf = false ∧ (Instr.ppPasses false 33).wf = false := by decide
theorem test_wf_refuses_palette_end : (Instr.arPal false ⟨.fin, .b, .a⟩).wf = false := by decide
theorem test_wf_refuses_assigned_opcode : (Instr.unassignedOpcode 0x0001000000000000).wf = false := by decide

/-! ### Words of the manual decoded: the programs and the chapters beside those in `DecodesWords` -/

theorem test_decode_ld : decodeNat 0x12400A5840001C40 = .ok (.ld { gp := 9, sc := some 1 } .b2 false false .cor 11 ⟨2, 0, 14⟩) := by decide
theorem test_decode_st : decodeNat 0x13410051E0000040 = .ok (.st { gp := 9, gn := true } .b2 false .cor 10 ⟨15, 0, 0⟩) := by decide
theorem test_decode_bar : decodeNat 0x0070000220000010 = .ok (.bar {} .cl 0 0 17) := by decide
theorem test_decode_ldfe : decodeNat 0x044200DA6B0000C0 = .ok (.ldfe { gp := 2 } 27 ⟨19, 22, 0⟩) := by decide
theorem test_decode_stef : decodeNat 0x084400DA8B0000C0 = .ok (.stef { gp := 4 } 27 ⟨20, 22, 0⟩) := by decide
theorem test_decode_topen : decodeNat 0x025800A1C0000003 = .ok (.topen { gp := 1 } 0 20 14 3) := by decide
theorem test_decode_trow : decodeNat 0x005900B280000006 = .ok (.trow {} 22 20 6) := by decide
theorem test_decode_seal : decodeNat 0x025B00D280000000 = .ok (.seal { gp := 1 } 26 20 0 0 0) := by decide
theorem test_decode_mupost : decodeNat 0x005F01550000005F = .ok (.mupost {} 95 42 40 0 0 0) := by decide
theorem test_decode_chrecv : decodeNat 0x0074006945800000 = .ok (.chrecv {} 13 10 11) := by decide
theorem test_decode_kvsum : decodeNat 0x0068007A00000000 = .ok (.kvsumB {} 15 16 0 0 0) := by decide
theorem test_decode_kvgath : decodeNat 0x006700A9AA000000 = .ok (.kvgathK {} 21 13 20 0 0) := by decide
theorem test_decode_tkwait : decodeNat 0x005300C2A0000000 = .ok (.tkwait {} 24 21) := by decide
theorem test_decode_fexp2 : decodeNat 0x002A014420000000 = .ok (.fexp2 {} .rne 40 33) := by decide
theorem test_decode_tenq : decodeNat 0x0081004880000003 = .ok (.tenq {} 9 4 3) := by decide
theorem test_decode_moves : decodeMove 0x107F90 = .ok (.afFeed false none 16) ∧ decodeMove 0x317F80 = .ok (.arDest false 0) ∧
    decodeMove 0xB17F80 = .ok (.arDest true 0) := by decide
theorem test_decode_bundle : decodeBundle firstBundle = .ok ⟨14, false, [(1, .afFeed false none 16), (3, .arDest false 0)], 12⟩ := by decide
/-- R40, R146: a reserved bit traps, and an opcode that is not assigned is the instruction of its own row. -/
theorem test_decode_reserved : decodeNat 0x00400419200004C0 = .error .illegalEnc ∧ decodeNat 0 = .ok (.unassignedOpcode 0) := by decide
/-- Table words: the opcode alone. -/
theorem test_decodeTableWord : decodeTableWord 64 (0x01 * 2 ^ 48) = some (.add {} .i64 0 0 0) := by decide

/-! ### Worked examples of the manual -/

/-- x[d] behind an instruction on `base` with the registers given. -/
def result (i : Instr) (d : Reg) (l : List (Fin 64 × Nat)) : Nat := ((after i (holding l)).me.reg d).toNat

/-- The notation's example: 0xF3 as 8 bits is −13. -/
theorem test_sext : sext 0xF3 8 = -13 := by decide
set_option maxRecDepth 30000 in
/-- R50: FP32 1.00390625 to BF16, by rounding direction; FP32 −3.7 to i32 towards zero and down; FP32 3.0e10 to i32 saturates. -/
theorem test_fcvt_bf16 : result (.fcvt {} .bf16 .f32 .rne 5 6) 5 [(6, 0x3F808000)] = 0x3F80 ∧ result (.fcvt {} .bf16 .f32 .ru 5 6) 5 [(6, 0x3F808000)] = 0x3F81 := by decide
set_option maxRecDepth 30000 in
theorem test_fcvt_i32 : result (.fcvt {} .i32 .f32 .rz 5 6) 5 [(6, 0xC06CCCCD)] = 0xFFFFFFFFFFFFFFFD ∧ result (.fcvt {} .i32 .f32 .rd 5 6) 5 [(6, 0xC06CCCCD)] = 0xFFFFFFFFFFFFFFFC := by decide
set_option maxRecDepth 30000 in
/-- R54: 1.5, −1.5, 20.0 and 0.03 as L6. -/
theorem test_l6_encode : [0x3FC00000, 0xBFC00000, 0x41A00000, 0x3CF5C28F].map l6Encode = [0x12, 0x32, 0x1F, 0] := by decide
set_option maxRecDepth 30000 in
theorem test_l6_decode : l6Decode 18 = 0x3FB504F3 := by decide
set_option maxRecDepth 30000 in
/-- Window 5: a store of the pair (3.6, −9.2) writes the byte 0x84. -/
theorem test_int4_window : memRead (winWrite base 0 5 0x40 2 0 0xC113333340666666).mem (locSp 0 0x40) 1 = 0x84 := by decide
set_option maxRecDepth 30000 in
/-- EXP2 of 1.5. -/
theorem test_fexp2 : result (.fexp2 {} .rne 5 6) 5 [(6, 0x3FC00000)] = 0x403504F3 := by decide
/-- R72: die 5, index 0x1234, generation 7. -/
theorem test_handle : mkHandle 5 0x1234 7 = 0xA2468007 := by decide
/-- The packet header of chapter 4. -/
theorem test_header : headerLegal 0x0000090500032208 = true ∧ pktLen 0x0000090500032208 = 8 ∧ pktNsuc 0x0000090500032208 = 2 := by decide
/-- FADD.f16 reads the low half alone. -/
theorem test_fadd_f16 : result (.fadd {} .f16 .rne 5 6 7) 5 [(6, 0xDEAD000000003C00), (7, 0x3C00)] = 0x4000 := by decide
/-- BFX and BFX.s of 0xABCD00 under 0x0C08. -/
theorem test_bfx : result (.bfx {} false 5 6 7) 5 [(6, 0xABCD00), (7, 0x0C08)] = 0xBCD ∧
    result (.bfx {} true 5 6 7) 5 [(6, 0xABCD00), (7, 0x0C08)] = 0xFFFFFFFFFFFFFBCD := by decide
/-- FCLASS.bf16 of the least subnormal. -/
theorem test_fclass : result (.fclass {} .bf16 5 6) 5 [(6, 1)] = 0x20 := by decide
/-- ICMP.ltu.i32 compares 32 bits: p3 false, p4 true. -/
theorem test_icmp : (after (.icmp {} .ltu .i32 3 4 5 (.reg 6) false) (holding [(5, 0x7FFFFFFFF), (6, 1)])).me.pred 3 = false ∧
    (after (.icmp {} .ltu .i32 3 4 5 (.reg 6) false) (holding [(5, 0x7FFFFFFFF), (6, 1)])).me.pred 4 = true := by decide
/-- CALL at 0x1000 to 0x1040: the link register holds 0x1008. -/
theorem test_call : (after (.call {} 63 7) base).me.reg 63 = 0x1008 ∧ (after (.call {} 63 7) base).me.pc = 0x1040 := by decide
/-- R188: the leaf 0x5604D7 of a page of 64 KiB. -/
theorem test_leaf : (leafEntry 0x5604D7 1 0 0x12340000).map (fun e => (e.page, e.lg, e.frame)) = some (0x12340000, 16, 0x560000) := by decide
/-- R358: 1.2 GHz is step 12, and island 147 the matrix island of cluster 9 of die 2. -/
theorem test_island : fieldAt 0x93000C 16 9 = 147 ∧ fieldAt 0x93000C 0 5 = 12 ∧ ofIsland 147 = 2 * 32 + 9 := by decide
/-- An addition that wraps, and one of 32 bits that is sign-extended. -/
theorem test_add_wraps : result (.add {} .i64 5 6 7) 5 [(6, 2 ^ 64 - 1), (7, 2)] = 1 ∧ result (.add {} .i32 5 6 7) 5 [(6, 0x7FFFFFFF), (7, 1)] = 0xFFFFFFFF80000000 := by decide

end Sys2Proof.Tests
end

section
/-! PROOFS. What the scalar instructions share: an instruction that computes one register writes its result in the terms of the
statements, and the model's write of a predicate is the statements' one. -/

namespace Sys2Proof.Machine

open Claims

/-- On a context free to issue, an instruction that computes `v` from plain sources writes `v` to its target, retires, and changes
nothing else (R126, R131). -/
theorem issueAlu_put {s : State} {h : Hdr} {srcs : List Reg} {d : Reg} {g : (Nat → Word) → Word} {v : Word} (hr : Ready s h)
    (hs : ∀ r ∈ srcs, Plain s r) (hd : Target s d) (hv : g (fun i => ((srcs.map s.me.reg)[i]?).getD 0) = v) :
    issueAlu h srcs d g s = .next (done s (put s.me d v)) := by
  rw [issueAlu_ready g hr hs hd.1, hv, Ctx.setReg_quiet hd.2, put]

theorem issueAlu_put_one {s : State} {h : Hdr} {d a : Reg} {g : (Nat → Word) → Word} {v : Word} (hr : Ready s h)
    (hd : Target s d) (ha : Plain s a) (hv : g (fun i => (([a].map s.me.reg)[i]?).getD 0) = v) :
    issueAlu h [a] d g s = .next (done s (put s.me d v)) :=
  issueAlu_put hr (by simpa using ha) hd hv

theorem issueAlu_put_two {s : State} {h : Hdr} {d a b : Reg} {g : (Nat → Word) → Word} {v : Word} (hr : Ready s h)
    (hd : Target s d) (ha : Plain s a) (hb : Plain s b) (hv : g (fun i => (([a, b].map s.me.reg)[i]?).getD 0) = v) :
    issueAlu h [a, b] d g s = .next (done s (put s.me d v)) :=
  issueAlu_put hr (by simpa using ⟨ha, hb⟩) hd hv

/-- Bits cleared and then set are set. -/
theorem and_not_or_self {w : Nat} (p q : BitVec w) : p &&& ~~~q ||| q = p ||| q := by
  ext i
  simp only [BitVec.getElem_or, BitVec.getElem_and, BitVec.getElem_not]
  cases p[i] <;> cases q[i] <;> rfl

/-- A predicate written (R143). -/
theorem Ctx.setPred_eq_setP (x : Ctx) (n : Pred) (v : Bool) : x.setPred n v = { x with p := setP x.p n v } := by
  unfold Ctx.setPred setP
  split
  · rfl
  · cases v with
    | false => simp
    | true => simp only [if_true, and_not_or_self]

end Sys2Proof.Machine
end

section
/-! PROOFS. DIV and REM (R134): the model's quotient and remainder are integers, narrowed to the width of TY afterwards; at any width
the narrowed ones are those of bit vectors. -/

namespace Sys2Proof.Machine

open Claims

variable {w : Nat}

/-- The quotient of R134. The least value over -1 leaves the signed range as an integer, and the narrowing wraps it back. -/
theorem ofInt_quotient (u : Bool) (x y : BitVec w) :
    BitVec.ofInt w (if y.toNat = 0 then -1 else if u then (x.toNat / y.toNat : Nat) else x.toInt.tdiv y.toInt) = quot u x y := by
  by_cases hy : y = 0
  · simp [quot, hy, BitVec.ofInt_neg, BitVec.neg_one_eq_allOnes]
  · have hn : y.toNat ≠ 0 := fun e => hy (BitVec.eq_of_toNat_eq (by simpa using e))
    rw [if_neg hn, quot, if_neg hy]
    cases u with
    | true => simp only [if_true, BitVec.ofInt_natCast, BitVec.udiv_eq, BitVec.udiv_def]
    | false =>
      apply BitVec.eq_of_toInt_eq
      simp [BitVec.toInt_sdiv, BitVec.toInt_ofInt]

/-- The remainder of R134. -/
theorem ofInt_remainder (u : Bool) (x y : BitVec w) :
    BitVec.ofInt w (if y.toNat = 0 then x.toNat else if u then (x.toNat % y.toNat : Nat) else x.toInt.tmod y.toInt) = rest u x y := by
  by_cases hy : y = 0
  · simp [rest, hy]
  · have hn : y.toNat ≠ 0 := fun e => hy (BitVec.eq_of_toNat_eq (by simpa using e))
    rw [if_neg hn, rest, if_neg hy]
    cases u with
    | true => simp only [if_true, BitVec.ofInt_natCast, BitVec.umod_eq, BitVec.umod_def]
    | false => simp [← BitVec.toInt_srem]

theorem res_divRes (u : Bool) (ty : IntTy) (a b : Word) : ty.res (divRes u ty a b) = onTy ty (quot u a b) (quot u (lo a) (lo b)) := by
  cases ty with
  | i64 => simp only [divRes, intTy_u_i64, intTy_s_i64, intTy_res_i64, ofInt_quotient, onTy]
  | i32 => simp only [divRes, intTy_u_i32, intTy_s_i32, intTy_res_i32, ofInt_quotient, onTy, lo]

theorem res_remRes (u : Bool) (ty : IntTy) (a b : Word) : ty.res (remRes u ty a b) = onTy ty (rest u a b) (rest u (lo a) (lo b)) := by
  cases ty with
  | i64 => simp only [remRes, intTy_u_i64, intTy_s_i64, intTy_res_i64, ofInt_remainder, onTy]
  | i32 => simp only [remRes, intTy_u_i32, intTy_s_i32, intTy_res_i32, ofInt_remainder, onTy, lo]

/-- Settles O1: both instructions compute one register, whose value is the quotient or remainder at the width of TY. -/
theorem divisionTruncatesAndNeverTraps : Obligations.DivisionTruncatesAndNeverTraps := by
  intro s h u ty d a b hr hd ha hb
  exact ⟨issueAlu_put_two hr hd ha hb (res_divRes u ty _ _), issueAlu_put_two hr hd ha hb (res_remRes u ty _ _)⟩

end Sys2Proof.Machine
end

section
/-! PROOFS. The shifts (R133, R138). -/

namespace Sys2Proof.Machine

open Claims

/-! ### Shifts as products and quotients by a power of two -/

section

variable {w : Nat}

theorem ofInt_mul_two_pow (x : BitVec w) (m : Nat) : BitVec.ofInt w (x.toNat * 2 ^ m : Nat) = x <<< m := by
  apply BitVec.eq_of_toNat_eq
  rw [BitVec.ofInt_natCast, BitVec.toNat_ofNat, BitVec.toNat_shiftLeft, Nat.shiftLeft_eq]

theorem ofInt_div_two_pow (x : BitVec w) (m : Nat) : BitVec.ofInt w (x.toNat / 2 ^ m : Nat) = x >>> m := by
  rw [BitVec.ofInt_natCast, ← Nat.shiftRight_eq_div_pow, ← BitVec.toNat_ushiftRight, BitVec.ofNat_toNat, BitVec.setWidth_eq]

theorem ofInt_toInt_div_two_pow (x : BitVec w) (m : Nat) : BitVec.ofInt w (x.toInt / 2 ^ m) = x.sshiftRight m := by
  rw [BitVec.sshiftRight_eq, Int.shiftRight_eq_div_pow, Nat.cast_pow, Nat.cast_ofNat]

end

/-! ### Results at the width of TY -/

theorem res_shlRes (ty : IntTy) (a b : Word) :
    ty.res (shlRes ty a b) = onTy ty (a <<< (b.toNat % 64)) (lo a <<< (b.toNat % 64)) := by
  cases ty with
  | i64 => simp only [shlRes, intTy_u_i64, intTy_res_i64, ofInt_mul_two_pow, onTy]
  | i32 => simp only [shlRes, intTy_u_i32, intTy_res_i32, ofInt_mul_two_pow, onTy, lo]

theorem res_shrRes (ty : IntTy) (a b : Word) :
    ty.res (shrRes ty a b) = onTy ty (a >>> (b.toNat % 64)) (lo a >>> (b.toNat % 64)) := by
  cases ty with
  | i64 => simp only [shrRes, intTy_u_i64, intTy_res_i64, ofInt_div_two_pow, onTy]
  | i32 => simp only [shrRes, intTy_u_i32, intTy_res_i32, ofInt_div_two_pow, onTy, lo]

theorem res_sarRes (ty : IntTy) (a b : Word) :
    ty.res (sarRes ty a b) = onTy ty (a.sshiftRight (b.toNat % 64)) ((lo a).sshiftRight (b.toNat % 64)) := by
  cases ty with
  | i64 => simp only [sarRes, intTy_s_i64, intTy_res_i64, ofInt_toInt_div_two_pow, onTy]
  | i32 => simp only [sarRes, intTy_s_i32, intTy_res_i32, ofInt_toInt_div_two_pow, onTy, lo]

theorem shifts_write_their_result : Claims.Shifts := by
  intro s h ty d a b n hr hd ha hb
  exact ⟨issueAlu_put_two hr hd ha hb (res_shlRes ty _ _), issueAlu_put_two hr hd ha hb (res_shrRes ty _ _),
    issueAlu_put_two hr hd ha hb (res_sarRes ty _ _), issueAlu_put_one hr hd ha rfl, issueAlu_put_one hr hd ha rfl,
    issueAlu_put_one hr hd ha rfl, issueAlu_put_one hr hd ha rfl⟩

end Sys2Proof.Machine
end

section
/-! PROOFS. The bit fields (R135) and the mixer (R136): the model computes a field on numbers, the statements on words. -/

namespace Sys2Proof.Machine

open Claims

/-! ### The descriptor -/

/-- A field of a word as a number is the word shifted down and masked. -/
theorem bits_eq_shiftRight_and (d : Word) (k n : Nat) (hn : n ≤ 64) :
    bits d.toNat k n = ((d >>> k) &&& BitVec.ofNat 64 (2 ^ n - 1)).toNat := by
  have hlt : 2 ^ n - 1 < 2 ^ 64 := (Nat.sub_lt (by positivity) one_pos).trans_le (Nat.pow_le_pow_right two_pos hn)
  rw [BitVec.toNat_and, BitVec.toNat_ofNat, Nat.mod_eq_of_lt hlt, Nat.and_two_pow_sub_one_eq_mod, BitVec.toNat_ushiftRight,
    Nat.shiftRight_eq_div_pow, bits]

theorem bits_pos_eq_fieldPos (d : Word) : bits d.toNat 0 6 = fieldPos d := by
  simpa [fieldPos] using bits_eq_shiftRight_and d 0 6 (by decide)

theorem bfLen_eq_fieldLen (d : Word) : bfLen d.toNat = fieldLen d := by
  have h := bits_eq_shiftRight_and d 8 7 (by decide)
  rw [bfLen, fieldLen, bits_pos_eq_fieldPos, h]
  norm_num

theorem fieldPos_lt (d : Word) : fieldPos d < 64 := by
  rw [← bits_pos_eq_fieldPos]
  exact Nat.mod_lt _ (by decide)

theorem fieldPos_add_fieldLen_le (d : Word) : fieldPos d + fieldLen d ≤ 64 := by
  have := fieldPos_lt d
  unfold fieldLen
  omega

/-! ### BFX -/

/-- A signed field: its top bit moved to bit 63, and back by an arithmetic shift. -/
theorem signExtend_extractLsb' (a : Word) {p l : Nat} (hl : 0 < l) (h : p + l ≤ 64) :
    (a.extractLsb' p l).signExtend 64 = (a <<< (64 - p - l)).sshiftRight (64 - l) := by
  apply BitVec.eq_of_getLsbD_eq
  intro i hi
  simp only [BitVec.getLsbD_signExtend, BitVec.getLsbD_sshiftRight, BitVec.msb_eq_getLsbD_last, BitVec.getLsbD_extractLsb', BitVec.getLsbD_shiftLeft]
  rcases Nat.lt_or_ge i l with hb | hb
  · simp [hi, hb, show 64 - l + i < 64 by omega, show ¬ 64 - l + i < 64 - p - l by omega, show 64 - l + i - (64 - p - l) = p + i by omega]
  · simp [hi, hl, show ¬ i < l by omega, show ¬ 64 - l + i < 64 by omega, show ¬ 63 < 64 - p - l by omega,
      show 63 - (64 - p - l) = p + (l - 1) by omega]

theorem ofNat_bits (a : Word) (p l : Nat) : BitVec.ofNat l (bits a.toNat p l) = a.extractLsb' p l := by
  apply BitVec.eq_of_toNat_eq
  simp only [BitVec.toNat_ofNat, BitVec.extractLsb'_toNat, bits, Nat.shiftRight_eq_div_pow, Nat.mod_mod]

theorem bfx_eq_field (sg : Bool) (a d : Word) : bfx sg a.toNat d.toNat = field sg a d := by
  have hle := fieldPos_add_fieldLen_le d
  unfold bfx field
  simp only [bfLen_eq_fieldLen, bits_pos_eq_fieldPos]
  split
  · rfl
  · next hl =>
    have hpos := Nat.pos_of_ne_zero hl
    cases sg with
    | true =>
      simp only [if_true, sext_toInt _ hpos, ofNat_bits]
      exact signExtend_extractLsb' a hpos hle
    | false =>
      simp only [Bool.false_eq_true, if_false, bits_eq_shiftRight_and a _ _ (by omega : fieldLen d ≤ 64), fieldMask,
        BitVec.ofNat_toNat, BitVec.setWidth_eq]

/-! ### BFI -/

/-- The three parts of an insertion share no bit, so their sum is their union. -/
theorem mod_add_mod_add_div_eq_or (a b p l : Nat) :
    a % 2 ^ p + b % 2 ^ l * 2 ^ p + a / 2 ^ (p + l) * 2 ^ (p + l) =
      (a >>> (p + l)) <<< (p + l) ||| (b % 2 ^ l) <<< p ||| a % 2 ^ p := by
  have h1 : a % 2 ^ p < 2 ^ p := Nat.mod_lt _ (by positivity)
  have h2 : (b % 2 ^ l) <<< p + a % 2 ^ p < 2 ^ (p + l) := by
    have : b % 2 ^ l + 1 ≤ 2 ^ l := Nat.mod_lt _ (by positivity)
    have := Nat.mul_le_mul_right (2 ^ p) this
    rw [Nat.shiftLeft_eq, pow_add, mul_comm (2 ^ p)]
    linarith
  rw [Nat.or_assoc, ← Nat.shiftLeft_add_eq_or_of_lt h1, ← Nat.shiftLeft_add_eq_or_of_lt h2, Nat.shiftRight_eq_div_pow,
    Nat.shiftLeft_eq, Nat.shiftLeft_eq]
  ring

theorem getLsbD_fieldMask (d : Word) (i : Nat) : (fieldMask d).getLsbD i = decide (i < fieldLen d) := by
  have := fieldPos_add_fieldLen_le d
  rw [fieldMask, BitVec.getLsbD_ofNat, Nat.testBit_two_pow_sub_one, Bool.and_eq_right_iff_imp, decide_eq_true_eq, decide_eq_true_eq]
  omega

/-- Bit by bit: below the field, in it, and above it. -/
theorem bfi_eq_insertField (a b d : Word) : bfi a.toNat b.toNat d.toNat = insertField a b d := by
  apply BitVec.eq_of_getLsbD_eq
  intro i hi
  simp only [bfi, bfLen_eq_fieldLen, bits_pos_eq_fieldPos, mod_add_mod_add_div_eq_or, insertField, BitVec.getLsbD_ofNat, BitVec.getLsbD_or,
    BitVec.getLsbD_and, BitVec.getLsbD_not, BitVec.getLsbD_shiftLeft, getLsbD_fieldMask, Nat.testBit_or, Nat.testBit_shiftLeft,
    Nat.testBit_shiftRight, Nat.testBit_mod_two_pow, BitVec.testBit_toNat, hi]
  rcases Nat.lt_or_ge i (fieldPos d) with hp | hp
  · simp [hp, show ¬ fieldPos d + fieldLen d ≤ i by omega, show ¬ fieldPos d ≤ i by omega]
  · rcases Nat.lt_or_ge i (fieldPos d + fieldLen d) with hl | hl
    · simp [hp, show ¬ i < fieldPos d by omega, show ¬ fieldPos d + fieldLen d ≤ i by omega, show i - fieldPos d < fieldLen d by omega]
    · simp [hl, show ¬ i < fieldPos d by omega, show ¬ i - fieldPos d < fieldLen d by omega]

/-! ### The statement -/

theorem fieldsAndHash_write_their_result : Claims.FieldsAndHash := by
  intro s h sg d a b c hr hd ha hb hc
  refine ⟨issueAlu_put_two hr hd ha hb (bfx_eq_field sg _ _), issueAlu_put hr ?_ hd (bfi_eq_insertField _ _ _),
    issueAlu_put_two hr hd ha hb rfl⟩
  simp [ha, hb, hc]

/-- Settles O2. HASH is the manual's mixer word for word, and SHI shifts the whole register by its immediate. -/
theorem shiftsFieldsAndMixerWriteTheirResult : Obligations.ShiftsFieldsAndMixerWriteTheirResult :=
  ⟨shifts_write_their_result, fieldsAndHash_write_their_result⟩

end Sys2Proof.Machine
end

section
/-! PROOFS. FMIN, FMAX and FCLASS (R140, R142): the parts of a pattern as the model's formats and as the statements name them. -/

namespace Sys2Proof.Machine

open Claims

/-! ### The constants of a format -/

theorem fmt_inf (ty : FloatTy) : ty.fmt.inf = infPat ty := by cases ty <;> rfl
theorem fmt_nan (ty : FloatTy) : ty.fmt.nan = nanPat ty := by cases ty <;> rfl
theorem fmt_sgn (ty : FloatTy) : ty.fmt.sgn = 2 ^ (fw ty - 1) := by cases ty <;> rfl
theorem fmt_quietBit (ty : FloatTy) : ty.fmt.p - 2 = quietBit ty := by cases ty <;> rfl
theorem fmt_leastNormal (ty : FloatTy) : 2 ^ (ty.fmt.p - 1) = leastNormal ty := by cases ty <;> rfl
theorem fw_pos (ty : FloatTy) : 0 < fw ty := by cases ty <;> decide
theorem quietBit_lt (ty : FloatTy) : quietBit ty < fw ty - 1 := by cases ty <;> decide

theorem two_mul_signPlace (ty : FloatTy) : 2 * 2 ^ (fw ty - 1) = 2 ^ fw ty := by
  rw [← pow_succ', Nat.sub_add_cancel (fw_pos ty)]

/-! ### The parts of a pattern -/

theorem fmt_low (ty : FloatTy) (v : Word) : ty.fmt.low v.toNat = pat ty v := by
  rw [Fmt.low, fmt_sgn, two_mul_signPlace, pat]

theorem pat_mod (ty : FloatTy) (v : Word) : pat ty v % 2 ^ (fw ty - 1) = mag ty v :=
  Nat.mod_mod_of_dvd _ (pow_dvd_pow 2 (Nat.sub_le _ 1))

theorem le_pat_iff_neg (ty : FloatTy) (v : Word) : 2 ^ (fw ty - 1) ≤ pat ty v ↔ neg ty v = true := by
  have h := BitVec.msb_eq_decide (v.setWidth (fw ty))
  rw [BitVec.msb_eq_getLsbD_last, BitVec.getLsbD_setWidth, BitVec.toNat_setWidth,
    decide_eq_true (Nat.sub_lt (fw_pos ty) one_pos), Bool.true_and] at h
  rw [neg, h, decide_eq_true_iff, pat]

theorem pat_eq (ty : FloatTy) (v : Word) : pat ty v = mag ty v + signBit ty (neg ty v) := by
  have hlt : pat ty v < 2 * 2 ^ (fw ty - 1) := two_mul_signPlace ty ▸ Nat.mod_lt _ (by positivity)
  have hs := le_pat_iff_neg ty v
  rw [← pat_mod, signBit]
  split
  · next hn =>
    rw [Nat.mod_eq_sub_mod (hs.2 hn), Nat.mod_eq_of_lt (by omega), Nat.sub_add_cancel (hs.2 hn)]
  · next hn =>
    exact (Nat.mod_eq_of_lt (Nat.lt_of_not_le (mt hs.1 hn))).symm

/-! ### The model's operations on patterns -/

theorem fmt_isNan (ty : FloatTy) (v : Word) : ty.fmt.isNan v.toNat = isNaN ty v := by
  rw [Fmt.isNan, fmt_low, fmt_sgn, pat_mod, fmt_inf, isNaN]

theorem fmt_ordKey (ty : FloatTy) (v : Word) : ty.fmt.ordKey v.toNat = place true ty v := by
  simp only [Fmt.ordKey, fmt_low, fmt_sgn, le_pat_iff_neg, place]
  cases hn : neg ty v <;> simp [pat_eq, hn, signBit]

theorem place_lt_zero_iff (ty : FloatTy) (v : Word) : place true ty v < 0 ↔ neg ty v = true := by
  unfold place
  cases neg ty v with
  | false => simp
  | true =>
    simp only [if_true, iff_true]
    omega

/-- The strict order tells -0 from +0, so that equal places are equal patterns, and FMAX may return either. -/
theorem pat_eq_of_place_eq {ty : FloatTy} {a b : Word} (h : place true ty a = place true ty b) : pat ty a = pat ty b := by
  have hn : neg ty a = neg ty b := by rw [Bool.eq_iff_iff, ← place_lt_zero_iff, h, place_lt_zero_iff]
  have hm : mag ty a = mag ty b := by
    unfold place at h
    rw [hn] at h
    split at h <;> omega
  rw [pat_eq, pat_eq, hm, hn]

/-- FMIN and FMAX (R140). The model's FMAX asks whether a is not below b, the statement's whether b is below a. -/
theorem fmt_minmax (mx : Bool) (ty : FloatTy) (a b : Word) : ty.fmt.minmax mx a.toNat b.toNat = extremum mx ty a b := by
  simp only [Fmt.minmax, extremum, fmt_isNan, fmt_low, fmt_nan, fmt_ordKey]
  rcases isNaN ty a with _ | _ <;> rcases isNaN ty b with _ | _
  · cases mx with
    | false => simp
    | true =>
      rcases lt_trichotomy (place true ty a) (place true ty b) with h | h | h
      · simp [h, h.not_gt]
      · simp [h, pat_eq_of_place_eq h]
      · simp [h, h.not_gt]
  · rfl
  · rfl
  · rfl

theorem mag_quiet_iff (ty : FloatTy) (v : Word) : mag ty v / 2 ^ quietBit ty % 2 = 1 ↔ v.getLsbD (quietBit ty) = true := by
  have h : (mag ty v).testBit (quietBit ty) = v.getLsbD (quietBit ty) := by
    rw [mag, Nat.testBit_mod_two_pow, decide_eq_true (quietBit_lt ty), Bool.true_and, BitVec.testBit_toNat]
  rw [← h, Nat.testBit_eq_decide_div_mod_eq, decide_eq_true_iff]

/-- FCLASS (R142). -/
theorem fmt_fclass (ty : FloatTy) (v : Word) : ty.fmt.fclass v.toNat = 2 ^ classBit ty v := by
  simp only [Fmt.fclass, classBit, fmt_low, fmt_sgn, pat_mod, fmt_inf, fmt_quietBit, mag_quiet_iff, fmt_leastNormal, le_pat_iff_neg,
    isNaN, isInf, isZero]
  cases neg ty v <;> simp

/-! ### The statement -/

/-- Settles O5: each instruction computes one register, by patterns. -/
theorem floatMinMaxAndClassByPatterns : Obligations.FloatMinMaxAndClassByPatterns := by
  intro s h ty d a b hr hd ha hb
  exact ⟨issueAlu_put_two hr hd ha hb (congrArg _ (fmt_minmax false ty _ _)),
    issueAlu_put_two hr hd ha hb (congrArg _ (fmt_minmax true ty _ _)), issueAlu_put_one hr hd ha (congrArg _ (fmt_fclass ty _))⟩

end Sys2Proof.Machine
end

section
/-! PROOFS. A false guard (R127). -/

namespace Sys2Proof.Machine

open Claims

/-- Settles O8: every swarm instruction runs in the issue shell, which looks at the wait before the guard, and at the guard before the
counter of SC. -/
theorem falseGuardPerformsNothing : Obligations.FalseGuardPerformsNothing := by
  intro s i h hh hl hp hc hg
  obtain ⟨f, body, he, rfl, hs, hcl⟩ := exec_shell i h hh s
  have hp' : f.sysOnly = true → s.me.sys = true := by rw [hs]; exact hp
  constructor
  · intro hw
    rw [he, issue, issueS_waits body hl hp' hw]
  · intro hw
    rw [he, issue, issueS_off body hl hp' hc hw hg, hcl]
    rcases clears i with _ | ⟨pt, pf⟩
    · rfl
    · simp only [Ctx.setPred_eq_setP]

end Sys2Proof.Machine
end
